-- ==== Sys2Proof/Word.lean ====
section
/-! DEFINITION. The word and time types of the HJ-1616 (spec/00_scope.md section 4.1 and 4.2) and their
plainest arithmetic. -/

namespace Sys2Proof

/-- A window word: 16 bits (00_scope.md section 4.1). -/
abbrev Word := BitVec 16

/-- A value on the timeline: 32 bits, wrapping (00_scope.md section 4.2). -/
abbrev Time := BitVec 32

/-- The low half of a 32-bit value, as ARG0, RES0, TIME_LO and record word 2 carry it. -/
def Time.lo (t : Time) : Word := t.setWidth 16

/-- The high half of a 32-bit value. -/
def Time.hi (t : Time) : Word := (t >>> 16).setWidth 16

/-- A 32-bit value from its two halves. -/
def Time.ofHalves (lo hi : Word) : Time := hi ++ lo

end Sys2Proof
end

