-- ==== Sys2Proof/Syntax.lean ====
section
/-! DEFINITION. The commands of the block: one constructor of `Instr` for each row of
spec/opcode_table.json, with the row's operands. -/

namespace Sys2Proof

/-- One part of the handling of an advance of the timeline, taken whole by its owner. The owners have no
order between them (R4, R19, R61, R128, R146), so TICK carries an order of these as an operand (log 4). -/
inductive Job
  /-- the scheduler takes the entry at the head of the list, if it is due (R26) -/
  | entry
  /-- the interval unit reported as `u` counts the advance (R10, R16) -/
  | count (u : Fin 4)
  /-- the programme store takes the expiry reported as `u` (R59) -/
  | swapPoint (u : Fin 4)
  /-- the run controller reads the next descriptor for the expiry reported as `u` (R71) -/
  | unitLaunch (u : Fin 4)
  /-- the qualifiers take their samples of this timeline value (R109) -/
  | sample
  /-- the qualifiers hand over the next EDGE record (R115) -/
  | edge
  /-- the pattern table takes the next entry of its evaluation (R142) -/
  | patternEntry
  /-- the windows that are no longer live are closed (R118) -/
  | closeWindows
deriving DecidableEq, Repr

/-- The commands of the block, one for each row of spec/opcode_table.json. A write carries the word
written; a row that names one effect of a CTRL or unit CTRL write carries that whole word (log 10). -/
inductive Instr
  /-- RESET: RESET# is driven low (R182). -/
  | reset
  /-- INITIALISATION_END: the 2048th CLK cycle after the release of RESET# (R182). -/
  | initialisationEnd
  /-- TICK: the tick in progress ends (R1, R4). `pins` are the levels on IN0 to IN15, `order` the parts
  of the handling in the order in which they are taken, and `whole` says whether the parts not named are
  taken in the same step or are left to later commands (log 4). -/
  | tick (pins : Word) (order : List Job) (whole : Bool)
  /-- IU_EXPIRY: the unit reported as `u` takes the advance and delivers its expiry (R19). -/
  | iuExpiry (u : Fin 4)
  /-- ENTRY_DUE: the scheduler takes every entry due at the timeline value (R26). -/
  | entryDue
  /-- WINDOW_CLOSE: the OPEN windows that are not live become CLOSED (R118). -/
  | windowClose
  | tickdiv (w : Word)
  /-- TBRUN: a CTRL write (R3, R180). -/
  | tbrun (w : Word)
  /-- OUTEN_ON: a CTRL write with OUTEN = 1 (R102, R180). -/
  | outenOn (w : Word)
  /-- OUTEN_OFF: a CTRL write with OUTEN = 0 (R101, R180). -/
  | outenOff (w : Word)
  /-- CLEAR: a CTRL write with CLEAR = 1 (R180, R183). -/
  | clear (w : Word)
  | timeLo
  | timeHi
  /-- RUN: a write of the CTRL word of unit `u` (R11). -/
  | run (u : Fin 4) (w : Word)
  /-- PRESET: a write of the CTRL word of unit `u` with PRESET = 1 (R12). -/
  | preset (u : Fin 4) (w : Word)
  /-- PRESCALE: a write of the CTRL word of unit `u` (R12). -/
  | prescale (u : Fin 4) (w : Word)
  | reload (u : Fin 4) (w : Word)
  | iuPair (w : Word)
  /-- COUNT_READ: a read of the COUNT word of unit `u` (R12, R17, R18). -/
  | countRead (u : Fin 4)
  | lateCount (w : Word)
  | storeDataRead
  | storeDataWrite (w : Word)
  | armSet (w : Word)
  | armClr (w : Word)
  | outMode (w : Word)
  | outPol (w : Word)
  | outIdle (w : Word)
  /-- OUT_BSET: a write of OUT_BSET_LO (`hi` false) or OUT_BSET_HI (`hi` true) (R96). -/
  | outBset (hi : Bool) (w : Word)
  | outSet (w : Word)
  | outClr (w : Word)
  | outToggle (w : Word)
  | lineCfg (n : Fin 16) (w : Word)
  /-- BLANK_LEN: a write of BLANK_LEN1 to BLANK_LEN3 (`k` = 0 to 2) (R116). -/
  | blankLen (k : Fin 3) (w : Word)
  | capr0
  | capWmark (w : Word)
  /-- MASK_VALUE: a write of MASK (`value` false) or VALUE (`value` true) of entry `k` (R140). -/
  | maskValue (k : Fin 8) (value : Bool) (w : Word)
  | pctrl (k : Fin 8) (w : Word)
  /-- CMD: a write of the CMD word (R153, R154). -/
  | cmd (w : Word)
  /-- SCHEDULE to UNKNOWN_COMMAND: the completion of the command in flight (R155); the arguments are
  the copies it holds (R153). -/
  | schedule
  | cancel
  | launch
  | abort
  | abortAll
  | swapNow
  | atUnit
  | withdraw
  | queryRun
  | peekList
  | loadTime
  | flushQueue
  | unknownCommand
  | evFlags (w : Word)
  | evEnable (w : Word)
  /-- EV_LEVEL: a write of EV_LEVEL_LO (`hi` false) or EV_LEVEL_HI (`hi` true) (R172). -/
  | evLevel (hi : Bool) (w : Word)
  | evThresh (w : Word)
  /-- REGISTER_WRITE: a write of the window word at `a` (R178). -/
  | registerWrite (a : BitVec 7) (w : Word)
  /-- RESET_RELEASE: RESET# goes high (R182). -/
  | resetRelease
deriving DecidableEq, Repr

end Sys2Proof
end

