-- ==== Sys2Proof/Decode.lean ====
section
/-! DEFINITION. The decoder over the rows of spec/opcode_table.json that give bits. No row gives any
("fields": [] in all 57), so no word spells a command (log 27). -/

namespace Sys2Proof

/-- The command that the word `w` of `nbits` bits spells: none, as no row of the table has bits. -/
def decodeTableWord (_nbits _w : Nat) : Option Instr := none

end Sys2Proof
end

