-- ==== Sys2Proof/Machine/Bits.lean ====
section
/-! DEFINITION. Bit fields of words and fixed-length vectors: the helpers every family uses. -/

namespace Sys2Proof.Machine

/-- The bit at position `i`, as the layout tables of chapter 11 number bits. -/
def bit {n : Nat} (w : BitVec n) (i : Nat) : Bool := w.getLsbD i

/-- The field of `len` bits whose lowest bit is at position `lo`. -/
def field {n : Nat} (w : BitVec n) (lo len : Nat) : BitVec len := w.extractLsb' lo len

/-- A field placed in a word of zeros with its lowest bit at position `lo`. -/
def place {n : Nat} (v : BitVec n) (lo : Nat) : Word := (v.setWidth 16) <<< lo

/-- A flag placed in a word of zeros at position `i`. -/
def placeBit (b : Bool) (i : Nat) : Word := place (BitVec.ofBool b) i

/-- A mask word with bit `i` set where `f i` holds (00_scope.md section 4.3: line n, programme p and
class c are bit n, p and c). -/
def maskOf {n : Nat} (f : Fin n → Bool) : Word :=
  (List.finRange n).foldl (fun w i => w ||| placeBit (f i) i.val) 0

/-- The vector with `f i` at place `i`. -/
def tabulate {α : Type} {n : Nat} (f : Fin n → α) : Vector α n :=
  ⟨⟨(List.finRange n).map f⟩, by simp⟩

/-- A saturating count (00_scope.md section 4.3): it stops at its largest value. -/
def satInc {n : Nat} (w : BitVec n) : BitVec n := if w = BitVec.allOnes n then w else w + 1

/-- A 2-bit code as an index of four. -/
def fin4 (v : BitVec 2) : Fin 4 := v.toFin

/-- A 3-bit code as an index of eight. -/
def fin8 (v : BitVec 3) : Fin 8 := v.toFin

end Sys2Proof.Machine
end

