-- ==== Sys2Proof/Machine/State.lean ====
section
/-! DEFINITION. The state of the HJ-1616, block by block as 00_scope.md section 2 lists them, as plain
data, and its value after reset (R9, R20, R43, R64, R90, R105, R121, R137, R150, R169, R176, R182). -/

namespace Sys2Proof.Machine

/-! ### Timebase and interval units (chapter 1) -/

/-- The timebase (R1 to R9). -/
structure Timebase where
  /-- TL, the timeline. -/
  tl : Time
  /-- TICKDIV, the division less one. -/
  tickdiv : BitVec 8
  tbrun : Bool
  /-- CLK cycles that have passed in the tick in progress. -/
  divider : Nat
  /-- Tick length in progress, 1 to 256 CLK cycles. -/
  tickLen : Nat
  /-- Time snapshot: the high half held while it is valid. -/
  snapshot : Option Word
deriving DecidableEq, Repr

inductive UnitMode | oneShot | continuous
deriving DecidableEq, Repr

/-- One interval unit (R10 to R14). -/
structure IntervalUnit where
  c : Word
  r : Word
  /-- Prescale code: 0 for 1, 1 for 4, 2 for 16, 3 for 64 ticks. -/
  prescale : BitVec 2
  phase : Nat
  mode : UnitMode
  running : Bool
  /-- The advance that produced TL is still to be counted (R11, R12, R14; the model's own, log 4). -/
  owes : Bool
deriving DecidableEq, Repr

/-- The cascade flag and the pair snapshot of a pair (R15, R17). -/
structure UnitPair where
  cascade : Bool
  snapshot : Option Word
deriving DecidableEq, Repr

structure Units where
  units : Vector IntervalUnit 4
  pairs : Vector UnitPair 2
deriving DecidableEq, Repr

/-! ### Scheduler (chapter 2) -/

/-- The origin of an entry with the part that depends on it: RUN(p) with its step index, or DIRECT with
its tag (R21). -/
inductive Origin
  | run (p : Fin 8) (step : BitVec 7)
  | direct (tag : BitVec 8)
deriving DecidableEq, Repr

/-- An entry of the Pending Edge List (R21). Kind and operand are kept as stored, invalid ones
included. -/
structure Entry where
  due : Time
  origin : Origin
  kind : BitVec 4
  operand : BitVec 4
  mark : Bool
deriving DecidableEq, Repr

structure Scheduler where
  /-- The Pending Edge List, head first. -/
  pel : List Entry
  lateCount : Word
deriving DecidableEq, Repr

/-! ### Programme store (chapter 3) -/

inductive Page | a | b
deriving DecidableEq, Repr

/-- The contents of a page: the words that are not 0, by rising word address (R44, R64). -/
abbrev PageMem := List (Nat × Word)

structure Store where
  pageA : PageMem
  pageB : PageMem
  active : Page
  boundA : Nat
  boundB : Nat
  /-- The unit of a pending AT_UNIT swap. -/
  swap : Option (Fin 4)
  addrPage : Page
  addr : BitVec 9
deriving DecidableEq, Repr

/-! ### Run controller (chapter 4) -/

/-- What a slot holds while it is RUNNING (R65). -/
structure Run where
  page : Page
  step : BitVec 7
  /-- Remaining passes, 0 for forever. -/
  passes : BitVec 8
  launchTime : Time
  applied : Word
  launchPending : Bool
deriving DecidableEq, Repr

/-- A run slot (R65): IDLE when `run` is none. -/
structure Slot where
  run : Option Run
  /-- Same-due time S and count K (R78). -/
  dueTime : Time
  dueCount : Nat
  armed : Bool
  ignored : BitVec 8
  /-- The number of binds made in the slot, which tells one run of the slot from another (R65, R79;
  the model's own, log 13). -/
  bindId : Nat
deriving DecidableEq, Repr

/-! ### Output stage (chapter 5) -/

inductive ForceMode | follow | freeze | allIdle | allActive
deriving DecidableEq, Repr

structure Outputs where
  logic : Word
  pol : Word
  idle : Word
  frozen : Word
  /-- Blanking-set assignment, two bits per line: OUT_BSET_HI above OUT_BSET_LO. -/
  bset : BitVec 32
  /-- Force modes of octet 0 and octet 1. -/
  mode0 : ForceMode
  mode1 : ForceMode
  outen : Bool
deriving DecidableEq, Repr

/-! ### Input qualifiers (chapter 6) -/

inductive SampleSource | none | tick | unit (u : Fin 4)
deriving DecidableEq, Repr

inductive EdgeMode | off | rise | fall | both
deriving DecidableEq, Repr

/-- Configuration and state of one input line's qualifier. -/
structure Line where
  source : SampleSource
  /-- Qualify count less one, as stored. -/
  qualify : BitVec 4
  edgeMode : EdgeMode
  /-- Blanking set, 0 for none. -/
  bset : BitVec 2
  raw : Bool
  stable : Bool
  /-- Candidate count and candidate start time. -/
  count : Nat
  start : Time
  lastEdge : Option Time
  /-- Initialising sample awaited. -/
  awaiting : Bool
deriving DecidableEq, Repr

/-- An OPEN window: its opening time R and blank-until time B (R117). -/
structure Window where
  opened : Time
  until_ : Time
deriving DecidableEq, Repr

structure Inputs where
  lines : Vector Line 16
  lens : Vector (BitVec 8) 3
  /-- The windows of sets 1 to 3; none is CLOSED. -/
  windows : Vector (Option Window) 3
deriving DecidableEq, Repr

/-! ### Capture queue (chapter 7) -/

inductive EndReason | complete | aborted | abortedByStep
deriving DecidableEq, Repr

inductive FaultReason | badDescriptor | badStep | zeroLoop
deriving DecidableEq, Repr

/-- What a producer hands over (R124). -/
inductive Happening
  /-- `delta` is none when delta-absent is set. -/
  | edge (line : Fin 16) (rise : Bool) (delta : Option Word) (time : Time)
  | pattern (entry : Fin 8) (vector : Word) (time : Time)
  | mark (origin : Origin) (late : Bool) (time : Time)
  | runEnd (p : Fin 8) (reason : EndReason) (applied : Word) (time : Time)
  | fault (p : Fin 8) (reason : FaultReason) (step : BitVec 7) (time : Time)
deriving DecidableEq, Repr

/-- A stored record: the producer's part and what the queue adds (R125, R126). -/
structure Record where
  body : Happening
  seq : BitVec 8
  gap : BitVec 8
  gapSat : Bool
deriving DecidableEq, Repr

structure Capture where
  /-- Stored records, oldest first. -/
  queue : List Record
  seq : BitVec 8
  lost : Word
  /-- The holding record while it is valid. -/
  holding : Option Record
  wmark : BitVec 8
deriving DecidableEq, Repr

/-! ### Pattern table (chapter 8) -/

/-- One match entry. -/
structure PatternEntry where
  mask : Word
  value : Word
  enable : Bool
  /-- TRIGGER: set for CHANGE, clear for ENTER. -/
  change : Bool
  /-- DIVIDE: the divide count less one, as stored. -/
  divide : BitVec 4
  record : Bool
  launch : Bool
  prog : Fin 8
  event : Bool
  /-- Divide counter, 0 to D - 1. -/
  counter : Nat
  matched : Bool
deriving DecidableEq, Repr

structure Patterns where
  entries : Vector PatternEntry 8
  held : Word
deriving DecidableEq, Repr

/-! ### Command block (chapter 9), event unit (chapter 10), port (chapter 11) -/

/-- A command in flight: its code and its copies of ARG0 to ARG3 (R153). -/
structure InFlight where
  code : Word
  args : Vector Word 4
deriving DecidableEq, Repr

structure CommandBlock where
  args : Vector Word 4
  lastCode : Word
  inflight : Option InFlight
  result : BitVec 5
  reject : Bool
  res : Vector Word 4
deriving DecidableEq, Repr

structure EventUnit where
  flags : Word
  enable : Word
  levelLo : Word
  levelHi : Word
  thresh : BitVec 2
deriving DecidableEq, Repr

/-- RESET# low; the initialisation after its release (READY = 0); READY = 1 (R181, R182). -/
inductive Phase | resetLow | initialising | ready
deriving DecidableEq, Repr

structure Port where
  phase : Phase
  /-- CLK cycles of the initialisation that have passed. -/
  initClk : Nat
  portErr : Word
  /-- What D0 to D15 carried in the last read: none when not driven (R178, R182; log 12). -/
  dataOut : Option Word
  /-- The levels on IN0 to IN15. -/
  inPins : Word
deriving DecidableEq, Repr

/-! ### The advance in progress (the model's own, log 4) -/

/-- An expiry of this timeline value on its way to its consumers (R19): whether the store has taken it,
the page the run controller reads (fixed by the swap at a swap point, R60, or else when the run controller takes the
expiry, R71), the programmes still to be read. -/
structure Expiry where
  stored : Bool
  page : Option Page
  left : List (Fin 8)
deriving DecidableEq, Repr

/-- An evaluation of the pattern table in progress: its vector and the entries still to be taken (R142). -/
structure Evaluation where
  vector : Word
  left : List (Fin 8)
deriving DecidableEq, Repr

/-- The parts of the handling of the advance to TL that their owners have not yet taken. The entries
still due are those of the list itself, and the units' part is in `IntervalUnit.owes`. -/
structure Advance where
  /-- The units reported as expired at TL: the sample points of sources IU0 to IU3 (R109). -/
  expired : Vector Bool 4
  expiry : Vector (Option Expiry) 4
  sampleDue : Bool
  /-- EDGE records still to be handed over (R115). -/
  edges : List Happening
  eval : Option Evaluation
  closeDue : Bool
  /-- The scheduler has taken an entry of this advance. -/
  schedBegun : Bool
deriving DecidableEq, Repr

/-! ### The whole machine -/

/-- The state of the part, and the queue of the commands that are waiting. -/
structure State where
  tb : Timebase
  iu : Units
  sched : Scheduler
  store : Store
  slots : Vector Slot 8
  out : Outputs
  inp : Inputs
  cap : Capture
  pat : Patterns
  cmd : CommandBlock
  ev : EventUnit
  port : Port
  adv : Advance
  /-- How many times a free value of Config has been used (log 7). -/
  freeCount : Nat
  /-- The commands that are waiting, first in, first out. -/
  pending : List Instr
deriving DecidableEq, Repr

/-- The part never stops with a fault: every command of the table has an effect in every state. -/
inductive Fault
deriving DecidableEq, Repr

/-- Why a command has no meaning. -/
inductive Refusal
  /-- Raised by no arm of `exec` now: every command has its meaning. It would be safe, as it stops. -/
  | notModelled (mnemonic : String)
deriving DecidableEq, Repr

/-! ### Reset values -/

/-- R9; the tick length in progress is TICKDIV + 1 (DESIGN CHOICE, log 2). -/
def Timebase.reset : Timebase :=
  { tl := 0, tickdiv := 0, tbrun := false, divider := 0, tickLen := 1, snapshot := none }

/-- R20. -/
def Units.reset : Units :=
  { units := Vector.replicate 4
      { c := 0, r := 0, prescale := 0, phase := 0, mode := .oneShot, running := false, owes := false }
    pairs := Vector.replicate 2 { cascade := false, snapshot := none } }

/-- R43. -/
def Scheduler.reset : Scheduler := { pel := [], lateCount := 0 }

/-- R64. -/
def Store.reset : Store :=
  { pageA := [], pageB := [], active := .a, boundA := 0, boundB := 0, swap := none, addrPage := .a,
    addr := 0 }

/-- R90. -/
def Slot.reset : Slot :=
  { run := none, dueTime := 0, dueCount := 0, armed := false, ignored := 0, bindId := 0 }

/-- R105. -/
def Outputs.reset : Outputs :=
  { logic := 0, pol := 0, idle := 0, frozen := 0, bset := 0, mode0 := .follow, mode1 := .follow,
    outen := false }

/-- R121. -/
def Inputs.reset : Inputs :=
  { lines := Vector.replicate 16
      { source := .none, qualify := 0, edgeMode := .off, bset := 0, raw := false, stable := false,
        count := 0, start := 0, lastEdge := none, awaiting := true }
    lens := Vector.replicate 3 0
    windows := Vector.replicate 3 none }

/-- R137. -/
def Capture.reset : Capture := { queue := [], seq := 0, lost := 0, holding := none, wmark := 1 }

/-- R150: every entry matches the held vector 0 with mask 0 and value 0. -/
def Patterns.reset : Patterns :=
  { entries := Vector.replicate 8
      { mask := 0, value := 0, enable := false, change := false, divide := 0, record := false,
        launch := false, prog := 0, event := false, counter := 0, matched := true }
    held := 0 }

/-- R152, R169. -/
def CommandBlock.reset : CommandBlock :=
  { args := Vector.replicate 4 0, lastCode := 0, inflight := none, result := 0, reject := false,
    res := Vector.replicate 4 0 }

/-- R176. -/
def EventUnit.reset : EventUnit := { flags := 0, enable := 0, levelLo := 0, levelHi := 0, thresh := 0 }

/-- No advance is in progress (log 4). -/
def Advance.none : Advance :=
  { expired := Vector.replicate 4 false, expiry := Vector.replicate 4 Option.none, sampleDue := false,
    edges := [], eval := Option.none, closeDue := false, schedBegun := false }

/-- The machine at the end of the initialisation that follows RESET# (R182), with READY = 1, which is
where a program of commands starts (log 1). -/
def State.reset : State :=
  { tb := .reset, iu := .reset, sched := .reset, store := .reset, slots := Vector.replicate 8 .reset,
    out := .reset, inp := .reset, cap := .reset, pat := .reset, cmd := .reset, ev := .reset,
    port := { phase := .ready, initClk := 0, portErr := 0, dataOut := none, inPins := 0 },
    adv := .none, freeCount := 0, pending := [] }

end Sys2Proof.Machine
end

