-- ==== Sys2Proof/Machine/Ops.lean ====
section
/-! DEFINITION. The comparison of times (R5), the fixed quantities (00_scope.md section 4.5), and the
named reads and writes of the parts of State that every family uses. -/

namespace Sys2Proof.Machine

/-! ### Fixed quantities -/

/-- Records of the capture queue (R125). -/
def capDepth : Nat := 128

/-- Places for DIRECT entries (R24). -/
def directMax : Nat := 24

/-- Steps a slot applies at one due time (R78). -/
def sameDueMax : Nat := 32

/-- CLK cycles of the initialisation (R182). -/
def initCycles : Nat := 2048

/-! ### Times (R5) -/

/-- The time `t` is reached at timeline value `n`. -/
def reached (t n : Time) : Bool := decide ((n - t).toNat < 2 ^ 31)

/-- The time `t` is ahead at timeline value `n`: not reached. -/
def ahead (t n : Time) : Bool := !reached t n

/-- The time remaining of `t` at timeline value `n`. -/
def remaining (t n : Time) : Nat := (t - n).toNat

/-! ### Accessors -/

def State.tl (s : State) : Time := s.tb.tl

def State.unit (s : State) (u : Fin 4) : IntervalUnit := s.iu.units[u]

def State.setUnit (s : State) (u : Fin 4) (x : IntervalUnit) : State :=
  { s with iu := { s.iu with units := s.iu.units.set u x } }

def State.slot (s : State) (p : Fin 8) : Slot := s.slots[p]

def State.setSlot (s : State) (p : Fin 8) (x : Slot) : State := { s with slots := s.slots.set p x }

def State.line (s : State) (n : Fin 16) : Line := s.inp.lines[n]

def State.setLine (s : State) (n : Fin 16) (x : Line) : State :=
  { s with inp := { s.inp with lines := s.inp.lines.set n x } }

def State.setWindow (s : State) (k : Fin 3) (x : Option Window) : State :=
  { s with inp := { s.inp with windows := s.inp.windows.set k x } }

def State.entryAt (s : State) (k : Fin 8) : PatternEntry := s.pat.entries[k]

def State.setEntryAt (s : State) (k : Fin 8) (x : PatternEntry) : State :=
  { s with pat := { s.pat with entries := s.pat.entries.set k x } }

def State.setExpiry (s : State) (u : Fin 4) (x : Option Expiry) : State :=
  { s with adv := { s.adv with expiry := s.adv.expiry.set u x } }

def State.setPel (s : State) (l : List Entry) : State := { s with sched := { s.sched with pel := l } }

/-- D0 to D15 carry `w` in a read, or are not driven (R178, R182). -/
def State.drive (s : State) (w : Option Word) : State := { s with port := { s.port with dataOut := w } }

/-- Slot `p` is RUNNING (R65). -/
def State.running (s : State) (p : Fin 8) : Bool := (s.slot p).run.isSome

/-- An access or an event of the part is taken from READY on (R182): before, nothing happens. -/
def State.whenReady (s : State) (f : State → State) : State :=
  if s.port.phase = .ready then f s else s

end Sys2Proof.Machine
end

