-- ==== Sys2Proof/Machine/Flags.lean ====
section
/-! DEFINITION. The event unit: flags, assertion, IRQ# and EV_TOP (chapter 10). -/

namespace Sys2Proof.Machine

/-- The event classes (R170). -/
inductive EventClass
  | capw | capovr | pat | mark | runend | runflt | late | cmddone | cmderr | swap | bankfree
  | iu (u : Fin 4)
  | porterr
deriving DecidableEq, Repr

/-- The number of a class (R170). -/
def EventClass.code : EventClass → Nat
  | .capw => 0 | .capovr => 1 | .pat => 2 | .mark => 3 | .runend => 4 | .runflt => 5 | .late => 6
  | .cmddone => 7 | .cmderr => 8 | .swap => 9 | .bankfree => 10
  | .iu u => 11 + u.val
  | .porterr => 15

/-- A request to set a class: its flag becomes 1, whatever the rest of the unit holds (R170). -/
def State.request (s : State) (c : EventClass) : State :=
  { s with ev := { s.ev with flags := s.ev.flags ||| placeBit true c.code } }

/-- A request made only on a condition. -/
def State.requestIf (s : State) (b : Bool) (c : EventClass) : State := if b then s.request c else s

/-- The level of class `c` (R172; layout of EV_LEVEL_LO and EV_LEVEL_HI). -/
def EventUnit.level (e : EventUnit) (c : Fin 16) : BitVec 2 :=
  if c.val < 8 then field e.levelLo (2 * c.val) 2 else field e.levelHi (2 * (c.val - 8)) 2

/-- Class `c` asserts: flag 1, enable 1, level above the threshold (R173). -/
def EventUnit.asserts (e : EventUnit) (c : Fin 16) : Bool :=
  bit e.flags c.val && bit e.enable c.val && decide (e.thresh < e.level c)

/-- IRQ# is driven low: at least one class asserts (R173). -/
def EventUnit.irqLow (e : EventUnit) : Bool := (List.finRange 16).any e.asserts

/-- The lowest-numbered class that asserts at level `l`. -/
def EventUnit.firstAt (e : EventUnit) (l : BitVec 2) : Option (Fin 16) :=
  (List.finRange 16).find? fun c => e.asserts c && e.level c == l

/-- The most urgent asserting class: the highest level, then the lowest number (R175). -/
def EventUnit.top (e : EventUnit) : Option (BitVec 2 × Fin 16) :=
  ([3, 2, 1] : List (BitVec 2)).findSome? fun l => (e.firstAt l).map fun c => (l, c)

/-- The EV_TOP word (R175; layout 3:0 CLASS, 9:8 LEVEL, 15 ANY). -/
def EventUnit.topWord (e : EventUnit) : Word :=
  match e.top with
  | none => 0
  | some (l, c) => placeBit true 15 ||| place l 8 ||| place (BitVec.ofNat 4 c.val) 0

/-- The IRQ# pin: driven low or not driven; never driven before READY (R176, R182), when no class has a
level. -/
def State.irqLow (s : State) : Bool := s.ev.irqLow

/-- A write of EV_FLAGS clears every flag written as 1 (R171). -/
def State.writeEvFlags (w : Word) (s : State) : State :=
  { s with ev := { s.ev with flags := s.ev.flags &&& ~~~w } }

/-- R172. -/
def State.writeEvEnable (w : Word) (s : State) : State := { s with ev := { s.ev with enable := w } }

/-- R172: classes 0 to 7 (`hi` false) or 8 to 15. -/
def State.writeEvLevel (hi : Bool) (w : Word) (s : State) : State :=
  { s with ev := if hi then { s.ev with levelHi := w } else { s.ev with levelLo := w } }

/-- R172: the low two bits. -/
def State.writeEvThresh (w : Word) (s : State) : State :=
  { s with ev := { s.ev with thresh := field w 0 2 } }

/-! ### Refused writes (R179) -/

/-- The port records a refused write: PORT_ERR takes the reason and the address, and PORTERR is set
(R179; layout 1:0 reason, 14:8 address). -/
def State.refuseWrite (reason : BitVec 2) (addr : BitVec 7) (s : State) : State :=
  { s.request .porterr with
    port := { s.port with portErr := place reason 0 ||| place addr 8 } }

end Sys2Proof.Machine
end

