-- ==== Sys2Proof/Machine/Operands.lean ====
section
/-! DEFINITION. The fields of the words of the window, the programme store and the capture record, read and
written back: the layouts of chapter 11 (sections 11.8 to 11.11). -/

namespace Sys2Proof.Machine

/-! ### Interval units -/

/-- The prescale P in ticks of a PRESCALE code. -/
def prescaleTicks (p : BitVec 2) : Nat := 4 ^ p.toNat

def UnitMode.ofBit (b : Bool) : UnitMode := if b then .continuous else .oneShot

/-- The CTRL word of a unit: RUN 0, MODE 1, PRESCALE 3:2; PRESET reads 0 (R12). -/
def IntervalUnit.ctrlWord (x : IntervalUnit) : Word :=
  placeBit x.running 0 ||| placeBit (x.mode == .continuous) 1 ||| place x.prescale 2

/-! ### Input lines -/

/-- Codes 6 and 7 are stored as NONE (R107). -/
def SampleSource.ofCode (v : BitVec 3) : SampleSource :=
  match v.toNat with
  | 1 => .tick
  | 2 => .unit 0
  | 3 => .unit 1
  | 4 => .unit 2
  | 5 => .unit 3
  | _ => .none

def SampleSource.code : SampleSource → BitVec 3
  | .none => 0
  | .tick => 1
  | .unit u => 2 + BitVec.ofNat 3 u.val

def EdgeMode.ofCode (v : BitVec 2) : EdgeMode :=
  match v.toNat with
  | 0 => .off
  | 1 => .rise
  | 2 => .fall
  | _ => .both

def EdgeMode.code : EdgeMode → BitVec 2
  | .off => 0 | .rise => 1 | .fall => 2 | .both => 3

/-- The LINE_CFGn word: source 2:0, Q - 1 6:3, edge record mode 9:8, blanking set 13:12. -/
def Line.cfgWord (l : Line) : Word :=
  place l.source.code 0 ||| place l.qualify 3 ||| place l.edgeMode.code 8 ||| place l.bset 12

/-! ### Outputs -/

def ForceMode.ofCode (v : BitVec 2) : ForceMode :=
  match v.toNat with
  | 0 => .follow
  | 1 => .freeze
  | 2 => .allIdle
  | _ => .allActive

def ForceMode.code : ForceMode → BitVec 2
  | .follow => 0 | .freeze => 1 | .allIdle => 2 | .allActive => 3

/-! ### Pattern table -/

/-- The PCTRL word, with the divide counter modulo 8 in COUNT and the match state (R141). -/
def PatternEntry.ctrlWord (e : PatternEntry) : Word :=
  placeBit e.enable 0 ||| placeBit e.change 1 ||| place e.divide 2 ||| placeBit e.record 6
    ||| placeBit e.launch 7 ||| place (BitVec.ofNat 3 e.prog.val) 8 ||| placeBit e.event 11
    ||| place (BitVec.ofNat 3 e.counter) 12 ||| placeBit e.matched 15

/-! ### Programme store words -/

/-- The bits of page word `a` that belong to a field (R44 to R46, section 11.10). -/
def storeMask (a : Nat) : Word :=
  if a < 256 then (if a % 2 = 0 then 0xFFFF else 0x80FF)
  else if a % 2 = 0 then 0xFF7F else 0x7FFF

/-- A step record (R45). -/
structure StepRecord where
  delay : Word
  kind : BitVec 4
  operand : BitVec 4
  mark : Bool
deriving DecidableEq, Repr

def StepRecord.ofWords (w0 w1 : Word) : StepRecord :=
  { delay := w0, kind := field w1 0 4, operand := field w1 4 4, mark := bit w1 15 }

/-- A descriptor (R46). -/
structure Descriptor where
  first : BitVec 7
  count : BitVec 8
  repeats : BitVec 8
  policy : BitVec 2
  trigUnit : Fin 4
  trigEnable : Bool
  singleArm : Bool
  reportEnd : Bool
deriving DecidableEq, Repr

def Descriptor.ofWords (w0 w1 : Word) : Descriptor :=
  { first := field w0 0 7, count := field w0 8 8, repeats := field w1 0 8, policy := field w1 8 2,
    trigUnit := fin4 (field w1 10 2), trigEnable := bit w1 12, singleArm := bit w1 13,
    reportEnd := bit w1 14 }

/-- R47. -/
def Descriptor.valid (d : Descriptor) : Bool :=
  decide (1 ≤ d.count.toNat) && decide (d.first.toNat + d.count.toNat ≤ 128) && d.policy != 3

/-- The unit trigger names unit `u` (R46, R71). -/
def Descriptor.triggers (d : Descriptor) (u : Fin 4) : Bool := d.trigEnable && d.trigUnit == u

/-! ### Actions of steps and entries (R28, R45) -/

inductive Action
  | wait
  | set (n : Fin 16)
  | clr (n : Fin 16)
  | toggle (n : Fin 16)
  | launch (q : Fin 8)
  | startUnit (u : Fin 4)
  | stopUnit (u : Fin 4)
  | abort (q : Fin 8)
deriving DecidableEq, Repr

/-- The action of a kind and operand, or none for a bad step: kind 8 to 15, an operand above 7 for
LAUNCH or ABORT, above 3 for START_UNIT or STOP_UNIT (R27, R45, R78). -/
def Action.decode (kind operand : BitVec 4) : Option Action :=
  let q : Option (Fin 8) := if h : operand.toNat < 8 then some ⟨operand.toNat, h⟩ else none
  let u : Option (Fin 4) := if h : operand.toNat < 4 then some ⟨operand.toNat, h⟩ else none
  match kind.toNat with
  | 0 => some .wait
  | 1 => some (.set operand.toFin)
  | 2 => some (.clr operand.toFin)
  | 3 => some (.toggle operand.toFin)
  | 4 => q.map .launch
  | 5 => u.map .startUnit
  | 6 => u.map .stopUnit
  | 7 => q.map .abort
  | _ => none

/-! ### The capture record (section 11.9) -/

def EndReason.code : EndReason → BitVec 2
  | .complete => 0 | .aborted => 1 | .abortedByStep => 2

def FaultReason.code : FaultReason → BitVec 2
  | .badDescriptor => 0 | .badStep => 1 | .zeroLoop => 2

/-- The kind code (R123). -/
def Happening.kind : Happening → BitVec 4
  | .edge .. => 1 | .pattern .. => 2 | .mark .. => 3 | .runEnd .. => 4 | .fault .. => 5

/-- The subject (R124). -/
def Happening.subject : Happening → BitVec 4
  | .edge n _ _ _ => BitVec.ofNat 4 n.val
  | .pattern k _ _ => BitVec.ofNat 4 k.val
  | .mark (.run p _) _ _ => BitVec.ofNat 4 p.val
  | .mark (.direct _) _ _ => 8
  | .runEnd p _ _ _ => BitVec.ofNat 4 p.val
  | .fault p _ _ _ => BitVec.ofNat 4 p.val

/-- The kind flags, bits 9:8 of word 0 (R124). -/
def Happening.flags : Happening → BitVec 2
  | .edge _ rise delta _ => BitVec.ofBool delta.isNone ++ BitVec.ofBool rise
  | .pattern .. => 0
  | .mark _ late _ => (BitVec.ofBool late).setWidth 2
  | .runEnd _ r _ _ => r.code
  | .fault _ r _ _ => r.code

def Happening.time : Happening → Time
  | .edge _ _ _ t => t
  | .pattern _ _ t => t
  | .mark _ _ t => t
  | .runEnd _ _ _ t => t
  | .fault _ _ _ t => t

/-- The kind-specific word (R124). -/
def Happening.word : Happening → Word
  | .edge _ _ delta _ => delta.getD 0
  | .pattern _ v _ => v
  | .mark (.run _ i) _ _ => i.setWidth 16
  | .mark (.direct t) _ _ => t.setWidth 16
  | .runEnd _ _ n _ => n
  | .fault _ _ i _ => i.setWidth 16

/-- Words 0 to 4 of a stored record (R123). -/
def Record.word (r : Record) (i : Fin 5) : Word :=
  match i with
  | 0 => place r.body.kind 0 ||| place r.body.subject 4 ||| place r.body.flags 8 ||| placeBit r.gapSat 15
  | 1 => place r.seq 0 ||| place r.gap 8
  | 2 => r.body.time.lo
  | 3 => r.body.time.hi
  | 4 => r.body.word

end Sys2Proof.Machine
end

