-- ==== Sys2Proof/Machine/CaptureQueue.lean ====
section
/-! DEFINITION. The capture queue: taking a record, the watermark, the reads (chapter 7). -/

namespace Sys2Proof.Machine

/-- The gap and GAP_SAT of a record stored while LOST is `lost` (R126). -/
def gapOf (lost : Word) : BitVec 8 × Bool :=
  if lost.toNat ≤ 255 then (lost.setWidth 8, false) else (255, true)

/-- The queue takes a record: it receives the next seq and is stored with the gap of the loss before it,
or is dropped and counted when 128 are stored (R125, R126, R127). -/
def Capture.take (c : Capture) (h : Happening) : Capture :=
  if c.queue.length < capDepth then
    { c with
      queue := c.queue ++ [{ body := h, seq := c.seq, gap := (gapOf c.lost).1, gapSat := (gapOf c.lost).2 }]
      seq := c.seq + 1
      lost := 0 }
  else { c with seq := c.seq + 1, lost := satInc c.lost }

/-- A producer hands a record over. A store that leaves the level at or above the watermark sets CAPW
(R130), a drop sets CAPOVR (R127). -/
def State.produce (h : Happening) (s : State) : State :=
  let t := { s with cap := s.cap.take h }
  if s.cap.queue.length < capDepth then
    t.requestIf (decide (t.cap.wmark.toNat ≤ t.cap.queue.length)) .capw
  else t.request .capovr

/-- A read of CAPR0: the oldest record becomes the holding record, or the holding record becomes invalid
when none is stored; word 0 is returned (R132, R133). -/
def State.readCapr0 (s : State) : Word × State :=
  match s.cap.queue with
  | [] => (0, { s with cap := { s.cap with holding := none } })
  | r :: rest => (r.word 0, { s with cap := { s.cap with queue := rest, holding := some r } })

/-- A read of CAPR1 to CAPR4 (R134). -/
def Capture.heldWord (c : Capture) (i : Fin 5) : Word :=
  match c.holding with
  | none => 0
  | some r => r.word i

/-- The watermark stored for a written low byte (R129). -/
def clampWmark (b : BitVec 8) : BitVec 8 :=
  if b = 0 then 1 else if b.toNat ≤ 128 then b else 128

/-- A write of CAP_WMARK (R129). -/
def State.writeWmark (w : Word) (s : State) : State :=
  { s with cap := { s.cap with wmark := clampWmark (field w 0 8) } }

/-- FLUSH_QUEUE empties the queue and keeps the sequence counter and the watermark (R136). -/
def Capture.flush (c : Capture) : Capture := { c with queue := [], lost := 0, holding := none }

/-- CLEAR empties the queue and sets the sequence counter to 0 (R138). -/
def Capture.clear (c : Capture) : Capture := { c.flush with seq := 0 }

end Sys2Proof.Machine
end

