-- ==== Sys2Proof/Machine/EdgeList.lean ====
section
/-! DEFINITION. The Pending Edge List: order, insertion, removal, counts (chapter 2). -/

namespace Sys2Proof.Machine

/-- The entry has origin RUN(p). -/
def Entry.isRun (e : Entry) (p : Fin 8) : Bool :=
  match e.origin with
  | .run q _ => q == p
  | .direct _ => false

def Entry.isDirect (e : Entry) : Bool :=
  match e.origin with
  | .run .. => false
  | .direct _ => true

/-- The entry is DIRECT with tag `t`. -/
def Entry.hasTag (e : Entry) (t : BitVec 8) : Bool :=
  match e.origin with
  | .run .. => false
  | .direct u => u == t

/-- The place of a new entry: after every entry whose time remaining is not greater than its own, before
the first that is greater (R22). -/
def insertByTime (n : Time) (e : Entry) : List Entry → List Entry
  | [] => [e]
  | x :: xs => if remaining x.due n ≤ remaining e.due n then x :: insertByTime n e xs else e :: x :: xs

/-- R22. -/
def State.insertEntry (e : Entry) (s : State) : State := s.setPel (insertByTime s.tl e s.sched.pel)

/-- The RUN(p) entry leaves the list, if there is one (R40). -/
def State.removeRun (p : Fin 8) (s : State) : State := s.setPel (s.sched.pel.filter fun e => !e.isRun p)

/-- The number of DIRECT entries (R24, R41). -/
def Scheduler.directCount (t : Scheduler) : Nat := (t.pel.filter Entry.isDirect).length

/-- PEL_COUNT (R41; layout 5:0 total, 12:8 direct). -/
def Scheduler.countWord (t : Scheduler) : Word :=
  place (BitVec.ofNat 6 t.pel.length) 0 ||| place (BitVec.ofNat 5 t.directCount) 8

/-- The entry at the head is due at the current timeline value (R26). -/
def State.headDue (s : State) : Bool :=
  match s.sched.pel with
  | [] => false
  | e :: _ => e.due == s.tl

/-- One late direct entry is counted, and LATE is set (R34, R35, R38). -/
def State.countLate (s : State) : State :=
  ({ s with sched := { s.sched with lateCount := satInc s.sched.lateCount } }).request .late

/-- The entry with its fields as RES2 and RES3 of PEEK_LIST show them (section 11.11). -/
def Entry.originCode (e : Entry) : BitVec 4 :=
  match e.origin with
  | .run p _ => BitVec.ofNat 4 p.val
  | .direct _ => 8

def Entry.actionWord (e : Entry) : Word :=
  place e.kind 0 ||| place e.operand 4 ||| place e.originCode 8 ||| placeBit e.mark 15

def Entry.tagWord (e : Entry) : Word :=
  match e.origin with
  | .run _ i => i.setWidth 16
  | .direct t => t.setWidth 16

end Sys2Proof.Machine
end

