-- ==== Sys2Proof/Machine/IntervalUnits.lean ====
section
/-! DEFINITION. The interval units and their pairs: writes, counting, expiry, reads (chapter 1). -/

namespace Sys2Proof.Machine

/-! ### Pairs -/

/-- Pair 0 is IU0 with IU1, pair 1 is IU2 with IU3. -/
def pairOf (u : Fin 4) : Fin 2 := ⟨u.val / 2, by omega⟩

def isOdd (u : Fin 4) : Bool := u.val % 2 == 1

/-- The even and the odd unit of the pair of `u`. -/
def evenOf (u : Fin 4) : Fin 4 := ⟨u.val - u.val % 2, by omega⟩

def oddOf (u : Fin 4) : Fin 4 := ⟨u.val - u.val % 2 + 1, by omega⟩

/-- The pair of `u` is cascaded (R15). -/
def State.cascaded (s : State) (u : Fin 4) : Bool := s.iu.pairs[pairOf u].cascade

def State.setPair (s : State) (i : Fin 2) (x : UnitPair) : State :=
  { s with iu := { s.iu with pairs := s.iu.pairs.set i x } }

/-! ### Writes and actions -/

/-- The even unit's reload takes the odd half with it while the pair is cascaded (R16). -/
def State.reloadOddHalf (u : Fin 4) (s : State) : State :=
  if s.cascaded u then
    let o := s.unit (oddOf u)
    s.setUnit (oddOf u) { o with c := o.r }
  else s

/-- The effect of a CTRL word on the unit that it governs: RUN, MODE, PRESCALE and PRESET together. A
start, a preset and a change of P set the phase to 0 and leave the advance that produced TL uncounted
(R11, R12). -/
def IntervalUnit.control (w : Word) (x : IntervalUnit) : IntervalUnit :=
  let start := bit w 0 && !x.running
  let preset := bit w 15
  let fresh := start || preset || field w 2 2 != x.prescale
  { x with
    c := if preset then x.r else x.c
    prescale := field w 2 2
    phase := if fresh then 0 else x.phase
    mode := .ofBit (bit w 1)
    running := bit w 0
    owes := x.owes && !fresh }

/-- The CTRL write of the odd unit of a cascaded pair: MODE and PRESCALE only (R16). -/
def IntervalUnit.controlOdd (w : Word) (x : IntervalUnit) : IntervalUnit :=
  { x with
    prescale := field w 2 2
    phase := if field w 2 2 != x.prescale then 0 else x.phase
    mode := .ofBit (bit w 1) }

/-- A write of the CTRL word of unit `u` (R11, R12, R16). -/
def State.writeUnitCtrl (u : Fin 4) (w : Word) (s : State) : State :=
  if s.cascaded u && isOdd u then s.setUnit u ((s.unit u).controlOdd w)
  else
    let t := s.setUnit u ((s.unit u).control w)
    if bit w 15 then t.reloadOddHalf u else t

/-- A write of RELOAD (R13, R16). -/
def State.writeReload (u : Fin 4) (w : Word) (s : State) : State :=
  s.setUnit u { s.unit u with r := w }

/-- An applied START_UNIT (R14): the odd unit of a cascaded pair is not reached. -/
def State.startUnit (u : Fin 4) (s : State) : State :=
  if s.cascaded u && isOdd u then s
  else
    let x := s.unit u
    (s.setUnit u { x with c := x.r, phase := 0, running := true, owes := false }).reloadOddHalf u

/-- An applied STOP_UNIT (R14). -/
def State.stopUnit (u : Fin 4) (s : State) : State :=
  if s.cascaded u && isOdd u then s else s.setUnit u { s.unit u with running := false }

/-- The cascade flag that a written IU_PAIR word carries for pair `i`. -/
def pairBit (w : Word) (i : Fin 2) : Bool := bit w i.val

/-- A unit of pair `i` is RUNNING. -/
def State.pairRunning (s : State) (i : Fin 2) : Bool :=
  (s.unit ⟨2 * i.val, by omega⟩).running || (s.unit ⟨2 * i.val + 1, by omega⟩).running

/-- The change of one pair's flag: the even unit's phase is set to 0 and the snapshot is invalid (R15). -/
def State.setCascade (i : Fin 2) (b : Bool) (s : State) : State :=
  if s.iu.pairs[i].cascade = b then s
  else
    let e : Fin 4 := ⟨2 * i.val, by omega⟩
    (s.setUnit e { s.unit e with phase := 0 }).setPair i { cascade := b, snapshot := none }

/-- A write of IU_PAIR: refused as a whole when a pair whose flag would change has a RUNNING unit (R15). -/
def State.writeIuPair (w : Word) (s : State) : State :=
  if (List.finRange 2).any fun i => s.iu.pairs[i].cascade != pairBit w i && s.pairRunning i then
    s.refuseWrite 2 0x14
  else (s.setCascade 0 (pairBit w 0)).setCascade 1 (pairBit w 1)

def State.iuPairWord (s : State) : Word :=
  placeBit s.iu.pairs[(0 : Fin 2)].cascade 0 ||| placeBit s.iu.pairs[(1 : Fin 2)].cascade 1

/-! ### Counting an advance -/

/-- The programmes, in the order in which their descriptors are read (R71). -/
def allProgs : List (Fin 8) := List.finRange 8

/-- An expiry reported as unit `r`: its class is set, its sample point is noted, and it is on its way to the
store and the run controller (R19). That the class is set here, before the swap point and the launches of the same
expiry, is the model's choice: R19 and R60 give the event unit no order with them (log 30). -/
def State.expire (r : Fin 4) (s : State) : State :=
  let t := s.request (.iu r)
  { t with
    adv :=
      { t.adv with
        expired := t.adv.expired.set r true
        expiry := t.adv.expiry.set r (some { stored := false, page := none, left := allProgs }) } }

/-- The phase advances by one tick; the flag says whether the counter is decremented (R10). -/
def IntervalUnit.phaseStep (x : IntervalUnit) : IntervalUnit × Bool :=
  if prescaleTicks x.prescale ≤ x.phase + 1 then ({ x with phase := 0 }, true)
  else ({ x with phase := x.phase + 1 }, false)

/-- Unit `u` counts the advance on its own (R10). -/
def State.countSingle (u : Fin 4) (s : State) : State :=
  let x := { s.unit u with owes := false }
  if x.running then
    let (y, dec) := x.phaseStep
    if dec then
      if y.c = 1 then
        (s.setUnit u { y with c := y.r, running := y.mode == .continuous }).expire u
      else s.setUnit u { y with c := y.c - 1 }
    else s.setUnit u y
  else s.setUnit u x

/-- The cascaded pair of `r` counts the advance as one 32-bit unit, by the even unit's fields; its expiry
is reported as the odd unit (R16). -/
def State.countPair (r : Fin 4) (s : State) : State :=
  let x := { s.unit (evenOf r) with owes := false }
  let o := s.unit (oddOf r)
  if x.running then
    let (y, dec) := x.phaseStep
    if dec then
      let n : Time := Time.ofHalves y.c o.c
      if n = 1 then
        let t := s.setUnit (evenOf r) { y with c := y.r, running := y.mode == .continuous }
        (t.setUnit (oddOf r) { o with c := o.r }).expire (oddOf r)
      else
        let t := s.setUnit (evenOf r) { y with c := Time.lo (n - 1) }
        t.setUnit (oddOf r) { o with c := Time.hi (n - 1) }
    else s.setUnit (evenOf r) y
  else s.setUnit (evenOf r) x

/-- The odd unit of a cascaded pair owes nothing of its own. -/
def State.clearOwes (u : Fin 4) (s : State) : State := s.setUnit u { s.unit u with owes := false }

/-- The unit reported as `r` counts the advance to TL, if it has not yet (R10, R16). The even number of a
cascaded pair reports nothing: the pair is counted under its odd number. -/
def State.countUnit (r : Fin 4) (s : State) : State :=
  if s.cascaded r then
    if isOdd r then
      let t := if (s.unit (evenOf r)).owes then s.countPair r else s
      if (t.unit r).owes then t.clearOwes r else t
    else s
  else if (s.unit r).owes then s.countSingle r else s

/-! ### Reading COUNT -/

/-- A read of the COUNT word of unit `u` (R12, R17, R18). -/
def State.readCount (u : Fin 4) (s : State) : Word × State :=
  let p := s.iu.pairs[pairOf u]
  if p.cascade then
    if isOdd u then
      match p.snapshot with
      | some v => (v, s.setPair (pairOf u) { p with snapshot := none })
      | none => ((s.unit u).c, s)
    else ((s.unit u).c, s.setPair (pairOf u) { p with snapshot := some (s.unit (oddOf u)).c })
  else ((s.unit u).c, s)

end Sys2Proof.Machine
end

