-- ==== Sys2Proof/Machine/OutputStage.lean ====
section
/-! DEFINITION. The output stage and the blanking windows its pin changes open (chapters 5 and 6). -/

namespace Sys2Proof.Machine

/-! ### Blanking windows -/

/-- An OPEN window is live at `n`: R is reached, and `n` is not after B (R117). -/
def Window.live (w : Window) (n : Time) : Bool :=
  reached w.opened n && (w.until_ == n || ahead w.until_ n)

/-- The window of a set of length `l` after a pin-change report at `n` (the table of R117). -/
def windowAfterReport (l : BitVec 8) (n : Time) (w : Option Window) : Option Window :=
  let e := n + l.setWidth 32
  if l = 0 then w
  else
    match w with
    | none => some { opened := n, until_ := e }
    | some v =>
      if v.live n then (if reached v.until_ e then some { v with until_ := e } else some v)
      else some { opened := n, until_ := e }

/-- A pin-change report to set `k` + 1 at the current timeline value (R103, R117). -/
def State.report (k : Fin 3) (s : State) : State :=
  s.setWindow k (windowAfterReport s.inp.lens[k] s.tl s.inp.windows[k])

/-- Reports to every set of which `f` holds. -/
def State.reportSets (f : Fin 3 → Bool) (s : State) : State :=
  (List.finRange 3).foldl (fun t k => if f k then t.report k else t) s

/-! ### Levels -/

/-- The blanking set of output line `n` (R96). -/
def Outputs.setOf (o : Outputs) (n : Fin 16) : BitVec 2 := field o.bset (2 * n.val) 2

/-- The levels of all sixteen lines in one force mode (R92). -/
def Outputs.levelsIn (o : Outputs) : ForceMode → Word
  | .follow => o.logic ^^^ o.pol
  | .freeze => o.frozen
  | .allIdle => o.idle ^^^ o.pol
  | .allActive => ~~~o.idle ^^^ o.pol

/-- The computed pin levels: octet 0 is lines 0 to 7, octet 1 lines 8 to 15 (R92). -/
def Outputs.pins (o : Outputs) : Word :=
  (o.levelsIn o.mode0 &&& 0x00FF) ||| (o.levelsIn o.mode1 &&& 0xFF00)

/-- What the part drives on pin OUTn: the computed level while OUTEN = 1, nothing otherwise (R101). -/
def State.pinDrive (s : State) (n : Fin 16) : Option Bool :=
  if s.out.outen then some (bit s.out.pins n.val) else none

/-! ### Events of the output stage -/

/-- The pin changes of one event, given as the lines whose pin level moved, are reported while OUTEN = 1
to each set that such a line is assigned to. Several reports to one set at one time are one (R103). -/
def State.reportChanges (moved : Word) (s : State) : State :=
  if s.out.outen then
    s.reportSets fun k =>
      (List.finRange 16).any fun n => bit moved n.val && s.out.setOf n == BitVec.ofNat 2 (k.val + 1)
  else s

/-- One event of the output stage: its state changes, and its pin changes are reported (R92, R103). -/
def State.outputEvent (f : Outputs → Outputs) (s : State) : State :=
  State.reportChanges (s.out.pins ^^^ (f s.out).pins) { s with out := f s.out }

/-- The mask of line `n`. -/
def lineMask (n : Fin 16) : Word := placeBit true n.val

/-- OUT_SET, OUT_CLR, OUT_TOGGLE of the lines of a mask, and the applied SET, CLR, TOGGLE of one line
(R97, R98). -/
def State.setLines (m : Word) (s : State) : State :=
  s.outputEvent fun o => { o with logic := o.logic ||| m }

def State.clrLines (m : Word) (s : State) : State :=
  s.outputEvent fun o => { o with logic := o.logic &&& ~~~m }

def State.toggleLines (m : Word) (s : State) : State :=
  s.outputEvent fun o => { o with logic := o.logic ^^^ m }

/-- R95. -/
def State.writeOutPol (w : Word) (s : State) : State := s.outputEvent fun o => { o with pol := w }

/-- R95. -/
def State.writeOutIdle (w : Word) (s : State) : State := s.outputEvent fun o => { o with idle := w }

/-- The frozen levels after the force modes change to `m0` and `m1`: an octet that enters FREEZE takes
its pin levels (R93). -/
def Outputs.frozenAfter (o : Outputs) (m0 m1 : ForceMode) : Word :=
  let keep0 := if m0 = .freeze ∧ o.mode0 ≠ .freeze then o.pins else o.frozen
  let keep1 := if m1 = .freeze ∧ o.mode1 ≠ .freeze then o.pins else o.frozen
  (keep0 &&& 0x00FF) ||| (keep1 &&& 0xFF00)

/-- A write of OUT_MODE (R93, R94). -/
def State.writeOutMode (w : Word) (s : State) : State :=
  let m0 := ForceMode.ofCode (field w 0 2)
  let m1 := ForceMode.ofCode (field w 8 2)
  s.outputEvent fun o => { o with frozen := o.frozenAfter m0 m1, mode0 := m0, mode1 := m1 }

/-- A write of OUT_BSET_LO or OUT_BSET_HI: no pin change, no report (R96). -/
def State.writeOutBset (hi : Bool) (w : Word) (s : State) : State :=
  let b := s.out.bset
  { s with out := { s.out with bset := if hi then w ++ Time.lo b else Time.hi b ++ w } }

/-- The written OUTEN reaches the output stage: a change from 0 to 1 makes one report to each set that an
output line is assigned to (R102); a change from 1 to 0 makes none (R101). -/
def State.writeOuten (b : Bool) (s : State) : State :=
  let t := { s with out := { s.out with outen := b } }
  if b && !s.out.outen then
    t.reportSets fun k => (List.finRange 16).any fun n => t.out.setOf n == BitVec.ofNat 2 (k.val + 1)
  else t

/-- CLEAR takes every logic level to its idle level (R106). -/
def State.clearOutputs (s : State) : State := s.outputEvent fun o => { o with logic := o.idle }

end Sys2Proof.Machine
end

