-- ==== Sys2Proof/Machine/ProgrammeStore.lean ====
section
/-! DEFINITION. The programme store: page contents, page states, bindings, the swap (chapter 3). -/

namespace Sys2Proof.Machine

/-! ### Page contents -/

/-- Words of a page (R44). -/
def pageWords : Nat := 272

/-- The word at address `a`; a word that is not listed reads 0 (R64). -/
def Memory.read : PageMem → Nat → Word
  | [], _ => 0
  | (b, v) :: m, a => if a = b then v else Memory.read m a

/-- The page with word `a` set to `w`, in canonical form. -/
def Memory.write : PageMem → Nat → Word → PageMem
  | [], a, w => if w = 0 then [] else [(a, w)]
  | (b, v) :: m, a, w =>
    if a < b then (if w = 0 then (b, v) :: m else (a, w) :: (b, v) :: m)
    else if a = b then (if w = 0 then m else (a, w) :: m)
    else (b, v) :: Memory.write m a w

/-- The canonical form: addresses strictly rising and inside the page, no listed word 0, no bit outside
the word's fields (R44). -/
abbrev Memory.wf (m : PageMem) : Prop :=
  m.Pairwise (fun x y => x.1 < y.1) ∧ ∀ x ∈ m, x.1 < pageWords ∧ x.2 ≠ 0 ∧ x.2 &&& ~~~ storeMask x.1 = 0

def Page.other : Page → Page
  | .a => .b
  | .b => .a

def Page.toBit : Page → Bool
  | .a => false
  | .b => true

def Page.ofBit (b : Bool) : Page := if b then .b else .a

def Store.page (t : Store) : Page → PageMem
  | .a => t.pageA
  | .b => t.pageB

def Store.setPage (t : Store) (p : Page) (m : PageMem) : Store :=
  match p with
  | .a => { t with pageA := m }
  | .b => { t with pageB := m }

/-- Step record `i` of page `p` (R44, R45). -/
def State.stepRecord (s : State) (p : Page) (i : BitVec 7) : StepRecord :=
  let m := s.store.page p
  .ofWords (Memory.read m (2 * i.toNat)) (Memory.read m (2 * i.toNat + 1))

/-- Descriptor `q` of page `p` (R44, R46). -/
def State.descriptor (s : State) (p : Page) (q : Fin 8) : Descriptor :=
  let m := s.store.page p
  .ofWords (Memory.read m (256 + 2 * q.val)) (Memory.read m (257 + 2 * q.val))

/-! ### Page states and bindings -/

inductive PageState | open_ | active | draining
deriving DecidableEq, Repr

def Store.bound (t : Store) : Page → Nat
  | .a => t.boundA
  | .b => t.boundB

def Store.setBound (t : Store) (p : Page) (n : Nat) : Store :=
  match p with
  | .a => { t with boundA := n }
  | .b => { t with boundB := n }

/-- The state of a page, from the pointer and its bound-run count (R48). -/
def Store.stateOf (t : Store) (p : Page) : PageState :=
  if p = t.active then .active else if t.bound p = 0 then .open_ else .draining

/-- The codes of PAGE_STATE (section 11.8). -/
def PageState.code : PageState → BitVec 2
  | .open_ => 0 | .active => 1 | .draining => 2

/-- Writes of page `p` are refused: it is ACTIVE or DRAINING, or the target of a pending swap (R54). -/
def Store.locked (t : Store) (p : Page) : Bool := t.stateOf p != .open_ || t.swap.isSome

/-- A run is bound to the ACTIVE page (R49). -/
def State.bindActive (s : State) : State :=
  { s with store := s.store.setBound s.store.active (s.store.bound s.store.active + 1) }

/-- A run drops its binding to page `p`: a DRAINING page whose count reaches 0 becomes OPEN with the
BANKFREE event (R50). With nothing to subtract nothing happens (R63). -/
def State.dropBinding (p : Page) (s : State) : State :=
  let n := s.store.bound p
  let t := { s with store := s.store.setBound p (n - 1) }
  t.requestIf (s.store.stateOf p == .draining && n == 1) .bankfree

/-- A swap takes effect: the other page becomes ACTIVE, the pending swap ends, SWAP is set (R56). -/
def State.swapPages (s : State) : State :=
  ({ s with store := { s.store with active := s.store.active.other, swap := none } }).request .swap

/-! ### Access through the window -/

/-- A write of STORE_ADDR (R52; layout 8:0 word address, 15 page). -/
def State.writeStoreAddr (w : Word) (s : State) : State :=
  { s with store := { s.store with addr := field w 0 9, addrPage := .ofBit (bit w 15) } }

def Store.addrWord (t : Store) : Word := place t.addr 0 ||| placeBit t.addrPage.toBit 15

/-- The word address is advanced by one, from 511 to 0 (R53). -/
def State.advanceAddr (s : State) : State :=
  { s with store := { s.store with addr := s.store.addr + 1 } }

/-- The word that STORE_DATA shows: 0 outside the page (R53). -/
def Store.dataWord (t : Store) : Word :=
  if t.addr.toNat < pageWords then Memory.read (t.page t.addrPage) t.addr.toNat else 0

/-- A read of STORE_DATA (R53). -/
def State.readStoreData (s : State) : Word × State := (s.store.dataWord, s.advanceAddr)

/-- A write of STORE_DATA: refused out of range or on a locked page, and otherwise stored with its
defined fields; the word address advances in every case (R54). -/
def State.writeStoreData (w : Word) (s : State) : State :=
  let t := s.store
  let a := t.addr.toNat
  let s' :=
    if pageWords ≤ a then s.refuseWrite 3 0x69
    else if t.locked t.addrPage then s.refuseWrite 1 0x69
    else
      { s with
        store := t.setPage t.addrPage (Memory.write (t.page t.addrPage) a (w &&& storeMask a)) }
  s'.advanceAddr

/-- PAGE_STATE (R51; section 11.8). -/
def Store.pageStateWord (t : Store) : Word :=
  placeBit t.active.toBit 0 ||| place (t.stateOf .a).code 1 ||| place (t.stateOf .b).code 3
    ||| placeBit t.swap.isSome 5 ||| place (BitVec.ofNat 2 ((t.swap.map Fin.val).getD 0)) 6
    ||| place (BitVec.ofNat 4 t.boundA) 8 ||| place (BitVec.ofNat 4 t.boundB) 12

/-- What CLEAR does to the store: bindings dropped, pending swap withdrawn, neither with an event (R63). -/
def Store.clear (t : Store) : Store := { t with boundA := 0, boundB := 0, swap := none }

end Sys2Proof.Machine
end

