-- ==== Sys2Proof/Machine/RunController.lean ====
section
/-! DEFINITION. The run controller and the scheduler's handling of one entry: launches, admission,
actions, hand-offs, ends and faults (chapters 2 and 4). A chain of zero-delay steps is carried to its end
as a stack of tasks: the task on top is handled, with everything it sets off, before the task below it
(R27, R31, R69, R81). -/

namespace Sys2Proof.Machine

/-- Where a launch comes from (section 4.3): a LAUNCH command, an applied LAUNCH entry, a pattern action or
a unit expiry, or a COMPLETE end with launch-pending (R84). -/
inductive LaunchSource | command | entry | hardware | queued
deriving DecidableEq, Repr

/-- How a slot took a launch (R72 to R76); `discarded` for a programme that is not armed (R70). -/
inductive LaunchResult | started | restarted | queued | ignored | badDescriptor | discarded
deriving DecidableEq, Repr

/-- A piece of work of a chain. -/
inductive Task
  /-- Handle an entry taken from the list or offered due at once (R27, R31); `late` for a late DIRECT
  entry (R34). -/
  | take (e : Entry) (late : Bool)
  /-- Hand over the MARK record of a performed entry (R29). -/
  | mark (o : Origin) (late : Bool)
  /-- Hand the completion of step `i` of slot `p` to the run controller (R30); `bind` tells the run that
  offered it, `self` an ABORT naming its own programme. -/
  | handOff (p : Fin 8) (i : BitVec 7) (bind : Nat) (self : Bool)
  /-- Take a launch of programme `q` (R69). -/
  | launch (src : LaunchSource) (q : Fin 8)
deriving DecidableEq, Repr

/-! ### Offers and launches -/

/-- Step `i` of slot `p` is offered with due time `base` + its delay: inserted when that is ahead, to be
handled at once when it is reached (R31, R81). An IDLE slot offers nothing. -/
def State.offer (p : Fin 8) (i : BitVec 7) (base : Time) (s : State) : List Task × State :=
  match (s.slot p).run with
  | none => ([], s)
  | some r =>
    let d := s.stepRecord r.page i
    let e : Entry :=
      { due := base + d.delay.setWidth 32, origin := .run p i, kind := d.kind, operand := d.operand,
        mark := d.mark }
    if ahead e.due s.tl then ([], s.insertEntry e) else ([.take e false], s)

/-- A failed launch is reported by a FAULT record and RUNFLT (R73, R87). -/
def State.reportBadDescriptor (q : Fin 8) (d : Descriptor) (s : State) : State :=
  (s.produce (.fault q .badDescriptor d.first s.tl)).request .runflt

/-- A hardware launch of a single-arm programme disarms it (R68). -/
def armedAfter (src : LaunchSource) (d : Descriptor) (armed : Bool) : Bool :=
  armed && !(src == .hardware && d.singleArm)

/-- A run of programme `q` is bound and started in its IDLE slot from the ACTIVE page, with launch time
TL (R72). With an invalid descriptor the binding does not stand and the slot stays IDLE (R73, R75, R84);
`silent` when nothing is reported of it: a LAUNCH command from IDLE. -/
def State.startRun (src : LaunchSource) (silent : Bool) (ok : LaunchResult) (q : Fin 8) (s : State) :
    LaunchResult × List Task × State :=
  let page := s.store.active
  let d := s.descriptor page q
  if d.valid then
    let sl := s.slot q
    let r : Run :=
      { page := page, step := d.first, passes := d.repeats, launchTime := s.tl, applied := 0,
        launchPending := false }
    let t := s.bindActive.setSlot q
      { sl with run := some r, bindId := sl.bindId + 1, armed := armedAfter src d sl.armed }
    let o := t.offer q d.first s.tl
    (ok, o.1, o.2)
  else (.badDescriptor, [], if silent then s else s.reportBadDescriptor q d)

/-- The launch is ignored and counted, with saturation (R74, R76). -/
def State.ignoreLaunch (q : Fin 8) (s : State) : State :=
  let sl := s.slot q
  s.setSlot q { sl with ignored := satInc sl.ignored }

/-- The replaced run of slot `q` leaves: its entry, its launch-pending flag, its binding (R75). -/
def State.dropRun (q : Fin 8) (r : Run) (s : State) : State :=
  ((s.setSlot q { s.slot q with run := none }).removeRun q).dropBinding r.page

/-- The run controller takes a launch of programme `q` (R69, R70, R72 to R76). A running programme is
settled by the policy in the descriptor of its bound page. Policy code 3, which no bound run has (R47,
R77), is taken as IGNORE (log 15). -/
def State.takeLaunch (src : LaunchSource) (q : Fin 8) (s : State) : LaunchResult × List Task × State :=
  let sl := s.slot q
  if src == .hardware && !sl.armed then (.discarded, [], s)
  else
    match sl.run with
    | none => s.startRun src (src == .command) .started q
    | some r =>
      match (s.descriptor r.page q).policy.toNat with
      | 1 => (s.dropRun q r).startRun src false .restarted q
      | 2 =>
        if r.launchPending then (.ignored, [], s.ignoreLaunch q)
        else
          let d := s.descriptor s.store.active q
          (.queued, [], s.setSlot q
            { sl with run := some { r with launchPending := true }, armed := armedAfter src d sl.armed })
      | _ => (.ignored, [], s.ignoreLaunch q)

/-! ### Ends and faults -/

/-- The run in slot `p` ends (R82). A pending launch is taken after a COMPLETE end (R84) and is otherwise
discarded. An IDLE slot has no run to end. -/
def State.endRun (p : Fin 8) (why : EndReason) (s : State) : List Task × State :=
  match (s.slot p).run with
  | none => ([], s)
  | some r =>
    let t := ((s.setSlot p { s.slot p with run := none }).removeRun p).request .runend
    let t :=
      if (s.descriptor r.page p).reportEnd then t.produce (.runEnd p why r.applied s.tl) else t
    (if why == .complete && r.launchPending then [.launch .queued p] else [], t.dropBinding r.page)

/-- The run in slot `p` faults at admission (R87). -/
def State.faultRun (p : Fin 8) (why : FaultReason) (i : BitVec 7) (due : Time) (s : State) : State :=
  let t := (s.setSlot p { s.slot p with run := none }).removeRun p
  let t := (t.produce (.fault p why i due)).request .runflt
  match (s.slot p).run with
  | none => t
  | some r => t.dropBinding r.page

/-! ### Admission, action, hand-off -/

/-- Why a RUN entry is refused, if it is: validity first, then the same-due limit (R27, R78). -/
def Slot.refusal (sl : Slot) (e : Entry) : Option FaultReason :=
  if (Action.decode e.kind e.operand).isNone then some .badStep
  else if sl.dueTime = e.due ∧ sameDueMax ≤ sl.dueCount then some .zeroLoop
  else none

/-- An admitted step updates the same-due time and count and the steps-applied count (R78). -/
def Slot.countStep (sl : Slot) (due : Time) : Slot :=
  { sl with
    dueTime := due
    dueCount := if sl.dueTime = due then sl.dueCount + 1 else 1
    run := sl.run.map fun r => { r with applied := r.applied + 1 } }

/-- The origin is the programme `q` itself. -/
def Origin.isSelf (o : Origin) (q : Fin 8) : Bool :=
  match o with
  | .run p _ => p == q
  | .direct _ => false

/-- The entry is an ABORT step that names its own programme (R28, R86). -/
def Entry.selfAbort (e : Entry) : Bool :=
  match Action.decode e.kind e.operand with
  | some (.abort q) => e.origin.isSelf q
  | _ => false

/-- The action of an entry is performed (R28). A self-naming ABORT waits for its hand-off (R86). -/
def State.perform (e : Entry) (s : State) : List Task × State :=
  match Action.decode e.kind e.operand with
  | none => ([], s)
  | some .wait => ([], s)
  | some (.set n) => ([], s.setLines (lineMask n))
  | some (.clr n) => ([], s.clrLines (lineMask n))
  | some (.toggle n) => ([], s.toggleLines (lineMask n))
  | some (.launch q) => ([.launch .entry q], s)
  | some (.startUnit u) => ([], s.startUnit u)
  | some (.stopUnit u) => ([], s.stopUnit u)
  | some (.abort q) => if e.origin.isSelf q then ([], s) else s.endRun q .aborted

/-- The MARK record of a marked entry comes after its action (R27). -/
def Entry.markTasks (e : Entry) (late : Bool) : List Task := if e.mark then [.mark e.origin late] else []

/-- One taken entry is handled (R27): admission, action, mark, hand-off. DIRECT entries are not presented
for admission. -/
def State.takeEntry (e : Entry) (late : Bool) (s : State) : List Task × State :=
  match e.origin with
  | .direct _ =>
    let a := s.perform e
    (a.1 ++ e.markTasks late, a.2)
  | .run p i =>
    match (s.slot p).refusal e with
    | some why => ([], s.faultRun p why i e.due)
    | none =>
      let a := (s.setSlot p ((s.slot p).countStep e.due)).perform e
      (a.1 ++ e.markTasks late ++ [.handOff p i (s.slot p).bindId e.selfAbort], a.2)

/-- The run of slot `p` advances after its step `i` (R80). -/
def State.advanceRun (p : Fin 8) (i : BitVec 7) (r : Run) (s : State) : List Task × State :=
  let d := s.descriptor r.page p
  let sl := s.slot p
  if i.toNat + 1 ≠ d.first.toNat + d.count.toNat then
    (s.setSlot p { sl with run := some { r with step := i + 1 } }).offer p (i + 1) s.tl
  else if r.passes = 0 then
    (s.setSlot p { sl with run := some { r with step := d.first } }).offer p d.first s.tl
  else if r.passes = 1 then s.endRun p .complete
  else
    (s.setSlot p { sl with run := some { r with step := d.first, passes := r.passes - 1 } }).offer p
      d.first s.tl

/-- The completion of step `i` is handed to the run controller: discarded when the run in the slot is no
longer the one that offered it (R79), a self-abort (R86), or an advance (R80). -/
def State.takeHandOff (p : Fin 8) (i : BitVec 7) (bind : Nat) (self : Bool) (s : State) :
    List Task × State :=
  match (s.slot p).run with
  | none => ([], s)
  | some r =>
    if (s.slot p).bindId ≠ bind then ([], s)
    else if self then s.endRun p .abortedByStep
    else s.advanceRun p i r

/-! ### Chains -/

/-- One task is handled: the tasks it sets off, and the state after it. The application time of everything
a chain does is TL, which equals the due time of every entry handled in it (R26, R31; log 28). -/
def doTask (t : Task) (s : State) : List Task × State :=
  match t with
  | .take e late => s.takeEntry e late
  | .mark o late => ([], (s.produce (.mark o late s.tl)).request .mark)
  | .handOff p i bind self => s.takeHandOff p i bind self
  | .launch src q => (s.takeLaunch src q).2

/-- The chain of the tasks `ts`, carried on for at most `n` tasks: what is left of it, and the state. -/
def runChain : Nat → List Task → State → List Task × State
  | 0, ts, s => (ts, s)
  | _ + 1, [], s => ([], s)
  | n + 1, t :: ts, s =>
    let r := doTask t s
    runChain n (r.1 ++ ts) r.2

/-- More tasks than any chain has: the same-due limit bounds every chain (R31, R78; log 14). -/
def chainFuel : Nat := 2048

/-- The tasks `ts` are handled to the end. -/
def State.chain (ts : List Task) (s : State) : State := (runChain chainFuel ts s).2

/-- A launch is taken and handled to its end; its result (R69). -/
def State.launchNow (src : LaunchSource) (q : Fin 8) (s : State) : LaunchResult × State :=
  let r := s.takeLaunch src q
  (r.1, r.2.2.chain r.2.1)

end Sys2Proof.Machine
end

