-- ==== Sys2Proof/Machine/PatternTable.lean ====
section
/-! DEFINITION. The pattern table: configuration, evaluation, divide counters, actions (chapter 8). -/

namespace Sys2Proof.Machine

/-- An entry is matched against `v` (R139). -/
def PatternEntry.matches (e : PatternEntry) (v : Word) : Bool := v &&& e.mask == e.value

/-- The match state is recomputed against the held vector, without firing (R140). -/
def PatternEntry.rematch (e : PatternEntry) (held : Word) : PatternEntry :=
  { e with matched := e.matches held }

/-- A write of MASK or VALUE (R140). -/
def State.writeMaskValue (k : Fin 8) (value : Bool) (w : Word) (s : State) : State :=
  let e := s.entryAt k
  let e := if value then { e with value := w } else { e with mask := w }
  s.setEntryAt k (e.rematch s.pat.held)

/-- The fields that a PCTRL word sets (R141; layout in section 11.8). -/
def PatternEntry.control (w : Word) (e : PatternEntry) : PatternEntry :=
  { e with
    enable := bit w 0
    change := bit w 1
    divide := field w 2 4
    record := bit w 6
    launch := bit w 7
    prog := fin8 (field w 8 3)
    event := bit w 11
    counter := 0 }

/-- A write of PCTRL: the fields are stored, the divide counter is 0, the match state is recomputed (R141). -/
def State.writePctrl (k : Fin 8) (w : Word) (s : State) : State :=
  s.setEntryAt k (((s.entryAt k).control w).rematch s.pat.held)

/-- The entry has a candidate at an evaluation of `v` (R142, R143). -/
def PatternEntry.candidate (e : PatternEntry) (held v : Word) : Bool :=
  e.enable && if e.change then (v ^^^ held) &&& e.mask != 0 else e.matches v && !e.matched

/-- A candidate makes the entry fire: its divide counter reaches D (R144). -/
def PatternEntry.fires (e : PatternEntry) : Bool := decide (e.divide.toNat + 1 ≤ e.counter + 1)

/-- The actions of entry `k`, which fires at the evaluation of `v` (R145): RECORD, LAUNCH, EVENT. -/
def State.fire (k : Fin 8) (v : Word) (s : State) : State :=
  let e := s.entryAt k
  let t := if e.record then s.produce (.pattern k v s.tl) else s
  let t := if e.launch then (t.launchNow .hardware e.prog).2 else t
  t.requestIf e.event .pat

/-- Entry `k` takes its part in the evaluation of `v` (R142 to R145). -/
def State.evalOne (k : Fin 8) (v : Word) (s : State) : State :=
  let e := s.entryAt k
  let t :=
    if e.candidate s.pat.held v then
      if e.fires then (s.setEntryAt k { e with counter := 0 }).fire k v
      else s.setEntryAt k { e with counter := e.counter + 1 }
    else s
  t.setEntryAt k { t.entryAt k with matched := e.matches v }

/-- CLEAR: divide counters 0, match states recomputed against the held vector, which is kept (R151). -/
def Patterns.clear (p : Patterns) : Patterns :=
  { p with entries := tabulate fun k : Fin 8 => ({ p.entries[k] with counter := 0 }).rematch p.held }

end Sys2Proof.Machine
end

