-- ==== Sys2Proof/Machine/Qualifiers.lean ====
section
/-! DEFINITION. The input qualifiers: configuration, samples, qualified edges (chapter 6). -/

namespace Sys2Proof.Machine

/-- A write of LINE_CFGn (R107). -/
def Line.configure (w : Word) (l : Line) : Line :=
  let src := SampleSource.ofCode (field w 0 3)
  { l with
    source := src
    qualify := field w 3 4
    edgeMode := .ofCode (field w 8 2)
    bset := field w 12 2
    count := 0
    awaiting := l.awaiting || (l.source == .none && src != .none) }

def State.writeLineCfg (n : Fin 16) (w : Word) (s : State) : State := s.setLine n ((s.line n).configure w)

/-- A write of BLANK_LENs (R116). -/
def State.writeBlankLen (k : Fin 3) (w : Word) (s : State) : State :=
  { s with inp := { s.inp with lens := s.inp.lens.set k (field w 0 8) } }

/-- The edge record mode admits the direction (R113). -/
def EdgeMode.admits (m : EdgeMode) (rise : Bool) : Bool :=
  match m with
  | .off => false
  | .rise => rise
  | .fall => !rise
  | .both => true

/-- The delta of an edge at `t`: the ticks since the last edge, 65535 when there are more; none when no
last-edge time is held (R114). -/
def edgeDelta (last : Option Time) (t : Time) : Option Word :=
  last.map fun u => if (t - u).toNat ≤ 65535 then (t - u).setWidth 16 else 0xFFFF

/-- One sample of a line at `n` (R110 to R114, R118): the line after it and the EDGE record, if one is
made. -/
def Line.sample (k : Fin 16) (level : Bool) (n : Time) (blanked : Bool) (l : Line) :
    Line × Option Happening :=
  let l := { l with raw := level }
  if blanked then ({ l with count := 0 }, none)
  else if l.awaiting then
    ({ l with stable := level, lastEdge := none, count := 0, awaiting := false }, none)
  else if level = l.stable then ({ l with count := 0 }, none)
  else
    let start := if l.count = 0 then n else l.start
    if l.qualify.toNat + 1 ≤ l.count + 1 then
      ({ l with stable := level, start := start, lastEdge := some start, count := 0 },
        if l.edgeMode.admits level then some (.edge k level (edgeDelta l.lastEdge start) start) else none)
    else ({ l with start := start, count := l.count + 1 }, none)

/-- The line takes a sample at TL: source TICK, or the unit of its source expired (R109). -/
def State.sampled (s : State) (k : Fin 16) : Bool :=
  match (s.line k).source with
  | .none => false
  | .tick => true
  | .unit u => s.adv.expired[u]

/-- The sample of line `k` at TL is ignored because of blanking (R118). -/
def State.blanked (s : State) (k : Fin 16) : Bool :=
  (List.finRange 3).any fun j =>
    (s.line k).bset == BitVec.ofNat 2 (j.val + 1)
      && match s.inp.windows[j] with
        | none => false
        | some w => w.live s.tl && w.opened != s.tl

/-- Line `k` after the samples of TL, and its EDGE record. -/
def State.sampleLine (s : State) (k : Fin 16) : Line × Option Happening :=
  if s.sampled k then (s.line k).sample k (bit s.port.inPins k.val) s.tl (s.blanked k)
  else (s.line k, none)

/-- The stable vector (R115, R120). -/
def Inputs.stableVector (i : Inputs) : Word := maskOf fun k : Fin 16 => i.lines[k].stable

/-- The last raw samples (R120). -/
def Inputs.rawVector (i : Inputs) : Word := maskOf fun k : Fin 16 => i.lines[k].raw

/-- The qualifiers take the samples of TL as one handling: the EDGE records in ascending line order, then,
if a stable level changed, one hand-off of the stable vector to the pattern table (R109, R115). The records
and the evaluation are noted in `adv`, to be taken next. -/
def State.sampleAll (s : State) : State :=
  let lines : Vector Line 16 := tabulate fun k => (s.sampleLine k).1
  let inp := { s.inp with lines := lines }
  let changed := (List.finRange 16).any fun k => lines[k].stable != (s.line k).stable
  { s with
    inp := inp
    adv :=
      { s.adv with
        sampleDue := false
        edges := (List.finRange 16).filterMap fun k => (s.sampleLine k).2
        eval :=
          if changed then some { vector := inp.stableVector, left := List.finRange 8 } else none } }

/-- At an advance each OPEN window that is not live becomes CLOSED (R118). -/
def State.closeWindows (s : State) : State :=
  if s.adv.closeDue then
    { s with
      inp :=
        { s.inp with
          windows := tabulate fun k : Fin 3 =>
            s.inp.windows[k].bind fun w => if w.live s.tl then some w else none }
      adv := { s.adv with closeDue := false } }
  else s

/-- CLEAR: candidate counts 0, initialising samples awaited, windows CLOSED (R122). -/
def Inputs.clear (i : Inputs) : Inputs :=
  { i with
    lines := tabulate fun k : Fin 16 => { i.lines[k] with count := 0, awaiting := true }
    windows := Vector.replicate 3 none }

end Sys2Proof.Machine
end

