-- ==== Sys2Proof/Machine/Advance.lean ====
section
/-! DEFINITION. The handling of an advance of the timeline: the tick, the parts that the owners take, and
their completion (R1, R4, R19, R26, R59, R60, R71, R109, R115, R118, R142). -/

namespace Sys2Proof.Machine

/-- `f`, `n` times. -/
def iter (f : State → State) : Nat → State → State
  | 0, s => s
  | n + 1, s => iter f n (f s)

/-! ### The scheduler's part -/

/-- The scheduler takes the entry at the head of the list, if it is due at TL, and handles it to the end
(R26, R27). -/
def State.takeDueEntry (s : State) : State :=
  match s.sched.pel with
  | [] => s
  | e :: rest =>
    if e.due = s.tl then
      ({ s with
        sched := { s.sched with pel := rest }
        adv := { s.adv with schedBegun := true } }).chain [.take e false]
    else s

/-- The scheduler takes every entry due at TL, in list order (R26). What it inserts meanwhile is ahead
(R32), so it takes at most as many entries as the list holds. -/
def State.takeDueEntries (s : State) : State := iter State.takeDueEntry s.sched.pel.length s

/-! ### The interval units' part and their expiries -/

/-- Every unit counts the advance. -/
def State.countAll (s : State) : State := (List.finRange 4).foldl (fun t r => t.countUnit r) s

/-- The programme store takes the expiry reported as `r`: a swap pending on `r` takes effect (R59), and the page that it
makes active is the page of that expiry's launches (R60). -/
def State.takeSwapPoint (r : Fin 4) (s : State) : State :=
  match s.adv.expiry[r] with
  | none => s
  | some x =>
    if x.stored then s
    else if s.store.swap = some r then
      let t := s.swapPages
      t.setExpiry r (some { x with stored := true, page := some t.store.active })
    else s.setExpiry r (some { x with stored := true })

/-- The run controller reads the next descriptor for the expiry reported as `r` and takes one hardware
launch if its unit trigger names `r` (R71). The store takes the expiry first (R60); the page is the one
that a swap point has fixed, or else the one ACTIVE when the first descriptor is read. -/
def State.takeUnitLaunch (r : Fin 4) (s : State) : State :=
  match s.adv.expiry[r] with
  | none => s
  | some x =>
    let t := s.takeSwapPoint r
    match x.left with
    | [] => t.setExpiry r none
    | q :: qs =>
      let page := x.page.getD t.store.active
      let t := t.setExpiry r
        (if qs = [] then none else some { stored := true, page := some page, left := qs })
      if (t.descriptor page q).triggers r then (t.launchNow .hardware q).2 else t

/-- The expiry reported as `r` is delivered to the store and the run controller to its end. -/
def State.deliver (r : Fin 4) (s : State) : State :=
  match s.adv.expiry[r] with
  | none => s
  | some x => iter (State.takeUnitLaunch r) (x.left.length + 1) s

/-! ### The input side's part -/

/-- A line samples on the expiries that are reported as `r` (R107, R109). -/
def State.samplesOn (s : State) (r : Fin 4) : Bool :=
  (List.finRange 16).any fun k => (s.line k).source == .unit r

/-- The units that a line samples on count the advance: their expiries of TL are sample points that the
qualifiers take together with the advance itself (R109). A unit that no line samples on has no order with the
samples (R4, R148). -/
def State.countSources (s : State) : State :=
  (List.finRange 4).foldl (fun t r => if t.samplesOn r then t.countUnit r else t) s

/-- The qualifiers take their samples of TL (R109). -/
def State.takeSample (s : State) : State := if s.adv.sampleDue then s.countSources.sampleAll else s

/-- The next EDGE record is handed to the capture queue (R115). -/
def State.handEdge (s : State) : State :=
  match s.adv.edges with
  | [] => s
  | h :: hs => ({ s with adv := { s.adv with edges := hs } }).produce h

/-- The evaluation ends: the held vector takes its vector (R142). -/
def State.endEval (v : Word) (s : State) : State :=
  { s with pat := { s.pat with held := v }, adv := { s.adv with eval := none } }

/-- The pattern table takes the next entry of its evaluation, after the EDGE records (R115, R142). -/
def State.takePatternEntry (s : State) : State :=
  if s.adv.edges = [] then
    match s.adv.eval with
    | none => s
    | some x =>
      match x.left with
      | [] => s.endEval x.vector
      | k :: ks =>
        let t := ({ s with adv := { s.adv with eval := some { x with left := ks } } }).evalOne k x.vector
        if ks = [] then t.endEval x.vector else t
  else s

/-- The EDGE records and the evaluation of TL are carried to their end. -/
def State.finishInputs (s : State) : State :=
  let t := iter State.handEdge s.adv.edges.length s
  match t.adv.eval with
  | none => t
  | some x => iter State.takePatternEntry (x.left.length + 1) t

/-- The samples of TL and the evaluation that follows them are one event: once they have begun they are
carried to their end (R122, R142). -/
def State.evalFirst (s : State) : State := if s.adv.sampleDue then s else s.finishInputs

/-! ### The advance -/

/-- Nothing of the advance to TL is left to be taken. -/
def State.quiet (s : State) : Bool :=
  !s.adv.closeDue && !s.headDue && !(List.finRange 4).any (fun u => (s.unit u).owes)
    && !(List.finRange 4).any (fun u => s.adv.expiry[u].isSome)
    && !s.adv.sampleDue && s.adv.edges.isEmpty && s.adv.eval.isNone

/-- Every part of the advance to TL that is left is taken, in one fixed order of the owners. -/
def State.settle (s : State) : State :=
  if s.quiet then s
  else
    let t := s.closeWindows.takeDueEntries.countAll
    ((List.finRange 4).foldl (fun t r => t.deliver r) t).takeSample.finishInputs

/-- One part of the advance, if it is left to be taken. -/
def runJob (j : Job) (s : State) : State :=
  match j with
  | .entry => s.takeDueEntry
  | .count u => s.countUnit u
  | .swapPoint u => s.takeSwapPoint u
  | .unitLaunch u => s.takeUnitLaunch u
  | .sample => s.takeSample
  | .edge => s.handEdge
  | .patternEntry => s.takePatternEntry
  | .closeWindows => s.closeWindows

/-- TL advances by one; the divider count and the tick length in progress start anew (R1, R4); every owner
has the advance to take, with `pins` on the IN pins. -/
def State.beginAdvance (pins : Word) (s : State) : State :=
  { s with
    tb := { s.tb with tl := s.tb.tl + 1, divider := 0, tickLen := s.tb.tickdiv.toNat + 1 }
    iu := { s.iu with units := tabulate fun u : Fin 4 => { s.iu.units[u] with owes := true } }
    port := { s.port with inPins := pins }
    adv := { Advance.none with sampleDue := true, closeDue := true } }

/-- A tick: the advance before it is over, TL advances, and the owners take the parts named by `order`, and
then, with `whole`, every other part. While TBRUN = 0 no tick occurs (R1). -/
def State.tick (pins : Word) (order : List Job) (whole : Bool) (s : State) : State :=
  if s.tb.tbrun then
    let t := order.foldl (fun t j => runJob j t) (s.settle.beginAdvance pins)
    if whole then t.settle else t
  else s

/-- An expiry whose page is fixed, because it was a swap point or because the run controller has begun to take its
launches, is carried to its end: its launches read and bind that page (R60, R71). -/
def State.finishLaunches (s : State) : State :=
  (List.finRange 4).foldl
    (fun t r => if t.adv.expiry[r].any fun x => x.page.isSome then t.deliver r else t) s

/-- What a command completion finds taken at TL: every entry that is due, so that the list is ahead (R155), and
whatever else has begun; the launches of a swap point that has been taken are among it (R60). A unit's count, its
swap point and launches, and the samples of TL, while they have not begun, may be taken before or after the completion (R57, R61, R62, R136, R148; log 6). -/
def State.beforeCompletion (s : State) : State := s.takeDueEntries.finishLaunches.evalFirst

/-- What is handled as one event and has begun is carried to its end: the scheduler's handling, and the
qualifiers' with the evaluation that follows (R43, R122, R142). -/
def State.finishBegun (s : State) : State :=
  (if s.adv.schedBegun then s.takeDueEntries else s).evalFirst

end Sys2Proof.Machine
end

