-- ==== Sys2Proof/Machine/CommandBlock.lean ====
section
/-! DEFINITION. The command block: acceptance, completion, and each command with its results (chapter 9). -/

namespace Sys2Proof.Machine

/-- The result codes (R156). -/
inductive ResultCode
  | ok | started | restarted | queued | lateApplied | empty
  | ignored | notRunning | full | lateDropped | badArg | badDescriptor | pageBusy | swapPending | noSwap
  | state | unknownCommand | cleared
deriving DecidableEq, Repr

def ResultCode.code : ResultCode → BitVec 5
  | .ok => 0 | .started => 1 | .restarted => 2 | .queued => 3 | .lateApplied => 4 | .empty => 5
  | .ignored => 8 | .notRunning => 9 | .full => 10 | .lateDropped => 11 | .badArg => 12
  | .badDescriptor => 13 | .pageBusy => 14 | .swapPending => 15 | .noSwap => 16 | .state => 17
  | .unknownCommand => 18 | .cleared => 19

/-- A result of class error: code 8 or above (R155, R156). -/
def ResultCode.isError (r : ResultCode) : Bool := decide (8 ≤ r.code.toNat)

/-- Four result words. -/
def words4 (a b c d : Word) : Vector Word 4 := #v[a, b, c, d]

/-- All four result words 0. -/
def noWords : Vector Word 4 := words4 0 0 0 0

/-- What an owning block answers: the result code, the result words, and the state it leaves. -/
structure Answer where
  code : ResultCode
  words : Vector Word 4
  after : State
deriving DecidableEq, Repr

/-! ### Acceptance (R152 to R154) -/

/-- A write of ARG0 to ARG3 (R152). -/
def State.writeArg (i : Fin 4) (w : Word) (s : State) : State :=
  { s with cmd := { s.cmd with args := s.cmd.args.set i w } }

/-- A write of CMD: taken with copies of the argument words, or rejected while a command is in flight
(R153, R154). -/
def State.writeCmd (w : Word) (s : State) : State :=
  match s.cmd.inflight with
  | none =>
    { s with
      cmd :=
        { s.cmd with lastCode := w, inflight := some { code := w, args := s.cmd.args }, reject := false } }
  | some _ => ({ s with cmd := { s.cmd with reject := true } }).request .cmderr

/-- CMD_STATUS (section 11.8). -/
def CommandBlock.statusWord (c : CommandBlock) : Word :=
  place c.result 0 ||| placeBit c.reject 14 ||| placeBit c.inflight.isSome 15

/-! ### Completion (R155) -/

/-- Steps 2 to 4 of a completion: the result code and words are written, BUSY clears, CMDDONE is set, and
CMDERR with a result of class error (R155). -/
def Answer.finish (a : Answer) : State :=
  let s := a.after
  let t : State :=
    { s with cmd := { s.cmd with inflight := none, result := a.code.code, res := a.words } }
  (t.request .cmddone).requestIf a.code.isError .cmderr

/-- The command in flight completes, if its code and arguments are such as `p` says: the block that owns it
acts by `act`, on the state that `beforeCompletion` gives (R155). With no such command in flight there is nothing
to complete (log 8). -/
def State.complete (p : InFlight → Bool) (act : Vector Word 4 → State → Answer) (s : State) : State :=
  match s.cmd.inflight with
  | none => s
  | some f => if p f then (act f.args s.beforeCompletion).finish else s

/-- The command in flight has code `n`. -/
def hasCode (n : Word) (f : InFlight) : Bool := f.code == n

/-- BAD_ARG writes 0 to all four result words (R156). -/
def badArg (s : State) : Answer := { code := .badArg, words := noWords, after := s }

/-- An answer that leaves the state as it is. -/
def answer (r : ResultCode) (w : Vector Word 4) (s : State) : Answer := { code := r, words := w, after := s }

/-- The programme that an argument word names (R159, R160, R162). -/
def progOf (w : Word) : Option (Fin 8) := if h : w.toNat < 8 then some ⟨w.toNat, h⟩ else none

/-! ### SCHEDULE (R33 to R36, R157) -/

/-- The entry that a SCHEDULE command asks for, with its due time as formed at TL `n`, and whether its
late policy is DROP; none for BAD_ARG. -/
def scheduleEntry (a : Vector Word 4) (n : Time) : Option (Entry × Bool) :=
  let v := Time.ofHalves a[0] a[1]
  let kind := field a[2] 0 4
  let operand := field a[2] 4 4
  let tag := field a[3] 0 8
  let rel := bit a[3] 8
  if tag = 0 then none
  else if kind = 0 then none
  else if (Action.decode kind operand).isNone then none
  else if rel && (v = 0 || decide (2 ^ 31 ≤ v.toNat)) then none
  else
    some
      ({ due := if rel then n + v else v, origin := .direct tag, kind := kind, operand := operand,
         mark := bit a[2] 15 }, bit a[3] 9)

/-- SCHEDULE: inserted, applied late, dropped late, or refused with FULL (R25, R33 to R36, R157). -/
def completeSchedule (a : Vector Word 4) (s : State) : Answer :=
  match scheduleEntry a s.tl with
  | none => badArg s
  | some (e, drop) =>
    let w := words4 e.due.lo e.due.hi 0 0
    if reached e.due s.tl then
      if drop then answer .lateDropped w s.countLate
      else answer .lateApplied w (s.chain [.take e true]).countLate
    else if s.sched.directCount < directMax then answer .ok w (s.insertEntry e)
    else answer .full w s

/-! ### CANCEL (R39, R158) -/

def completeCancel (a : Vector Word 4) (s : State) : Answer :=
  let tag := field a[0] 0 8
  if tag = 0 then badArg s
  else
    let n := (s.sched.pel.filter fun e => e.hasTag tag).length
    answer .ok (words4 (BitVec.ofNat 16 n) 0 0 0) (s.setPel (s.sched.pel.filter fun e => !e.hasTag tag))

/-! ### Runs (R159 to R162) -/

/-- The result code of a LAUNCH command (R159). An internal launch is never discarded. -/
def LaunchResult.toCode : LaunchResult → ResultCode
  | .started => .started
  | .restarted => .restarted
  | .queued => .queued
  | .ignored => .ignored
  | .badDescriptor => .badDescriptor
  | .discarded => .ignored

def completeLaunch (a : Vector Word 4) (s : State) : Answer :=
  match progOf a[0] with
  | none => badArg s
  | some q =>
    let r := s.launchNow .command q
    let w := if r.1 = .started ∨ r.1 = .restarted then words4 s.tl.lo s.tl.hi 0 0 else noWords
    answer r.1.toCode w r.2

/-- ABORT: the run ends ABORTED, or NOT_RUNNING (R85, R160). -/
def completeAbort (a : Vector Word 4) (s : State) : Answer :=
  match progOf a[0] with
  | none => badArg s
  | some q =>
    match (s.slot q).run with
    | none => answer .notRunning noWords s
    | some r => answer .ok (words4 r.applied 0 0 0) (s.endRun q .aborted).2

/-- The number of RUNNING slots. -/
def State.runningCount (s : State) : Nat := ((List.finRange 8).filter fun p => s.running p).length

/-- ABORT_ALL: every RUNNING slot ends ABORTED, in ascending order (R85, R161). -/
def completeAbortAll (_a : Vector Word 4) (s : State) : Answer :=
  answer .ok (words4 (BitVec.ofNat 16 s.runningCount) 0 0 0)
    ((List.finRange 8).foldl (fun t p => (t.endRun p .aborted).2) s)

/-- The due time of the entry of slot `q` in the list; 0 for a slot with none (R89). -/
def State.nextDue (s : State) (q : Fin 8) : Time :=
  ((s.sched.pel.find? fun e => e.isRun q).map Entry.due).getD 0

/-- RES0 and RES1 of QUERY_RUN (R89; section 11.11). -/
def State.queryWord0 (s : State) (q : Fin 8) : Word :=
  let sl := s.slot q
  match sl.run with
  | none => placeBit sl.armed 10
  | some r =>
    place r.step 0 ||| placeBit true 8 ||| placeBit r.page.toBit 9 ||| placeBit sl.armed 10
      ||| placeBit r.launchPending 11

def State.queryWord1 (s : State) (q : Fin 8) : Word :=
  let sl := s.slot q
  place (match sl.run with | none => 0 | some r => r.passes) 0 ||| place sl.ignored 8

/-- QUERY_RUN (R89, R162). -/
def completeQueryRun (a : Vector Word 4) (s : State) : Answer :=
  match progOf a[0] with
  | none => badArg s
  | some q =>
    let d := if s.running q then s.nextDue q else 0
    answer .ok (words4 (s.queryWord0 q) (s.queryWord1 q) d.lo d.hi) s

/-! ### Pages (R57, R58, R62, R163) -/

/-- RES0 and RES1 of SWAP: the active page and whether a swap is pending, after the completion (R163). -/
def swapWords (t : Store) : Vector Word 4 := words4 (placeBit t.active.toBit 0) (placeBit t.swap.isSome 0) 0 0

def swapAnswer (r : ResultCode) (s : State) : Answer := answer r (swapWords s.store) s

/-- The checks of NOW and AT_UNIT (R57, R58): why the swap is refused, if it is. -/
def Store.swapRefusal (t : Store) : Option ResultCode :=
  if t.swap.isSome then some .swapPending
  else if t.stateOf t.active.other = .draining then some .pageBusy
  else none

/-- SWAP with mode NOW (R57). -/
def completeSwapNow (_a : Vector Word 4) (s : State) : Answer :=
  match s.store.swapRefusal with
  | some r => swapAnswer r s
  | none => swapAnswer .ok s.swapPages

/-- SWAP with mode AT_UNIT (R58, R163). -/
def completeAtUnit (a : Vector Word 4) (s : State) : Answer :=
  if h : a[1].toNat < 4 then
    match s.store.swapRefusal with
    | some r => swapAnswer r s
    | none => swapAnswer .ok { s with store := { s.store with swap := some ⟨a[1].toNat, h⟩ } }
  else badArg s

/-- SWAP with mode WITHDRAW (R62). -/
def completeWithdraw (_a : Vector Word 4) (s : State) : Answer :=
  if s.store.swap.isSome then swapAnswer .ok { s with store := { s.store with swap := none } }
  else swapAnswer .noSwap s

/-- The command in flight is a SWAP (code 6) with mode `m` (R163). -/
def isSwap (m : Word) (f : InFlight) : Bool := f.code == 6 && f.args[0] == m

/-- The command in flight is a SWAP with a mode that is none of NOW, AT_UNIT and WITHDRAW (R163). -/
def isBadSwap (f : InFlight) : Bool := f.code == 6 && decide (3 ≤ f.args[0].toNat)

/-! ### Inspection, the timeline, the queue (R164 to R167) -/

/-- PEEK_LIST (R42, R164). -/
def completePeekList (a : Vector Word 4) (s : State) : Answer :=
  match s.sched.pel[a[0].toNat]? with
  | none => answer .empty noWords s
  | some e => answer .ok (words4 e.due.lo e.due.hi e.actionWord e.tagWord) s

/-- LOAD_TIME (R8, R165). What is left of the advance to TL is taken first, at the value that it belongs to
(R4; log 6). -/
def completeLoadTime (a : Vector Word 4) (s₀ : State) : Answer :=
  let s := s₀.settle
  if s.sched.pel.isEmpty && s.runningCount == 0 then
    answer .ok noWords { s with tb := { s.tb with tl := Time.ofHalves a[0] a[1], snapshot := none } }
  else answer .state noWords s

/-- FLUSH_QUEUE (R136, R166). -/
def completeFlushQueue (_a : Vector Word 4) (s : State) : Answer :=
  answer .ok noWords { s with cap := s.cap.flush }

/-- Any code other than 1 to 10 (R167). -/
def completeUnknown (_a : Vector Word 4) (s : State) : Answer := answer .unknownCommand noWords s

def isUnknown (f : InFlight) : Bool := !(decide (1 ≤ f.code.toNat) && decide (f.code.toNat ≤ 10))

/-! ### CLEAR (R168) -/

/-- CLEAR abandons a command in flight with CLEARED and neither CMDDONE nor CMDERR (R168). -/
def CommandBlock.clear (c : CommandBlock) : CommandBlock :=
  match c.inflight with
  | none => c
  | some _ => { c with inflight := none, result := ResultCode.cleared.code, res := noWords }

end Sys2Proof.Machine
end

