-- ==== Sys2Proof/Machine/ExecCommands.lean ====
section
/-! DEFINITION. Meanings: the commands of the command block: CMD, and the completion of each command in flight (R153 to R167). -/

namespace Sys2Proof.Machine

/-- CMD is written (R153, R154). -/
def execCmd (w : Word) (s : State) : Host.Outcome State Fault Refusal :=
  .next (s.whenReady (State.writeCmd w))

/-- The SCHEDULE in flight completes (R33 to R36, R155, R157). -/
def execSchedule (s : State) : Host.Outcome State Fault Refusal :=
  .next (s.whenReady (State.complete (hasCode 1) completeSchedule))

/-- The CANCEL in flight completes (R39, R155, R158). -/
def execCancel (s : State) : Host.Outcome State Fault Refusal :=
  .next (s.whenReady (State.complete (hasCode 2) completeCancel))

/-- The LAUNCH in flight completes (R72 to R76, R155, R159). -/
def execLaunch (s : State) : Host.Outcome State Fault Refusal :=
  .next (s.whenReady (State.complete (hasCode 3) completeLaunch))

/-- The ABORT in flight completes (R85, R155, R160). -/
def execAbort (s : State) : Host.Outcome State Fault Refusal :=
  .next (s.whenReady (State.complete (hasCode 4) completeAbort))

/-- The ABORT_ALL in flight completes (R85, R155, R161). -/
def execAbortAll (s : State) : Host.Outcome State Fault Refusal :=
  .next (s.whenReady (State.complete (hasCode 5) completeAbortAll))

/-- The SWAP in flight with mode NOW completes (R57, R155, R163). A SWAP whose mode is none of the three, which has
no row of its own, completes here with BAD_ARG (log 9). -/
def execSwapNow (s : State) : Host.Outcome State Fault Refusal :=
  .next (s.whenReady fun t =>
    (t.complete (isSwap 0) completeSwapNow).complete isBadSwap fun _ => badArg)

/-- The SWAP in flight with mode AT_UNIT completes (R58, R155, R163). -/
def execAtUnit (s : State) : Host.Outcome State Fault Refusal :=
  .next (s.whenReady (State.complete (isSwap 1) completeAtUnit))

/-- The SWAP in flight with mode WITHDRAW completes (R62, R155, R163). -/
def execWithdraw (s : State) : Host.Outcome State Fault Refusal :=
  .next (s.whenReady (State.complete (isSwap 2) completeWithdraw))

/-- The QUERY_RUN in flight completes (R89, R155, R162). -/
def execQueryRun (s : State) : Host.Outcome State Fault Refusal :=
  .next (s.whenReady (State.complete (hasCode 7) completeQueryRun))

/-- The PEEK_LIST in flight completes (R42, R155, R164). -/
def execPeekList (s : State) : Host.Outcome State Fault Refusal :=
  .next (s.whenReady (State.complete (hasCode 8) completePeekList))

/-- The LOAD_TIME in flight completes (R8, R155, R165). -/
def execLoadTime (s : State) : Host.Outcome State Fault Refusal :=
  .next (s.whenReady (State.complete (hasCode 9) completeLoadTime))

/-- The FLUSH_QUEUE in flight completes (R136, R155, R166). -/
def execFlushQueue (s : State) : Host.Outcome State Fault Refusal :=
  .next (s.whenReady (State.complete (hasCode 10) completeFlushQueue))

/-- The command in flight, of any code other than 1 to 10, completes (R155, R167). -/
def execUnknownCommand (s : State) : Host.Outcome State Fault Refusal :=
  .next (s.whenReady (State.complete isUnknown completeUnknown))

end Sys2Proof.Machine
end

