-- ==== Sys2Proof/Config.lean ====
section
/-! DEFINITION. The free values: what the spec leaves to the world outside the part or to no rule. They
have no body, so that nothing proved can rest on a value of theirs (log 7). -/

namespace Sys2Proof

/-- The levels on IN0 to IN15 at the tick that the free-running clock makes while no command waits. -/
opaque Config.idlePins : Nat → Word

/-- The order in which the owners take the advance of that tick (R4 gives none). -/
opaque Config.idleOrder : Nat → List Job

end Sys2Proof
end

