-- ==== Sys2Proof/Machine/Port.lean ====
section
/-! DEFINITION. The port: RESET# and initialisation, CTRL and CLEAR, and every word of the register window
read and written (chapter 11; R1 to R9, R38, R67). -/

namespace Sys2Proof.Machine

/-! ### RESET# and initialisation (R182) -/

/-- The machine with every block at its reset value, in phase `p`, the IN pins and the queue of commands as
in `s`. -/
def State.resetTo (p : Phase) (s : State) : State :=
  { State.reset with
    port := { State.reset.port with phase := p, inPins := s.port.inPins }
    freeCount := s.freeCount
    pending := s.pending }

/-- RESET# goes high: the initialisation begins (R182). With RESET# high already nothing happens (the model's choice,
log 31). -/
def State.releaseReset (s : State) : State :=
  if s.port.phase = .resetLow then s.resetTo .initialising else s

/-- The initialisation ends: READY becomes 1 (R64, R182). It stands for the CLK cycles of the 2048 that are left; outside
the initialisation nothing happens (the model's choice, log 31). -/
def State.endInitialisation (s : State) : State :=
  if s.port.phase = .initialising then s.resetTo .ready else s

/-! ### Timebase (R2, R3, R6, R7) -/

/-- A write of TICKDIV: the low byte (R2). -/
def State.writeTickdiv (w : Word) (s : State) : State :=
  { s with tb := { s.tb with tickdiv := field w 0 8 } }

/-- The written TBRUN reaches the timebase (R3). -/
def State.writeTbrun (b : Bool) (s : State) : State :=
  if b && !s.tb.tbrun then
    { s with tb := { s.tb with tbrun := true, divider := 0, tickLen := s.tb.tickdiv.toNat + 1 } }
  else { s with tb := { s.tb with tbrun := b } }

/-- A read of TIME_LO (R6). -/
def State.readTimeLo (s : State) : Word × State :=
  (s.tl.lo, { s with tb := { s.tb with snapshot := some s.tl.hi } })

/-- A read of TIME_HI (R7). -/
def State.readTimeHi (s : State) : Word × State :=
  match s.tb.snapshot with
  | some v => (v, { s with tb := { s.tb with snapshot := none } })
  | none => (s.tl.hi, s)

/-! ### Scheduler and run controller words (R38, R66, R67) -/

/-- A write of LATE_COUNT of any value (R38). -/
def State.writeLateCount (s : State) : State := { s with sched := { s.sched with lateCount := 0 } }

/-- Every armed flag whose bit of `w` is 1 becomes `b` (R67). -/
def State.setArmed (w : Word) (b : Bool) (s : State) : State :=
  { s with
    slots := tabulate fun p : Fin 8 =>
      let sl := s.slot p
      if bit w p.val then { sl with armed := b } else sl }

/-- ARM (R67). -/
def State.armWord (s : State) : Word := maskOf fun p : Fin 8 => (s.slot p).armed

/-- RUN_STATE: the running mask in 7:0, the pending mask in 15:8 (R66). -/
def State.runStateWord (s : State) : Word :=
  maskOf (fun p : Fin 8 => s.running p)
    ||| (maskOf (fun p : Fin 8 => (s.slot p).run.any fun r => r.launchPending)) <<< 8

/-! ### CLEAR (R183) -/

/-- A slot after CLEAR: IDLE, disarmed, its ignored-launch count 0; the same-due time and count stay
(R91). -/
def Slot.clear (sl : Slot) : Slot := { sl with run := none, armed := false, ignored := 0 }

/-- CLEAR, at the value TL holds: every block's dynamic part, and then the output levels, whose reports
reach windows that this CLEAR has closed (R43, R63, R91, R106, R122, R138, R151, R168, R183). -/
def State.clearAll (s : State) : State :=
  State.clearOutputs
    { s with
      sched := { pel := [], lateCount := 0 }
      store := s.store.clear
      slots := tabulate fun p : Fin 8 => (s.slot p).clear
      inp := s.inp.clear
      cap := s.cap.clear
      pat := s.pat.clear
      cmd := s.cmd.clear }

/-- A write of CTRL: CLEAR first, then TBRUN and OUTEN at the same TL (R180). A CLEAR is taken before or
after what any owner handles as one event (R183). A write without CLEAR is taken after the whole of what is left of
the advance, whether or not it changes TBRUN or OUTEN: R102 gives a change of OUTEN before and after the handling
only, and for every other such write this is the model's choice (log 6). Parts of the advance that a CLEAR leaves untaken stay due, also when the same
write sets TBRUN to 0 (the model's choice, log 6). -/
def State.writeCtrl (w : Word) (s : State) : State :=
  let t := if bit w 15 then s.finishBegun.clearAll else s.settle
  (t.writeTbrun (bit w 0)).writeOuten (bit w 1)

/-- CTRL reads TBRUN and OUTEN (R180). -/
def State.ctrlWord (s : State) : Word := placeBit s.tb.tbrun 0 ||| placeBit s.out.outen 1

/-- STATUS (R181). -/
def State.statusWord (s : State) : Word :=
  placeBit (s.port.phase == .ready) 0 ||| placeBit s.store.swap.isSome 1
    ||| placeBit s.store.active.toBit 2

/-- ID (R181). -/
def idWord : Word := 0x1611

/-! ### Accesses (R178, R182) -/

/-- An index below `n` from a number. -/
def indexBelow (n k : Nat) : Option (Fin n) := if h : k < n then some ⟨k, h⟩ else none

/-- A write of an interval unit's word: `k` counts from 0x08 (section 11.7). COUNT is read-only. -/
def State.writeUnitWord (k : Nat) (w : Word) (s : State) : State :=
  match indexBelow 4 (k / 3), k % 3 with
  | some u, 0 => s.writeUnitCtrl u w
  | some u, 1 => s.writeReload u w
  | _, _ => s

/-- A write of a pattern entry's word: `k` counts from 0x50. The evaluation in progress, if it has begun,
is taken first (R142). -/
def State.writePatternWord (k : Nat) (w : Word) (s : State) : State :=
  let t := s.evalFirst
  match indexBelow 8 (k / 3), k % 3 with
  | some e, 0 => t.writeMaskValue e false w
  | some e, 1 => t.writeMaskValue e true w
  | some e, _ => t.writePctrl e w
  | none, _ => t

/-- A host write of the output stage's words is taken outside the handling of an advance (R99). -/
def State.writeOutputWord (a : Nat) (w : Word) (s : State) : State :=
  let t := s.settle
  match a with
  | 0x3A => t.writeOutPol w
  | 0x3B => t.writeOutIdle w
  | 0x3C => t.writeOutMode w
  | 0x3D => t.writeOutBset false w
  | 0x3E => t.writeOutBset true w
  | 0x3F => t.setLines w
  | 0x40 => t.clrLines w
  | 0x41 => t.toggleLines w
  | _ => s

/-- A write of the words of the command block and of the event unit: `a` from 0x70 up. CMD_STATUS, RES0 to
RES3 and EV_TOP are read-only. -/
def State.writeHighWord (a : Nat) (w : Word) (s : State) : State :=
  match a with
  | 0x70 => s.writeArg 0 w
  | 0x71 => s.writeArg 1 w
  | 0x72 => s.writeArg 2 w
  | 0x73 => s.writeArg 3 w
  | 0x74 => s.writeCmd w
  | 0x7A => s.writeEvFlags w
  | 0x7B => s.writeEvEnable w
  | 0x7C => s.writeEvLevel false w
  | 0x7D => s.writeEvLevel true w
  | 0x7E => s.writeEvThresh w
  | _ => s

/-- A write of the window word at address `a`, by the register window of section 11.7: words that are
read-only or unassigned ignore it (R178). -/
def State.writeWord (addr : BitVec 7) (w : Word) (s : State) : State :=
  let a := addr.toNat
  if a = 0x01 then s.writeCtrl w
  else if a = 0x02 then s.writeTickdiv w
  else if a = 0x06 then s.writeLateCount
  else if 0x08 ≤ a ∧ a ≤ 0x13 then s.writeUnitWord (a - 0x08) w
  else if a = 0x14 then s.writeIuPair w
  else if 0x20 ≤ a ∧ a ≤ 0x2F then
    match indexBelow 16 (a - 0x20) with
    | some n => s.writeLineCfg n w
    | none => s
  else if 0x32 ≤ a ∧ a ≤ 0x34 then
    match indexBelow 3 (a - 0x32) with
    | some k => s.writeBlankLen k w
    | none => s
  else if 0x3A ≤ a ∧ a ≤ 0x41 then s.writeOutputWord a w
  else if a = 0x4E then s.writeWmark w
  else if 0x50 ≤ a ∧ a ≤ 0x67 then s.writePatternWord (a - 0x50) w
  else if a = 0x68 then s.writeStoreAddr w
  else if a = 0x69 then s.writeStoreData w
  else if a = 0x6C then s.setArmed w true
  else if a = 0x6D then s.setArmed w false
  else if 0x70 ≤ a then s.writeHighWord a w
  else s

/-- What the words without a side effect show (section 11.7): the words of the timebase's and unit's
registers, of the qualifiers, the output stage, the capture queue, the pattern table, the store, the run
controller, the scheduler, the command block and the event unit. Unassigned and write-only words show 0. -/
def State.showWord (s : State) (a : Nat) : Word :=
  if a = 0x00 then idWord
  else if a = 0x01 then s.ctrlWord
  else if a = 0x02 then place s.tb.tickdiv 0
  else if a = 0x03 then s.statusWord
  else if a = 0x06 then s.sched.lateCount
  else if a = 0x07 then s.port.portErr
  else if 0x08 ≤ a ∧ a ≤ 0x13 then
    match indexBelow 4 ((a - 0x08) / 3), (a - 0x08) % 3 with
    | some u, 0 => (s.unit u).ctrlWord
    | some u, 1 => (s.unit u).r
    | some u, _ => (s.unit u).c
    | none, _ => 0
  else if a = 0x14 then s.iuPairWord
  else if 0x20 ≤ a ∧ a ≤ 0x2F then
    match indexBelow 16 (a - 0x20) with
    | some n => (s.line n).cfgWord
    | none => 0
  else if a = 0x30 then s.inp.rawVector
  else if a = 0x31 then s.inp.stableVector
  else if 0x32 ≤ a ∧ a ≤ 0x34 then
    match indexBelow 3 (a - 0x32) with
    | some k => place s.inp.lens[k] 0
    | none => 0
  else if a = 0x38 then s.out.logic
  else if a = 0x39 then s.out.pins
  else if a = 0x3A then s.out.pol
  else if a = 0x3B then s.out.idle
  else if a = 0x3C then place s.out.mode0.code 0 ||| place s.out.mode1.code 8
  else if a = 0x3D then Time.lo s.out.bset
  else if a = 0x3E then Time.hi s.out.bset
  else if a = 0x49 then s.cap.heldWord 1
  else if a = 0x4A then s.cap.heldWord 2
  else if a = 0x4B then s.cap.heldWord 3
  else if a = 0x4C then s.cap.heldWord 4
  else if a = 0x4D then BitVec.ofNat 16 s.cap.queue.length
  else if a = 0x4E then place s.cap.wmark 0
  else if a = 0x4F then s.cap.lost
  else if 0x50 ≤ a ∧ a ≤ 0x67 then
    match indexBelow 8 ((a - 0x50) / 3), (a - 0x50) % 3 with
    | some k, 0 => (s.entryAt k).mask
    | some k, 1 => (s.entryAt k).value
    | some k, _ => (s.entryAt k).ctrlWord
    | none, _ => 0
  else if a = 0x68 then s.store.addrWord
  else if a = 0x6A then s.store.pageStateWord
  else if a = 0x6B then s.armWord
  else if a = 0x6E then s.runStateWord
  else if a = 0x6F then s.sched.countWord
  else if 0x70 ≤ a ∧ a ≤ 0x73 then s.cmd.args.toList.getD (a - 0x70) 0
  else if a = 0x74 then s.cmd.lastCode
  else if a = 0x75 then s.cmd.statusWord
  else if 0x76 ≤ a ∧ a ≤ 0x79 then s.cmd.res.toList.getD (a - 0x76) 0
  else if a = 0x7A then s.ev.flags
  else if a = 0x7B then s.ev.enable
  else if a = 0x7C then s.ev.levelLo
  else if a = 0x7D then s.ev.levelHi
  else if a = 0x7E then place s.ev.thresh 0
  else if a = 0x7F then s.ev.topWord
  else 0

/-- The words that a read never shows partway through the handling of an advance, by rule: OUT_LOGIC and OUT_PIN
(R104), RUN_STATE (R66), PEL_COUNT (R41). IN_RAW and IN_STABLE (R120) change at one stroke in the samples. -/
def afterHandling (a : Nat) : Bool := a == 0x38 || a == 0x39 || a == 0x6E || a == 0x6F

/-- A read of the window word at address `addr` from READY on: the word returned, and the state after the read. The
words with a side effect take it (R178). The words of `afterHandling` are read after the whole of what is left
of the advance, which is then taken (the model's choice, log 12). Every other word shows what stands. -/
def State.takeRead (addr : BitVec 7) (s : State) : Word × State :=
  let a := addr.toNat
  if a = 0x04 then s.readTimeLo
  else if a = 0x05 then s.readTimeHi
  else if 0x08 ≤ a ∧ a ≤ 0x13 ∧ (a - 0x08) % 3 = 2 then
    match indexBelow 4 ((a - 0x08) / 3) with
    | some u => s.readCount u
    | none => (0, s)
  else if a = 0x48 then s.readCapr0
  else if a = 0x69 then s.readStoreData
  else if afterHandling a then (s.settle.showWord a, s.settle)
  else (s.showWord a, s)

/-- A read access: what D0 to D15 carry, none when they are not driven, and the state after it. During the
initialisation STATUS shows READY = 0, every other word reads 0, and no read has a side effect; while RESET# is low
D0 to D15 are not driven (R182). -/
def State.readWord (addr : BitVec 7) (s : State) : Option Word × State :=
  match s.port.phase with
  | .ready => (some (s.takeRead addr).1, (s.takeRead addr).2)
  | .initialising => (some (if addr = 0x03 then s.statusWord else 0), s)
  | .resetLow => (none, s)

/-- A read access as a command: what it carried stands in `port.dataOut`. -/
def State.readAccess (addr : BitVec 7) (s : State) : State := (s.readWord addr).2.drive (s.readWord addr).1

/-! ### CLK (R1, R182) -/

/-- One CLK cycle with no command waiting (log 7): the initialisation counts it, or the divider does while
TBRUN = 1; at the tick length in progress a tick occurs, with free values for what the spec leaves open. -/
def State.clkCycle (s : State) : State :=
  match s.port.phase with
  | .resetLow => s
  | .initialising =>
    if initCycles ≤ s.port.initClk + 1 then s.endInitialisation
    else { s with port := { s.port with initClk := s.port.initClk + 1 } }
  | .ready =>
    if s.tb.tbrun then
      if s.tb.tickLen ≤ s.tb.divider + 1 then
        State.tick (Config.idlePins s.freeCount) (Config.idleOrder s.freeCount) true
          { s with freeCount := s.freeCount + 1 }
      else { s with tb := { s.tb with divider := s.tb.divider + 1 } }
    else s

end Sys2Proof.Machine
end

