-- ==== Sys2Proof/Machine/ExecEvents.lean ====
section
/-! DEFINITION. Meanings: the commands of the event unit, and a write of any word of the window (R171, R172, R178). -/

namespace Sys2Proof.Machine

/-- EV_FLAGS is written (R171). -/
def execEvFlags (w : Word) (s : State) : Host.Outcome State Fault Refusal :=
  .next (s.whenReady (State.writeEvFlags w))

/-- EV_ENABLE is written (R172). -/
def execEvEnable (w : Word) (s : State) : Host.Outcome State Fault Refusal :=
  .next (s.whenReady (State.writeEvEnable w))

/-- EV_LEVEL_LO or EV_LEVEL_HI is written (R172). -/
def execEvLevel (hi : Bool) (w : Word) (s : State) : Host.Outcome State Fault Refusal :=
  .next (s.whenReady (State.writeEvLevel hi w))

/-- EV_THRESH is written (R172). -/
def execEvThresh (w : Word) (s : State) : Host.Outcome State Fault Refusal :=
  .next (s.whenReady (State.writeEvThresh w))

/-- REGISTER_WRITE: a write access to the window word at `a` is taken (R178). -/
def execRegisterWrite (a : BitVec 7) (w : Word) (s : State) : Host.Outcome State Fault Refusal :=
  .next (s.whenReady (State.writeWord a w))

end Sys2Proof.Machine
end

