-- ==== Sys2Proof/Machine/ExecInputs.lean ====
section
/-! DEFINITION. Meanings: the commands of the input qualifiers, the capture queue and the pattern table (R107, R116, R129, R132, R140,
R141). -/

namespace Sys2Proof.Machine

/-- LINE_CFGn is written (R107). -/
def execLineCfg (n : Fin 16) (w : Word) (s : State) : Host.Outcome State Fault Refusal :=
  .next (s.whenReady (State.writeLineCfg n w))

/-- BLANK_LEN of set `k` + 1 is written (R116). -/
def execBlankLen (k : Fin 3) (w : Word) (s : State) : Host.Outcome State Fault Refusal :=
  .next (s.whenReady (State.writeBlankLen k w))

/-- CAPR0 is read: the pop (R132, R133). -/
def execCapr0 (s : State) : Host.Outcome State Fault Refusal :=
  .next (s.readAccess 0x48)

/-- CAP_WMARK is written (R129). -/
def execCapWmark (w : Word) (s : State) : Host.Outcome State Fault Refusal :=
  .next (s.whenReady (State.writeWmark w))

/-- MASK or VALUE of entry `k` is written; an evaluation that has begun is taken first (R140, R142). -/
def execMaskValue (k : Fin 8) (value : Bool) (w : Word) (s : State) : Host.Outcome State Fault Refusal :=
  .next (s.whenReady fun t => t.evalFirst.writeMaskValue k value w)

/-- PCTRL of entry `k` is written; an evaluation that has begun is taken first (R141, R142). -/
def execPctrl (k : Fin 8) (w : Word) (s : State) : Host.Outcome State Fault Refusal :=
  .next (s.whenReady fun t => t.evalFirst.writePctrl k w)

end Sys2Proof.Machine
end

