-- ==== Sys2Proof/Machine/ExecOutputs.lean ====
section
/-! DEFINITION. Meanings: the commands of the output stage (R93 to R99). -/

namespace Sys2Proof.Machine

/-- OUT_MODE is written (R93, R94, R99). -/
def execOutMode (w : Word) (s : State) : Host.Outcome State Fault Refusal :=
  .next (s.whenReady fun t => t.settle.writeOutMode w)

/-- OUT_POL is written (R95, R99). -/
def execOutPol (w : Word) (s : State) : Host.Outcome State Fault Refusal :=
  .next (s.whenReady fun t => t.settle.writeOutPol w)

/-- OUT_IDLE is written (R95, R99). -/
def execOutIdle (w : Word) (s : State) : Host.Outcome State Fault Refusal :=
  .next (s.whenReady fun t => t.settle.writeOutIdle w)

/-- OUT_BSET_LO or OUT_BSET_HI is written (R96, R99). -/
def execOutBset (hi : Bool) (w : Word) (s : State) : Host.Outcome State Fault Refusal :=
  .next (s.whenReady fun t => t.settle.writeOutBset hi w)

/-- OUT_SET is written (R98, R99). -/
def execOutSet (w : Word) (s : State) : Host.Outcome State Fault Refusal :=
  .next (s.whenReady fun t => t.settle.setLines w)

/-- OUT_CLR is written (R98, R99). -/
def execOutClr (w : Word) (s : State) : Host.Outcome State Fault Refusal :=
  .next (s.whenReady fun t => t.settle.clrLines w)

/-- OUT_TOGGLE is written (R98, R99). -/
def execOutToggle (w : Word) (s : State) : Host.Outcome State Fault Refusal :=
  .next (s.whenReady fun t => t.settle.toggleLines w)

end Sys2Proof.Machine
end

