-- ==== Sys2Proof/Machine/ExecReset.lean ====
section
/-! DEFINITION. Meanings: the commands of the pin RESET#, of the initialisation and of CTRL (R3, R101, R102, R180, R182, R183). -/

namespace Sys2Proof.Machine

/-- RESET: RESET# is driven low; every block takes its reset value at once, from any state (R182). The commands
that wait stay in the queue (log 23). -/
def execReset (s : State) : Host.Outcome State Fault Refusal :=
  .next (s.resetTo .resetLow)

/-- RESET_RELEASE: RESET# goes high and the initialisation begins (R182). -/
def execResetRelease (s : State) : Host.Outcome State Fault Refusal :=
  .next (s.releaseReset)

/-- INITIALISATION_END: the 2048th CLK cycle of the initialisation; READY becomes 1 (R64, R182). -/
def execInitialisationEnd (s : State) : Host.Outcome State Fault Refusal :=
  .next (s.endInitialisation)

/-- TBRUN: a CTRL write (R3, R180). -/
def execTbrun (w : Word) (s : State) : Host.Outcome State Fault Refusal :=
  .next (s.whenReady (State.writeCtrl w))

/-- OUTEN_ON: a CTRL write that sets OUTEN (R102, R180). -/
def execOutenOn (w : Word) (s : State) : Host.Outcome State Fault Refusal :=
  .next (s.whenReady (State.writeCtrl w))

/-- OUTEN_OFF: a CTRL write that clears OUTEN (R101, R180). -/
def execOutenOff (w : Word) (s : State) : Host.Outcome State Fault Refusal :=
  .next (s.whenReady (State.writeCtrl w))

/-- CLEAR: a CTRL write with the CLEAR bit (R180, R183). -/
def execClear (w : Word) (s : State) : Host.Outcome State Fault Refusal :=
  .next (s.whenReady (State.writeCtrl w))

end Sys2Proof.Machine
end

