-- ==== Sys2Proof/Machine/ExecStore.lean ====
section
/-! DEFINITION. Meanings: the commands of the programme store and of the armed flags (R53, R54, R67). -/

namespace Sys2Proof.Machine

/-- STORE_DATA is read (R53). -/
def execStoreDataRead (s : State) : Host.Outcome State Fault Refusal :=
  .next (s.readAccess 0x69)

/-- STORE_DATA is written (R54). -/
def execStoreDataWrite (w : Word) (s : State) : Host.Outcome State Fault Refusal :=
  .next (s.whenReady (State.writeStoreData w))

/-- ARM_SET is written (R67). -/
def execArmSet (w : Word) (s : State) : Host.Outcome State Fault Refusal :=
  .next (s.whenReady (State.setArmed w true))

/-- ARM_CLR is written (R67). -/
def execArmClr (w : Word) (s : State) : Host.Outcome State Fault Refusal :=
  .next (s.whenReady (State.setArmed w false))

end Sys2Proof.Machine
end

