-- ==== Sys2Proof/Machine/ExecTime.lean ====
section
/-! DEFINITION. Meanings: the commands of the timebase and of the advance of the timeline (R1 to R7, R19, R26, R38, R118). -/

namespace Sys2Proof.Machine

/-- TICK: the tick in progress ends and the timeline advances (R1, R4; log 4, 18). -/
def execTick (pins : Word) (order : List Job) (whole : Bool) (s : State) : Host.Outcome State Fault Refusal :=
  .next (s.whenReady (State.tick pins order whole))

/-- IU_EXPIRY: the unit reported as `u` counts the advance, and its expiry, if it expires, goes to the event unit,
the qualifiers, the store and the run controller (R10, R16, R19, R59, R60, R71). -/
def execIuExpiry (u : Fin 4) (s : State) : Host.Outcome State Fault Refusal :=
  .next (s.whenReady fun t => (t.countUnit u).deliver u)

/-- ENTRY_DUE: the scheduler takes every entry due at TL, in list order (R26). -/
def execEntryDue (s : State) : Host.Outcome State Fault Refusal :=
  .next (s.whenReady State.takeDueEntries)

/-- WINDOW_CLOSE: at the advance each OPEN window that is not live becomes CLOSED (R118). -/
def execWindowClose (s : State) : Host.Outcome State Fault Refusal :=
  .next (s.whenReady State.closeWindows)

/-- TICKDIV is written (R2). -/
def execTickdiv (w : Word) (s : State) : Host.Outcome State Fault Refusal :=
  .next (s.whenReady (State.writeTickdiv w))

/-- TIME_LO is read (R6). -/
def execTimeLo (s : State) : Host.Outcome State Fault Refusal :=
  .next (s.readAccess 0x04)

/-- TIME_HI is read (R7). -/
def execTimeHi (s : State) : Host.Outcome State Fault Refusal :=
  .next (s.readAccess 0x05)

/-- LATE_COUNT is written, with any value (R38). -/
def execLateCount (_w : Word) (s : State) : Host.Outcome State Fault Refusal :=
  .next (s.whenReady State.writeLateCount)

end Sys2Proof.Machine
end

