-- ==== Sys2Proof/Machine/ExecUnits.lean ====
section
/-! DEFINITION. Meanings: the commands of the interval units (R11 to R18). -/

namespace Sys2Proof.Machine

/-- RUN: a write of the CTRL word of unit `u` (R11, R12, R16). -/
def execRun (u : Fin 4) (w : Word) (s : State) : Host.Outcome State Fault Refusal :=
  .next (s.whenReady (State.writeUnitCtrl u w))

/-- PRESET: a write of the CTRL word of unit `u` with the PRESET bit (R12, R16). -/
def execPreset (u : Fin 4) (w : Word) (s : State) : Host.Outcome State Fault Refusal :=
  .next (s.whenReady (State.writeUnitCtrl u w))

/-- PRESCALE: a write of the CTRL word of unit `u` (R12, R16). -/
def execPrescale (u : Fin 4) (w : Word) (s : State) : Host.Outcome State Fault Refusal :=
  .next (s.whenReady (State.writeUnitCtrl u w))

/-- RELOAD of unit `u` is written (R13, R16). -/
def execReload (u : Fin 4) (w : Word) (s : State) : Host.Outcome State Fault Refusal :=
  .next (s.whenReady (State.writeReload u w))

/-- IU_PAIR is written (R15). -/
def execIuPair (w : Word) (s : State) : Host.Outcome State Fault Refusal :=
  .next (s.whenReady (State.writeIuPair w))

/-- COUNT of unit `u` is read (R12, R17, R18). -/
def execCountRead (u : Fin 4) (s : State) : Host.Outcome State Fault Refusal :=
  .next (s.readAccess (BitVec.ofNat 7 (0x0A + 3 * u.val)))

end Sys2Proof.Machine
end

