-- ==== Sys2Proof/Machine/Dispatch.lean ====
section
/-! DEFINITION. The dispatch: one arm for each command of spec/opcode_table.json. -/

namespace Sys2Proof.Machine

def exec (i : Instr) (s : State) : Host.Outcome State Fault Refusal :=
  match i with
  | .reset => Sys2Proof.Machine.execReset s
  | .initialisationEnd => Sys2Proof.Machine.execInitialisationEnd s
  | .tick pins order whole => Sys2Proof.Machine.execTick pins order whole s
  | .iuExpiry u => Sys2Proof.Machine.execIuExpiry u s
  | .entryDue => Sys2Proof.Machine.execEntryDue s
  | .windowClose => Sys2Proof.Machine.execWindowClose s
  | .tickdiv w => Sys2Proof.Machine.execTickdiv w s
  | .tbrun w => Sys2Proof.Machine.execTbrun w s
  | .outenOn w => Sys2Proof.Machine.execOutenOn w s
  | .outenOff w => Sys2Proof.Machine.execOutenOff w s
  | .clear w => Sys2Proof.Machine.execClear w s
  | .timeLo => Sys2Proof.Machine.execTimeLo s
  | .timeHi => Sys2Proof.Machine.execTimeHi s
  | .run u w => Sys2Proof.Machine.execRun u w s
  | .preset u w => Sys2Proof.Machine.execPreset u w s
  | .prescale u w => Sys2Proof.Machine.execPrescale u w s
  | .reload u w => Sys2Proof.Machine.execReload u w s
  | .iuPair w => Sys2Proof.Machine.execIuPair w s
  | .countRead u => Sys2Proof.Machine.execCountRead u s
  | .lateCount w => Sys2Proof.Machine.execLateCount w s
  | .storeDataRead => Sys2Proof.Machine.execStoreDataRead s
  | .storeDataWrite w => Sys2Proof.Machine.execStoreDataWrite w s
  | .armSet w => Sys2Proof.Machine.execArmSet w s
  | .armClr w => Sys2Proof.Machine.execArmClr w s
  | .outMode w => Sys2Proof.Machine.execOutMode w s
  | .outPol w => Sys2Proof.Machine.execOutPol w s
  | .outIdle w => Sys2Proof.Machine.execOutIdle w s
  | .outBset hi w => Sys2Proof.Machine.execOutBset hi w s
  | .outSet w => Sys2Proof.Machine.execOutSet w s
  | .outClr w => Sys2Proof.Machine.execOutClr w s
  | .outToggle w => Sys2Proof.Machine.execOutToggle w s
  | .lineCfg n w => Sys2Proof.Machine.execLineCfg n w s
  | .blankLen k w => Sys2Proof.Machine.execBlankLen k w s
  | .capr0 => Sys2Proof.Machine.execCapr0 s
  | .capWmark w => Sys2Proof.Machine.execCapWmark w s
  | .maskValue k value w => Sys2Proof.Machine.execMaskValue k value w s
  | .pctrl k w => Sys2Proof.Machine.execPctrl k w s
  | .cmd w => Sys2Proof.Machine.execCmd w s
  | .schedule => Sys2Proof.Machine.execSchedule s
  | .cancel => Sys2Proof.Machine.execCancel s
  | .launch => Sys2Proof.Machine.execLaunch s
  | .abort => Sys2Proof.Machine.execAbort s
  | .abortAll => Sys2Proof.Machine.execAbortAll s
  | .swapNow => Sys2Proof.Machine.execSwapNow s
  | .atUnit => Sys2Proof.Machine.execAtUnit s
  | .withdraw => Sys2Proof.Machine.execWithdraw s
  | .queryRun => Sys2Proof.Machine.execQueryRun s
  | .peekList => Sys2Proof.Machine.execPeekList s
  | .loadTime => Sys2Proof.Machine.execLoadTime s
  | .flushQueue => Sys2Proof.Machine.execFlushQueue s
  | .unknownCommand => Sys2Proof.Machine.execUnknownCommand s
  | .evFlags w => Sys2Proof.Machine.execEvFlags w s
  | .evEnable w => Sys2Proof.Machine.execEvEnable w s
  | .evLevel hi w => Sys2Proof.Machine.execEvLevel hi w s
  | .evThresh w => Sys2Proof.Machine.execEvThresh w s
  | .registerWrite a w => Sys2Proof.Machine.execRegisterWrite a w s
  | .resetRelease => Sys2Proof.Machine.execResetRelease s

end Sys2Proof.Machine
end

