-- ==== Sys2Proof/Machine/Step.lean ====
section
/-! DEFINITION. One step: the command at the front of the queue. -/

namespace Sys2Proof.Machine

/-- One step takes the command at the front of the queue; on an empty queue one cycle of CLK passes
(DESIGN CHOICE, log 7). -/
def step (s : State) : Host.Outcome State Fault Refusal :=
  match s.pending with
  | [] => .next s.clkCycle
  | c :: rest => exec c { s with pending := rest }

/-- `s` with the command that the word spells at the front of its queue; `s` itself where the word spells
none, which is every word (log 27). -/
def State.withFetchWord (s : State) (nbits w : Nat) : State :=
  match decodeTableWord nbits w with
  | none => s
  | some c => { s with pending := c :: s.pending }

end Sys2Proof.Machine
end

