-- ==== Sys2Proof/Safety.lean ====
section
/-! DEFINITION. The laws that every step keeps, as predicates of a state: what the spec calls a law of the device,
and the ranges its state tables give. -/

namespace Sys2Proof.Machine

/-- The step does not stop: it answers a next state. -/
def Goes (s : State) : Prop := ∃ t, step s = .next t

/-- The commands that read a word (R178). -/
def isRead : Instr → Bool
  | .timeLo | .timeHi | .countRead _ | .storeDataRead | .capr0 => true
  | _ => false

/-- What a read puts on D0 to D15 before READY: 0 during the initialisation, nothing while RESET# is low (R182). -/
def earlyData (s : State) : Option Word := if s.port.phase = .initialising then some 0 else none

/-- `s` after the command in flight has completed with result code `r` and result words `w`: BUSY is clear, CMDDONE
is set, and CMDERR too with a result of class error (R155). -/
def completed (s : State) (r : BitVec 5) (w : Vector Word 4) : State :=
  { s with
    cmd := { s.cmd with inflight := none, result := r, res := w }
    ev := { s.ev with flags := s.ev.flags ||| 0x0080 ||| (if 8 ≤ r.toNat then 0x0100 else 0) } }

/-- From `s` to `t` the event unit has set event flags within `m`, and has changed nothing else (R170). -/
def FlagsSetWithin (m : Word) (s t : State) : Prop :=
  t.ev = { s.ev with flags := t.ev.flags } ∧ s.ev.flags &&& ~~~t.ev.flags = 0 ∧
    t.ev.flags &&& ~~~(s.ev.flags ||| m) = 0

/-- The windows of `s` after an event that takes the output stage to `o`: one report to each set with a line whose
pin level moved, while OUTEN = 1 (R103). -/
def windowsAfter (s : State) (o : Outputs) : Vector (Option Window) 3 :=
  tabulate fun k =>
    if s.out.outen = true ∧ ∃ n : Fin 16, s.out.pins.getLsbD n.val ≠ o.pins.getLsbD n.val ∧
        o.bset.extractLsb' (2 * n.val) 2 = BitVec.ofNat 2 (k.val + 1) then
      windowAfterReport s.inp.lens[k] s.tl s.inp.windows[k]
    else s.inp.windows[k]

/-! ### Timebase and interval units -/

/-- The divider count lies in the tick in progress, whose length is 1 to 256 (R1, R2). -/
def TimebaseLaw (s : State) : Prop := s.tb.divider < s.tb.tickLen ∧ s.tb.tickLen ≤ 256

/-- The prescale phase is 0 to P - 1 (R10); the odd unit of a cascaded pair is STOPPED (R16). -/
def UnitLaw (s : State) : Prop :=
  (∀ u : Fin 4, (s.unit u).phase < prescaleTicks (s.unit u).prescale) ∧
    ∀ u : Fin 4, isOdd u = true → s.cascaded u = true → (s.unit u).running = false

/-! ### Scheduler -/

/-- The list is in the order of the time remaining, and no entry of it is further away than 2^31 ticks
(R22, R23). -/
def ListOrdered (s : State) : Prop :=
  s.sched.pel.Pairwise (fun x y => remaining x.due s.tl ≤ remaining y.due s.tl) ∧
    ∀ e ∈ s.sched.pel, remaining e.due s.tl ≤ 2 ^ 31

/-- No more than 24 DIRECT entries (R24). -/
def DirectBounded (s : State) : Prop := s.sched.directCount ≤ directMax

/-! ### Run controller and programme store -/

/-- One RUN entry for each RUNNING slot, that of its current step, and none for an IDLE slot (R24, R65). -/
def RunEntryLaw (s : State) : Prop :=
  ∀ p : Fin 8,
    match (s.slot p).run with
    | none => ∀ e ∈ s.sched.pel, e.isRun p = false
    | some r => (s.sched.pel.filter fun e => e.isRun p).map Entry.origin = [.run p r.step]

/-- The number of RUNNING runs bound to a page. -/
def boundRuns (s : State) (g : Page) : Nat :=
  ((List.finRange 8).filter fun p => ((s.slot p).run.map Run.page) == some g).length

/-- Each bound-run count is the number of RUNNING runs bound to the page (R48), and a swap is pending only
while the other page is OPEN (R57). -/
def BindingLaw (s : State) : Prop :=
  (∀ g, s.store.bound g = boundRuns s g) ∧
    (s.store.swap.isSome = true → s.store.stateOf s.store.active.other = .open_)

/-- No slot has applied more than 32 steps of one due time (R78). -/
def SameDueLaw (s : State) : Prop := ∀ p : Fin 8, (s.slot p).dueCount ≤ sameDueMax

/-- Both pages are in canonical form, within the fields of their words (R44). -/
def PagesWf (s : State) : Prop := Memory.wf s.store.pageA ∧ Memory.wf s.store.pageB

/-! ### Capture queue -/

/-- No more than 128 records are stored, and the watermark is 1 to 128 (R125, R129). -/
def CaptureBounded (s : State) : Prop :=
  s.cap.queue.length ≤ capDepth ∧ 1 ≤ s.cap.wmark.toNat ∧ s.cap.wmark.toNat ≤ 128

/-- Of two records stored one after the other the later has the seq of the earlier plus its gap plus one,
unless it carries GAP_SAT; and the sequence counter stands so to the newest record and LOST (R126). -/
def SeqLaw (s : State) : Prop :=
  (∀ (i : Nat) (x y : Record),
      s.cap.queue[i]? = some x → s.cap.queue[i + 1]? = some y → y.gapSat = false →
        y.seq = x.seq + y.gap + 1) ∧
    ∀ x, s.cap.queue.getLast? = some x → s.cap.lost.toNat ≤ 255 →
      s.cap.seq = x.seq + s.cap.lost.setWidth 8 + 1

/-! ### Input qualifiers and pattern table -/

/-- The candidate count of every line is 0 to Q - 1 (R112). -/
def CandidateLaw (s : State) : Prop := ∀ n : Fin 16, (s.line n).count ≤ (s.line n).qualify.toNat

/-- The divide counter of every entry is 0 to D - 1 (R144). -/
def DivideLaw (s : State) : Prop := ∀ k : Fin 8, (s.entryAt k).counter ≤ (s.entryAt k).divide.toNat

/-- Outside an evaluation the held vector is the stable vector, and every match state is that of the held
vector (section 8.1, R139 to R142); in an evaluation the vector evaluated is the stable vector, and the
entries already taken have its match state. Samples that are still due come before any evaluation. -/
def PatternLaw (s : State) : Prop :=
  (s.adv.sampleDue = true → s.adv.eval = none ∧ s.adv.edges = []) ∧
    match s.adv.eval with
    | none =>
      s.pat.held = s.inp.stableVector ∧
        ∀ k : Fin 8, (s.entryAt k).matched = (s.entryAt k).matches s.pat.held
    | some x =>
      x.vector = s.inp.stableVector ∧ x.left.Nodup ∧
        ∀ k : Fin 8, (s.entryAt k).matched =
          (s.entryAt k).matches (if k ∈ x.left then s.pat.held else x.vector)

end Sys2Proof.Machine
end

