-- ==== Sys2Proof/WellFormed.lean ====
section
/-! DEFINITION. The checks on a command as it is sent: a row that names one value of an action or enable
bit carries a word with that value, and REGISTER_WRITE names a word with no behaviour of its own (R178).
`exec` gives a meaning to every term, well formed or not. -/

namespace Sys2Proof

/-- The window addresses whose write has a row of its own in the table: every other address is one of
REGISTER_WRITE's (STORE_ADDR, ARG0 to ARG3, the read-only words and the unassigned ones). -/
def hasOwnWriteRow (a : BitVec 7) : Bool :=
  let n := a.toNat
  n == 0x01 || n == 0x02 || n == 0x06
    || (0x08 ≤ n && n ≤ 0x13 && n % 3 != 1)
    || n == 0x14 || (0x20 ≤ n && n ≤ 0x2F) || (0x32 ≤ n && n ≤ 0x34)
    || (0x3A ≤ n && n ≤ 0x41) || n == 0x4E || (0x50 ≤ n && n ≤ 0x67)
    || n == 0x69 || n == 0x6C || n == 0x6D || n == 0x74 || (0x7A ≤ n && n ≤ 0x7E)

/-- The check that a sender's command meets. -/
def Instr.wf : Instr → Bool
  | .outenOn w => w.getLsbD 1
  | .outenOff w => !w.getLsbD 1
  | .clear w => w.getLsbD 15
  | .preset _ w => w.getLsbD 15
  | .registerWrite a _ => !hasOwnWriteRow a
  | _ => true

end Sys2Proof
end

