-- ==== Sys2Proof/Certificates/Slice0/Obligations.lean ====
section
/-! DEFINITION. The statements for the provers, in the order of OBLIGATIONS.json. "Answers next" in a statement is
an equation `exec c s = .next t` for the `t` that the rules give. -/

open Sys2Proof Sys2Proof.Machine

/-! ### The step, RESET# and the queue of commands -/

/-- A step of a state with `c` at the front of its queue is `exec c` on the state with the queue's rest. -/
def Obligations.StepRunsTheFrontCommand : Prop :=
  ∀ (c : Instr) (rest : List Instr) (s : State),
    s.pending = c :: rest → step s = exec c { s with pending := rest }

/-- On an empty queue one CLK cycle passes (the model's choice, log 7): it counts the initialisation, whose 2048th
cycle ends it (R182), or the divider while TBRUN = 1, whose reaching the tick length in progress is a tick (R1). -/
def Obligations.EmptyQueuePassesOneClkCycle : Prop :=
  ∀ s : State, s.pending = [] →
    (s.port.phase = .resetLow → step s = .next s) ∧
    (s.port.phase = .initialising → s.port.initClk + 1 < 2048 →
      step s = .next { s with port := { s.port with initClk := s.port.initClk + 1 } }) ∧
    (s.port.phase = .initialising → 2048 ≤ s.port.initClk + 1 → step s = exec .initialisationEnd s) ∧
    (s.port.phase = .ready → s.tb.tbrun = false → step s = .next s) ∧
    (s.port.phase = .ready → s.tb.tbrun = true → s.tb.divider + 1 < s.tb.tickLen →
      step s = .next { s with tb := { s.tb with divider := s.tb.divider + 1 } }) ∧
    (s.port.phase = .ready → s.tb.tbrun = true → s.tb.tickLen ≤ s.tb.divider + 1 →
      ∃ pins order, step s = exec (.tick pins order true) { s with freeCount := s.freeCount + 1 })

/-- What every window word reads after the initialisation, and that no pin is driven (R9, R20, R43, R51, R90, R105,
R121, R137, R150, R169, R176, R181). -/
def Obligations.WindowAfterReset : Prop :=
  (∀ a : BitVec 7,
    (State.reset.readWord a).1 =
      some (if a = 0x00 then 0x1611
      else if a = 0x03 then 0x0001
      else if a = 0x4E then 0x0001
      else if a = 0x6A then 0x0002
      else if 0x50 ≤ a.toNat ∧ a.toNat ≤ 0x67 ∧ (a.toNat - 0x50) % 3 = 2 then 0x8000
      else 0x0000)) ∧
    State.reset.irqLow = false ∧ (∀ n, State.reset.pinDrive n = none) ∧ State.reset.tb.tl = 0

/-- RESET, RESET_RELEASE and INITIALISATION_END in every phase: every block takes its reset value; what stays is the
queue of commands (the model's choice, log 23), the levels on the IN pins and the model's own counter (R182). That
INITIALISATION_END ends the initialisation at any count of CLK cycles, and that it and RESET_RELEASE change nothing out
of their phase, is the model's choice (log 31). -/
def Obligations.ResetAndInitialisation : Prop :=
  ∀ s : State,
    let at_ : Phase → State := fun p =>
      { State.reset with
        port := { State.reset.port with phase := p, inPins := s.port.inPins }
        freeCount := s.freeCount
        pending := s.pending }
    exec .reset s = .next (at_ .resetLow) ∧
    (s.port.phase = .resetLow → exec .resetRelease s = .next (at_ .initialising)) ∧
    (s.port.phase ≠ .resetLow → exec .resetRelease s = .next s) ∧
    (s.port.phase = .initialising → exec .initialisationEnd s = .next (at_ .ready)) ∧
    (s.port.phase ≠ .initialising → exec .initialisationEnd s = .next s)

/-- Before READY no command but those of RESET# and of the initialisation changes any state; a read during the
initialisation returns 0 with no side effect, but for STATUS, which shows READY = 0; while RESET# is low the data
lines are not driven in a read of any word (R182). -/
def Obligations.NothingActsBeforeReady : Prop :=
  ∀ (c : Instr) (s : State), s.port.phase ≠ .ready →
    (c ≠ .reset → c ≠ .resetRelease → c ≠ .initialisationEnd →
      exec c s =
        .next (if isRead c then { s with port := { s.port with dataOut := earlyData s } } else s)) ∧
    (s.port.phase = .resetLow → ∀ a, s.readWord a = (none, s)) ∧
    (s.port.phase = .initialising → (∀ a, a ≠ 0x03 → s.readWord a = (some 0, s)) ∧
      ∃ w, s.readWord 0x03 = (some w, s) ∧ w.getLsbD 0 = false)

/-- Every command answers a next state in every state, and leaves the queue of commands as it is. That RESET too
leaves the commands that wait as they are is the model's choice (log 23); the spec speaks of no queue. -/
def Obligations.EveryCommandGoesAndKeepsTheQueue : Prop :=
  ∀ (c : Instr) (s : State), ∃ t, exec c s = .next t ∧ t.pending = s.pending

/-! ### Timebase, CTRL and CLEAR -/

/-- TICKDIV: stored at once, low byte only; it reads back; the tick in progress keeps its length and the tick that
begins next takes the new one (R2). -/
def Obligations.TickdivGovernsTheNextTick : Prop :=
  ∀ (s : State) (w : Word), s.port.phase = .ready →
    exec (.tickdiv w) s = .next { s with tb := { s.tb with tickdiv := w.setWidth 8 } } ∧
    ∀ t, exec (.tickdiv w) s = .next t →
      t.tb.tickLen = s.tb.tickLen ∧ t.tb.divider = s.tb.divider ∧ (t.readWord 0x02).1 = some (w &&& 0x00FF) ∧
      ∀ pins order whole u, t.tb.tbrun = true → exec (.tick pins order whole) t = .next u →
        u.tb.tickLen = (w &&& 0x00FF).toNat + 1

/-- TICK with TBRUN = 1: TL advances by one and wraps, the divider count returns to 0 and the tick length is
reloaded; what no owner's handling of the advance reaches keeps its value, the configuration of every line and pattern
entry and the holding record among it. With TBRUN = 0 no tick occurs (R1, R4). That TICK first takes what is left of
the advance before it, and then the parts of the new one in the order of its operand, whole or not, is the model's
choice (log 4): the spec gives the owners no order. -/
def Obligations.TickAdvancesTheTimeline : Prop :=
  ∀ (s : State) (pins : Word) (order : List Job) (whole : Bool), s.port.phase = .ready →
    (s.tb.tbrun = false → exec (.tick pins order whole) s = .next s) ∧
    (s.tb.tbrun = true →
      ∃ t, exec (.tick pins order whole) s = .next t ∧
        (let jobs := order.foldl (fun u j => runJob j u) (s.settle.beginAdvance pins)
         t = if whole then jobs.settle else jobs) ∧
        t.tb = { s.tb with tl := s.tb.tl + 1, divider := 0, tickLen := s.tb.tickdiv.toNat + 1 } ∧
        t.port = { s.port with inPins := pins } ∧ t.cmd = s.cmd ∧ t.iu.pairs = s.iu.pairs ∧
        t.inp.lens = s.inp.lens ∧ t.out = { s.out with logic := t.out.logic } ∧
        t.ev = { s.ev with flags := t.ev.flags } ∧ s.ev.flags &&& ~~~t.ev.flags = 0 ∧
        t.store.pageA = s.store.pageA ∧ t.store.pageB = s.store.pageB ∧ t.store.addr = s.store.addr ∧
        t.store.addrPage = s.store.addrPage ∧ t.sched.lateCount = s.sched.lateCount ∧
        t.cap.wmark = s.cap.wmark ∧ t.cap.holding = s.cap.holding ∧
        (∀ n, (t.line n).source = (s.line n).source ∧ (t.line n).qualify = (s.line n).qualify ∧
          (t.line n).edgeMode = (s.line n).edgeMode ∧ (t.line n).bset = (s.line n).bset) ∧
        (∀ k, ∃ c m, t.entryAt k = { s.entryAt k with counter := c, matched := m }) ∧ t.pending = s.pending ∧
        ∀ u, (t.unit u).r = (s.unit u).r ∧ (t.unit u).mode = (s.unit u).mode ∧
          (t.unit u).prescale = (s.unit u).prescale)

/-- After a TICK that is handled whole nothing of the advance is left, and no entry of the list has a due time that
the timeline has reached (R26, R32); the same holds wherever an advance is settled. Where a completion is taken the list is ahead too (R155);
what else is then taken is the model's reading (log 6). -/
def Obligations.WholeTickLeavesNoEntryDue : Prop :=
  ∀ s : State, ListOrdered s →
    (s.settle.quiet = true ∧ ∀ e ∈ s.settle.sched.pel, ahead e.due s.tl = true) ∧
    (∀ e ∈ s.beforeCompletion.sched.pel, ahead e.due s.tl = true) ∧
    ∀ (pins : Word) (order : List Job), s.port.phase = .ready → s.tb.tbrun = true →
      ∃ t, exec (.tick pins order true) s = .next t ∧ t.quiet = true ∧
        ∀ e ∈ t.sched.pel, ahead e.due (s.tl + 1) = true

/-- The reads with a side effect, each with all it changes: TIME_LO, TIME_HI (R6, R7), COUNT (R12, R17, R18),
CAPR0 (R132, R133) and STORE_DATA (R53). A read of any other word shows what stands and changes no state (R178), but that
OUT_LOGIC, OUT_PIN, RUN_STATE and PEL_COUNT are read after the whole of the advance in progress, which is then taken
(R41, R66, R104; that it is taken then is the model's choice, log 12). -/
def Obligations.ReadsAndTheirSideEffects : Prop :=
  ∀ s : State, s.port.phase = .ready →
    (∀ a : BitVec 7, a = 0x38 ∨ a = 0x39 ∨ a = 0x6E ∨ a = 0x6F →
      s.readWord a = (some (s.settle.showWord a.toNat), s.settle)) ∧
    (∀ a : BitVec 7, a ≠ 0x04 → a ≠ 0x05 → a ≠ 0x48 → a ≠ 0x69 →
      a ≠ 0x38 → a ≠ 0x39 → a ≠ 0x6E → a ≠ 0x6F →
      (∀ u : Fin 4, a.toNat = 0x0A + 3 * u.val → s.cascaded u = false) →
      s.readWord a = (some (s.showWord a.toNat), s)) ∧
    exec .timeLo s = .next
      { s with tb := { s.tb with snapshot := some (s.tb.tl >>> 16 |>.setWidth 16) }
               port := { s.port with dataOut := some (s.tb.tl.setWidth 16) } } ∧
    exec .timeHi s = .next
      { s with tb := { s.tb with snapshot := none }
               port := { s.port with
                 dataOut := some (s.tb.snapshot.getD (s.tb.tl >>> 16 |>.setWidth 16)) } } ∧
    (∀ u, s.cascaded u = false → exec (.countRead u) s = .next
      { s with port := { s.port with dataOut := some (s.unit u).c } }) ∧
    (∀ u, s.cascaded u = true → isOdd u = false → exec (.countRead u) s = .next
      { s.setPair (pairOf u) { cascade := true, snapshot := some (s.unit (oddOf u)).c } with
        port := { s.port with dataOut := some (s.unit u).c } }) ∧
    (∀ u, s.cascaded u = true → isOdd u = true → exec (.countRead u) s = .next
      { s.setPair (pairOf u) { cascade := true, snapshot := none } with
        port := { s.port with dataOut := some (s.iu.pairs[pairOf u].snapshot.getD (s.unit u).c) } }) ∧
    (s.cap.queue = [] → exec .capr0 s = .next
      { s with cap := { s.cap with holding := none }, port := { s.port with dataOut := some 0 } }) ∧
    (∀ x rest, s.cap.queue = x :: rest → exec .capr0 s = .next
      { s with cap := { s.cap with queue := rest, holding := some x }
               port := { s.port with dataOut := some (x.word 0) } }) ∧
    exec .storeDataRead s = .next
      { s with store := { s.store with addr := s.store.addr + 1 }
               port := { s.port with
                 dataOut := some (if s.store.addr.toNat < 272 then
                   Memory.read (s.store.page s.store.addrPage) s.store.addr.toNat else 0) } }

/-- A TIME_LO read and the TIME_HI read after it give the two halves of one value of TL, however many ticks lie
between them; an even and an odd COUNT read of a cascaded pair give the two halves of one counter (R7, R17). -/
def Obligations.TwoHalvesOfOneValue : Prop :=
  ∀ (s : State) (ticks : List Instr), s.port.phase = .ready →
    (∀ c ∈ ticks, ∃ pins order whole, c = .tick pins order whole) →
    (s.pending = .timeLo :: (ticks ++ [.timeHi]) →
      ∃ t v, core.run 1 s = .next t ∧ t.port.dataOut = some (s.tb.tl.setWidth 16) ∧
        core.run (ticks.length + 2) s = .next v ∧
        v.port.dataOut = some (s.tb.tl >>> 16 |>.setWidth 16)) ∧
    ∀ u, s.cascaded u = true → isOdd u = false →
      s.pending = .countRead u :: (ticks ++ [.countRead (oddOf u)]) →
      ∃ t v, core.run 1 s = .next t ∧ t.port.dataOut = some (s.unit u).c ∧
        core.run (ticks.length + 2) s = .next v ∧ v.port.dataOut = some (s.unit (oddOf u)).c

/-- A CTRL write without the CLEAR bit, under whichever of its rows: TBRUN by R3, OUTEN by R101 and R102 (one report
to each set that an output line is assigned to when OUTEN goes from 0 to 1, none otherwise), taken after what is
left of the advance in progress, whatever the write changes (the model's choice, log 6). -/
def Obligations.CtrlWriteWithoutClear : Prop :=
  ∀ (s : State) (w : Word) (c : Instr), s.port.phase = .ready → w.getLsbD 15 = false →
    c = .tbrun w ∨ c = .outenOn w ∨ c = .outenOff w ∨ c = .clear w →
    let b := s.settle
    exec c s = .next
      { b with
        tb :=
          if w.getLsbD 0 = true ∧ s.tb.tbrun = false then
            { s.tb with tbrun := true, divider := 0, tickLen := s.tb.tickdiv.toNat + 1 }
          else { s.tb with tbrun := w.getLsbD 0 }
        out := { b.out with outen := w.getLsbD 1 }
        inp :=
          { b.inp with
            windows := tabulate fun k =>
              if w.getLsbD 1 = true ∧ s.out.outen = false ∧
                  ∃ n : Fin 16, b.out.setOf n = BitVec.ofNat 2 (k.val + 1) then
                windowAfterReport b.inp.lens[k] s.tl b.inp.windows[k]
              else b.inp.windows[k] } }

/-- CLEAR, under whichever row of CTRL: every block's dynamic part by the table of R183, the windows left closed but
for fresh ones from the CLEAR's own reports or those of OUTEN going to 1 in the same write (R106, R180); what is kept
is kept. A handling that has begun is carried to its end first (R43, R122, R142). -/
def Obligations.ClearResetsTheDynamicState : Prop :=
  ∀ (s : State) (w : Word) (c : Instr), s.port.phase = .ready → w.getLsbD 15 = true →
    c = .tbrun w ∨ c = .outenOn w ∨ c = .outenOff w ∨ c = .clear w →
    let b := s.finishBegun
    let idle : Outputs := { b.out with logic := b.out.idle }
    (s.adv.schedBegun = false → s.adv.sampleDue = true ∨ (s.adv.edges = [] ∧ s.adv.eval = none) → b = s) ∧
    exec c s = .next
      { b with
        tb :=
          if w.getLsbD 0 = true ∧ s.tb.tbrun = false then
            { s.tb with tbrun := true, divider := 0, tickLen := s.tb.tickdiv.toNat + 1 }
          else { s.tb with tbrun := w.getLsbD 0 }
        sched := { pel := [], lateCount := 0 }
        store := { b.store with boundA := 0, boundB := 0, swap := none }
        slots := tabulate fun p => { b.slot p with run := none, armed := false, ignored := 0 }
        out := { idle with outen := w.getLsbD 1 }
        inp :=
          { b.inp with
            lines := tabulate fun n => { b.line n with count := 0, awaiting := true }
            windows := tabulate fun k =>
              if b.inp.lens[k] ≠ 0 ∧
                  ((b.out.outen = true ∧ ∃ n : Fin 16, b.out.setOf n = BitVec.ofNat 2 (k.val + 1) ∧
                      bit b.out.pins n.val ≠ bit idle.pins n.val) ∨
                   (b.out.outen = false ∧ w.getLsbD 1 = true ∧
                      ∃ n : Fin 16, b.out.setOf n = BitVec.ofNat 2 (k.val + 1))) then
                some { opened := s.tl, until_ := s.tl + b.inp.lens[k].setWidth 32 }
              else none }
        cap := { b.cap with queue := [], seq := 0, lost := 0, holding := none }
        pat :=
          { b.pat with
            entries := tabulate fun k =>
              { b.entryAt k with
                counter := 0, matched := b.pat.held &&& (b.entryAt k).mask == (b.entryAt k).value } }
        cmd :=
          if b.cmd.inflight.isSome then
            { b.cmd with inflight := none, result := 19, res := Vector.replicate 4 0 }
          else b.cmd }

/-- LATE_COUNT: a write of any value sets it to 0 (R38). ARM_SET and ARM_CLR: the armed flags of the programmes
written as 1, the upper byte ignored; no run changes (R67). RELOAD: R is stored and nothing else moves (R13). -/
def Obligations.LateCountArmAndReloadWrites : Prop :=
  ∀ (s : State) (w : Word), s.port.phase = .ready →
    exec (.lateCount w) s = .next { s with sched := { s.sched with lateCount := 0 } } ∧
    exec (.armSet w) s = .next
      { s with slots := tabulate fun p => { s.slot p with armed := (s.slot p).armed || w.getLsbD p.val } } ∧
    exec (.armClr w) s = .next
      { s with slots := tabulate fun p => { s.slot p with armed := (s.slot p).armed && !w.getLsbD p.val } } ∧
    ∀ u, exec (.reload u w) s = .next (s.setUnit u { s.unit u with r := w })

/-! ### Interval units -/

/-- RUN, PRESET and PRESCALE are writes of a unit's CTRL word: start, stop, preset, mode and prescale, the phase, and
the advance that produced TL left uncounted after a start, a preset or a change of P (R11, R12); the odd half of a
cascaded pair is loaded with the even one, and the odd CTRL word of such a pair stores MODE and PRESCALE only (R16).
That a change of P sets the phase of the odd unit too is the model's reading (log 16). -/
def Obligations.UnitCtrlWrites : Prop :=
  ∀ (s : State) (u : Fin 4) (w : Word) (c : Instr), s.port.phase = .ready →
    c = .run u w ∨ c = .preset u w ∨ c = .prescale u w →
    let x := s.unit u
    let p := w.extractLsb' 2 2
    let fresh := w.getLsbD 15 || p != x.prescale || (w.getLsbD 0 && !x.running)
    ∃ t, exec c s = .next t ∧ t = { s with iu := { s.iu with units := t.iu.units } } ∧
      ((s.cascaded u = true ∧ isOdd u = true) →
        t.unit u =
          { x with prescale := p, phase := if p = x.prescale then x.phase else 0, mode := .ofBit (w.getLsbD 1) } ∧
        ∀ v, v ≠ u → t.unit v = s.unit v) ∧
      (¬(s.cascaded u = true ∧ isOdd u = true) →
        t.unit u =
          { c := if w.getLsbD 15 then x.r else x.c
            r := x.r
            prescale := p
            phase := if fresh then 0 else x.phase
            mode := .ofBit (w.getLsbD 1)
            running := w.getLsbD 0
            owes := x.owes && !fresh } ∧
        ∀ v, v ≠ u → t.unit v =
          if s.cascaded u = true ∧ w.getLsbD 15 = true ∧ v = oddOf u then { s.unit v with c := (s.unit v).r }
          else s.unit v)

/-- IU_PAIR: refused as a whole, with PORTERR and PORT_ERR, when a pair whose flag would change has a RUNNING unit;
otherwise each changed flag takes its value, the even unit's phase is 0 and the pair snapshot is invalid (R15). -/
def Obligations.IuPairWrite : Prop :=
  ∀ (s : State) (w : Word), s.port.phase = .ready →
    let changes : Fin 2 → Prop := fun i => s.iu.pairs[i].cascade ≠ w.getLsbD i.val
    let busy : Fin 2 → Prop := fun i =>
      (s.unit ⟨2 * i.val, by omega⟩).running = true ∨ (s.unit ⟨2 * i.val + 1, by omega⟩).running = true
    ((∃ i, changes i ∧ busy i) → exec (.iuPair w) s = .next
      { s with ev := { s.ev with flags := s.ev.flags ||| 0x8000 }
               port := { s.port with portErr := 0x1402 } }) ∧
    ((∀ i, changes i → ¬busy i) →
      ∃ t, exec (.iuPair w) s = .next t ∧ t = { s with iu := t.iu } ∧
        (∀ i : Fin 2, (changes i → t.iu.pairs[i] = { cascade := w.getLsbD i.val, snapshot := none }) ∧
          (¬changes i → t.iu.pairs[i] = s.iu.pairs[i])) ∧
        ∀ u : Fin 4, (isOdd u = false ∧ changes (pairOf u) → t.unit u = { s.unit u with phase := 0 }) ∧
          (¬(isOdd u = false ∧ changes (pairOf u)) → t.unit u = s.unit u))

/-- IU_EXPIRY of a single unit that has the advance to count: the phase advances, C is decremented every P ticks, and
nothing else moves; a STOPPED unit counts nothing (R10). At the decrement from 1 to 0, with no armed programme that
names the unit: C is reloaded, a ONE_SHOT unit stops, the unit's class is set and its sample point noted (R19); a swap
pending on the unit takes effect (R56, R59); nothing is launched (R70). With nothing to count and no expiry on its way
the command has no effect (log 24). -/
def Obligations.UnitCountsAnAdvance : Prop :=
  ∀ (s : State) (u : Fin 4), s.port.phase = .ready → s.cascaded u = false → s.adv.expiry[u] = none →
    let x := s.unit u
    let swaps := s.store.swap = some u
    let page := if swaps then s.store.active.other else s.store.active
    (x.owes = false → exec (.iuExpiry u) s = .next s) ∧
    (x.owes = true → x.running = false → exec (.iuExpiry u) s = .next (s.setUnit u { x with owes := false })) ∧
    (x.owes = true → x.running = true → x.phase + 1 < 4 ^ x.prescale.toNat →
      exec (.iuExpiry u) s = .next (s.setUnit u { x with phase := x.phase + 1, owes := false })) ∧
    (x.owes = true → x.running = true → 4 ^ x.prescale.toNat ≤ x.phase + 1 → x.c ≠ 1 →
      exec (.iuExpiry u) s = .next (s.setUnit u { x with c := x.c - 1, phase := 0, owes := false })) ∧
    (x.owes = true → x.running = true → 4 ^ x.prescale.toNat ≤ x.phase + 1 → x.c = 1 →
      (∀ q, (s.descriptor page q).triggers u = true → (s.slot q).armed = false) →
      exec (.iuExpiry u) s = .next
        { s.setUnit u { x with c := x.r, phase := 0, running := x.mode == .continuous, owes := false } with
          store := if swaps then { s.store with active := s.store.active.other, swap := none } else s.store
          ev :=
            { s.ev with
              flags := s.ev.flags ||| placeBit true (11 + u.val) ||| (if swaps then 0x0200 else 0) }
          adv := { s.adv with expired := s.adv.expired.set u true } })

/-- IU_EXPIRY of a cascaded pair: the pair counts as one 32-bit unit by the even unit's fields; its expiry is
reported as the odd unit, and the even number counts and reports nothing (R16, R19). -/
def Obligations.CascadedPairCounts : Prop :=
  ∀ (s : State) (e : Fin 4), s.port.phase = .ready → isOdd e = false → s.cascaded e = true →
    let o := oddOf e
    let x := s.unit e
    let n : Time := (s.unit o).c ++ x.c
    s.adv.expiry[e] = none → s.adv.expiry[o] = none →
    exec (.iuExpiry e) s = .next s ∧
    (x.owes = true → x.running = true → 4 ^ x.prescale.toNat ≤ x.phase + 1 → n ≠ 1 →
      exec (.iuExpiry o) s = .next
        ((s.setUnit e { x with c := (n - 1).setWidth 16, phase := 0, owes := false }).setUnit o
          { s.unit o with c := ((n - 1) >>> 16).setWidth 16, owes := false })) ∧
    (x.owes = true → x.running = true → 4 ^ x.prescale.toNat ≤ x.phase + 1 → n = 1 →
      s.store.swap ≠ some o →
      (∀ q, (s.descriptor s.store.active q).triggers o = true → (s.slot q).armed = false) →
      exec (.iuExpiry o) s = .next
        { (s.setUnit e { x with c := x.r, phase := 0, running := x.mode == .continuous, owes := false }).setUnit o
            { s.unit o with c := (s.unit o).r, owes := false } with
          ev := { s.ev with flags := s.ev.flags ||| placeBit true (11 + o.val) }
          adv := { s.adv with expired := s.adv.expired.set o true } })

/-- IU_EXPIRY with one armed programme `q` that names the unit, IDLE, valid and with a first step that is ahead: the
programme is started on the page that is ACTIVE after the swap point, and disarmed if single-arm is set (R60, R68,
R71, R72). -/
def Obligations.UnitExpiryLaunches : Prop :=
  ∀ (s : State) (u : Fin 4) (q : Fin 8), s.port.phase = .ready → s.cascaded u = false → s.adv.expiry[u] = none →
    let x := s.unit u
    let page := if s.store.swap = some u then s.store.active.other else s.store.active
    let d := s.descriptor page q
    let step := s.stepRecord page d.first
    x.owes = true → x.running = true → 4 ^ x.prescale.toNat ≤ x.phase + 1 → x.c = 1 →
    d.triggers u = true → (s.slot q).armed = true → (s.slot q).run = none → d.valid = true → step.delay ≠ 0 →
    (∀ p, p ≠ q → (s.descriptor page p).triggers u = true → (s.slot p).armed = false) →
    ∃ t, exec (.iuExpiry u) s = .next t ∧ t.store.active = page ∧
      t.store.bound page = s.store.bound page + 1 ∧ t.store.bound page.other = s.store.bound page.other ∧
      t.slot q =
        { s.slot q with
          run := some { page := page, step := d.first, passes := d.repeats, launchTime := s.tl, applied := 0,
                        launchPending := false }
          armed := !d.singleArm
          bindId := (s.slot q).bindId + 1 } ∧
      (∀ p, p ≠ q → t.slot p = s.slot p) ∧
      t.sched = { s.sched with
        pel := insertByTime s.tl
          { due := s.tl + step.delay.setWidth 32, origin := .run q d.first, kind := step.kind,
            operand := step.operand, mark := step.mark } s.sched.pel } ∧
      t.iu = (s.setUnit u { x with c := x.r, phase := 0, running := x.mode == .continuous, owes := false }).iu ∧
      t = { s with sched := t.sched, slots := t.slots, store := t.store, iu := t.iu, ev := t.ev, adv := t.adv } ∧
      FlagsSetWithin (placeBit true (11 + u.val) ||| 0x0200) s t

/-! ### The list and the entries due -/

/-- Insertion into a list in order: after every entry whose time remaining is not greater, before the first that is
greater; the others keep their order (R22). -/
def Obligations.InsertionPlacesByTimeRemaining : Prop :=
  ∀ (s : State) (e : Entry), ListOrdered s → ahead e.due s.tl = true →
    ∃ l r, s.sched.pel = l ++ r ∧ s.insertEntry e = { s with sched := { s.sched with pel := l ++ e :: r } } ∧
      (∀ x ∈ l, remaining x.due s.tl ≤ remaining e.due s.tl) ∧
      (∀ x ∈ r, remaining e.due s.tl < remaining x.due s.tl) ∧ ListOrdered (s.insertEntry e)

/-- ENTRY_DUE with a DIRECT entry at the head that is due alone: the entry leaves the list, its action is performed
(SET, CLR, TOGGLE; START_UNIT and STOP_UNIT of a unit that is not cascaded), its MARK record is handed over if its
mark is set, and nothing else of the list, the slots or the store moves (R14, R26 to R29, R97). With no entry due at
the head nothing happens (log 24). -/
def Obligations.EntryDueAppliesADirectEntry : Prop :=
  ∀ (s : State), s.port.phase = .ready →
    ((∀ e ∈ s.sched.pel.head?, e.due ≠ s.tl) → exec .entryDue s = .next s) ∧
    ∀ (e : Entry) (rest : List Entry) (tag : BitVec 8), s.sched.pel = e :: rest → e.due = s.tl →
      e.origin = .direct tag → (∀ x ∈ rest, x.due ≠ s.tl) →
      (e.kind = 1 ∨ e.kind = 2 ∨ e.kind = 3 ∨
        ((e.kind = 5 ∨ e.kind = 6) ∧ ∃ u : Fin 4, e.operand = BitVec.ofNat 4 u.val ∧ s.cascaded u = false)) →
      let m : Word := 1#16 <<< e.operand.toNat
      ∃ t, exec .entryDue s = .next t ∧ t.sched = { s.sched with pel := rest } ∧
        t.out =
          { s.out with
            logic :=
              if e.kind = 1 then s.out.logic ||| m
              else if e.kind = 2 then s.out.logic &&& ~~~m
              else if e.kind = 3 then s.out.logic ^^^ m
              else s.out.logic } ∧
        (∀ u : Fin 4, t.unit u =
          if e.kind = 5 ∧ e.operand = BitVec.ofNat 4 u.val then
            { s.unit u with c := (s.unit u).r, phase := 0, running := true, owes := false }
          else if e.kind = 6 ∧ e.operand = BitVec.ofNat 4 u.val then { s.unit u with running := false }
          else s.unit u) ∧
        t.iu.pairs = s.iu.pairs ∧
        t.cap = (if e.mark then s.cap.take (.mark e.origin false s.tl) else s.cap) ∧
        (e.mark = true → t.ev.flags.getLsbD 3 = true) ∧
        t = { s with sched := t.sched, out := t.out, iu := t.iu, cap := t.cap, ev := t.ev, inp := t.inp, adv := t.adv } ∧
        t.inp.lines = s.inp.lines ∧ t.inp.lens = s.inp.lens ∧ t.inp.windows = windowsAfter s t.out ∧
        FlagsSetWithin 0x000B s t

/-- ENTRY_DUE with a RUN entry at the head that is due alone, of an action on an output line or WAIT, admitted, not
the last step of the last pass, and with a successor that is ahead: the step is counted, and the next step is offered with due
time TL plus its delay, from the bound page (R27, R30, R77, R78, R80, R81). -/
def Obligations.RunStepOffersItsSuccessor : Prop :=
  ∀ (s : State) (e : Entry) (rest : List Entry) (p : Fin 8) (i : BitVec 7) (r : Run),
    s.port.phase = .ready → s.sched.pel = e :: rest → e.due = s.tl → e.origin = .run p i →
    (∀ x ∈ rest, x.due ≠ s.tl) → e.kind.toNat ≤ 3 → (s.slot p).run = some r →
    let sl := s.slot p
    let d := s.descriptor r.page p
    let last := i.toNat + 1 = d.first.toNat + d.count.toNat
    let j : BitVec 7 := if last then d.first else i + 1
    let next := s.stepRecord r.page j
    ¬(sl.dueTime = s.tl ∧ 32 ≤ sl.dueCount) → (last → r.passes ≠ 1) → next.delay ≠ 0 →
    ∃ t, exec .entryDue s = .next t ∧
      t.sched = { s.sched with
        pel := insertByTime s.tl
          { due := s.tl + next.delay.setWidth 32, origin := .run p j, kind := next.kind,
            operand := next.operand, mark := next.mark } rest } ∧
      t.slot p =
        { sl with
          run := some
            { r with
              step := j
              passes := if last ∧ r.passes ≠ 0 then r.passes - 1 else r.passes
              applied := r.applied + 1 }
          dueTime := s.tl
          dueCount := if sl.dueTime = s.tl then sl.dueCount + 1 else 1 } ∧
      (∀ q, q ≠ p → t.slot q = s.slot q) ∧
      t.out =
        { s.out with
          logic :=
            if e.kind = 1 then s.out.logic ||| (1#16 <<< e.operand.toNat)
            else if e.kind = 2 then s.out.logic &&& ~~~(1#16 <<< e.operand.toNat)
            else if e.kind = 3 then s.out.logic ^^^ (1#16 <<< e.operand.toNat)
            else s.out.logic } ∧
      t.cap = (if e.mark then s.cap.take (.mark e.origin false s.tl) else s.cap) ∧
      t = { s with sched := t.sched, slots := t.slots, out := t.out, cap := t.cap, ev := t.ev, inp := t.inp,
                   adv := t.adv } ∧
      t.inp = { s.inp with windows := windowsAfter s t.out } ∧ FlagsSetWithin 0x000B s t

/-- ENTRY_DUE with the last step of the last pass of a run whose launch-pending flag is clear, of an action on an output
line or WAIT: the step is performed and the run ends COMPLETE.
The slot is IDLE with its own entry gone, RUNEND is set, a RUN_END record is handed over if report-end is set, after
the MARK record, and the binding is dropped, with BANKFREE when it was the last of a DRAINING page (R50, R82, R84). -/
def Obligations.RunCompletes : Prop :=
  ∀ (s : State) (e : Entry) (rest : List Entry) (p : Fin 8) (i : BitVec 7) (r : Run),
    s.port.phase = .ready → s.sched.pel = e :: rest → e.due = s.tl → e.origin = .run p i →
    (∀ x ∈ rest, x.due ≠ s.tl) → e.kind.toNat ≤ 3 → (s.slot p).run = some r →
    let sl := s.slot p
    let d := s.descriptor r.page p
    let marked := if e.mark then s.cap.take (.mark e.origin false s.tl) else s.cap
    ¬(sl.dueTime = s.tl ∧ 32 ≤ sl.dueCount) → i.toNat + 1 = d.first.toNat + d.count.toNat → r.passes = 1 →
    r.launchPending = false →
    ∃ t, exec .entryDue s = .next t ∧
      t.sched = { s.sched with pel := rest.filter fun x => !x.isRun p } ∧
      t.slot p =
        { sl with run := none, dueTime := s.tl, dueCount := if sl.dueTime = s.tl then sl.dueCount + 1 else 1 } ∧
      (∀ q, q ≠ p → t.slot q = s.slot q) ∧ t.ev.flags.getLsbD 4 = true ∧
      t.cap = (if d.reportEnd then marked.take (.runEnd p .complete (r.applied + 1) s.tl) else marked) ∧
      t.store = s.store.setBound r.page (s.store.bound r.page - 1) ∧
      (s.store.stateOf r.page = .draining → s.store.bound r.page = 1 → t.ev.flags.getLsbD 10 = true) ∧
      t.out =
        { s.out with
          logic :=
            if e.kind = 1 then s.out.logic ||| (1#16 <<< e.operand.toNat)
            else if e.kind = 2 then s.out.logic &&& ~~~(1#16 <<< e.operand.toNat)
            else if e.kind = 3 then s.out.logic ^^^ (1#16 <<< e.operand.toNat)
            else s.out.logic } ∧
      t = { s with sched := t.sched, slots := t.slots, store := t.store, out := t.out, cap := t.cap, ev := t.ev,
                   inp := t.inp, adv := t.adv } ∧
      t.inp = { s.inp with windows := windowsAfter s t.out } ∧
      FlagsSetWithin 0x041B s t

/-- A RUN entry that is due is refused at admission for a bad step first, and else as the 33rd step of one due time:
the action is not performed, no MARK record is made, the slot is IDLE with its counts as they were, a FAULT record is
handed over and RUNFLT is set (R27, R78, R87). -/
def Obligations.RefusedStepFaultsTheRun : Prop :=
  ∀ (s : State) (e : Entry) (rest : List Entry) (p : Fin 8) (i : BitVec 7) (r : Run),
    s.port.phase = .ready → s.sched.pel = e :: rest → e.due = s.tl → e.origin = .run p i →
    (∀ x ∈ rest, x.due ≠ s.tl) → (s.slot p).run = some r →
    let bad := 8 ≤ e.kind.toNat ∨ ((e.kind = 4 ∨ e.kind = 7) ∧ 8 ≤ e.operand.toNat) ∨
      ((e.kind = 5 ∨ e.kind = 6) ∧ 4 ≤ e.operand.toNat)
    let loop := (s.slot p).dueTime = s.tl ∧ 32 ≤ (s.slot p).dueCount
    bad ∨ loop →
    ∃ t, exec .entryDue s = .next t ∧
      t.sched = { s.sched with pel := rest.filter fun x => !x.isRun p } ∧
      t.slot p = { s.slot p with run := none } ∧ (∀ q, q ≠ p → t.slot q = s.slot q) ∧
      (bad → t.cap = s.cap.take (.fault p .badStep i s.tl)) ∧
      (¬bad → t.cap = s.cap.take (.fault p .zeroLoop i s.tl)) ∧ t.ev.flags.getLsbD 5 = true ∧
      t.store = s.store.setBound r.page (s.store.bound r.page - 1) ∧
      t = { s with sched := t.sched, slots := t.slots, store := t.store, cap := t.cap, ev := t.ev, adv := t.adv } ∧
      FlagsSetWithin 0x0423 s t

/-- Every chain ends within the fuel the model gives it, from any state: 32 steps for each slot at one due time bound
it (R31, R78; log 14). A chain begins with a launch, or with one entry, which, if it is a RUN entry, is due now. -/
def Obligations.ChainsEnd : Prop :=
  ∀ (s : State) (t : Task),
    (∀ e late, t = .take e late → e.isDirect = false → e.due = s.tl) →
    (runChain chainFuel [t] s).1 = []

/-- WINDOW_CLOSE: at the advance each OPEN window that is not live becomes CLOSED, once (R118). With no
closing left to take it has no effect, which is the model's choice (log 24). -/
def Obligations.WindowCloseShutsDeadWindows : Prop :=
  ∀ s : State, s.port.phase = .ready →
    exec .windowClose s = .next
      (if s.adv.closeDue then
        { s with
          inp :=
            { s.inp with
              windows := tabulate fun k => s.inp.windows[k].bind fun v =>
                if reached v.opened s.tl = true ∧ (v.until_ = s.tl ∨ ahead v.until_ s.tl = true) then some v
                else none }
          adv := { s.adv with closeDue := false } }
      else s)

/-! ### The command block -/

/-- CMD: taken with copies of the argument words and REJECT cleared while no command is in flight, and otherwise
rejected with REJECT and CMDERR (R153, R154). -/
def Obligations.CmdIsTakenOrRejected : Prop :=
  ∀ (s : State) (w : Word), s.port.phase = .ready →
    (s.cmd.inflight = none → exec (.cmd w) s = .next
      { s with cmd := { s.cmd with
        lastCode := w, inflight := some { code := w, args := s.cmd.args }, reject := false } }) ∧
    (s.cmd.inflight ≠ none → exec (.cmd w) s = .next
      { s with cmd := { s.cmd with reject := true }
               ev := { s.ev with flags := s.ev.flags ||| 0x0100 } })

/-- A completion is taken of the command in flight only: the row of another command, or of none, has no effect
(the model's choice, log 8). -/
def Obligations.CompletionNeedsItsCommand : Prop :=
  ∀ (s : State), s.port.phase = .ready →
    let is : Word → Prop := fun n => ∃ f, s.cmd.inflight = some f ∧ f.code = n
    let swap : (Word → Prop) → Prop := fun g => ∃ f, s.cmd.inflight = some f ∧ f.code = 6 ∧ g f.args[0]
    (¬is 1 → exec .schedule s = .next s) ∧ (¬is 2 → exec .cancel s = .next s) ∧
    (¬is 3 → exec .launch s = .next s) ∧ (¬is 4 → exec .abort s = .next s) ∧
    (¬is 5 → exec .abortAll s = .next s) ∧ (¬is 7 → exec .queryRun s = .next s) ∧
    (¬is 8 → exec .peekList s = .next s) ∧ (¬is 9 → exec .loadTime s = .next s) ∧
    (¬is 10 → exec .flushQueue s = .next s) ∧
    (¬swap (fun m => m = 0 ∨ 3 ≤ m.toNat) → exec .swapNow s = .next s) ∧
    (¬swap (fun m => m = 1) → exec .atUnit s = .next s) ∧
    (¬swap (fun m => m = 2) → exec .withdraw s = .next s) ∧
    ((∀ f, s.cmd.inflight = some f → 1 ≤ f.code.toNat ∧ f.code.toNat ≤ 10) →
      exec .unknownCommand s = .next s)

/-- SCHEDULE, but for a late entry that is applied: BAD_ARG, inserted with OK, FULL, or dropped late, each with the
due time as formed in RES0 and RES1 and nothing else changed (R25, R33, R35, R36, R157).
What the handling of the advance has done when the completion is taken is the model's reading (log 6). -/
def Obligations.ScheduleCompletes : Prop :=
  ∀ (s : State) (a : Vector Word 4), s.port.phase = .ready → s.cmd.inflight = some { code := 1, args := a } →
    let b := s.beforeCompletion
    let kind := a[2].extractLsb' 0 4
    let operand := a[2].extractLsb' 4 4
    let tag := a[3].extractLsb' 0 8
    let v : Time := a[1] ++ a[0]
    let rel := a[3].getLsbD 8
    let bad := tag = 0 ∨ kind = 0 ∨ 8 ≤ kind.toNat ∨ ((kind = 4 ∨ kind = 7) ∧ 8 ≤ operand.toNat) ∨
      ((kind = 5 ∨ kind = 6) ∧ 4 ≤ operand.toNat) ∨ (rel = true ∧ (v = 0 ∨ 2 ^ 31 ≤ v.toNat))
    let due := if rel then s.tl + v else v
    let e : Entry := { due := due, origin := .direct tag, kind := kind, operand := operand, mark := a[2].getLsbD 15 }
    let w := words4 (due.setWidth 16) (due >>> 16 |>.setWidth 16) 0 0
    (bad → exec .schedule s = .next (completed b 12 (words4 0 0 0 0))) ∧
    (¬bad → ahead due s.tl = true → b.sched.directCount < 24 →
      exec .schedule s = .next (completed (b.insertEntry e) 0 w)) ∧
    (¬bad → ahead due s.tl = true → 24 ≤ b.sched.directCount →
      exec .schedule s = .next (completed b 10 w)) ∧
    (¬bad → reached due s.tl = true → a[3].getLsbD 9 = true →
      exec .schedule s = .next (completed
        { b with sched := { b.sched with
                   lateCount := if b.sched.lateCount = 0xFFFF then 0xFFFF else b.sched.lateCount + 1 }
                 ev := { b.ev with flags := b.ev.flags ||| 0x0040 } } 11 w))

/-- SCHEDULE of a late entry with policy APPLY, of an action on an output line: performed at once at TL, with a MARK
record that carries the late flag if its mark is set, whatever the number of DIRECT entries; LATE_COUNT and LATE, and
the result LATE_APPLIED (R34, R38).
What the handling of the advance has done when the completion is taken is the model's reading (log 6). -/
def Obligations.LateEntryIsApplied : Prop :=
  ∀ (s : State) (a : Vector Word 4), s.port.phase = .ready → s.cmd.inflight = some { code := 1, args := a } →
    let b := s.beforeCompletion
    let kind := a[2].extractLsb' 0 4
    let tag := a[3].extractLsb' 0 8
    let due : Time := a[1] ++ a[0]
    let m : Word := 1#16 <<< (a[2].extractLsb' 4 4).toNat
    tag ≠ 0 → (kind = 1 ∨ kind = 2 ∨ kind = 3) → a[3].getLsbD 8 = false → a[3].getLsbD 9 = false →
    reached due s.tl = true →
    ∃ t, exec .schedule s = .next t ∧
      t.cmd = { b.cmd with
        inflight := none, result := 4, res := words4 (due.setWidth 16) (due >>> 16 |>.setWidth 16) 0 0 } ∧
      t.out =
        { b.out with
          logic := if kind = 1 then b.out.logic ||| m
                   else if kind = 2 then b.out.logic &&& ~~~m else b.out.logic ^^^ m } ∧
      t.cap = (if a[2].getLsbD 15 then b.cap.take (.mark (.direct tag) true s.tl) else b.cap) ∧
      t.sched = { b.sched with
        lateCount := if b.sched.lateCount = 0xFFFF then 0xFFFF else b.sched.lateCount + 1 } ∧
      t.ev.flags.getLsbD 6 = true ∧ t.ev.flags.getLsbD 7 = true ∧
      t = { b with sched := t.sched, out := t.out, inp := t.inp, cap := t.cap, cmd := t.cmd, ev := t.ev } ∧
      t.inp = { b.inp with windows := windowsAfter b t.out } ∧ FlagsSetWithin 0x00CB b t

/-- CANCEL: tag 0 is BAD_ARG; otherwise every DIRECT entry with the tag leaves the list, the others keep their order,
and RES0 counts those removed (R39, R158).
What the handling of the advance has done when the completion is taken is the model's reading (log 6). -/
def Obligations.CancelRemovesTheTag : Prop :=
  ∀ (s : State) (a : Vector Word 4), s.port.phase = .ready → s.cmd.inflight = some { code := 2, args := a } →
    let b := s.beforeCompletion
    let tag := a[0].extractLsb' 0 8
    let gone : Entry → Bool := fun e => e.origin == .direct tag
    (tag = 0 → exec .cancel s = .next (completed b 12 (words4 0 0 0 0))) ∧
    (tag ≠ 0 → exec .cancel s = .next
      (completed
        { b with sched := { b.sched with pel := b.sched.pel.filter fun e => !gone e } } 0
        (words4 (BitVec.ofNat 16 (b.sched.pel.filter gone).length) 0 0 0)))

/-- PEEK_LIST and QUERY_RUN change nothing but the command block: the entry at the index, or EMPTY (R42, R164); the
slot of the programme, or BAD_ARG for a programme above 7 (R89, R162); layouts in section 11.11.
What the handling of the advance has done when the completion is taken is the model's reading (log 6). -/
def Obligations.PeekListAndQueryRun : Prop :=
  ∀ (s : State) (a : Vector Word 4), s.port.phase = .ready →
    let b := s.beforeCompletion
    (s.cmd.inflight = some { code := 8, args := a } →
      (b.sched.pel.length ≤ a[0].toNat → exec .peekList s = .next (completed b 5 (words4 0 0 0 0))) ∧
      ∀ e, b.sched.pel[a[0].toNat]? = some e →
        ∃ w2 w3, exec .peekList s = .next
            (completed b 0 (words4 (e.due.setWidth 16) (e.due >>> 16 |>.setWidth 16) w2 w3)) ∧
          w2.extractLsb' 0 4 = e.kind ∧ w2.extractLsb' 4 4 = e.operand ∧ w2.getLsbD 15 = e.mark ∧
          w2.extractLsb' 12 3 = 0 ∧
          (∀ p i, e.origin = .run p i → w2.extractLsb' 8 4 = BitVec.ofNat 4 p.val ∧ w3 = i.setWidth 16) ∧
          ∀ g, e.origin = .direct g → w2.extractLsb' 8 4 = 8 ∧ w3 = g.setWidth 16) ∧
    (s.cmd.inflight = some { code := 7, args := a } →
      (8 ≤ a[0].toNat → exec .queryRun s = .next (completed b 12 (words4 0 0 0 0))) ∧
      ∀ q : Fin 8, a[0].toNat = q.val →
        ∃ w0 w1 w2 w3, exec .queryRun s = .next (completed b 0 (words4 w0 w1 w2 w3)) ∧
          w0.getLsbD 10 = (b.slot q).armed ∧ w1.extractLsb' 8 8 = (b.slot q).ignored ∧
          ((b.slot q).run = none →
            w0 &&& 0xFBFF = 0 ∧ w1.extractLsb' 0 8 = 0 ∧ w2 = 0 ∧ w3 = 0) ∧
          ∀ r, (b.slot q).run = some r →
            w0.extractLsb' 0 7 = r.step ∧ w0.getLsbD 7 = false ∧ w0.getLsbD 8 = true ∧
            w0.getLsbD 9 = r.page.toBit ∧ w0.getLsbD 11 = r.launchPending ∧ w0.extractLsb' 12 4 = 0 ∧
            w1.extractLsb' 0 8 = r.passes ∧
            ∀ e, b.sched.pel.find? (fun x => x.isRun q) = some e → w3 ++ w2 = e.due)

/-- LAUNCH of an IDLE slot. A valid descriptor whose first step is ahead: STARTED with the launch time, the slot
RUNNING on the ACTIVE page and its first entry in the list (R72). An invalid one: BAD_DESCRIPTOR and nothing changed,
no record and no RUNFLT (R73). A programme above 7: BAD_ARG (R159).
What the handling of the advance has done when the completion is taken is the model's reading (log 6). -/
def Obligations.LaunchFromIdle : Prop :=
  ∀ (s : State) (a : Vector Word 4), s.port.phase = .ready → s.cmd.inflight = some { code := 3, args := a } →
    let b := s.beforeCompletion
    (8 ≤ a[0].toNat → exec .launch s = .next (completed b 12 (words4 0 0 0 0))) ∧
    ∀ q : Fin 8, a[0].toNat = q.val → (b.slot q).run = none →
      let page := b.store.active
      let d := b.descriptor page q
      let step := b.stepRecord page d.first
      let valid := 1 ≤ d.count.toNat ∧ d.first.toNat + d.count.toNat ≤ 128 ∧ d.policy ≠ 3
      (¬valid → exec .launch s = .next (completed b 13 (words4 0 0 0 0))) ∧
      (valid → step.delay ≠ 0 → exec .launch s = .next
        (completed
          { b.setSlot q
              { b.slot q with
                run := some { page := page, step := d.first, passes := d.repeats, launchTime := s.tl,
                              applied := 0, launchPending := false }
                bindId := (b.slot q).bindId + 1 } with
            store := b.store.setBound page (b.store.bound page + 1)
            sched := { b.sched with
              pel := insertByTime s.tl
                { due := s.tl + step.delay.setWidth 32, origin := .run q d.first, kind := step.kind,
                  operand := step.operand, mark := step.mark } b.sched.pel } }
          1 (words4 (s.tl.setWidth 16) (s.tl >>> 16 |>.setWidth 16) 0 0)))

/-- LAUNCH of a RUNNING slot, by the policy of its bound page: IGNORE and a second QUEUE launch are IGNORED and
counted with saturation; a first QUEUE launch sets launch-pending; RESTART replaces the run without an end, and, with
a valid descriptor whose first step is ahead, starts it anew on the ACTIVE page: the old binding is dropped, with
BANKFREE when it was the last of a DRAINING page, and the ACTIVE page is bound (R50, R74 to R76, R159).
What the handling of the advance has done when the completion is taken is the model's reading (log 6). -/
def Obligations.LaunchOfARunningSlot : Prop :=
  ∀ (s : State) (a : Vector Word 4) (q : Fin 8) (r : Run), s.port.phase = .ready →
    s.cmd.inflight = some { code := 3, args := a } → a[0].toNat = q.val →
    let b := s.beforeCompletion
    (b.slot q).run = some r →
    let sl := b.slot q
    let policy := (b.descriptor r.page q).policy
    let page := b.store.active
    let d := b.descriptor page q
    let step := b.stepRecord page d.first
    (policy = 0 ∨ (policy = 2 ∧ r.launchPending = true) →
      exec .launch s = .next (completed
        (b.setSlot q { sl with ignored := if sl.ignored = 0xFF then 0xFF else sl.ignored + 1 }) 8
        (words4 0 0 0 0))) ∧
    (policy = 2 → r.launchPending = false →
      exec .launch s = .next (completed
        (b.setSlot q { sl with run := some { r with launchPending := true } }) 3 (words4 0 0 0 0))) ∧
    (policy = 1 → d.valid = true → step.delay ≠ 0 →
      ∃ t, exec .launch s = .next t ∧ t.cmd.result = 2 ∧ t.cmd.inflight = none ∧
        t.cmd.res = words4 (s.tl.setWidth 16) (s.tl >>> 16 |>.setWidth 16) 0 0 ∧
        t.slot q =
          { sl with
            run := some { page := page, step := d.first, passes := d.repeats, launchTime := s.tl, applied := 0,
                          launchPending := false }
            bindId := sl.bindId + 1 } ∧
        (∀ p, p ≠ q → t.slot p = b.slot p) ∧
        t.sched = { b.sched with
          pel := insertByTime s.tl
            { due := s.tl + step.delay.setWidth 32, origin := .run q d.first, kind := step.kind,
              operand := step.operand, mark := step.mark }
            (b.sched.pel.filter fun x => !x.isRun q) } ∧
        (let dropped := b.store.setBound r.page (b.store.bound r.page - 1)
         t.store = dropped.setBound page (dropped.bound page + 1)) ∧
        (b.store.stateOf r.page = .draining → b.store.bound r.page = 1 → t.ev.flags.getLsbD 10 = true) ∧
        t = { b with sched := t.sched, slots := t.slots, store := t.store, cmd := t.cmd, ev := t.ev } ∧
        FlagsSetWithin 0x0480 b t)

/-- ABORT: BAD_ARG, NOT_RUNNING, or the run ends ABORTED, with its entry, its pending launch and its binding gone,
RUNEND set, a RUN_END record if report-end is set, and its steps applied in RES0 (R82, R85, R160).
What the handling of the advance has done when the completion is taken is the model's reading (log 6). -/
def Obligations.AbortEndsTheRun : Prop :=
  ∀ (s : State) (a : Vector Word 4), s.port.phase = .ready → s.cmd.inflight = some { code := 4, args := a } →
    let b := s.beforeCompletion
    (8 ≤ a[0].toNat → exec .abort s = .next (completed b 12 (words4 0 0 0 0))) ∧
    ∀ q : Fin 8, a[0].toNat = q.val →
      ((b.slot q).run = none → exec .abort s = .next (completed b 9 (words4 0 0 0 0))) ∧
      ∀ r, (b.slot q).run = some r →
        ∃ t, exec .abort s = .next t ∧
          t.cmd = { b.cmd with inflight := none, result := 0, res := words4 r.applied 0 0 0 } ∧
          t.slot q = { b.slot q with run := none } ∧ (∀ p, p ≠ q → t.slot p = b.slot p) ∧
          t.sched = { b.sched with pel := b.sched.pel.filter fun x => !x.isRun q } ∧
          t.cap = (if (b.descriptor r.page q).reportEnd then
            b.cap.take (.runEnd q .aborted r.applied s.tl) else b.cap) ∧
          t.store = b.store.setBound r.page (b.store.bound r.page - 1) ∧
          t.ev.flags.getLsbD 4 = true ∧ t.ev.flags.getLsbD 7 = true ∧
          (b.store.stateOf r.page = .draining → b.store.bound r.page = 1 → t.ev.flags.getLsbD 10 = true) ∧
          t = { b with sched := t.sched, slots := t.slots, store := t.store, cap := t.cap, cmd := t.cmd, ev := t.ev } ∧
          FlagsSetWithin 0x0493 b t

/-- ABORT_ALL: every slot is IDLE and no RUN entry is left; the DIRECT entries stay in their order; RES0 counts the
runs ended; armed flags, ignored counts and same-due counts stay (R85, R161).
What the handling of the advance has done when the completion is taken is the model's reading (log 6). -/
def Obligations.AbortAllEndsEveryRun : Prop :=
  ∀ (s : State) (a : Vector Word 4), s.port.phase = .ready → s.cmd.inflight = some { code := 5, args := a } →
    let b := s.beforeCompletion
    ∃ t, exec .abortAll s = .next t ∧
      t.cmd = { b.cmd with
        inflight := none, result := 0,
        res := words4 (BitVec.ofNat 16 ((List.finRange 8).filter fun p => (b.slot p).run.isSome).length) 0 0 0 } ∧
      (∀ p, t.slot p = { b.slot p with run := none }) ∧
      (RunEntryLaw b → t.sched = { b.sched with pel := b.sched.pel.filter Entry.isDirect }) ∧
      ((∃ p, (b.slot p).run ≠ none) → t.ev.flags.getLsbD 4 = true) ∧ t.ev.flags.getLsbD 7 = true ∧
      (BindingLaw b → t.store.boundA = 0 ∧ t.store.boundB = 0) ∧ t.store.active = b.store.active ∧
      t.store.swap = b.store.swap ∧ t.store.pageA = b.store.pageA ∧ t.store.pageB = b.store.pageB ∧
      t = { b with sched := t.sched, slots := t.slots, store := t.store, cap := t.cap, cmd := t.cmd, ev := t.ev } ∧
      FlagsSetWithin 0x0493 b t

/-- SWAP: NOW changes pages at the completion, AT_UNIT leaves a swap pending, WITHDRAW takes a pending one back;
SWAP_PENDING, PAGE_BUSY, NO_SWAP and BAD_ARG change nothing (R56 to R58, R62, R163). That a mode above 2 completes
under SWAP_NOW is the model's choice (log 9).
What the handling of the advance has done when the completion is taken is the model's reading (log 6). -/
def Obligations.SwapCompletes : Prop :=
  ∀ (s : State) (a : Vector Word 4), s.port.phase = .ready → s.cmd.inflight = some { code := 6, args := a } →
    let b := s.beforeCompletion
    let busy := b.store.bound b.store.active.other ≠ 0
    let words : State → Vector Word 4 := fun t =>
      words4 (if t.store.active = .a then 0 else 1) (if t.store.swap = none then 0 else 1) 0 0
    let done : BitVec 5 → State → Host.Outcome State Fault Refusal := fun r t =>
      .next (completed t r (words t))
    let now : State :=
      { b with store := { b.store with active := b.store.active.other, swap := none }
               ev := { b.ev with flags := b.ev.flags ||| 0x0200 } }
    (a[0] = 0 →
      (b.store.swap ≠ none → exec .swapNow s = done 15 b) ∧
      (b.store.swap = none → busy → exec .swapNow s = done 14 b) ∧
      (b.store.swap = none → ¬busy → exec .swapNow s = done 0 now)) ∧
    (3 ≤ a[0].toNat → exec .swapNow s = .next (completed b 12 (words4 0 0 0 0))) ∧
    (a[0] = 1 → 4 ≤ a[1].toNat → exec .atUnit s = .next (completed b 12 (words4 0 0 0 0))) ∧
    (∀ u : Fin 4, a[0] = 1 → a[1].toNat = u.val →
      (b.store.swap ≠ none → exec .atUnit s = done 15 b) ∧
      (b.store.swap = none → busy → exec .atUnit s = done 14 b) ∧
      (b.store.swap = none → ¬busy →
        exec .atUnit s = done 0 { b with store := { b.store with swap := some u } })) ∧
    (a[0] = 2 →
      (b.store.swap = none → exec .withdraw s = done 16 b) ∧
      (b.store.swap ≠ none → exec .withdraw s = done 0 { b with store := { b.store with swap := none } }))

/-- LOAD_TIME sets TL and invalidates the time snapshot when the list is empty and no slot is RUNNING, and is refused
with STATE otherwise, in both cases after the whole of
the advance in progress (R8, R165; log 6). FLUSH_QUEUE empties the capture queue, LOST and the holding record, and keeps the
sequence counter and the watermark (R136, R166). A code other than 1 to 10 changes nothing but the command block
(R167).
What the handling of the advance has done when the completion is taken is the model's reading (log 6). -/
def Obligations.LoadTimeFlushQueueAndUnknown : Prop :=
  ∀ (s : State) (f : InFlight), s.port.phase = .ready → s.cmd.inflight = some f →
    let b := s.beforeCompletion
    let q := b.settle
    let zero := words4 0 0 0 0
    let free := q.sched.pel = [] ∧ ∀ p, (q.slot p).run = none
    (f.code = 9 →
      (free → exec .loadTime s = .next
        (completed { q with tb := { s.tb with tl := f.args[1] ++ f.args[0], snapshot := none } } 0 zero)) ∧
      (¬free → exec .loadTime s = .next (completed q 17 zero))) ∧
    (f.code = 10 → exec .flushQueue s = .next
      (completed { b with cap := { b.cap with queue := [], lost := 0, holding := none } } 0 zero)) ∧
    (f.code = 0 ∨ 11 ≤ f.code.toNat → exec .unknownCommand s = .next (completed b 18 zero))

/-! ### The programme store -/

/-- STORE_DATA written: refused out of range, then on a page that is ACTIVE or DRAINING or the target of a pending
swap, with PORTERR and PORT_ERR; otherwise the fields of the word are stored at that address and every other word of
both pages reads as before. The word address advances in every case (R54). -/
def Obligations.StoreDataWrite : Prop :=
  ∀ (s : State) (w : Word), s.port.phase = .ready → PagesWf s →
    let a := s.store.addr.toNat
    let g := s.store.addrPage
    let refused : Word → State := fun e =>
      { s with store := { s.store with addr := s.store.addr + 1 }
               ev := { s.ev with flags := s.ev.flags ||| 0x8000 }
               port := { s.port with portErr := e } }
    let locked := g = s.store.active ∨ s.store.bound g ≠ 0 ∨ s.store.swap ≠ none
    (272 ≤ a → exec (.storeDataWrite w) s = .next (refused 0x6903)) ∧
    (a < 272 → locked → exec (.storeDataWrite w) s = .next (refused 0x6901)) ∧
    (a < 272 → ¬locked →
      ∃ t, exec (.storeDataWrite w) s = .next t ∧
        t = { s with store := { s.store.setPage g (t.store.page g) with addr := s.store.addr + 1 } } ∧
        Memory.read (t.store.page g) a =
          w &&& (if a < 256 then (if a % 2 = 0 then 0xFFFF else 0x80FF)
                 else if a % 2 = 0 then 0xFF7F else 0x7FFF) ∧
        (∀ c, c ≠ a → Memory.read (t.store.page g) c = Memory.read (s.store.page g) c) ∧ PagesWf t)

/-- The contents of a page change only at a write of STORE_DATA that finds the page OPEN and not the target of a
pending swap, or at RESET# and the initialisation (R54). -/
def Obligations.PageContentsChangeOnlyWhenWritable : Prop :=
  ∀ (c : Instr) (s t : State) (g : Page), exec c s = .next t → t.store.page g ≠ s.store.page g →
    c = .reset ∨ c = .resetRelease ∨ c = .initialisationEnd ∨
    (s.store.addrPage = g ∧ s.store.stateOf g = .open_ ∧ s.store.swap = none ∧
      ∃ w, c = .storeDataWrite w ∨ c = .registerWrite 0x69 w)

/-! ### Output lines -/

/-- The pin levels by force mode (R92). -/
def Obligations.PinLevelByForceMode : Prop :=
  ∀ (o : Outputs) (n : Fin 16),
    let mode := if n.val < 8 then o.mode0 else o.mode1
    (mode = .follow → o.pins.getLsbD n.val = (o.logic.getLsbD n.val ^^ o.pol.getLsbD n.val)) ∧
    (mode = .freeze → o.pins.getLsbD n.val = o.frozen.getLsbD n.val) ∧
    (mode = .allIdle → o.pins.getLsbD n.val = (o.idle.getLsbD n.val ^^ o.pol.getLsbD n.val)) ∧
    (mode = .allActive → o.pins.getLsbD n.val = (!o.idle.getLsbD n.val ^^ o.pol.getLsbD n.val))

/-- OUT_SET, OUT_CLR, OUT_TOGGLE, OUT_POL, OUT_IDLE and OUT_MODE: taken after what is left of the advance in progress
(R99), each changes its own part of the output stage, and its pin changes are reported while OUTEN = 1; nothing else
moves (R93 to R95, R98, R103). OUT_BSET makes no report (R96). -/
def Obligations.OutputWrites : Prop :=
  ∀ (s : State) (w : Word), s.port.phase = .ready →
    let b := s.settle
    let o := b.out
    let after : Outputs → Host.Outcome State Fault Refusal := fun o' =>
      .next { b with out := o', inp := { b.inp with windows := windowsAfter b o' } }
    let m0 := ForceMode.ofCode (w.extractLsb' 0 2)
    let m1 := ForceMode.ofCode (w.extractLsb' 8 2)
    exec (.outSet w) s = after { o with logic := o.logic ||| w } ∧
    exec (.outClr w) s = after { o with logic := o.logic &&& ~~~w } ∧
    exec (.outToggle w) s = after { o with logic := o.logic ^^^ w } ∧
    exec (.outPol w) s = after { o with pol := w } ∧
    exec (.outIdle w) s = after { o with idle := w } ∧
    exec (.outMode w) s = after
      { o with
        mode0 := m0
        mode1 := m1
        frozen :=
          ((if m0 = .freeze ∧ o.mode0 ≠ .freeze then o.pins else o.frozen) &&& 0x00FF) |||
          ((if m1 = .freeze ∧ o.mode1 ≠ .freeze then o.pins else o.frozen) &&& 0xFF00) } ∧
    ∀ hi, ∃ t, exec (.outBset hi w) s = .next t ∧ t = { b with out := { o with bset := t.out.bset } } ∧
      ∀ n : Fin 16, t.out.bset.extractLsb' (2 * n.val) 2 =
        if hi = true ∧ 8 ≤ n.val then w.extractLsb' (2 * (n.val - 8)) 2
        else if hi = false ∧ n.val < 8 then w.extractLsb' (2 * n.val) 2
        else o.bset.extractLsb' (2 * n.val) 2

/-! ### Input qualifiers -/

/-- LINE_CFGn: the four fields of the line, source codes 6 and 7 as NONE, the candidate count 0, and the initialising
sample awaited when the source goes from NONE to a sampling one; all else of the line and every other line stay; the
fields read back and the other bits read 0 (R107). -/
def Obligations.LineCfgWrite : Prop :=
  ∀ (s : State) (n : Fin 16) (w : Word), s.port.phase = .ready →
    let l := s.line n
    let code := w.extractLsb' 0 3
    let src : SampleSource :=
      if code = 1 then .tick else if code = 2 then .unit 0 else if code = 3 then .unit 1
      else if code = 4 then .unit 2 else if code = 5 then .unit 3 else .none
    let mode : EdgeMode :=
      if w.extractLsb' 8 2 = 0 then .off else if w.extractLsb' 8 2 = 1 then .rise
      else if w.extractLsb' 8 2 = 2 then .fall else .both
    exec (.lineCfg n w) s = .next
      (s.setLine n
        { l with
          source := src, qualify := w.extractLsb' 3 4, edgeMode := mode, bset := w.extractLsb' 12 2,
          count := 0, awaiting := l.awaiting || (l.source == .none && src != .none) }) ∧
    ∀ t, exec (.lineCfg n w) s = .next t →
      (t.readWord (0x20 + BitVec.ofNat 7 n.val)).1 = some (w &&& (if 6 ≤ code.toNat then 0x3378 else 0x337F))

/-- BLANK_LENs: the low byte is stored at once; it reads back; no window changes; a report to a set of length 0 changes
no window (R116). -/
def Obligations.BlankLenWrite : Prop :=
  ∀ (s : State) (k : Fin 3) (w : Word), s.port.phase = .ready →
    exec (.blankLen k w) s = .next
      { s with inp := { s.inp with lens := s.inp.lens.set k (w.extractLsb' 0 8) } } ∧
    (∀ t, exec (.blankLen k w) s = .next t →
      (t.readWord (0x32 + BitVec.ofNat 7 k.val)).1 = some (w &&& 0x00FF)) ∧
    ∀ n v, windowAfterReport 0 n v = v

/-- The window of a set after a report at `n`: unchanged with length 0; with a length of 1 to 255, extended while it
is live and opened anew otherwise; and several reports at `n` act as one (R117). -/
def Obligations.WindowAfterAReport : Prop :=
  ∀ (l : BitVec 8) (n : Time) (v : Window),
    let e := n + l.setWidth 32
    let live := reached v.opened n = true ∧ (v.until_ = n ∨ ahead v.until_ n = true)
    (∀ x, windowAfterReport 0 n x = x) ∧
    (l ≠ 0 → windowAfterReport l n none = some { opened := n, until_ := e }) ∧
    (l ≠ 0 → ¬live → windowAfterReport l n (some v) = some { opened := n, until_ := e }) ∧
    (l ≠ 0 → live → reached v.until_ e = true → windowAfterReport l n (some v) = some { v with until_ := e }) ∧
    (l ≠ 0 → live → ahead v.until_ e = true → windowAfterReport l n (some v) = some v) ∧
    ∀ x, windowAfterReport l n (windowAfterReport l n x) = windowAfterReport l n x

/-- One sample of a line at `n`: ignored because of blanking, the initialising sample, a sample at the stable level, a
candidate that grows, and one that reaches Q, with its edge time, its delta and its record (R110 to R114, R118).
The samples of an advance: the units that a line samples on have counted; the lines whose source is at a sample point
take one sample each, ignored inside a live window of their set that was not opened at this value; the EDGE records
wait in line order, and, if a stable level changed, one evaluation of the stable vector waits behind them (R109, R110,
R115, R118). That TICK takes them as one job of the order that it is given, after what is left of the advance before
it, is the model's choice (log 4). -/
def Obligations.SampleOfALine : Prop :=
  (∀ (k : Fin 16) (level : Bool) (n : Time) (l : Line),
    let start := if l.count = 0 then n else l.start
    let delta := l.lastEdge.map fun (u : Time) =>
      if (start - u).toNat ≤ 65535 then (start - u).setWidth 16 else (0xFFFF : Word)
    let admitted := (l.edgeMode = .both ∨ (l.edgeMode = .rise ∧ level = true) ∨
      (l.edgeMode = .fall ∧ level = false))
    l.sample k level n true = ({ l with raw := level, count := 0 }, none) ∧
    (l.awaiting = true → l.sample k level n false =
      ({ l with raw := level, stable := level, lastEdge := none, count := 0, awaiting := false }, none)) ∧
    (l.awaiting = false → level = l.stable →
      l.sample k level n false = ({ l with raw := level, count := 0 }, none)) ∧
    (l.awaiting = false → level ≠ l.stable → l.count + 1 < l.qualify.toNat + 1 →
      l.sample k level n false = ({ l with raw := level, start := start, count := l.count + 1 }, none)) ∧
    (l.awaiting = false → level ≠ l.stable → l.count = l.qualify.toNat →
      l.sample k level n false =
        ({ l with raw := level, stable := level, start := start, lastEdge := some start, count := 0 },
          if admitted then some (.edge k level delta start) else none))) ∧
  ∀ s : State,
    let b := s.countSources
    let t := s.takeSample
    let sampled : Fin 16 → Prop := fun k =>
      (b.line k).source = .tick ∨ ∃ u : Fin 4, (b.line k).source = .unit u ∧ b.adv.expired[u] = true
    let blanked : Fin 16 → Prop := fun k =>
      ∃ j : Fin 3, (b.line k).bset = BitVec.ofNat 2 (j.val + 1) ∧ ∃ v ∈ b.inp.windows[j],
        v.opened ≠ b.tl ∧ reached v.opened b.tl = true ∧ (v.until_ = b.tl ∨ ahead v.until_ b.tl = true)
    (s.adv.sampleDue = false → t = s) ∧
    (s.adv.sampleDue = true →
      (∀ (k : Fin 16) (u : Fin 4), (s.line k).source = .unit u → s.cascaded u = false → (b.unit u).owes = false) ∧
      (∀ k, (¬sampled k → b.sampleLine k = (b.line k, none)) ∧
        (sampled k → blanked k → b.sampleLine k = (b.line k).sample k (b.port.inPins.getLsbD k.val) b.tl true) ∧
        (sampled k → ¬blanked k → b.sampleLine k = (b.line k).sample k (b.port.inPins.getLsbD k.val) b.tl false)) ∧
      t = { b with inp := { b.inp with lines := t.inp.lines }, adv := t.adv } ∧
      (∀ k, t.line k = (b.sampleLine k).1) ∧
      t.adv = { b.adv with
        sampleDue := false
        edges := (List.finRange 16).filterMap fun k => (b.sampleLine k).2
        eval := t.adv.eval } ∧
      ((∀ k, (t.line k).stable = (b.line k).stable) → t.adv.eval = none) ∧
      ((∃ k, (t.line k).stable ≠ (b.line k).stable) → ∃ w, t.adv.eval = some { vector := w, left := List.finRange 8 } ∧
        ∀ k : Fin 16, w.getLsbD k.val = (t.line k).stable)) ∧
    (∀ h rest, s.adv.edges = h :: rest →
      s.handEdge = ({ s with adv := { s.adv with edges := rest } } : State).produce h ∧ s.takePatternEntry = s) ∧
    ∀ pins, s.port.phase = .ready → s.tb.tbrun = true →
      exec (.tick pins [.sample] false) s = .next (s.settle.beginAdvance pins).takeSample

/-! ### Capture queue -/

/-- CAP_WMARK: the low byte, 0 stored as 1 and 129 to 255 as 128; it reads back; no event is set; it is consulted at
the next store (R129). -/
def Obligations.WatermarkWrite : Prop :=
  ∀ (s : State) (w : Word), s.port.phase = .ready →
    let b := w.toNat % 256
    ∃ t, exec (.capWmark w) s = .next t ∧ t = { s with cap := { s.cap with wmark := t.cap.wmark } } ∧
      t.cap.wmark.toNat = (if b = 0 then 1 else if b ≤ 128 then b else 128) ∧
      (t.readWord 0x4E).1 = some (t.cap.wmark.setWidth 16) ∧
      ∀ h, t.cap.queue.length < 128 → t.cap.wmark.toNat ≤ t.cap.queue.length + 1 →
        (t.produce h).ev.flags.getLsbD 0 = true

/-- A record handed over: it receives the next seq; with room it is stored last, with the gap of the loss before it,
LOST is 0, and CAPW is set at or above the watermark; without room it is dropped, LOST counts it with saturation, and
CAPOVR is set (R125 to R127, R130). Nothing else changes. -/
def Obligations.RecordIsStoredOrDropped : Prop :=
  ∀ (s : State) (h : Happening),
    (s.cap.queue.length < 128 →
      s.produce h =
        { s with
          cap :=
            { s.cap with
              queue := s.cap.queue ++
                [{ body := h, seq := s.cap.seq
                   gap := if s.cap.lost.toNat ≤ 255 then s.cap.lost.setWidth 8 else 255
                   gapSat := decide (255 < s.cap.lost.toNat) }]
              seq := s.cap.seq + 1
              lost := 0 }
          ev :=
            { s.ev with
              flags := s.ev.flags ||| (if s.cap.wmark.toNat ≤ s.cap.queue.length + 1 then 0x0001 else 0) } }) ∧
    (128 ≤ s.cap.queue.length →
      s.produce h =
        { s with
          cap := { s.cap with
            seq := s.cap.seq + 1, lost := if s.cap.lost = 0xFFFF then 0xFFFF else s.cap.lost + 1 }
          ev := { s.ev with flags := s.ev.flags ||| 0x0002 } })

/-! ### Pattern table -/

/-- MASK, VALUE and PCTRL, taken after an evaluation that has begun (R142): the word is stored, the match state is
recomputed against the held vector, PCTRL sets the divide counter to 0, and nothing fires (R140, R141). -/
def Obligations.PatternWrites : Prop :=
  ∀ (s : State) (k : Fin 8) (w : Word), s.port.phase = .ready →
    let b := s.evalFirst
    let e := b.entryAt k
    (s.adv.sampleDue = true ∨ (s.adv.edges = [] ∧ s.adv.eval = none) → b = s) ∧
    exec (.maskValue k false w) s = .next
      (b.setEntryAt k { e with mask := w, matched := b.pat.held &&& w == e.value }) ∧
    exec (.maskValue k true w) s = .next
      (b.setEntryAt k { e with value := w, matched := b.pat.held &&& e.mask == w }) ∧
    exec (.pctrl k w) s = .next
      (b.setEntryAt k
        { e with
          enable := w.getLsbD 0, change := w.getLsbD 1, divide := w.extractLsb' 2 4, record := w.getLsbD 6,
          launch := w.getLsbD 7, prog := (w.extractLsb' 8 3).toFin, event := w.getLsbD 11,
          counter := 0, matched := b.pat.held &&& e.mask == e.value })

/-- One entry's part in the evaluation of `v` without a launch: a disabled entry, or one without a candidate, takes
its new match state only; a candidate counts; the Dth one fires, with its PATTERN record before its PAT event (R142 to
R145). In an evaluation the entry at the front is taken, and after the last one the held vector is the vector
evaluated and the evaluation is over; that one entry is one job of TICK's order is the model's choice (log 4). -/
def Obligations.EvaluationOfAnEntry : Prop :=
  ∀ (s : State) (k : Fin 8) (v : Word),
    let e := s.entryAt k
    let now := v &&& e.mask == e.value
    let candidate := e.enable = true ∧
      ((e.change = true ∧ (v ^^^ s.pat.held) &&& e.mask ≠ 0) ∨
       (e.change = false ∧ now = true ∧ e.matched = false))
    (¬candidate → s.evalOne k v = s.setEntryAt k { e with matched := now }) ∧
    (candidate → e.counter + 1 < e.divide.toNat + 1 →
      s.evalOne k v = s.setEntryAt k { e with counter := e.counter + 1, matched := now }) ∧
    (candidate → e.counter = e.divide.toNat → e.launch = false →
      ∃ t, s.evalOne k v = t ∧ t.entryAt k = { e with counter := 0, matched := now } ∧
        (∀ j, j ≠ k → t.entryAt j = s.entryAt j) ∧ t.pat.held = s.pat.held ∧
        t.cap = (if e.record then s.cap.take (.pattern k v s.tl) else s.cap) ∧
        (e.event = true → t.ev.flags.getLsbD 2 = true) ∧
        t = { s with pat := t.pat, cap := t.cap, ev := t.ev } ∧ FlagsSetWithin 0x0007 s t) ∧
    ∀ ks, s.adv.edges = [] → s.adv.eval = some { vector := v, left := k :: ks } →
      let t := ({ s with adv := { s.adv with eval := some { vector := v, left := ks } } } : State).evalOne k v
      runJob .patternEntry s =
        if ks = [] then { t with pat := { t.pat with held := v }, adv := { t.adv with eval := none } } else t

/-! ### Event unit and port -/

/-- EV_FLAGS clears the flags written as 1, all together, and its read shows them as they stand, with no side effect (R171). EV_ENABLE,
EV_LEVEL_LO, EV_LEVEL_HI and EV_THRESH are stored at once and read back, and change no flag; what a class asserts is
computed from the state after the write (R172). -/
def Obligations.EventUnitWrites : Prop :=
  ∀ (s : State) (w : Word), s.port.phase = .ready →
    (∃ t, exec (.evFlags w) s = .next t ∧ t = { s with ev := { s.ev with flags := t.ev.flags } } ∧
      ∀ c : Fin 16, t.ev.flags.getLsbD c.val = (s.ev.flags.getLsbD c.val && !w.getLsbD c.val)) ∧
    s.readWord 0x7A = (some s.ev.flags, s) ∧
    exec (.evEnable w) s = .next { s with ev := { s.ev with enable := w } } ∧
    exec (.evLevel false w) s = .next { s with ev := { s.ev with levelLo := w } } ∧
    exec (.evLevel true w) s = .next { s with ev := { s.ev with levelHi := w } } ∧
    exec (.evThresh w) s = .next { s with ev := { s.ev with thresh := w.extractLsb' 0 2 } } ∧
    ∀ c t, exec c s = .next t →
      (c = .evEnable w → (t.readWord 0x7B).1 = some w) ∧ (c = .evLevel false w → (t.readWord 0x7C).1 = some w) ∧
      (c = .evLevel true w → (t.readWord 0x7D).1 = some w) ∧ (c = .evThresh w → (t.readWord 0x7E).1 = some (w &&& 3)) ∧
      (c = .evLevel false w → ∀ k : Fin 16, k.val < 8 → t.ev.level k = w.extractLsb' (2 * k.val) 2) ∧
      (c = .evLevel true w → ∀ k : Fin 16, 8 ≤ k.val → t.ev.level k = w.extractLsb' (2 * (k.val - 8)) 2)

/-- IRQ# is low exactly when a class has its flag set, its enable set and a level above the threshold; EV_TOP names
the highest level among the asserting classes and the lowest class at that level, and is 0 when none asserts; its read
shows it as it stands, with no side effect, and a write of it is ignored (R173, R175). -/
def Obligations.InterruptLineAndTopClass : Prop :=
  ∀ s : State,
    let asserts : Fin 16 → Prop := fun c =>
      s.ev.flags.getLsbD c.val = true ∧ s.ev.enable.getLsbD c.val = true ∧ s.ev.thresh < s.ev.level c
    (s.irqLow = true ↔ ∃ c, asserts c) ∧
    ((∀ c, ¬asserts c) → s.ev.topWord = 0) ∧
    (∀ c, asserts c → (∀ d, asserts d → s.ev.level d < s.ev.level c ∨ (s.ev.level d = s.ev.level c ∧ c ≤ d)) →
      s.ev.topWord.getLsbD 15 = true ∧ s.ev.topWord.extractLsb' 8 2 = s.ev.level c ∧
      s.ev.topWord.extractLsb' 0 4 = BitVec.ofNat 4 c.val) ∧
    s.ev.topWord.getLsbD 15 = s.irqLow ∧
    (s.port.phase = .ready → s.readWord 0x7F = (some s.ev.topWord, s) ∧ ∀ w, exec (.registerWrite 0x7F w) s = .next s)

/-- A write of a window word through REGISTER_WRITE: STORE_ADDR and ARG0 to ARG3 are stored (R52, R152); the
read-only and the unassigned words ignore it (R178); every word that has a row of its own does what that row does. -/
def Obligations.RegisterWriteByAddress : Prop :=
  ∀ (s : State) (w : Word), s.port.phase = .ready →
    exec (.registerWrite 0x68 w) s = .next
      { s with store := { s.store with addr := w.extractLsb' 0 9, addrPage := .ofBit (w.getLsbD 15) } } ∧
    (∀ i : Fin 4, exec (.registerWrite (0x70 + BitVec.ofNat 7 i.val) w) s = .next
      { s with cmd := { s.cmd with args := s.cmd.args.set i w } }) ∧
    (∀ a : BitVec 7, hasOwnWriteRow a = false → a ≠ 0x68 → (a.toNat < 0x70 ∨ 0x73 < a.toNat) →
      exec (.registerWrite a w) s = .next s) ∧
    exec (.registerWrite 0x01 w) s = exec (.clear w) s ∧
    exec (.registerWrite 0x02 w) s = exec (.tickdiv w) s ∧
    exec (.registerWrite 0x06 w) s = exec (.lateCount w) s ∧
    (∀ u : Fin 4, exec (.registerWrite (0x08 + BitVec.ofNat 7 (3 * u.val)) w) s = exec (.run u w) s ∧
      exec (.registerWrite (0x09 + BitVec.ofNat 7 (3 * u.val)) w) s = exec (.reload u w) s) ∧
    exec (.registerWrite 0x14 w) s = exec (.iuPair w) s ∧
    (∀ n : Fin 16, exec (.registerWrite (0x20 + BitVec.ofNat 7 n.val) w) s = exec (.lineCfg n w) s) ∧
    (∀ k : Fin 3, exec (.registerWrite (0x32 + BitVec.ofNat 7 k.val) w) s = exec (.blankLen k w) s) ∧
    exec (.registerWrite 0x3A w) s = exec (.outPol w) s ∧ exec (.registerWrite 0x3B w) s = exec (.outIdle w) s ∧
    exec (.registerWrite 0x3C w) s = exec (.outMode w) s ∧
    exec (.registerWrite 0x3D w) s = exec (.outBset false w) s ∧
    exec (.registerWrite 0x3E w) s = exec (.outBset true w) s ∧
    exec (.registerWrite 0x3F w) s = exec (.outSet w) s ∧ exec (.registerWrite 0x40 w) s = exec (.outClr w) s ∧
    exec (.registerWrite 0x41 w) s = exec (.outToggle w) s ∧
    exec (.registerWrite 0x4E w) s = exec (.capWmark w) s ∧
    (∀ k : Fin 8, exec (.registerWrite (0x50 + BitVec.ofNat 7 (3 * k.val)) w) s = exec (.maskValue k false w) s ∧
      exec (.registerWrite (0x51 + BitVec.ofNat 7 (3 * k.val)) w) s = exec (.maskValue k true w) s ∧
      exec (.registerWrite (0x52 + BitVec.ofNat 7 (3 * k.val)) w) s = exec (.pctrl k w) s) ∧
    exec (.registerWrite 0x69 w) s = exec (.storeDataWrite w) s ∧
    exec (.registerWrite 0x6C w) s = exec (.armSet w) s ∧ exec (.registerWrite 0x6D w) s = exec (.armClr w) s ∧
    exec (.registerWrite 0x74 w) s = exec (.cmd w) s ∧ exec (.registerWrite 0x7A w) s = exec (.evFlags w) s ∧
    exec (.registerWrite 0x7B w) s = exec (.evEnable w) s ∧
    exec (.registerWrite 0x7C w) s = exec (.evLevel false w) s ∧
    exec (.registerWrite 0x7D w) s = exec (.evLevel true w) s ∧
    exec (.registerWrite 0x7E w) s = exec (.evThresh w) s

/-! ### What every step keeps -/

/-- The laws hold of the machine after reset. -/
def Obligations.ResetKeepsTheLaws : Prop :=
  TimebaseLaw .reset ∧ UnitLaw .reset ∧ ListOrdered .reset ∧ DirectBounded .reset ∧ RunEntryLaw .reset ∧
    BindingLaw .reset ∧ SameDueLaw .reset ∧ PagesWf .reset ∧ CaptureBounded .reset ∧ SeqLaw .reset ∧
    CandidateLaw .reset ∧ DivideLaw .reset ∧ PatternLaw .reset

/-- Every step keeps the timebase's and the interval units' laws (R1, R10, R16). -/
def Obligations.StepKeepsTimebaseAndUnitLaws : Prop :=
  ∀ s t : State, step s = .next t → (TimebaseLaw s → TimebaseLaw t) ∧ (UnitLaw s → UnitLaw t)

/-- Every step keeps the list in the order of the time remaining, with no more than 24 DIRECT entries (R22, R24). -/
def Obligations.StepKeepsTheListInOrder : Prop :=
  ∀ s t : State, step s = .next t → ListOrdered s → ListOrdered t ∧ (DirectBounded s → DirectBounded t)

/-- Every step keeps one RUN entry for each RUNNING slot, that of its current step, and none for an IDLE slot (R24,
R65). -/
def Obligations.StepKeepsOneEntryForEachRun : Prop :=
  ∀ s t : State, step s = .next t → RunEntryLaw s → RunEntryLaw t

/-- Every step keeps the bound-run counts equal to the RUNNING runs bound to each page, a swap pending only while the
other page is OPEN, no more than 32 steps counted in a slot at one due time, and the pages in canonical form (R44,
R48, R57, R78). -/
def Obligations.StepKeepsTheBindings : Prop :=
  ∀ s t : State, step s = .next t →
    (BindingLaw s → BindingLaw t) ∧ (SameDueLaw s → SameDueLaw t) ∧ (PagesWf s → PagesWf t)

/-- Every step keeps the capture queue within 128 records, the watermark within 1 to 128, and the law of the sequence
numbers (R125, R126, R129). -/
def Obligations.StepKeepsTheCaptureLaws : Prop :=
  ∀ s t : State, step s = .next t → (CaptureBounded s → CaptureBounded t) ∧ (SeqLaw s → SeqLaw t)

/-- Every step keeps the candidate and divide counts in range, and the held vector and the match states those of the
stable vector outside an evaluation (R112, R139 to R142, R144). -/
def Obligations.StepKeepsTheInputLaws : Prop :=
  ∀ s t : State, step s = .next t →
    (CandidateLaw s → CandidateLaw t) ∧ (DivideLaw s → DivideLaw t) ∧ (PatternLaw s → PatternLaw t)
end

