-- ==== Sys2Proof/Laws/State.lean ====
section
/-! SUPPORT. What each named update of State leaves as it is, field by field, and what it sets. -/

namespace Sys2Proof.Machine

/-! ### setUnit -/

section
variable (s : State) (u : Fin 4) (x : IntervalUnit)

@[simp] theorem State.setUnit_tb : (s.setUnit u x).tb = s.tb := rfl
@[simp] theorem State.setUnit_sched : (s.setUnit u x).sched = s.sched := rfl
@[simp] theorem State.setUnit_store : (s.setUnit u x).store = s.store := rfl
@[simp] theorem State.setUnit_slots : (s.setUnit u x).slots = s.slots := rfl
@[simp] theorem State.setUnit_out : (s.setUnit u x).out = s.out := rfl
@[simp] theorem State.setUnit_inp : (s.setUnit u x).inp = s.inp := rfl
@[simp] theorem State.setUnit_cap : (s.setUnit u x).cap = s.cap := rfl
@[simp] theorem State.setUnit_pat : (s.setUnit u x).pat = s.pat := rfl
@[simp] theorem State.setUnit_cmd : (s.setUnit u x).cmd = s.cmd := rfl
@[simp] theorem State.setUnit_ev : (s.setUnit u x).ev = s.ev := rfl
@[simp] theorem State.setUnit_port : (s.setUnit u x).port = s.port := rfl
@[simp] theorem State.setUnit_adv : (s.setUnit u x).adv = s.adv := rfl
@[simp] theorem State.setUnit_freeCount : (s.setUnit u x).freeCount = s.freeCount := rfl
@[simp] theorem State.setUnit_pending : (s.setUnit u x).pending = s.pending := rfl

end

/-! ### setPair -/

section
variable (s : State) (i : Fin 2) (x : UnitPair)

@[simp] theorem State.setPair_tb : (s.setPair i x).tb = s.tb := rfl
@[simp] theorem State.setPair_sched : (s.setPair i x).sched = s.sched := rfl
@[simp] theorem State.setPair_store : (s.setPair i x).store = s.store := rfl
@[simp] theorem State.setPair_slots : (s.setPair i x).slots = s.slots := rfl
@[simp] theorem State.setPair_out : (s.setPair i x).out = s.out := rfl
@[simp] theorem State.setPair_inp : (s.setPair i x).inp = s.inp := rfl
@[simp] theorem State.setPair_cap : (s.setPair i x).cap = s.cap := rfl
@[simp] theorem State.setPair_pat : (s.setPair i x).pat = s.pat := rfl
@[simp] theorem State.setPair_cmd : (s.setPair i x).cmd = s.cmd := rfl
@[simp] theorem State.setPair_ev : (s.setPair i x).ev = s.ev := rfl
@[simp] theorem State.setPair_port : (s.setPair i x).port = s.port := rfl
@[simp] theorem State.setPair_adv : (s.setPair i x).adv = s.adv := rfl
@[simp] theorem State.setPair_freeCount : (s.setPair i x).freeCount = s.freeCount := rfl
@[simp] theorem State.setPair_pending : (s.setPair i x).pending = s.pending := rfl

end

/-! ### setSlot -/

section
variable (s : State) (p : Fin 8) (x : Slot)

@[simp] theorem State.setSlot_tb : (s.setSlot p x).tb = s.tb := rfl
@[simp] theorem State.setSlot_iu : (s.setSlot p x).iu = s.iu := rfl
@[simp] theorem State.setSlot_sched : (s.setSlot p x).sched = s.sched := rfl
@[simp] theorem State.setSlot_store : (s.setSlot p x).store = s.store := rfl
@[simp] theorem State.setSlot_out : (s.setSlot p x).out = s.out := rfl
@[simp] theorem State.setSlot_inp : (s.setSlot p x).inp = s.inp := rfl
@[simp] theorem State.setSlot_cap : (s.setSlot p x).cap = s.cap := rfl
@[simp] theorem State.setSlot_pat : (s.setSlot p x).pat = s.pat := rfl
@[simp] theorem State.setSlot_cmd : (s.setSlot p x).cmd = s.cmd := rfl
@[simp] theorem State.setSlot_ev : (s.setSlot p x).ev = s.ev := rfl
@[simp] theorem State.setSlot_port : (s.setSlot p x).port = s.port := rfl
@[simp] theorem State.setSlot_adv : (s.setSlot p x).adv = s.adv := rfl
@[simp] theorem State.setSlot_freeCount : (s.setSlot p x).freeCount = s.freeCount := rfl
@[simp] theorem State.setSlot_pending : (s.setSlot p x).pending = s.pending := rfl

end

/-! ### setLine -/

section
variable (s : State) (n : Fin 16) (x : Line)

@[simp] theorem State.setLine_tb : (s.setLine n x).tb = s.tb := rfl
@[simp] theorem State.setLine_iu : (s.setLine n x).iu = s.iu := rfl
@[simp] theorem State.setLine_sched : (s.setLine n x).sched = s.sched := rfl
@[simp] theorem State.setLine_store : (s.setLine n x).store = s.store := rfl
@[simp] theorem State.setLine_slots : (s.setLine n x).slots = s.slots := rfl
@[simp] theorem State.setLine_out : (s.setLine n x).out = s.out := rfl
@[simp] theorem State.setLine_cap : (s.setLine n x).cap = s.cap := rfl
@[simp] theorem State.setLine_pat : (s.setLine n x).pat = s.pat := rfl
@[simp] theorem State.setLine_cmd : (s.setLine n x).cmd = s.cmd := rfl
@[simp] theorem State.setLine_ev : (s.setLine n x).ev = s.ev := rfl
@[simp] theorem State.setLine_port : (s.setLine n x).port = s.port := rfl
@[simp] theorem State.setLine_adv : (s.setLine n x).adv = s.adv := rfl
@[simp] theorem State.setLine_freeCount : (s.setLine n x).freeCount = s.freeCount := rfl
@[simp] theorem State.setLine_pending : (s.setLine n x).pending = s.pending := rfl

end

/-! ### setWindow -/

section
variable (s : State) (k : Fin 3) (x : Option Window)

@[simp] theorem State.setWindow_tb : (s.setWindow k x).tb = s.tb := rfl
@[simp] theorem State.setWindow_iu : (s.setWindow k x).iu = s.iu := rfl
@[simp] theorem State.setWindow_sched : (s.setWindow k x).sched = s.sched := rfl
@[simp] theorem State.setWindow_store : (s.setWindow k x).store = s.store := rfl
@[simp] theorem State.setWindow_slots : (s.setWindow k x).slots = s.slots := rfl
@[simp] theorem State.setWindow_out : (s.setWindow k x).out = s.out := rfl
@[simp] theorem State.setWindow_cap : (s.setWindow k x).cap = s.cap := rfl
@[simp] theorem State.setWindow_pat : (s.setWindow k x).pat = s.pat := rfl
@[simp] theorem State.setWindow_cmd : (s.setWindow k x).cmd = s.cmd := rfl
@[simp] theorem State.setWindow_ev : (s.setWindow k x).ev = s.ev := rfl
@[simp] theorem State.setWindow_port : (s.setWindow k x).port = s.port := rfl
@[simp] theorem State.setWindow_adv : (s.setWindow k x).adv = s.adv := rfl
@[simp] theorem State.setWindow_freeCount : (s.setWindow k x).freeCount = s.freeCount := rfl
@[simp] theorem State.setWindow_pending : (s.setWindow k x).pending = s.pending := rfl

end

/-! ### setEntryAt -/

section
variable (s : State) (k : Fin 8) (x : PatternEntry)

@[simp] theorem State.setEntryAt_tb : (s.setEntryAt k x).tb = s.tb := rfl
@[simp] theorem State.setEntryAt_iu : (s.setEntryAt k x).iu = s.iu := rfl
@[simp] theorem State.setEntryAt_sched : (s.setEntryAt k x).sched = s.sched := rfl
@[simp] theorem State.setEntryAt_store : (s.setEntryAt k x).store = s.store := rfl
@[simp] theorem State.setEntryAt_slots : (s.setEntryAt k x).slots = s.slots := rfl
@[simp] theorem State.setEntryAt_out : (s.setEntryAt k x).out = s.out := rfl
@[simp] theorem State.setEntryAt_inp : (s.setEntryAt k x).inp = s.inp := rfl
@[simp] theorem State.setEntryAt_cap : (s.setEntryAt k x).cap = s.cap := rfl
@[simp] theorem State.setEntryAt_cmd : (s.setEntryAt k x).cmd = s.cmd := rfl
@[simp] theorem State.setEntryAt_ev : (s.setEntryAt k x).ev = s.ev := rfl
@[simp] theorem State.setEntryAt_port : (s.setEntryAt k x).port = s.port := rfl
@[simp] theorem State.setEntryAt_adv : (s.setEntryAt k x).adv = s.adv := rfl
@[simp] theorem State.setEntryAt_freeCount : (s.setEntryAt k x).freeCount = s.freeCount := rfl
@[simp] theorem State.setEntryAt_pending : (s.setEntryAt k x).pending = s.pending := rfl

end

/-! ### setExpiry -/

section
variable (s : State) (u : Fin 4) (x : Option Expiry)

@[simp] theorem State.setExpiry_tb : (s.setExpiry u x).tb = s.tb := rfl
@[simp] theorem State.setExpiry_iu : (s.setExpiry u x).iu = s.iu := rfl
@[simp] theorem State.setExpiry_sched : (s.setExpiry u x).sched = s.sched := rfl
@[simp] theorem State.setExpiry_store : (s.setExpiry u x).store = s.store := rfl
@[simp] theorem State.setExpiry_slots : (s.setExpiry u x).slots = s.slots := rfl
@[simp] theorem State.setExpiry_out : (s.setExpiry u x).out = s.out := rfl
@[simp] theorem State.setExpiry_inp : (s.setExpiry u x).inp = s.inp := rfl
@[simp] theorem State.setExpiry_cap : (s.setExpiry u x).cap = s.cap := rfl
@[simp] theorem State.setExpiry_pat : (s.setExpiry u x).pat = s.pat := rfl
@[simp] theorem State.setExpiry_cmd : (s.setExpiry u x).cmd = s.cmd := rfl
@[simp] theorem State.setExpiry_ev : (s.setExpiry u x).ev = s.ev := rfl
@[simp] theorem State.setExpiry_port : (s.setExpiry u x).port = s.port := rfl
@[simp] theorem State.setExpiry_freeCount : (s.setExpiry u x).freeCount = s.freeCount := rfl
@[simp] theorem State.setExpiry_pending : (s.setExpiry u x).pending = s.pending := rfl

end

/-! ### setPel -/

section
variable (s : State) (l : List Entry)

@[simp] theorem State.setPel_tb : (s.setPel l).tb = s.tb := rfl
@[simp] theorem State.setPel_iu : (s.setPel l).iu = s.iu := rfl
@[simp] theorem State.setPel_store : (s.setPel l).store = s.store := rfl
@[simp] theorem State.setPel_slots : (s.setPel l).slots = s.slots := rfl
@[simp] theorem State.setPel_out : (s.setPel l).out = s.out := rfl
@[simp] theorem State.setPel_inp : (s.setPel l).inp = s.inp := rfl
@[simp] theorem State.setPel_cap : (s.setPel l).cap = s.cap := rfl
@[simp] theorem State.setPel_pat : (s.setPel l).pat = s.pat := rfl
@[simp] theorem State.setPel_cmd : (s.setPel l).cmd = s.cmd := rfl
@[simp] theorem State.setPel_ev : (s.setPel l).ev = s.ev := rfl
@[simp] theorem State.setPel_port : (s.setPel l).port = s.port := rfl
@[simp] theorem State.setPel_adv : (s.setPel l).adv = s.adv := rfl
@[simp] theorem State.setPel_freeCount : (s.setPel l).freeCount = s.freeCount := rfl
@[simp] theorem State.setPel_pending : (s.setPel l).pending = s.pending := rfl

end

/-! ### drive -/

section
variable (s : State) (w : Option Word)

@[simp] theorem State.drive_tb : (s.drive w).tb = s.tb := rfl
@[simp] theorem State.drive_iu : (s.drive w).iu = s.iu := rfl
@[simp] theorem State.drive_sched : (s.drive w).sched = s.sched := rfl
@[simp] theorem State.drive_store : (s.drive w).store = s.store := rfl
@[simp] theorem State.drive_slots : (s.drive w).slots = s.slots := rfl
@[simp] theorem State.drive_out : (s.drive w).out = s.out := rfl
@[simp] theorem State.drive_inp : (s.drive w).inp = s.inp := rfl
@[simp] theorem State.drive_cap : (s.drive w).cap = s.cap := rfl
@[simp] theorem State.drive_pat : (s.drive w).pat = s.pat := rfl
@[simp] theorem State.drive_cmd : (s.drive w).cmd = s.cmd := rfl
@[simp] theorem State.drive_ev : (s.drive w).ev = s.ev := rfl
@[simp] theorem State.drive_adv : (s.drive w).adv = s.adv := rfl
@[simp] theorem State.drive_freeCount : (s.drive w).freeCount = s.freeCount := rfl
@[simp] theorem State.drive_pending : (s.drive w).pending = s.pending := rfl

end

/-! ### request -/

section
variable (s : State) (c : EventClass)

@[simp] theorem State.request_tb : (s.request c).tb = s.tb := rfl
@[simp] theorem State.request_iu : (s.request c).iu = s.iu := rfl
@[simp] theorem State.request_sched : (s.request c).sched = s.sched := rfl
@[simp] theorem State.request_store : (s.request c).store = s.store := rfl
@[simp] theorem State.request_slots : (s.request c).slots = s.slots := rfl
@[simp] theorem State.request_out : (s.request c).out = s.out := rfl
@[simp] theorem State.request_inp : (s.request c).inp = s.inp := rfl
@[simp] theorem State.request_cap : (s.request c).cap = s.cap := rfl
@[simp] theorem State.request_pat : (s.request c).pat = s.pat := rfl
@[simp] theorem State.request_cmd : (s.request c).cmd = s.cmd := rfl
@[simp] theorem State.request_port : (s.request c).port = s.port := rfl
@[simp] theorem State.request_adv : (s.request c).adv = s.adv := rfl
@[simp] theorem State.request_freeCount : (s.request c).freeCount = s.freeCount := rfl
@[simp] theorem State.request_pending : (s.request c).pending = s.pending := rfl

end

/-! ### What an update sets -/

@[simp] theorem getElem_tabulate {α : Type} {n : Nat} (f : Fin n → α) (i : Fin n) : (tabulate f)[i] = f i := by
  simp [tabulate]

@[simp] theorem State.unit_setUnit (s : State) (u v : Fin 4) (x : IntervalUnit) :
    (s.setUnit u x).unit v = if v = u then x else s.unit v := by
  simp only [State.unit, State.setUnit, Fin.getElem_fin, Vector.getElem_set, Fin.ext_iff]
  split <;> split <;> first | rfl | omega

@[simp] theorem State.slot_setSlot (s : State) (p q : Fin 8) (x : Slot) :
    (s.setSlot p x).slot q = if q = p then x else s.slot q := by
  simp only [State.slot, State.setSlot, Fin.getElem_fin, Vector.getElem_set, Fin.ext_iff]
  split <;> split <;> first | rfl | omega

@[simp] theorem State.line_setLine (s : State) (n m : Fin 16) (x : Line) :
    (s.setLine n x).line m = if m = n then x else s.line m := by
  simp only [State.line, State.setLine, Fin.getElem_fin, Vector.getElem_set, Fin.ext_iff]
  split <;> split <;> first | rfl | omega

@[simp] theorem State.entryAt_setEntryAt (s : State) (k j : Fin 8) (x : PatternEntry) :
    (s.setEntryAt k x).entryAt j = if j = k then x else s.entryAt j := by
  simp only [State.entryAt, State.setEntryAt, Fin.getElem_fin, Vector.getElem_set, Fin.ext_iff]
  split <;> split <;> first | rfl | omega

@[simp] theorem State.windows_setWindow (s : State) (k j : Fin 3) (x : Option Window) :
    (s.setWindow k x).inp.windows[j] = if j = k then x else s.inp.windows[j] := by
  simp only [State.setWindow, Fin.getElem_fin, Vector.getElem_set, Fin.ext_iff]
  split <;> split <;> first | rfl | omega

@[simp] theorem State.expiry_setExpiry (s : State) (u v : Fin 4) (x : Option Expiry) :
    (s.setExpiry u x).adv.expiry[v] = if v = u then x else s.adv.expiry[v] := by
  simp only [State.setExpiry, Fin.getElem_fin, Vector.getElem_set, Fin.ext_iff]
  split <;> split <;> first | rfl | omega

@[simp] theorem State.pairs_setPair (s : State) (i j : Fin 2) (x : UnitPair) :
    (s.setPair i x).iu.pairs[j] = if j = i then x else s.iu.pairs[j] := by
  simp only [State.setPair, Fin.getElem_fin, Vector.getElem_set, Fin.ext_iff]
  split <;> split <;> first | rfl | omega

@[simp] theorem State.pairs_setUnit (s : State) (u : Fin 4) (x : IntervalUnit) :
    (s.setUnit u x).iu.pairs = s.iu.pairs := rfl

@[simp] theorem State.unit_setPair (s : State) (i : Fin 2) (x : UnitPair) (u : Fin 4) :
    (s.setPair i x).unit u = s.unit u := rfl

@[simp] theorem State.lines_setWindow (s : State) (k : Fin 3) (x : Option Window) :
    (s.setWindow k x).inp.lines = s.inp.lines := rfl

@[simp] theorem State.lens_setWindow (s : State) (k : Fin 3) (x : Option Window) :
    (s.setWindow k x).inp.lens = s.inp.lens := rfl

@[simp] theorem State.held_setEntryAt (s : State) (k : Fin 8) (x : PatternEntry) :
    (s.setEntryAt k x).pat.held = s.pat.held := rfl

@[simp] theorem State.pel_setPel (s : State) (l : List Entry) : (s.setPel l).sched.pel = l := rfl

@[simp] theorem State.lateCount_setPel (s : State) (l : List Entry) :
    (s.setPel l).sched.lateCount = s.sched.lateCount := rfl

theorem State.tl_eq {s t : State} (h : t.tb = s.tb) : t.tl = s.tl := by simp [State.tl, h]

end Sys2Proof.Machine
end

