-- ==== Sys2Proof/Laws/Output.lean ====
section
/-! SUPPORT. What a pin-change report and an event of the output stage do, said once (R92, R103, R117). -/

namespace Sys2Proof.Machine

theorem State.report_eq (s : State) (k : Fin 3) :
    s.report k =
      s.setWindow k (windowAfterReport s.inp.lens[k] s.tl s.inp.windows[k]) := rfl

/-- Reports change the windows of the sets reported, each once, and nothing else. -/
theorem State.reportSets_eq (s : State) (f : Fin 3 → Bool) :
    s.reportSets f =
      { s with
        inp :=
          { s.inp with
            windows := tabulate fun k =>
              if f k then windowAfterReport s.inp.lens[k] s.tl s.inp.windows[k] else s.inp.windows[k] } } := by
  have e : (List.finRange 3) = [0, 1, 2] := by decide
  simp only [State.reportSets, e, List.foldl]
  have key : ∀ v : Vector (Option Window) 3, ∀ a : Vector (Option Window) 3,
      (∀ k : Fin 3, v[k] = a[k]) →
      ({ s with inp := { s.inp with windows := v } } : State)
        = { s with inp := { s.inp with windows := a } } := by
    intro v a h
    have : v = a := by
      apply Vector.ext; intro i hi; exact h ⟨i, hi⟩
    rw [this]
  rcases h0 : f 0 <;> rcases h1 : f 1 <;> rcases h2 : f 2 <;>
    simp only [Bool.false_eq_true, if_false, if_true, State.report, State.setWindow, State.tl] <;>
    (refine key _ _ ?_; intro k; rw [getElem_tabulate]; revert k; simp [Fin.forall_fin_succ, h0, h1, h2])

/-- An event of the output stage changes its state and the windows, and nothing else. -/
theorem State.outputEvent_eq (s : State) (f : Outputs → Outputs) :
    s.outputEvent f =
      { s with
        out := f s.out
        inp :=
          { s.inp with
            windows := tabulate fun k =>
              if (f s.out).outen && (List.finRange 16).any fun n =>
                  bit (s.out.pins ^^^ (f s.out).pins) n.val
                    && (f s.out).setOf n == BitVec.ofNat 2 (k.val + 1)
              then windowAfterReport s.inp.lens[k] s.tl s.inp.windows[k] else s.inp.windows[k] } } := by
  simp only [State.outputEvent, State.reportChanges]
  cases h : (f s.out).outen
  · simp only [Bool.false_eq_true, if_false, Bool.false_and]
    have : (tabulate fun k : Fin 3 => s.inp.windows[k]) = s.inp.windows := by
      apply Vector.ext; intro i hi
      exact getElem_tabulate (fun k : Fin 3 => s.inp.windows[k]) ⟨i, hi⟩
    rw [this]
  · simp only [if_true, Bool.true_and]
    rw [State.reportSets_eq]
    rfl

end Sys2Proof.Machine
end

