-- ==== Sys2Proof/Laws/Chain.lean ====
section
/-! SUPPORT. Everything that a chain of the run controller can do to the state, said once: `ChainRel`. Each
operation of the run controller is in the relation, and so is a whole chain (R27, R69, R81, R82, R87). -/

namespace Sys2Proof.Machine

/-- What a chain can do to the list at timeline value `n`: insert RUN entries that are ahead, and remove the RUN
entries of a slot. -/
inductive PelReach (n : Time) : List Entry → List Entry → Prop
  | refl (l : List Entry) : PelReach n l l
  | insert {l m : List Entry} (e : Entry) :
      PelReach n l m → ahead e.due n = true → e.isDirect = false → PelReach n l (insertByTime n e m)
  | remove {l m : List Entry} (p : Fin 8) :
      PelReach n l m → PelReach n l (m.filter fun e => !e.isRun p)

theorem PelReach.trans {n : Time} {a b c : List Entry} (h : PelReach n a b) (k : PelReach n b c) :
    PelReach n a c := by
  induction k with
  | refl => exact h
  | insert e _ x y ih => exact .insert e ih x y
  | remove p _ ih => exact .remove p ih

/-- What producers can do to the capture queue: hand records over. -/
inductive CapReach : Capture → Capture → Prop
  | refl (c : Capture) : CapReach c c
  | take {c d : Capture} (h : Happening) : CapReach c d → CapReach c (d.take h)

theorem CapReach.trans {a b c : Capture} (h : CapReach a b) (k : CapReach b c) : CapReach a c := by
  induction k with
  | refl => exact h
  | take x _ ih => exact .take x ih

/-- What the actions of a chain can do to an interval unit (R14, R16). -/
structure UnitKeeps (x y : IntervalUnit) : Prop where
  reload : y.r = x.r
  prescale : y.prescale = x.prescale
  mode : y.mode = x.mode
  phase : y.phase = x.phase ∨ y.phase = 0
  owes : x.owes = false → y.owes = false

theorem UnitKeeps.refl (x : IntervalUnit) : UnitKeeps x x := ⟨rfl, rfl, rfl, .inl rfl, id⟩

theorem UnitKeeps.trans {x y z : IntervalUnit} (h : UnitKeeps x y) (k : UnitKeeps y z) : UnitKeeps x z where
  reload := k.reload.trans h.reload
  prescale := k.prescale.trans h.prescale
  mode := k.mode.trans h.mode
  phase := by
    rcases k.phase with e | e
    · rw [e]; exact h.phase
    · exact .inr e
  owes := fun o => k.owes (h.owes o)

/-- The state with everything erased that a chain can change. -/
def State.still (s : State) : State :=
  { s with
    iu := { s.iu with units := Units.reset.units }
    sched := { s.sched with pel := [] }
    store := { s.store with boundA := 0, boundB := 0 }
    slots := State.reset.slots
    out := { s.out with logic := 0 }
    inp := { s.inp with windows := Inputs.reset.windows }
    cap := Capture.reset
    ev := { s.ev with flags := 0 } }

theorem and_not_self (x : Word) : x &&& ~~~x = 0 := by
  apply BitVec.eq_of_getLsbD_eq
  intro i hi
  simp only [BitVec.getLsbD_and, BitVec.getLsbD_not]
  cases x.getLsbD i <;> simp

/-- Everything a chain can do. -/
structure ChainRel (s t : State) : Prop where
  still : t.still = s.still
  units : ∀ u, UnitKeeps (s.unit u) (t.unit u)
  oddRun : ∀ u, isOdd u = true → s.cascaded u = true → (t.unit u).running = (s.unit u).running
  pel : PelReach s.tl s.sched.pel t.sched.pel
  cap : CapReach s.cap t.cap
  wmark : t.cap.wmark = s.cap.wmark
  sameDue : ∀ p, (s.slot p).dueCount ≤ sameDueMax → (t.slot p).dueCount ≤ sameDueMax
  flags : s.ev.flags &&& ~~~t.ev.flags = 0

namespace ChainRel

variable {s t u : State}

theorem tb (h : ChainRel s t) : t.tb = s.tb := congrArg (fun x => x.tb) h.still
theorem tl (h : ChainRel s t) : t.tl = s.tl := State.tl_eq h.tb
theorem pairs (h : ChainRel s t) : t.iu.pairs = s.iu.pairs := congrArg (fun x => x.iu.pairs) h.still
theorem lateCount (h : ChainRel s t) : t.sched.lateCount = s.sched.lateCount :=
  congrArg (fun x => x.sched.lateCount) h.still
theorem pageA (h : ChainRel s t) : t.store.pageA = s.store.pageA := congrArg (fun x => x.store.pageA) h.still
theorem pageB (h : ChainRel s t) : t.store.pageB = s.store.pageB := congrArg (fun x => x.store.pageB) h.still
theorem active (h : ChainRel s t) : t.store.active = s.store.active :=
  congrArg (fun x => x.store.active) h.still
theorem swap (h : ChainRel s t) : t.store.swap = s.store.swap := congrArg (fun x => x.store.swap) h.still
theorem lines (h : ChainRel s t) : t.inp.lines = s.inp.lines := congrArg (fun x => x.inp.lines) h.still
theorem lens (h : ChainRel s t) : t.inp.lens = s.inp.lens := congrArg (fun x => x.inp.lens) h.still
theorem pat (h : ChainRel s t) : t.pat = s.pat := congrArg (fun x => x.pat) h.still
theorem cmd (h : ChainRel s t) : t.cmd = s.cmd := congrArg (fun x => x.cmd) h.still
theorem port (h : ChainRel s t) : t.port = s.port := congrArg (fun x => x.port) h.still
theorem adv (h : ChainRel s t) : t.adv = s.adv := congrArg (fun x => x.adv) h.still
theorem freeCount (h : ChainRel s t) : t.freeCount = s.freeCount := congrArg (fun x => x.freeCount) h.still
theorem pending (h : ChainRel s t) : t.pending = s.pending := congrArg (fun x => x.pending) h.still

theorem cascaded (h : ChainRel s t) (v : Fin 4) : t.cascaded v = s.cascaded v := by
  simp only [State.cascaded, h.pairs]

theorem refl (s : State) : ChainRel s s :=
  ⟨rfl, fun _ => .refl _, fun _ _ _ => rfl, .refl _, .refl _, rfl, fun _ => id, and_not_self _⟩

theorem trans (h : ChainRel s t) (k : ChainRel t u) : ChainRel s u where
  still := k.still.trans h.still
  units v := (h.units v).trans (k.units v)
  oddRun v a b := by rw [k.oddRun v a (by rw [h.cascaded]; exact b), h.oddRun v a b]
  pel := h.pel.trans (by rw [← h.tl]; exact k.pel)
  cap := h.cap.trans k.cap
  wmark := k.wmark.trans h.wmark
  sameDue p b := k.sameDue p (h.sameDue p b)
  flags := by
    have a := h.flags
    have b := k.flags
    generalize s.ev.flags = x at *
    generalize t.ev.flags = y at *
    generalize u.ev.flags = z at *
    have : x &&& ~~~z = (x &&& ~~~y &&& ~~~z) ||| (x &&& (y &&& ~~~z)) := by
      apply BitVec.eq_of_getLsbD_eq
      intro i hi
      simp only [BitVec.getLsbD_and, BitVec.getLsbD_or, BitVec.getLsbD_not]
      cases x.getLsbD i <;> cases y.getLsbD i <;> cases z.getLsbD i <;> simp [hi]
    rw [this, a, b]; simp

end ChainRel

/-! ### The operations -/

theorem and_not_or_self (x y : Word) : x &&& ~~~(x ||| y) = 0 := by
  apply BitVec.eq_of_getLsbD_eq
  intro i hi
  simp only [BitVec.getLsbD_and, BitVec.getLsbD_not, BitVec.getLsbD_or]
  cases x.getLsbD i <;> simp

theorem ChainRel.request (s : State) (c : EventClass) : ChainRel s (s.request c) :=
  ⟨rfl, fun _ => .refl _, fun _ _ _ => rfl, .refl _, .refl _, rfl, fun _ => id, and_not_or_self _ _⟩

theorem ChainRel.requestIf (s : State) (b : Bool) (c : EventClass) : ChainRel s (s.requestIf b c) := by
  cases b
  · exact .refl s
  · exact .request s c

theorem Capture.take_wmark (c : Capture) (h : Happening) : (c.take h).wmark = c.wmark := by
  simp only [Capture.take]; split <;> rfl

/-- The state after a record is handed over, but for the flags. -/
theorem ChainRel.produce (s : State) (h : Happening) : ChainRel s (s.produce h) := by
  have a : ChainRel s { s with cap := s.cap.take h } :=
    ⟨rfl, fun _ => .refl _, fun _ _ _ => rfl, .refl _, .take h (.refl _), Capture.take_wmark _ _,
      fun _ => id, and_not_self _⟩
  simp only [State.produce]
  split
  · exact a.trans (.requestIf _ _ _)
  · exact a.trans (.request _ _)

theorem ChainRel.outputLogic (s : State) (f : Outputs → Outputs)
    (hf : ∀ o, { f o with logic := 0 } = { o with logic := 0 }) : ChainRel s (s.outputEvent f) := by
  rw [State.outputEvent_eq]
  refine ⟨?_, fun _ => .refl _, fun _ _ _ => rfl, .refl _, .refl _, rfl, fun _ => id, and_not_self _⟩
  simp only [State.still, hf]

theorem ChainRel.setLines (s : State) (m : Word) : ChainRel s (s.setLines m) :=
  .outputLogic s (fun o => { o with logic := o.logic ||| m }) fun _ => rfl

theorem ChainRel.clrLines (s : State) (m : Word) : ChainRel s (s.clrLines m) :=
  .outputLogic s (fun o => { o with logic := o.logic &&& ~~~m }) fun _ => rfl

theorem ChainRel.toggleLines (s : State) (m : Word) : ChainRel s (s.toggleLines m) :=
  .outputLogic s (fun o => { o with logic := o.logic ^^^ m }) fun _ => rfl

theorem ChainRel.setUnit (s : State) (u : Fin 4) (x : IntervalUnit) (h : UnitKeeps (s.unit u) x)
    (g : isOdd u = true → s.cascaded u = true → x.running = (s.unit u).running) :
    ChainRel s (s.setUnit u x) := by
  refine ⟨rfl, ?_, ?_, .refl _, .refl _, rfl, fun _ => id, and_not_self _⟩
  · intro v
    rw [State.unit_setUnit]
    split
    · next e => subst e; exact h
    · exact .refl _
  · intro v a b
    rw [State.unit_setUnit]
    split
    · next e => subst e; exact g a b
    · rfl

theorem ChainRel.reloadOddHalf (s : State) (u : Fin 4) : ChainRel s (s.reloadOddHalf u) := by
  simp only [State.reloadOddHalf]
  split
  · exact .setUnit _ _ _ ⟨rfl, rfl, rfl, .inl rfl, id⟩ fun _ _ => rfl
  · exact .refl s

theorem ChainRel.startUnit (s : State) (u : Fin 4) : ChainRel s (s.startUnit u) := by
  simp only [State.startUnit]
  split
  · exact .refl s
  · next h =>
    refine ChainRel.trans ?_ (.reloadOddHalf _ _)
    refine .setUnit s u _ ⟨rfl, rfl, rfl, .inr rfl, fun _ => rfl⟩ ?_
    intro a b; simp [a, b] at h

theorem ChainRel.stopUnit (s : State) (u : Fin 4) : ChainRel s (s.stopUnit u) := by
  simp only [State.stopUnit]
  split
  · exact .refl s
  · next h =>
    refine ChainRel.setUnit s u _ ⟨rfl, rfl, rfl, .inl rfl, id⟩ ?_
    intro a b; simp [a, b] at h

theorem ChainRel.setSlot (s : State) (p : Fin 8) (x : Slot)
    (h : (s.slot p).dueCount ≤ sameDueMax → x.dueCount ≤ sameDueMax) : ChainRel s (s.setSlot p x) := by
  refine ⟨rfl, fun _ => .refl _, fun _ _ _ => rfl, .refl _, .refl _, rfl, ?_, by simp⟩
  intro q
  rw [State.slot_setSlot]
  split
  · next e => subst e; exact h
  · exact id

theorem ChainRel.insertEntry (s : State) (e : Entry) (h : ahead e.due s.tl = true) (d : e.isDirect = false) :
    ChainRel s (s.insertEntry e) :=
  ⟨rfl, fun _ => .refl _, fun _ _ _ => rfl, .insert e (.refl _) h d, .refl _, rfl, fun _ => id, and_not_self _⟩

theorem ChainRel.removeRun (s : State) (p : Fin 8) : ChainRel s (s.removeRun p) :=
  ⟨rfl, fun _ => .refl _, fun _ _ _ => rfl, .remove p (.refl _), .refl _, rfl, fun _ => id, and_not_self _⟩

theorem ChainRel.setBound (s : State) (g : Page) (n : Nat) :
    ChainRel s { s with store := s.store.setBound g n } := by
  cases g <;>
    exact ⟨rfl, fun _ => .refl _, fun _ _ _ => rfl, .refl _, .refl _, rfl, fun _ => id, and_not_self _⟩

theorem ChainRel.bindActive (s : State) : ChainRel s s.bindActive := .setBound _ _ _

theorem ChainRel.dropBinding (s : State) (g : Page) : ChainRel s (s.dropBinding g) :=
  (ChainRel.setBound _ _ _).trans (.requestIf _ _ _)

theorem ChainRel.offer (s : State) (p : Fin 8) (i : BitVec 7) (b : Time) : ChainRel s (s.offer p i b).2 := by
  simp only [State.offer]
  split
  · exact .refl s
  · split
    · next h => exact .insertEntry _ _ h rfl
    · exact .refl s

theorem ChainRel.offerAfter (s : State) (p : Fin 8) (x : Slot) (i : BitVec 7) (b : Time)
    (h : (s.slot p).dueCount ≤ sameDueMax → x.dueCount ≤ sameDueMax) :
    ChainRel s ((s.setSlot p x).offer p i b).2 := by
  refine ChainRel.trans ?_ (.offer _ _ _ _)
  exact .setSlot _ _ _ h

theorem ChainRel.startRun (s : State) (src : LaunchSource) (silent : Bool) (ok : LaunchResult) (q : Fin 8) :
    ChainRel s (s.startRun src silent ok q).2.2 := by
  simp only [State.startRun]
  split
  · refine ChainRel.trans ?_ (.offer _ _ _ _)
    exact (ChainRel.bindActive s).trans (.setSlot _ _ _ id)
  · split
    · exact .refl s
    · exact (ChainRel.produce _ _).trans (.request _ _)

theorem ChainRel.ignoreLaunch (s : State) (q : Fin 8) : ChainRel s (s.ignoreLaunch q) := .setSlot _ _ _ id

theorem ChainRel.dropRun (s : State) (q : Fin 8) (r : Run) : ChainRel s (s.dropRun q r) := by
  refine ChainRel.trans ?_ (.dropBinding _ _)
  refine ChainRel.trans ?_ (.removeRun _ _)
  exact .setSlot _ _ _ id

theorem ChainRel.takeLaunch (s : State) (src : LaunchSource) (q : Fin 8) :
    ChainRel s (s.takeLaunch src q).2.2 := by
  simp only [State.takeLaunch]
  split
  · exact .refl s
  · split
    · exact .startRun _ _ _ _ _
    · split
      · exact (ChainRel.dropRun _ _ _).trans (.startRun _ _ _ _ _)
      · split
        · exact .ignoreLaunch _ _
        · exact .setSlot _ _ _ id
      · exact .ignoreLaunch _ _

theorem ChainRel.endRun (s : State) (p : Fin 8) (why : EndReason) : ChainRel s (s.endRun p why).2 := by
  simp only [State.endRun]
  split
  · exact .refl s
  · refine ChainRel.trans ?_ (.dropBinding _ _)
    have a := ((ChainRel.setSlot s p { s.slot p with run := none } id).trans (.removeRun _ p)).trans
      (.request _ .runend)
    split
    · exact a.trans (.produce _ _)
    · exact a

theorem ChainRel.faultRun (s : State) (p : Fin 8) (why : FaultReason) (i : BitVec 7) (d : Time) :
    ChainRel s (s.faultRun p why i d) := by
  have a := (((ChainRel.setSlot s p { s.slot p with run := none } id).trans (.removeRun _ p)).trans
    (.produce _ (.fault p why i d))).trans (.request _ .runflt)
  simp only [State.faultRun]
  split
  · exact a
  · exact a.trans (.dropBinding _ _)

theorem ChainRel.perform (s : State) (e : Entry) : ChainRel s (s.perform e).2 := by
  simp only [State.perform]
  split
  · exact .refl s
  · exact .refl s
  · exact .setLines _ _
  · exact .clrLines _ _
  · exact .toggleLines _ _
  · exact .refl s
  · exact .startUnit _ _
  · exact .stopUnit _ _
  · split
    · exact .refl s
    · exact .endRun _ _ _

theorem ChainRel.countStep (s : State) (p : Fin 8) (e : Entry) (h : (s.slot p).refusal e = none) :
    ChainRel s (s.setSlot p ((s.slot p).countStep e.due)) := by
  refine .setSlot _ _ _ ?_
  intro b
  simp only [Slot.countStep]
  simp only [Slot.refusal] at h
  split at h
  · simp at h
  · split at h
    · simp at h
    · next k =>
      split
      · next d =>
        have : ¬ sameDueMax ≤ (s.slot p).dueCount := fun c => k ⟨d, c⟩
        omega
      · simp [sameDueMax]

theorem ChainRel.takeEntry (s : State) (e : Entry) (late : Bool) : ChainRel s (s.takeEntry e late).2 := by
  simp only [State.takeEntry]
  split
  · exact .perform _ _
  · split
    · exact .faultRun _ _ _ _ _
    · next h => exact (ChainRel.countStep _ _ _ h).trans (.perform _ _)

theorem ChainRel.advanceRun (s : State) (p : Fin 8) (i : BitVec 7) (r : Run) :
    ChainRel s (s.advanceRun p i r).2 := by
  simp only [State.advanceRun]
  split
  · exact .offerAfter _ _ _ _ _ id
  · split
    · exact .offerAfter _ _ _ _ _ id
    · split
      · exact .endRun _ _ _
      · exact .offerAfter _ _ _ _ _ id

theorem ChainRel.takeHandOff (s : State) (p : Fin 8) (i : BitVec 7) (b : Nat) (self : Bool) :
    ChainRel s (s.takeHandOff p i b self).2 := by
  simp only [State.takeHandOff]
  split
  · exact .refl s
  · split
    · exact .refl s
    · split
      · exact .endRun _ _ _
      · exact .advanceRun _ _ _ _

theorem ChainRel.doTask (t : Task) (s : State) : ChainRel s (doTask t s).2 := by
  cases t with
  | take e late => exact .takeEntry _ _ _
  | mark o late => exact (ChainRel.produce _ _).trans (.request _ _)
  | handOff p i b self => exact .takeHandOff _ _ _ _ _
  | launch src q => exact .takeLaunch _ _ _

theorem ChainRel.runChain (n : Nat) (ts : List Task) (s : State) : ChainRel s (runChain n ts s).2 := by
  induction n generalizing ts s with
  | zero => exact .refl s
  | succ n ih =>
    cases ts with
    | nil => exact .refl s
    | cons t ts => exact (ChainRel.doTask t s).trans (ih _ _)

theorem ChainRel.chain (ts : List Task) (s : State) : ChainRel s (s.chain ts) := .runChain _ _ _

theorem ChainRel.launchNow (s : State) (src : LaunchSource) (q : Fin 8) : ChainRel s (s.launchNow src q).2 :=
  (ChainRel.takeLaunch s src q).trans (.chain _ _)

end Sys2Proof.Machine
end

