-- ==== Sys2Proof/Laws/Handling.lean ====
section
/-! SUPPORT. Everything that the handling of an advance can do to the state, said once: `HandleRel`. Each part that
an owner takes is in the relation, and so is the whole of what `settle` does (R4, R19, R26, R59, R71, R109, R115,
R118, R142). -/

namespace Sys2Proof.Machine

/-- What a handling can do to the list at timeline value `n`: what a chain can, and take the head if it is due. -/
inductive ListReach (n : Time) : List Entry → List Entry → Prop
  | refl (l : List Entry) : ListReach n l l
  | chain {l m k : List Entry} : ListReach n l m → PelReach n m k → ListReach n l k
  | takeHead {l m : List Entry} {e : Entry} : ListReach n l (e :: m) → e.due = n → ListReach n l m

theorem ListReach.trans {n : Time} {a b c : List Entry} (h : ListReach n a b) (k : ListReach n b c) :
    ListReach n a c := by
  induction k with
  | refl => exact h
  | chain _ p ih => exact .chain ih p
  | takeHead _ d ih => exact .takeHead ih d

/-- What a handling can do to an interval unit: count, expire, start, stop (R10, R14). -/
structure UnitCounts (x y : IntervalUnit) : Prop where
  reload : y.r = x.r
  prescale : y.prescale = x.prescale
  mode : y.mode = x.mode
  phase : x.phase < prescaleTicks x.prescale → y.phase < prescaleTicks y.prescale
  owes : x.owes = false → y.owes = false

theorem UnitCounts.refl (x : IntervalUnit) : UnitCounts x x := ⟨rfl, rfl, rfl, id, id⟩

theorem UnitCounts.trans {x y z : IntervalUnit} (h : UnitCounts x y) (k : UnitCounts y z) : UnitCounts x z :=
  ⟨k.reload.trans h.reload, k.prescale.trans h.prescale, k.mode.trans h.mode,
    fun a => k.phase (h.phase a), fun a => k.owes (h.owes a)⟩

theorem prescaleTicks_pos (p : BitVec 2) : 0 < prescaleTicks p := by
  exact Nat.pow_pos (by decide)

theorem UnitKeeps.counts {x y : IntervalUnit} (h : UnitKeeps x y) : UnitCounts x y where
  reload := h.reload
  prescale := h.prescale
  mode := h.mode
  phase a := by
    rw [h.prescale]
    rcases h.phase with e | e
    · rw [e]; exact a
    · rw [e]; exact prescaleTicks_pos _
  owes := h.owes

/-- The configuration of a line (R107). -/
def Line.config (l : Line) : Line :=
  { l with raw := false, stable := false, count := 0, start := 0, lastEdge := none, awaiting := false }

/-- The configuration of a pattern entry (R140, R141). -/
def PatternEntry.config (e : PatternEntry) : PatternEntry := { e with counter := 0, matched := false }

/-- The state with everything erased that the handling of an advance can change. -/
def State.kept (s : State) : State :=
  { s.still with
    store := { s.still.store with active := .a, swap := none }
    inp := { s.still.inp with lines := s.inp.lines.map Line.config }
    pat := { entries := s.pat.entries.map PatternEntry.config, held := 0 }
    adv := .none }

/-- Everything the handling of an advance can do. -/
structure HandleRel (s t : State) : Prop where
  kept : t.kept = s.kept
  units : ∀ u, UnitCounts (s.unit u) (t.unit u)
  oddRun : ∀ u, isOdd u = true → s.cascaded u = true → (t.unit u).running = (s.unit u).running
  pel : ListReach s.tl s.sched.pel t.sched.pel
  cap : CapReach s.cap t.cap
  wmark : t.cap.wmark = s.cap.wmark
  sameDue : ∀ p, (s.slot p).dueCount ≤ sameDueMax → (t.slot p).dueCount ≤ sameDueMax
  candidate : ∀ n, (s.line n).count ≤ (s.line n).qualify.toNat → (t.line n).count ≤ (t.line n).qualify.toNat
  divide : ∀ k, (s.entryAt k).counter ≤ (s.entryAt k).divide.toNat →
    (t.entryAt k).counter ≤ (t.entryAt k).divide.toNat
  flags : s.ev.flags &&& ~~~t.ev.flags = 0

namespace HandleRel

variable {s t u : State}

theorem tb (h : HandleRel s t) : t.tb = s.tb := congrArg (fun x => x.tb) h.kept
theorem tl (h : HandleRel s t) : t.tl = s.tl := State.tl_eq h.tb
theorem pairs (h : HandleRel s t) : t.iu.pairs = s.iu.pairs := congrArg (fun x => x.iu.pairs) h.kept
theorem lateCount (h : HandleRel s t) : t.sched.lateCount = s.sched.lateCount :=
  congrArg (fun x => x.sched.lateCount) h.kept
theorem pageA (h : HandleRel s t) : t.store.pageA = s.store.pageA := congrArg (fun x => x.store.pageA) h.kept
theorem pageB (h : HandleRel s t) : t.store.pageB = s.store.pageB := congrArg (fun x => x.store.pageB) h.kept
theorem lens (h : HandleRel s t) : t.inp.lens = s.inp.lens := congrArg (fun x => x.inp.lens) h.kept
theorem cmd (h : HandleRel s t) : t.cmd = s.cmd := congrArg (fun x => x.cmd) h.kept
theorem port (h : HandleRel s t) : t.port = s.port := congrArg (fun x => x.port) h.kept
theorem freeCount (h : HandleRel s t) : t.freeCount = s.freeCount := congrArg (fun x => x.freeCount) h.kept
theorem pending (h : HandleRel s t) : t.pending = s.pending := congrArg (fun x => x.pending) h.kept
theorem outen (h : HandleRel s t) : t.out.outen = s.out.outen := congrArg (fun x => x.out.outen) h.kept

theorem cascaded (h : HandleRel s t) (v : Fin 4) : t.cascaded v = s.cascaded v := by
  simp only [State.cascaded, h.pairs]

theorem refl (s : State) : HandleRel s s :=
  ⟨rfl, fun _ => .refl _, fun _ _ _ => rfl, .refl _, .refl _, rfl, fun _ => id, fun _ => id, fun _ => id,
    and_not_self _⟩

theorem ite {c : Prop} [Decidable c] {a b : State} (h : HandleRel s a) (k : HandleRel s b) :
    HandleRel s (if c then a else b) := by
  split
  · exact h
  · exact k

theorem flags_trans {x y z : Word} (a : x &&& ~~~y = 0) (b : y &&& ~~~z = 0) : x &&& ~~~z = 0 := by
  have : x &&& ~~~z = (x &&& ~~~y &&& ~~~z) ||| (x &&& (y &&& ~~~z)) := by
    apply BitVec.eq_of_getLsbD_eq
    intro i hi
    simp only [BitVec.getLsbD_and, BitVec.getLsbD_or, BitVec.getLsbD_not]
    cases x.getLsbD i <;> cases y.getLsbD i <;> cases z.getLsbD i <;> simp [hi]
  rw [this, a, b]; simp

theorem trans (h : HandleRel s t) (k : HandleRel t u) : HandleRel s u where
  kept := k.kept.trans h.kept
  units v := (h.units v).trans (k.units v)
  oddRun v a b := by rw [k.oddRun v a (by rw [h.cascaded]; exact b), h.oddRun v a b]
  pel := h.pel.trans (by rw [← h.tl]; exact k.pel)
  cap := h.cap.trans k.cap
  wmark := k.wmark.trans h.wmark
  sameDue p b := k.sameDue p (h.sameDue p b)
  candidate n b := k.candidate n (h.candidate n b)
  divide n b := k.divide n (h.divide n b)
  flags := flags_trans h.flags k.flags

end HandleRel

theorem State.kept_still (s : State) : s.still.kept = s.kept := rfl

theorem ChainRel.handle {s t : State} (h : ChainRel s t) : HandleRel s t where
  kept := by rw [← t.kept_still, h.still, s.kept_still]
  units u := (h.units u).counts
  oddRun := h.oddRun
  pel := .chain (.refl _) h.pel
  cap := h.cap
  wmark := h.wmark
  sameDue := h.sameDue
  candidate n b := by
    have : t.line n = s.line n := by simp only [State.line, h.lines]
    rw [this]; exact b
  divide k b := by
    have : t.entryAt k = s.entryAt k := by simp only [State.entryAt, h.pat]
    rw [this]; exact b
  flags := h.flags

/-! ### What changes only the record of the advance -/

theorem HandleRel.setAdv (s : State) (a : Advance) : HandleRel s { s with adv := a } :=
  ⟨rfl, fun _ => .refl _, fun _ _ _ => rfl, .refl _, .refl _, rfl, fun _ => id, fun _ => id, fun _ => id,
    and_not_self _⟩

theorem HandleRel.setExpiry (s : State) (u : Fin 4) (x : Option Expiry) : HandleRel s (s.setExpiry u x) :=
  .setAdv _ _

/-! ### The scheduler's part -/

theorem HandleRel.iter {f : State → State} (h : ∀ s, HandleRel s (f s)) (n : Nat) (s : State) :
    HandleRel s (iter f n s) := by
  induction n generalizing s with
  | zero => exact .refl s
  | succ n ih => exact (h s).trans (ih (f s))

theorem HandleRel.takeDueEntry (s : State) : HandleRel s s.takeDueEntry := by
  simp only [State.takeDueEntry]
  split
  · exact .refl s
  · next e rest h =>
    split
    · next d =>
      refine HandleRel.trans ?_ (ChainRel.chain _ _).handle
      exact ⟨rfl, fun _ => .refl _, fun _ _ _ => rfl, .takeHead (by rw [h]; exact .refl _) d, .refl _, rfl,
        fun _ => id, fun _ => id, fun _ => id, and_not_self _⟩
    · exact .refl s

theorem HandleRel.takeDueEntries (s : State) : HandleRel s s.takeDueEntries := .iter .takeDueEntry _ _

/-! ### The interval units' part -/

theorem HandleRel.setUnit (s : State) (u : Fin 4) (x : IntervalUnit) (h : UnitCounts (s.unit u) x)
    (g : isOdd u = true → s.cascaded u = true → x.running = (s.unit u).running) :
    HandleRel s (s.setUnit u x) := by
  refine ⟨rfl, ?_, ?_, .refl _, .refl _, rfl, fun _ => id, fun _ => id, fun _ => id, and_not_self _⟩
  · intro v
    rw [State.unit_setUnit]
    split
    · next e => subst e; exact h
    · exact .refl _
  · intro v a b
    rw [State.unit_setUnit]
    split
    · next e => subst e; exact g a b
    · rfl

theorem HandleRel.expire (s : State) (r : Fin 4) : HandleRel s (s.expire r) :=
  (ChainRel.request s (.iu r)).handle.trans (.setAdv _ _)

theorem IntervalUnit.phaseStep_counts (x : IntervalUnit) : UnitCounts x x.phaseStep.1 := by
  simp only [IntervalUnit.phaseStep]
  split
  · exact ⟨rfl, rfl, rfl, fun _ => prescaleTicks_pos _, id⟩
  · next h => exact ⟨rfl, rfl, rfl, fun _ => by simp only; omega, id⟩

theorem HandleRel.countSingle (s : State) (u : Fin 4) (g : s.cascaded u = false) :
    HandleRel s (s.countSingle u) := by
  have a : UnitCounts (s.unit u) { s.unit u with owes := false } := ⟨rfl, rfl, rfl, id, fun _ => rfl⟩
  have b := a.trans (IntervalUnit.phaseStep_counts _)
  have no : ∀ {x : IntervalUnit}, UnitCounts (s.unit u) x → HandleRel s (s.setUnit u x) :=
    fun h => .setUnit _ _ _ h fun _ c => by simp [g] at c
  have c : ∀ (x : IntervalUnit) (v : Word) (w : Bool), UnitCounts x { x with c := v, running := w } :=
    fun _ _ _ => ⟨rfl, rfl, rfl, id, id⟩
  have d : ∀ (x : IntervalUnit) (v : Word), UnitCounts x { x with c := v } :=
    fun _ _ => ⟨rfl, rfl, rfl, id, id⟩
  simp only [State.countSingle]
  split
  · split
    · split
      · exact (no (b.trans (c _ _ _))).trans (.expire _ _)
      · exact no (b.trans (d _ _))
    · exact no b
  · exact no a

theorem isOdd_evenOf (u : Fin 4) : isOdd (evenOf u) = false := by revert u; decide
theorem isOdd_oddOf (u : Fin 4) : isOdd (oddOf u) = true := by revert u; decide

theorem oddOf_ne_evenOf (u : Fin 4) : oddOf u ≠ evenOf u := by revert u; decide

theorem HandleRel.countPair (s : State) (r : Fin 4) : HandleRel s (s.countPair r) := by
  have a : UnitCounts (s.unit (evenOf r)) { s.unit (evenOf r) with owes := false } :=
    ⟨rfl, rfl, rfl, id, fun _ => rfl⟩
  have b := a.trans (IntervalUnit.phaseStep_counts _)
  have no : ∀ {x : IntervalUnit}, UnitCounts (s.unit (evenOf r)) x → HandleRel s (s.setUnit (evenOf r) x) :=
    fun h => .setUnit _ _ _ h fun c => by simp [isOdd_evenOf] at c
  have c : ∀ (x : IntervalUnit) (v : Word) (w : Bool), UnitCounts x { x with c := v, running := w } :=
    fun _ _ _ => ⟨rfl, rfl, rfl, id, id⟩
  have d : ∀ (x : IntervalUnit) (v : Word), UnitCounts x { x with c := v } :=
    fun _ _ => ⟨rfl, rfl, rfl, id, id⟩
  have odd : ∀ (x : IntervalUnit) (v : Word),
      HandleRel (s.setUnit (evenOf r) x)
        ((s.setUnit (evenOf r) x).setUnit (oddOf r) { s.unit (oddOf r) with c := v }) := by
    intro x v
    have e : oddOf r ≠ evenOf r := oddOf_ne_evenOf r
    refine .setUnit _ _ _ ?_ ?_
    · rw [State.unit_setUnit, if_neg e]; exact d _ _
    · intro _ _; rw [State.unit_setUnit, if_neg e]
  simp only [State.countPair]
  split
  · split
    · split
      · exact ((no (b.trans (c _ _ _))).trans (odd _ _)).trans (.expire _ _)
      · exact (no (b.trans (d _ _))).trans (odd _ _)
    · exact no b
  · exact no a

theorem HandleRel.clearOwes (s : State) (u : Fin 4) : HandleRel s (s.clearOwes u) :=
  .setUnit _ _ _ ⟨rfl, rfl, rfl, id, fun _ => rfl⟩ fun _ _ => rfl

theorem HandleRel.countUnit (s : State) (r : Fin 4) : HandleRel s (s.countUnit r) := by
  simp only [State.countUnit]
  split
  · refine .ite ?_ (.refl s)
    have a : HandleRel s (if (s.unit (evenOf r)).owes = true then s.countPair r else s) :=
      .ite (.countPair _ _) (.refl _)
    exact .ite (a.trans (.clearOwes _ _)) a
  · next c =>
    split
    · exact .countSingle _ _ (by simpa using c)
    · exact .refl s

theorem HandleRel.foldl {α : Type} {f : State → α → State} (h : ∀ s a, HandleRel s (f s a)) (l : List α)
    (s : State) : HandleRel s (l.foldl f s) := by
  induction l generalizing s with
  | nil => exact .refl s
  | cons a l ih => exact (h s a).trans (ih _)

theorem HandleRel.countAll (s : State) : HandleRel s s.countAll := .foldl HandleRel.countUnit _ _

theorem HandleRel.swapPages (s : State) : HandleRel s s.swapPages := by
  refine HandleRel.trans ?_ (ChainRel.request _ .swap).handle
  exact ⟨rfl, fun _ => .refl _, fun _ _ _ => rfl, .refl _, .refl _, rfl, fun _ => id, fun _ => id,
    fun _ => id, and_not_self _⟩

theorem HandleRel.takeSwapPoint (s : State) (r : Fin 4) : HandleRel s (s.takeSwapPoint r) := by
  simp only [State.takeSwapPoint]
  split
  · exact .refl s
  · split
    · exact .refl s
    · split
      · exact (HandleRel.swapPages _).trans (.setExpiry _ _ _)
      · exact .setExpiry _ _ _

theorem HandleRel.takeUnitLaunch (s : State) (r : Fin 4) : HandleRel s (s.takeUnitLaunch r) := by
  simp only [State.takeUnitLaunch]
  split
  · exact .refl s
  · split
    · exact (HandleRel.takeSwapPoint _ _).trans (.setExpiry _ _ _)
    · have a : ∀ x, HandleRel s ((s.takeSwapPoint r).setExpiry r x) :=
        fun _ => (HandleRel.takeSwapPoint _ _).trans (.setExpiry _ _ _)
      exact .ite ((a _).trans (ChainRel.launchNow _ _ _).handle) (a _)

theorem HandleRel.deliver (s : State) (r : Fin 4) : HandleRel s (s.deliver r) := by
  simp only [State.deliver]
  split
  · exact .refl s
  · exact .iter (fun t => .takeUnitLaunch t r) _ _

/-! ### The input side's part -/

theorem Line.sample_config (k : Fin 16) (v : Bool) (n : Time) (b : Bool) (l : Line) :
    (l.sample k v n b).1.config = l.config := by
  simp only [Line.sample]
  split
  · rfl
  · split
    · rfl
    · split
      · rfl
      · split <;> rfl

theorem Line.sample_count (k : Fin 16) (v : Bool) (n : Time) (b : Bool) (l : Line) :
    (l.sample k v n b).1.count ≤ (l.sample k v n b).1.qualify.toNat := by
  simp only [Line.sample]
  split
  · exact Nat.zero_le _
  · split
    · exact Nat.zero_le _
    · split
      · exact Nat.zero_le _
      · split
        · exact Nat.zero_le _
        · next h => simp only; omega

theorem State.sampleLine_config (s : State) (k : Fin 16) : (s.sampleLine k).1.config = (s.line k).config := by
  simp only [State.sampleLine]
  split
  · exact Line.sample_config _ _ _ _ _
  · rfl

theorem HandleRel.sampleAll (s : State) : HandleRel s s.sampleAll := by
  refine ⟨?_, fun _ => .refl _, fun _ _ _ => rfl, .refl _, .refl _, rfl, fun _ => id, ?_, fun _ => id,
    and_not_self _⟩
  · have : (tabulate fun k => (s.sampleLine k).1).map Line.config = s.inp.lines.map Line.config := by
      apply Vector.ext
      intro i hi
      rw [Vector.getElem_map, Vector.getElem_map]
      have := getElem_tabulate (fun k => (s.sampleLine k).1) ⟨i, hi⟩
      simp only [Fin.getElem_fin] at this
      rw [this, State.sampleLine_config]
      rfl
    simp only [State.sampleAll, State.kept, State.still, this]
  · intro n h
    have e : s.sampleAll.line n = (s.sampleLine n).1 := by
      simp only [State.line, State.sampleAll]
      exact getElem_tabulate _ n
    rw [e, State.sampleLine]
    split
    · exact Line.sample_count _ _ _ _ _
    · exact h

theorem HandleRel.countSources (s : State) : HandleRel s s.countSources :=
  .foldl (fun t r => .ite (.countUnit t r) (.refl t)) _ _

theorem HandleRel.takeSample (s : State) : HandleRel s s.takeSample := by
  simp only [State.takeSample]
  split
  · exact (HandleRel.countSources s).trans (.sampleAll _)
  · exact .refl s

theorem HandleRel.handEdge (s : State) : HandleRel s s.handEdge := by
  simp only [State.handEdge]
  split
  · exact .refl s
  · exact (HandleRel.setAdv _ _).trans (ChainRel.produce _ _).handle

theorem HandleRel.setEntryAt (s : State) (k : Fin 8) (x : PatternEntry)
    (c : x.config = (s.entryAt k).config)
    (h : (s.entryAt k).counter ≤ (s.entryAt k).divide.toNat → x.counter ≤ x.divide.toNat) :
    HandleRel s (s.setEntryAt k x) := by
  refine ⟨?_, fun _ => .refl _, fun _ _ _ => rfl, .refl _, .refl _, rfl, fun _ => id, fun _ => id, ?_,
    and_not_self _⟩
  · have : (s.pat.entries.set k x).map PatternEntry.config = s.pat.entries.map PatternEntry.config := by
      apply Vector.ext
      intro i hi
      rw [Vector.getElem_map, Vector.getElem_map, Vector.getElem_set]
      split
      · next e => subst e; exact c
      · rfl
    simp only [State.setEntryAt, State.kept, State.still, this]
  · intro j b
    rw [State.entryAt_setEntryAt]
    split
    · next e => subst e; exact h b
    · exact b

theorem HandleRel.fire (s : State) (k : Fin 8) (v : Word) : HandleRel s (s.fire k v) := by
  simp only [State.fire]
  refine HandleRel.trans ?_ (ChainRel.requestIf _ _ _).handle
  have a : HandleRel s
      (if (s.entryAt k).record = true then s.produce (.pattern k v s.tl) else s) := by
    split
    · exact (ChainRel.produce _ _).handle
    · exact .refl s
  split
  · exact a.trans (ChainRel.launchNow _ _ _).handle
  · exact a

theorem HandleRel.evalOne (s : State) (k : Fin 8) (v : Word) : HandleRel s (s.evalOne k v) := by
  simp only [State.evalOne]
  refine HandleRel.trans ?_ (.setEntryAt _ _ _ rfl id)
  split
  · split
    · exact (HandleRel.setEntryAt s k { s.entryAt k with counter := 0 } rfl fun _ => Nat.zero_le _).trans
        (.fire _ _ _)
    · next h =>
      refine .setEntryAt _ _ _ rfl fun _ => ?_
      simp only [PatternEntry.fires, decide_eq_true_eq] at h
      simp only; omega
  · exact .refl s

theorem HandleRel.endEval (s : State) (v : Word) : HandleRel s (s.endEval v) :=
  ⟨rfl, fun _ => .refl _, fun _ _ _ => rfl, .refl _, .refl _, rfl, fun _ => id, fun _ => id, fun _ => id,
    and_not_self _⟩

theorem HandleRel.takePatternEntry (s : State) : HandleRel s s.takePatternEntry := by
  simp only [State.takePatternEntry]
  split
  · split
    · exact .refl s
    · split
      · exact .endEval _ _
      · have a : ∀ (b : Advance) (k : Fin 8) (v : Word), HandleRel s (({ s with adv := b } : State).evalOne k v) :=
          fun _ _ _ => (HandleRel.setAdv _ _).trans (.evalOne _ _ _)
        split
        · exact (a _ _ _).trans (.endEval _ _)
        · exact a _ _ _
  · exact .refl s

theorem HandleRel.finishInputs (s : State) : HandleRel s s.finishInputs := by
  simp only [State.finishInputs]
  have a := HandleRel.iter HandleRel.handEdge s.adv.edges.length s
  split
  · exact a
  · exact a.trans (.iter .takePatternEntry _ _)

theorem HandleRel.evalFirst (s : State) : HandleRel s s.evalFirst := by
  simp only [State.evalFirst]
  split
  · exact .refl s
  · exact .finishInputs s

theorem HandleRel.closeWindows (s : State) : HandleRel s s.closeWindows := by
  simp only [State.closeWindows]
  split
  · exact ⟨rfl, fun _ => .refl _, fun _ _ _ => rfl, .refl _, .refl _, rfl, fun _ => id, fun _ => id,
      fun _ => id, and_not_self _⟩
  · exact .refl s

/-! ### The whole -/

theorem HandleRel.settle (s : State) : HandleRel s s.settle := by
  simp only [State.settle]
  split
  · exact .refl s
  · have a := (HandleRel.closeWindows s).trans ((HandleRel.takeDueEntries _).trans (.countAll _))
    exact ((a.trans (.foldl HandleRel.deliver _ _)).trans (.takeSample _)).trans (.finishInputs _)

theorem HandleRel.runJob (j : Job) (s : State) : HandleRel s (runJob j s) := by
  cases j with
  | entry => exact .takeDueEntry s
  | count u => exact .countUnit s u
  | swapPoint u => exact .takeSwapPoint s u
  | unitLaunch u => exact .takeUnitLaunch s u
  | sample => exact .takeSample s
  | edge => exact .handEdge s
  | patternEntry => exact .takePatternEntry s
  | closeWindows => exact .closeWindows s

theorem HandleRel.runJobs (l : List Job) (s : State) : HandleRel s (l.foldl (fun t j => Machine.runJob j t) s) :=
  .foldl (fun t j => .runJob j t) _ _

theorem HandleRel.finishBegun (s : State) : HandleRel s s.finishBegun := by
  simp only [State.finishBegun]
  split
  · exact (HandleRel.takeDueEntries s).trans (.evalFirst _)
  · exact .evalFirst s

theorem HandleRel.finishLaunches (s : State) : HandleRel s s.finishLaunches :=
  .foldl (fun t r => .ite (.deliver t r) (.refl t)) _ _

theorem HandleRel.beforeCompletion (s : State) : HandleRel s s.beforeCompletion :=
  ((HandleRel.takeDueEntries s).trans (.finishLaunches _)).trans (.evalFirst _)

theorem State.settle_of_quiet (s : State) (h : s.quiet = true) : s.settle = s := by
  simp [State.settle, h]

end Sys2Proof.Machine
end

