-- ==== Sys2Proof/Laws/Capture.lean ====
section
/-! SUPPORT. The capture queue: handing records over keeps its bound and the law of the sequence numbers (R125 to
R127). -/

namespace Sys2Proof.Machine

theorem Capture.take_length (c : Capture) (h : Happening) (b : c.queue.length ≤ capDepth) :
    (c.take h).queue.length ≤ capDepth := by
  simp only [Capture.take]
  split
  · simp only [List.length_append, List.length_singleton]; omega
  · exact b

theorem CapReach.length {c d : Capture} (h : CapReach c d) (b : c.queue.length ≤ capDepth) :
    d.queue.length ≤ capDepth := by
  induction h with
  | refl => exact b
  | take x _ ih => exact Capture.take_length _ x ih

theorem HandleRel.captureBounded {s t : State} (h : HandleRel s t) (k : CaptureBounded s) : CaptureBounded t := by
  refine ⟨h.cap.length k.1, ?_⟩
  rw [h.wmark]; exact k.2

/-- The law of the sequence numbers of a queue (R126). -/
def SeqChain (c : Capture) : Prop :=
  (∀ (i : Nat) (x y : Record),
      c.queue[i]? = some x → c.queue[i + 1]? = some y → y.gapSat = false → y.seq = x.seq + y.gap + 1) ∧
    ∀ x, c.queue.getLast? = some x → c.lost.toNat ≤ 255 → c.seq = x.seq + c.lost.setWidth 8 + 1

theorem satInc_toNat (w : Word) : (satInc w).toNat ≤ 255 → satInc w = w + 1 ∧ w.toNat ≤ 254 := by
  simp only [satInc]
  split
  · next h => subst h; simp
  · next h =>
    intro a
    refine ⟨rfl, ?_⟩
    have : w.toNat ≠ 65535 := fun e => h (BitVec.eq_of_toNat_eq (by simpa using e))
    have := w.isLt
    have e : (w + 1).toNat = (w.toNat + 1) % 65536 := BitVec.toNat_add _ _
    omega

theorem Capture.take_seq (c : Capture) (h : Happening) (k : SeqChain c) : SeqChain (c.take h) := by
  simp only [Capture.take]
  split
  · constructor
    · intro i x y hx hy g
      simp only [List.getElem?_append] at hx hy
      split at hy
      · next l =>
        rw [if_pos (by omega)] at hx
        exact k.1 i x y hx hy g
      · next l =>
        have e : i + 1 = c.queue.length := by
          by_cases o : i + 1 - c.queue.length = 0
          · omega
          · rw [List.getElem?_eq_none (by simp; omega)] at hy; simp at hy
        rw [if_pos (by omega)] at hx
        rw [e, Nat.sub_self] at hy
        simp only [List.getElem?_cons_zero, Option.some.injEq] at hy
        subst hy
        simp only [gapOf] at g
        simp only [gapOf]
        split at g
        · next lo =>
          rw [if_pos lo]
          have last : c.queue.getLast? = some x := by
            rw [List.getLast?_eq_getElem?, ← e]; simpa using hx
          exact k.2 x last lo
        · simp at g
    · intro x hx _
      simp only [List.getLast?_append, List.getLast?_singleton, Option.some_or, Option.some.injEq] at hx
      subst hx
      simp
  · refine ⟨k.1, ?_⟩
    intro x hx lo
    simp only at hx lo ⊢
    obtain ⟨e, b⟩ := satInc_toNat c.lost lo
    rw [e, k.2 x hx (by omega)]
    generalize c.lost = l
    bv_omega

theorem CapReach.seq {c d : Capture} (h : CapReach c d) (k : SeqChain c) : SeqChain d := by
  induction h with
  | refl => exact k
  | take x _ ih => exact Capture.take_seq _ x ih

theorem HandleRel.seqLaw {s t : State} (h : HandleRel s t) (k : SeqLaw s) : SeqLaw t := h.cap.seq k

end Sys2Proof.Machine
end

