-- ==== Sys2Proof/Laws/EdgeList.lean ====
section
/-! SUPPORT. The Pending Edge List: what insertion does, and that a handling keeps the order of the list and adds no
DIRECT entry (R22, R23, R24, R26). -/

namespace Sys2Proof.Machine

theorem mem_insertByTime {n : Time} {e x : Entry} {l : List Entry} :
    x ∈ insertByTime n e l ↔ x = e ∨ x ∈ l := by
  induction l with
  | nil => simp [insertByTime]
  | cons y l ih =>
    simp only [insertByTime]
    split
    · simp only [List.mem_cons, ih]
      constructor
      · rintro (h | h | h)
        · exact .inr (.inl h)
        · exact .inl h
        · exact .inr (.inr h)
      · rintro (h | h | h)
        · exact .inr (.inl h)
        · exact .inl h
        · exact .inr (.inr h)
    · simp only [List.mem_cons]

theorem length_insertByTime (n : Time) (e : Entry) (l : List Entry) :
    (insertByTime n e l).length = l.length + 1 := by
  induction l with
  | nil => rfl
  | cons y l ih =>
    simp only [insertByTime]
    split
    · simp [ih]
    · rfl

/-- Insertion keeps the order of the list. -/
theorem ordered_insertByTime {n : Time} (e : Entry) {l : List Entry}
    (h : l.Pairwise fun x y => remaining x.due n ≤ remaining y.due n) :
    (insertByTime n e l).Pairwise fun x y => remaining x.due n ≤ remaining y.due n := by
  induction l with
  | nil => exact List.pairwise_singleton _ _
  | cons y l ih =>
    have hl := (List.pairwise_cons.mp h).2
    have hy := (List.pairwise_cons.mp h).1
    simp only [insertByTime]
    split
    · next k =>
      refine List.pairwise_cons.mpr ⟨?_, ih hl⟩
      intro x hx
      rcases mem_insertByTime.mp hx with e | e
      · subst e; exact k
      · exact hy x e
    · next k =>
      refine List.pairwise_cons.mpr ⟨?_, h⟩
      intro x hx
      rcases List.mem_cons.mp hx with e | e
      · subst e; omega
      · exact Nat.le_trans (by omega) (hy x e)

/-- A filter of an inserted list: the entry is inserted in it, or is not in it. -/
theorem filter_insertByTime_neg {n : Time} {e : Entry} (f : Entry → Bool) (l : List Entry) (h : f e = false) :
    (insertByTime n e l).filter f = l.filter f := by
  induction l with
  | nil => simp [insertByTime, h]
  | cons y l ih =>
    simp only [insertByTime]
    split
    · simp only [List.filter_cons, ih]
    · simp only [List.filter_cons, h]; rfl

theorem length_filter_insertByTime {n : Time} {e : Entry} (f : Entry → Bool) (l : List Entry) (h : f e = true) :
    ((insertByTime n e l).filter f).length = (l.filter f).length + 1 := by
  induction l with
  | nil => simp [insertByTime, h]
  | cons y l ih =>
    simp only [insertByTime]
    split
    · simp only [List.filter_cons]
      split
      · simp [ih]
      · exact ih
    · simp only [List.filter_cons, h]; simp

/-- An entry that is ahead is no further away than 2^31 ticks, and is not due. -/
theorem remaining_of_ahead {t n : Time} (h : ahead t n = true) : remaining t n ≤ 2 ^ 31 ∧ t ≠ n := by
  simp only [ahead, reached, Bool.not_eq_true', decide_eq_false_iff_not, Nat.not_lt] at h
  simp only [remaining, BitVec.toNat_sub] at *
  have a := t.isLt
  have b := n.isLt
  refine ⟨by omega, ?_⟩
  rintro rfl
  omega

theorem ahead_of_remaining {t n : Time} (h : remaining t n ≤ 2 ^ 31) (d : t ≠ n) : ahead t n = true := by
  simp only [ahead, reached, Bool.not_eq_true', decide_eq_false_iff_not, Nat.not_lt]
  simp only [remaining, BitVec.toNat_sub] at *
  have a := t.isLt
  have b := n.isLt
  have : t.toNat ≠ n.toNat := fun e => d (BitVec.eq_of_toNat_eq e)
  omega

/-- The order of the list at timeline value `n`, and its reach. -/
def OrderedAt (n : Time) (l : List Entry) : Prop :=
  l.Pairwise (fun x y => remaining x.due n ≤ remaining y.due n) ∧ ∀ e ∈ l, remaining e.due n ≤ 2 ^ 31

theorem OrderedAt.insert {n : Time} {l : List Entry} (h : OrderedAt n l) (e : Entry)
    (a : ahead e.due n = true) : OrderedAt n (insertByTime n e l) := by
  refine ⟨ordered_insertByTime e h.1, ?_⟩
  intro x hx
  rcases mem_insertByTime.mp hx with i | i
  · subst i; exact (remaining_of_ahead a).1
  · exact h.2 x i

theorem OrderedAt.filter {n : Time} {l : List Entry} (h : OrderedAt n l) (f : Entry → Bool) :
    OrderedAt n (l.filter f) :=
  ⟨h.1.filter _, fun e he => h.2 e (List.mem_filter.mp he).1⟩

theorem OrderedAt.tail {n : Time} {l : List Entry} {e : Entry} (h : OrderedAt n (e :: l)) : OrderedAt n l :=
  ⟨(List.pairwise_cons.mp h.1).2, fun x hx => h.2 x (List.mem_cons_of_mem _ hx)⟩

theorem PelReach.ordered {n : Time} {l m : List Entry} (k : PelReach n l m) (h : OrderedAt n l) :
    OrderedAt n m := by
  induction k with
  | refl => exact h
  | insert e _ a _ ih => exact ih.insert e a
  | remove p _ ih => exact ih.filter _

theorem ListReach.ordered {n : Time} {l m : List Entry} (k : ListReach n l m) (h : OrderedAt n l) :
    OrderedAt n m := by
  induction k with
  | refl => exact h
  | chain _ p ih => exact p.ordered ih
  | takeHead _ _ ih => exact ih.tail

theorem isRun_isDirect {e : Entry} {p : Fin 8} (h : e.isDirect = true) : e.isRun p = false := by
  cases o : e.origin <;> simp_all [Entry.isRun, Entry.isDirect]

/-- A chain leaves the DIRECT entries as they are, in their order (R36). -/
theorem PelReach.direct {n : Time} {l m : List Entry} (k : PelReach n l m) :
    m.filter Entry.isDirect = l.filter Entry.isDirect := by
  induction k with
  | refl => rfl
  | insert e _ _ d ih => rw [filter_insertByTime_neg _ _ d, ih]
  | remove p _ ih =>
    rw [← ih, List.filter_filter]
    apply List.filter_congr
    intro x _
    cases h : x.isDirect
    · rfl
    · simp [isRun_isDirect h]

theorem ListReach.direct {n : Time} {l m : List Entry} (k : ListReach n l m) :
    (m.filter Entry.isDirect).length ≤ (l.filter Entry.isDirect).length := by
  induction k with
  | refl => exact Nat.le_refl _
  | chain _ p ih => rw [p.direct]; exact ih
  | takeHead _ _ ih =>
    refine Nat.le_trans ?_ ih
    simp only [List.filter_cons]
    split <;> simp

theorem HandleRel.ordered {s t : State} (h : HandleRel s t) (k : ListOrdered s) : ListOrdered t := by
  have := h.pel.ordered (n := s.tl) k
  simp only [ListOrdered, h.tl]
  exact this

theorem HandleRel.direct {s t : State} (h : HandleRel s t) (k : DirectBounded s) : DirectBounded t :=
  Nat.le_trans h.pel.direct k

end Sys2Proof.Machine
end

