-- ==== Sys2Proof/Laws/Memory.lean ====
section
/-! SUPPORT. The contents of a page: a write keeps the canonical form, and what a read finds after it (R44). -/

namespace Sys2Proof.Machine

theorem Memory.wf_nil : Memory.wf [] := ⟨.nil, by simp⟩

/-- Every word listed after a write was listed before it, or is the word written. -/
theorem Memory.mem_write {m : PageMem} {a : Nat} {w : Word} {x : Nat × Word} (h : x ∈ Memory.write m a w) :
    x ∈ m ∨ (x = (a, w) ∧ w ≠ 0) := by
  induction m with
  | nil =>
    simp only [Memory.write] at h
    split at h
    · simp at h
    · next z => exact .inr ⟨by simpa using h, z⟩
  | cons p m ih =>
    obtain ⟨b, v⟩ := p
    simp only [Memory.write] at h
    split at h
    · split at h
      · exact .inl h
      · next z =>
        rcases List.mem_cons.mp h with e | e
        · exact .inr ⟨e, z⟩
        · exact .inl e
    · split at h
      · split at h
        · exact .inl (List.mem_cons_of_mem _ h)
        · next z =>
          rcases List.mem_cons.mp h with e | e
          · exact .inr ⟨e, z⟩
          · exact .inl (List.mem_cons_of_mem _ e)
      · rcases List.mem_cons.mp h with e | e
        · exact .inl (e ▸ List.mem_cons_self)
        · rcases ih e with i | i
          · exact .inl (List.mem_cons_of_mem _ i)
          · exact .inr i

theorem Memory.sorted_write {m : PageMem} (h : m.Pairwise fun x y => x.1 < y.1) (a : Nat) (w : Word) :
    (Memory.write m a w).Pairwise fun x y => x.1 < y.1 := by
  induction m with
  | nil =>
    simp only [Memory.write]
    split
    · exact .nil
    · exact List.pairwise_singleton _ _
  | cons p m ih =>
    obtain ⟨b, v⟩ := p
    have hm := (List.pairwise_cons.mp h).2
    have hb := (List.pairwise_cons.mp h).1
    simp only [Memory.write]
    split
    · next l =>
      split
      · exact h
      · refine List.pairwise_cons.mpr ⟨?_, h⟩
        intro y hy
        rcases List.mem_cons.mp hy with e | e
        · subst e; exact l
        · exact Nat.lt_trans l (hb y e)
    · split
      · next e =>
        split
        · exact hm
        · exact List.pairwise_cons.mpr ⟨fun y hy => by subst e; exact hb y hy, hm⟩
      · refine List.pairwise_cons.mpr ⟨?_, ih hm⟩
        intro y hy
        rcases Memory.mem_write hy with e | ⟨e, _⟩
        · exact hb y e
        · subst e; simp only; omega

/-- A write of a word of the page, cut to its fields, keeps the canonical form. -/
theorem Memory.wf_write {m : PageMem} (h : Memory.wf m) {a : Nat} (ha : a < pageWords) (w : Word) :
    Memory.wf (Memory.write m a (w &&& storeMask a)) := by
  refine ⟨Memory.sorted_write h.1 _ _, ?_⟩
  intro x hx
  rcases Memory.mem_write hx with e | ⟨e, z⟩
  · exact h.2 x e
  · subst e
    refine ⟨ha, z, ?_⟩
    apply BitVec.eq_of_getLsbD_eq
    intro i hi
    simp only [BitVec.getLsbD_and, BitVec.getLsbD_not]
    cases (storeMask a).getLsbD i <;> simp

theorem Memory.read_of_lt {m : PageMem} {a : Nat} (h : ∀ x ∈ m, a < x.1) : Memory.read m a = 0 := by
  induction m with
  | nil => rfl
  | cons p m ih =>
    obtain ⟨b, v⟩ := p
    have : a ≠ b := by have := h (b, v) List.mem_cons_self; simp only at this; omega
    simp only [Memory.read, if_neg this]
    exact ih fun x hx => h x (List.mem_cons_of_mem _ hx)

/-- A read of any word after a write. -/
theorem Memory.read_write {m : PageMem} (h : m.Pairwise fun x y => x.1 < y.1) (a c : Nat) (w : Word) :
    Memory.read (Memory.write m a w) c = if c = a then w else Memory.read m c := by
  induction m with
  | nil =>
    simp only [Memory.write]
    split
    · next z => subst z; simp [Memory.read]
    · simp [Memory.read]
  | cons p m ih =>
    obtain ⟨b, v⟩ := p
    have hm := (List.pairwise_cons.mp h).2
    have hb := (List.pairwise_cons.mp h).1
    have lt : ∀ d, d ≤ b → Memory.read m d = 0 := fun d l =>
      Memory.read_of_lt fun x hx => Nat.lt_of_le_of_lt l (hb x hx)
    simp only [Memory.write]
    split
    · next l =>
      split
      · next z =>
        subst z
        split
        · next e => subst e; simp only [Memory.read, if_neg (Nat.ne_of_lt l)]; exact lt c (Nat.le_of_lt l)
        · rfl
      · simp only [Memory.read]
    · split
      · next e =>
        subst e
        split
        · next z =>
          subst z
          split
          · next e => subst e; exact lt c (Nat.le_refl _)
          · next e => simp only [Memory.read, if_neg e]
        · simp only [Memory.read]
          split
          · simp
          · simp
      · next n k =>
        simp only [Memory.read]
        split
        · next e => subst e; rw [if_neg (by omega)]
        · exact ih hm

end Sys2Proof.Machine
end

