-- ==== Sys2Proof/Laws/Port.lean ====
section
/-! SUPPORT. What an access and a completion come to: reads by phase, commands before and after READY, the command in
flight and its answer (R155, R178, R182). -/

namespace Sys2Proof.Machine

variable {s : State}

theorem State.whenReady_of_ready (h : s.port.phase = .ready) (f : State → State) : s.whenReady f = f s := by
  rw [State.whenReady, if_pos h]

theorem State.whenReady_of_not_ready (h : s.port.phase ≠ .ready) (f : State → State) : s.whenReady f = s := by
  rw [State.whenReady, if_neg h]

/-! ### Reads -/

theorem State.readWord_of_ready (h : s.port.phase = .ready) (a : BitVec 7) :
    s.readWord a = (some (s.takeRead a).1, (s.takeRead a).2) := by
  simp only [State.readWord, h]

theorem State.readWord_of_initialising (h : s.port.phase = .initialising) (a : BitVec 7) :
    s.readWord a = (some (if a = 0x03 then s.statusWord else 0), s) := by
  simp only [State.readWord, h]

theorem State.readWord_of_resetLow (h : s.port.phase = .resetLow) (a : BitVec 7) : s.readWord a = (none, s) := by
  simp only [State.readWord, h]

/-- Before READY a read access changes the data lines only. -/
theorem State.readAccess_of_not_ready (h : s.port.phase ≠ .ready) {a : BitVec 7} (ha : a ≠ 0x03) :
    s.readAccess a = { s with port := { s.port with dataOut := earlyData s } } := by
  cases p : s.port.phase with
  | resetLow => simp [State.readAccess, State.readWord_of_resetLow p, State.drive, earlyData, p]
  | initialising =>
    rw [State.readAccess, State.readWord_of_initialising p, if_neg ha]
    simp [State.drive, earlyData, p]
  | ready => exact absurd p h

/-! ### Completions -/

/-- The command in flight is the one that completes. -/
theorem State.complete_of_match {f : InFlight} {p : InFlight → Bool} (hf : s.cmd.inflight = some f) (hp : p f = true)
    (act : Vector Word 4 → State → Answer) : s.complete p act = (act f.args s.beforeCompletion).finish := by
  simp [State.complete, hf, hp]

/-- No command in flight is one that completes so. -/
theorem State.complete_of_no_match {p : InFlight → Bool} (h : ∀ f, s.cmd.inflight = some f → p f = false)
    (act : Vector Word 4 → State → Answer) : s.complete p act = s := by
  unfold State.complete
  split
  · rfl
  · next f hf => simp [h f hf]

/-- The answer is written and the command is over (R155). -/
theorem Answer.finish_eq_completed (a : Answer) : a.finish = completed a.after a.code.code a.words := by
  rcases a with ⟨r, w, t⟩
  cases r <;>
    simp [Answer.finish, completed, State.requestIf, State.request, ResultCode.isError, ResultCode.code] <;> rfl

end Sys2Proof.Machine
end

