-- ==== Sys2Proof/Tests/Slice0.lean ====
section
/-! SUPPORT. Tests of the model on small cases: the checks of `Instr.wf`, for each obligation with hypotheses a state
and operands that meet them (clause by clause, at the edges of their ranges), and small worked cases of the spec. -/

namespace Sys2Proof.Tests
open Sys2Proof.Machine

/-! ### Ill-formed commands -/

/-- An ill-formed term for each check of `Instr.wf`, which the check refuses. -/
theorem test_wf_refuses_outenOn : (Instr.outenOn 0x0001).wf = false := by decide
theorem test_wf_refuses_outenOff : (Instr.outenOff 0x0002).wf = false := by decide
theorem test_wf_refuses_clear : (Instr.clear 0x0003).wf = false := by decide
theorem test_wf_refuses_preset : (Instr.preset 1 0x0001).wf = false := by decide
theorem test_wf_refuses_registerWrite : (Instr.registerWrite 0x74 1).wf = false := by decide

/-! ### States for the witnesses -/

/-- The machine after reset with TBRUN = 1 and TL = 100. -/
def live : State := { State.reset with tb := { State.reset.tb with tbrun := true, tl := 100 } }

def inPhase (p : Phase) (n : Nat) : State :=
  { State.reset with port := { State.reset.port with phase := p, initClk := n } }

/-- `live` with the list `l`. -/
def listed (l : List Entry) : State := live.setPel l

/-- A DIRECT entry with tag 9. -/
def direct (due : Time) (kind operand : BitVec 4) : Entry :=
  { due := due, origin := .direct 9, kind := kind, operand := operand, mark := true }

/-- The entry of step `i` of programme 0. -/
def runEntry (due : Time) (i : BitVec 7) (kind operand : BitVec 4) : Entry :=
  { due := due, origin := .run 0 i, kind := kind, operand := operand, mark := false }

/-- Page A with programme 0: SET 2 after 5 ticks, WAIT after 7; one pass, policy `policy` (0 to 3), unit trigger 0,
single-arm, report-end. -/
def page (policy : Word) : PageMem :=
  [(0, 5), (1, 0x0021), (2, 7), (3, 0x8000), (256, 0x0200), (257, 0x7001 ||| policy <<< 8)]

def stored (policy : Word) (s : State) : State := { s with store := { s.store with pageA := page policy } }

/-- Programme 0 is RUNNING on page A, at step `i`, with the list `l`. -/
def runs (policy : Word) (i : BitVec 7) (pending : Bool) (count : Nat) (l : List Entry) : State :=
  let s := stored policy (listed l)
  { s.setSlot 0
      { s.slot 0 with
        run := some { page := .a, step := i, passes := 1, launchTime := 95, applied := 0, launchPending := pending }
        dueTime := 100
        dueCount := count } with
    store := { s.store with boundA := 1 } }

/-- `s` with a command in flight. -/
def inFlight (code : Word) (a : Vector Word 4) (s : State) : State :=
  { s with cmd := { s.cmd with inflight := some { code := code, args := a } } }

/-- `live` with unit `u` about to count the advance to TL with `c` left. -/
def counting (u : Fin 4) (c : Word) (p : BitVec 2) (phase : Nat) : State :=
  live.setUnit u
    { c := c, r := 3, prescale := p, phase := phase, mode := .continuous, running := true, owes := true }

/-- The first pair is cascaded. -/
def paired (s : State) : State := s.setPair 0 { cascade := true, snapshot := none }

/-! ### Witnesses: the hypotheses of the obligations can be met -/

/-- The one hypothesis of many obligations (`s.port.phase = .ready`): NothingActsBeforeReady has the two others. -/
theorem test_witness_ready : State.reset.port.phase = .ready ∧ live.port.phase = .ready := by decide

theorem test_witness_StepRunsTheFrontCommand :
    ({ live with pending := [.timeLo, .timeHi] } : State).pending = .timeLo :: [.timeHi] := by decide

theorem test_witness_EmptyQueuePassesOneClkCycle :
    ((inPhase .resetLow 0).pending = [] ∧ (inPhase .resetLow 0).port.phase = .resetLow) ∧
    ((inPhase .initialising 2046).pending = [] ∧ (inPhase .initialising 2046).port.initClk + 1 < 2048) ∧
    ((inPhase .initialising 2047).pending = [] ∧ 2048 ≤ (inPhase .initialising 2047).port.initClk + 1) ∧
    (State.reset.pending = [] ∧ State.reset.tb.tbrun = false) ∧
    (∃ s : State, s.pending = [] ∧ s.port.phase = .ready ∧ s.tb.tbrun = true ∧ s.tb.divider + 1 < s.tb.tickLen) ∧
    (live.pending = [] ∧ live.tb.tbrun = true ∧ live.tb.tickLen ≤ live.tb.divider + 1) :=
  ⟨by decide, by decide, by decide, by decide,
    ⟨{ live with tb := { live.tb with tickLen := 2 } }, by decide, by decide, by decide, by decide⟩, by decide⟩

theorem test_witness_ResetAndInitialisation :
    (inPhase .resetLow 0).port.phase = .resetLow ∧ (inPhase .initialising 0).port.phase = .initialising ∧
    live.port.phase ≠ .resetLow ∧ live.port.phase ≠ .initialising := by decide

theorem test_witness_NothingActsBeforeReady :
    (inPhase .resetLow 0).port.phase ≠ .ready ∧ (inPhase .initialising 2047).port.phase ≠ .ready ∧
    Instr.timeLo ≠ .reset ∧ Instr.timeLo ≠ .resetRelease ∧ Instr.timeLo ≠ .initialisationEnd ∧
    isRead .timeLo = true ∧ isRead (.storeDataWrite 0) = false := by decide

theorem test_witness_TickdivGovernsTheNextTick :
    ∃ t, exec (.tickdiv 0x01FF) live = .next t ∧ t.tb.tbrun = true ∧
      ∃ u, exec (.tick 0 [] true) t = .next u := ⟨_, rfl, by decide, _, rfl⟩

theorem test_witness_TickAdvancesTheTimeline :
    live.port.phase = .ready ∧ live.tb.tbrun = true ∧ State.reset.tb.tbrun = false := by decide

/-- An entry 2^31 ticks away, the furthest that the list may hold, behind one that is next. -/
theorem test_witness_WholeTickLeavesNoEntryDue :
    ListOrdered (listed [direct 101 1 0, direct (100 + 0x80000000) 1 0]) := by
  unfold ListOrdered
  decide

theorem test_witness_ReadsAndTheirSideEffects :
    (paired live).cascaded 0 = true ∧ (paired live).cascaded 1 = true ∧ isOdd 0 = false ∧ isOdd 1 = true ∧
    (paired live).cascaded 2 = false ∧ live.cap.queue = [] ∧ (live.produce (.pattern 0 1 100)).cap.queue ≠ [] := by
  decide

theorem test_witness_TwoHalvesOfOneValue :
    (∀ c ∈ [Instr.tick 0xFFFF [.sample] false], ∃ pins order whole, c = .tick pins order whole) ∧
    ({ live with pending := [.timeLo, .tick 0xFFFF [.sample] false, .timeHi] } : State).pending
      = .timeLo :: ([Instr.tick 0xFFFF [.sample] false] ++ [.timeHi]) ∧
    ({ paired live with pending := [.countRead 0, .tick 0xFFFF [.sample] false, .countRead 1] } : State).pending
      = .countRead 0 :: ([Instr.tick 0xFFFF [.sample] false] ++ [.countRead (oddOf 0)]) := by
  refine ⟨?_, by decide, by decide⟩
  intro c h
  exact ⟨_, _, _, List.mem_singleton.mp h⟩

theorem test_witness_CtrlWriteWithoutClear :
    (0x7FFF : Word).getLsbD 15 = false ∧
      (Instr.outenOn 0x7FFF = .tbrun 0x7FFF ∨ Instr.outenOn 0x7FFF = .outenOn 0x7FFF ∨
        Instr.outenOn 0x7FFF = .outenOff 0x7FFF ∨ Instr.outenOn 0x7FFF = .clear 0x7FFF) := by decide

theorem test_witness_ClearResetsTheDynamicState :
    (0x8000 : Word).getLsbD 15 = true ∧ live.adv.schedBegun = false ∧ live.adv.edges = [] ∧ live.adv.eval = none := by
  decide

theorem test_witness_UnitCtrlWrites :
    ¬((paired live).cascaded 0 = true ∧ isOdd 0 = true) ∧ ((paired live).cascaded 1 = true ∧ isOdd 1 = true) ∧
    ¬(live.cascaded 1 = true ∧ isOdd 1 = true) := by decide

/-- IU_PAIR 1 changes pair 0 only: refused while unit 1 is RUNNING, taken otherwise. -/
theorem test_witness_IuPairWrite :
    (live.iu.pairs[(0 : Fin 2)].cascade ≠ (0x0001 : Word).getLsbD 0 ∧
      live.iu.pairs[(1 : Fin 2)].cascade = (0x0001 : Word).getLsbD 1) ∧
    ((counting 1 1 0 0).unit 1).running = true ∧ (live.unit 0).running = false ∧ (live.unit 1).running = false := by
  decide

/-- The clauses of a unit's advance, at the last phase of a prescale of 64 and at the one before it. -/
theorem test_witness_UnitCountsAnAdvance :
    (live.cascaded 0 = false ∧ live.adv.expiry[(0 : Fin 4)] = none ∧ (live.unit 0).owes = false) ∧
    ((counting 0 2 3 62).unit 0).phase + 1 < 4 ^ ((counting 0 2 3 62).unit 0).prescale.toNat ∧
    4 ^ ((counting 0 2 3 63).unit 0).prescale.toNat ≤ ((counting 0 2 3 63).unit 0).phase + 1 ∧
    ((counting 0 1 3 63).unit 0).c = 1 ∧ ((counting 0 0 3 63).unit 0).c ≠ 1 ∧
    (∀ q, ((counting 0 1 3 63).descriptor .a q).triggers 0 = true → ((counting 0 1 3 63).slot q).armed = false) ∧
    (∃ x : State, (x.unit 0).owes = true ∧ (x.unit 0).running = false) :=
  ⟨by decide, by decide, by decide, by decide, by decide, by decide,
    ⟨(counting 0 1 3 63).setUnit 0 { live.unit 0 with owes := true }, by decide, by decide⟩⟩

/-- A pair whose counter is 0x00010000 counts; one whose counter is 1 expires. -/
theorem test_witness_CascadedPairCounts :
    let s := paired (counting 0 1 0 0)
    let t := (paired (counting 0 0 0 0)).setUnit 1 { live.unit 1 with c := 1 }
    (s.cascaded 0 = true ∧ s.adv.expiry[(0 : Fin 4)] = none ∧ s.adv.expiry[oddOf 0] = none ∧
      4 ^ (s.unit 0).prescale.toNat ≤ (s.unit 0).phase + 1 ∧ ((s.unit 1).c ++ (s.unit 0).c : Time) = 1 ∧
      s.store.swap ≠ some 1 ∧
      ∀ q, (s.descriptor s.store.active q).triggers 1 = true → (s.slot q).armed = false) ∧
    ((t.unit 0).owes = true ∧ (t.unit 0).running = true ∧ ((t.unit 1).c ++ (t.unit 0).c : Time) = 0x00010000) := by
  decide

/-- Unit 0 expires with programme 0 armed. -/
def armedExpiry : State :=
  let s := stored 1 (counting 0 1 0 0)
  s.setSlot 0 { s.slot 0 with armed := true }

theorem test_witness_UnitExpiryLaunches :
    let s := armedExpiry
    let d := s.descriptor .a 0
    s.cascaded 0 = false ∧ s.adv.expiry[(0 : Fin 4)] = none ∧ s.store.swap ≠ some 0 ∧ s.store.active = .a ∧
    (s.unit 0).owes = true ∧ (s.unit 0).running = true ∧ 4 ^ (s.unit 0).prescale.toNat ≤ (s.unit 0).phase + 1 ∧
    (s.unit 0).c = 1 ∧ d.triggers 0 = true ∧ (s.slot 0).armed = true ∧ (s.slot 0).run = none ∧ d.valid = true ∧
    (s.stepRecord .a d.first).delay ≠ 0 ∧
    ∀ p, p ≠ 0 → (s.descriptor .a p).triggers 0 = true → (s.slot p).armed = false := by decide

/-- The least and the greatest time remaining that is ahead. -/
theorem test_witness_InsertionPlacesByTimeRemaining :
    ahead (direct 101 1 0).due (listed []).tl = true ∧ ahead (100 + 0x80000000) live.tl = true ∧
    ListOrdered (listed [direct 101 1 0]) := by
  unfold ListOrdered
  decide

/-- Each kind of action of the statement, with the last operand of its range. -/
theorem test_witness_EntryDueAppliesADirectEntry :
    (listed [direct 100 1 15, direct 101 2 0]).sched.pel = direct 100 1 15 :: [direct 101 2 0] ∧
    (∀ k ∈ [1, 2, 3, 5, 6], (direct 100 k 3).due = live.tl ∧ (direct 100 k 3).origin = .direct 9 ∧
      ((direct 100 k 3).kind = 1 ∨ (direct 100 k 3).kind = 2 ∨ (direct 100 k 3).kind = 3 ∨
        (direct 100 k 3).kind = 5 ∨ (direct 100 k 3).kind = 6)) ∧
    (direct 100 5 3).operand = BitVec.ofNat 4 (3 : Fin 4).val ∧ live.cascaded 3 = false ∧
    (∀ x ∈ [direct 101 2 0], x.due ≠ live.tl) ∧
    (∀ e ∈ (listed [direct 101 2 0]).sched.pel.head?, e.due ≠ live.tl) := by decide

/-- The 32nd step of one due time, with a successor in its pass; and the last step of a pass that another follows. -/
theorem test_witness_RunStepOffersItsSuccessor :
    let s := runs 1 0 false 31 [runEntry 100 0 1 2]
    s.sched.pel = runEntry 100 0 1 2 :: [] ∧ (runEntry 100 0 1 2).due = s.tl ∧ (runEntry 100 0 1 2).kind.toNat ≤ 3 ∧
    (s.slot 0).run.isSome = true ∧ ¬((s.slot 0).dueTime = s.tl ∧ 32 ≤ (s.slot 0).dueCount) ∧
    (0 : BitVec 7).toNat + 1 ≠ (s.descriptor .a 0).first.toNat + (s.descriptor .a 0).count.toNat ∧
    (s.stepRecord .a 1).delay ≠ 0 ∧
    ((1 : BitVec 7).toNat + 1 = (s.descriptor .a 0).first.toNat + (s.descriptor .a 0).count.toNat ∧
      (2 : BitVec 8) ≠ 1 ∧ (0 : BitVec 8) ≠ 1 ∧ (s.stepRecord .a (s.descriptor .a 0).first).delay ≠ 0) := by decide

/-- The last step of the last pass, a WAIT; the statement also takes the kinds up to TOGGLE. -/
theorem test_witness_RunCompletes :
    let s := runs 1 1 false 0 [runEntry 100 1 0 0]
    s.sched.pel = runEntry 100 1 0 0 :: [] ∧ (runEntry 100 1 0 0).due = s.tl ∧
    (s.slot 0).run = some { page := .a, step := 1, passes := 1, launchTime := 95, applied := 0,
                            launchPending := false } ∧
    ¬((s.slot 0).dueTime = s.tl ∧ 32 ≤ (s.slot 0).dueCount) ∧
    (1 : BitVec 7).toNat + 1 = (s.descriptor .a 0).first.toNat + (s.descriptor .a 0).count.toNat := by decide

/-- A bad step of each sort at the edge of its range, and the 33rd step of one due time. -/
theorem test_witness_RefusedStepFaultsTheRun :
    8 ≤ (runEntry 100 0 8 0).kind.toNat ∧
    ((runEntry 100 0 4 8).kind = 4 ∧ 8 ≤ (runEntry 100 0 4 8).operand.toNat) ∧
    ((runEntry 100 0 6 4).kind = 6 ∧ 4 ≤ (runEntry 100 0 6 4).operand.toNat) ∧
    (let s := runs 1 0 false 32 [runEntry 100 0 1 2]
     s.sched.pel = runEntry 100 0 1 2 :: [] ∧ (s.slot 0).run.isSome = true ∧ (s.slot 0).dueTime = s.tl ∧
       32 ≤ (s.slot 0).dueCount) := by decide

theorem test_witness_ChainsEnd :
    (runEntry 100 0 1 2).isDirect = false ∧ (runEntry 100 0 1 2).due = live.tl ∧
    (direct 0 1 0).isDirect = true := by decide

/-- A window is live up to its blank-until time, and dead after it. -/
theorem test_witness_WindowCloseShutsDeadWindows :
    (reached (90 : Time) live.tl = true ∧ (100 : Time) = live.tl) ∧ ahead (101 : Time) live.tl = true ∧
    ahead (99 : Time) live.tl = false ∧ live.adv.closeDue = false ∧
    (∃ s, exec (.tick 0 [] false) live = .next s ∧ s.adv.closeDue = true) :=
  ⟨by decide, by decide, by decide, by decide, _, rfl, by decide⟩

theorem test_witness_CmdIsTakenOrRejected :
    live.cmd.inflight = none ∧ (inFlight 1 noWords live).cmd.inflight ≠ none := by decide

/-- A command in flight is of one code: with LAUNCH in flight the other completions have nothing to complete. -/
theorem test_witness_CompletionNeedsItsCommand :
    (∃ f, (inFlight 3 noWords live).cmd.inflight = some f ∧ f.code = 3 ∧ f.code ≠ 1 ∧ 1 ≤ f.code.toNat ∧
      f.code.toNat ≤ 10) ∧ live.cmd.inflight = none :=
  ⟨⟨_, rfl, by decide, by decide, by decide, by decide⟩, by decide⟩

/-- SCHEDULE: BAD_ARG by the greatest bad delay and by tag 0; a due time ahead; one that is late; with 23 and with 24
DIRECT entries in the list. -/
theorem test_witness_ScheduleCompletes :
    (2 ^ 31 ≤ (0x80000000 : Time).toNat ∧ ¬2 ^ 31 ≤ (0x7FFFFFFF : Time).toNat ∧ (0x0100 : Word).getLsbD 8 = true ∧
      (0x0100 : Word).extractLsb' 0 8 = 0) ∧
    (ahead ((100 : Time) + 0x7FFFFFFF) live.tl = true ∧ reached (100 : Time) live.tl = true ∧
      reached ((100 : Time) - 0x7FFFFFFF) live.tl = true) ∧
    (inFlight 1 (words4 100 0 0x0021 0x0209) live).cmd.inflight =
      some { code := 1, args := words4 100 0 0x0021 0x0209 } ∧
    (listed (List.replicate 23 (direct 101 1 0))).beforeCompletion.sched.directCount < 24 ∧
    24 ≤ (listed (List.replicate 24 (direct 101 1 0))).beforeCompletion.sched.directCount := by decide

/-- SET 2 at 100 with tag 9 and policy APPLY, at TL = 100. -/
theorem test_witness_LateEntryIsApplied :
    let a := words4 100 0 0x8021 0x0009
    (inFlight 1 a live).cmd.inflight = some { code := 1, args := a } ∧ a[3].extractLsb' 0 8 ≠ 0 ∧
    a[2].extractLsb' 0 4 = 1 ∧ a[3].getLsbD 8 = false ∧ a[3].getLsbD 9 = false ∧
    reached (a[1] ++ a[0] : Time) live.tl = true := by decide

theorem test_witness_CancelRemovesTheTag :
    (inFlight 2 (words4 0xFF00 0 0 0) live).cmd.inflight = some { code := 2, args := words4 0xFF00 0 0 0 } ∧
    (0xFF00 : Word).extractLsb' 0 8 = 0 ∧ (0x00FF : Word).extractLsb' 0 8 ≠ 0 := by decide

/-- PEEK_LIST at the last entry and past it; QUERY_RUN of a RUNNING and of an IDLE slot, and of programme 8. -/
theorem test_witness_PeekListAndQueryRun :
    let s := runs 1 0 false 0 [runEntry 105 0 1 2]
    (inFlight 8 noWords s).beforeCompletion.sched.pel[(0 : Word).toNat]? = some (runEntry 105 0 1 2) ∧
    s.beforeCompletion.sched.pel.length ≤ (1 : Word).toNat ∧ (s.beforeCompletion.slot 0).run.isSome = true ∧
    (s.beforeCompletion.slot 7).run = none ∧ 8 ≤ (8 : Word).toNat ∧
    (s.beforeCompletion.sched.pel.find? fun x => x.isRun 0) = some (runEntry 105 0 1 2) := by decide

/-- LAUNCH of programme 0, which is valid, and of programme 7, whose descriptor is all 0 and not valid. -/
theorem test_witness_LaunchFromIdle :
    let s := inFlight 3 noWords (stored 1 live)
    let d := s.beforeCompletion.descriptor .a 0
    s.cmd.inflight = some { code := 3, args := noWords } ∧ (noWords[0]).toNat = (0 : Fin 8).val ∧
    (s.beforeCompletion.slot 0).run = none ∧
    (1 ≤ d.count.toNat ∧ d.first.toNat + d.count.toNat ≤ 128 ∧ d.policy ≠ 3) ∧
    (s.beforeCompletion.stepRecord .a d.first).delay ≠ 0 ∧ ¬1 ≤ (s.beforeCompletion.descriptor .a 7).count.toNat ∧
    8 ≤ (0xFFFF : Word).toNat := by decide

/-- Programme 0 is RUNNING with policy `policy`, and LAUNCH of it is in flight. -/
def relaunched (policy : Word) (pending : Bool) : State :=
  inFlight 3 noWords (runs policy 0 pending 0 [runEntry 105 0 1 2])

/-- IGNORE, RESTART and QUEUE of a RUNNING slot, the last with and without a launch that is pending. -/
theorem test_witness_LaunchOfARunningSlot :
    ((relaunched 0 false).beforeCompletion.slot 0).run.isSome = true ∧
    ((relaunched 0 false).beforeCompletion.descriptor .a 0).policy = 0 ∧
    ((relaunched 1 false).beforeCompletion.descriptor .a 0).policy = 1 ∧
    ((relaunched 1 false).beforeCompletion.descriptor .a 0).valid = true ∧
    ((relaunched 1 false).beforeCompletion.stepRecord .a 0).delay ≠ 0 ∧
    ((relaunched 2 true).beforeCompletion.descriptor .a 0).policy = 2 ∧
    ((relaunched 2 true).beforeCompletion.slot 0).run.map Run.launchPending = some true ∧
    ((relaunched 2 false).beforeCompletion.slot 0).run.map Run.launchPending = some false := by
  refine ⟨?_, ?_, ?_, ?_, ?_, ?_, ?_, ?_⟩ <;> decide

/-- ABORT of a RUNNING slot and of an IDLE one; a run of a page that is DRAINING. -/
theorem test_witness_AbortEndsTheRun :
    let s := inFlight 4 noWords (runs 1 0 false 0 [runEntry 105 0 1 2])
    let t := { s with store := { s.store with active := .b } }
    s.cmd.inflight = some { code := 4, args := noWords } ∧ (s.beforeCompletion.slot 0).run.isSome = true ∧
    (s.beforeCompletion.slot 7).run = none ∧ t.beforeCompletion.store.stateOf .a = .draining ∧ t.beforeCompletion.store.bound .a = 1 := by decide

theorem test_witness_AbortAllEndsEveryRun :
    let s := inFlight 5 noWords (runs 1 0 false 0 [runEntry 105 0 1 2])
    s.cmd.inflight = some { code := 5, args := noWords } ∧ (s.beforeCompletion.slot 0).run.isSome = true ∧
    s.beforeCompletion.sched.pel.map Entry.origin = [.run 0 0] ∧ s.beforeCompletion.store.boundA = 1 ∧ s.beforeCompletion.store.boundB = 0 ∧
    s.beforeCompletion.store.swap = none := by
  refine ⟨?_, ?_, ?_, ?_, ?_, ?_⟩ <;> decide

/-- A swap that is pending on unit 3; and a page B that is DRAINING. -/
def swapping : State := { live with store := { live.store with swap := some 3 } }
def draining : State := { live with store := { live.store with boundB := 1 } }

/-- SWAP: each mode, and the last unit and the first that does not exist. -/
theorem test_witness_SwapCompletes :
    (∀ m, (inFlight 6 (words4 m 3 0 0) live).cmd.inflight = some { code := 6, args := words4 m 3 0 0 }) ∧
    (3 : Word).toNat = (3 : Fin 4).val ∧ 4 ≤ (4 : Word).toNat ∧ live.beforeCompletion.store.swap = none ∧
    live.beforeCompletion.store.bound live.beforeCompletion.store.active.other = 0 ∧ swapping.beforeCompletion.store.swap = some 3 ∧
    draining.beforeCompletion.store.swap = none ∧ draining.beforeCompletion.store.bound draining.beforeCompletion.store.active.other = 1 :=
  ⟨fun _ => rfl, by decide, by decide, by decide, by decide, by decide, by decide, by decide⟩

/-- LOAD_TIME free and not free; codes 0, 10 and 11. -/
theorem test_witness_LoadTimeFlushQueueAndUnknown :
    (live.beforeCompletion.settle.sched.pel = [] ∧ ∀ p, (live.beforeCompletion.settle.slot p).run = none) ∧
    (listed [direct 101 1 0]).beforeCompletion.settle.sched.pel ≠ [] ∧
    (inFlight 11 noWords live).cmd.inflight = some { code := 11, args := noWords } ∧ 11 ≤ (11 : Word).toNat ∧
    ¬11 ≤ (10 : Word).toNat := by decide

/-- STORE_DATA at the last word of the page and the first past it; on the ACTIVE page and on the OPEN one. -/
theorem test_witness_StoreDataWrite :
    272 ≤ (272 : BitVec 9).toNat ∧ (271 : BitVec 9).toNat < 272 ∧ PagesWf (stored 1 live) ∧
    (live.store.addrPage = live.store.active) ∧
    (Page.b ≠ live.store.active ∧ live.store.bound .b = 0 ∧ live.store.swap = none) := by
  unfold PagesWf
  decide

/-- A write of STORE_DATA on page B, which is OPEN after reset. -/
theorem test_witness_PageContentsChangeOnlyWhenWritable :
    let s := { live with store := { live.store with addrPage := .b } }
    ∃ t, exec (.storeDataWrite 5) s = .next t ∧ t.store.page .b ≠ s.store.page .b := ⟨_, rfl, by decide⟩

theorem test_witness_PinLevelByForceMode :
    (0 : Fin 16).val < 8 ∧ (7 : Fin 16).val < 8 ∧ ¬(8 : Fin 16).val < 8 := by decide

theorem test_witness_BlankLenWrite : ∃ t, exec (.blankLen 2 0xFFFF) live = .next t := ⟨_, rfl⟩

/-- A live window on the last tick of its length, a dead one, and each order of the two blank-until times. -/
theorem test_witness_WindowAfterAReport :
    ((255 : BitVec 8) ≠ 0 ∧ reached (90 : Time) 100 = true ∧ ahead (101 : Time) 100 = true) ∧
    ¬(reached (90 : Time) 100 = true ∧ ((99 : Time) = 100 ∨ ahead (99 : Time) 100 = true)) ∧
    reached (105 : Time) (100 + (5 : BitVec 8).setWidth 32) = true ∧
    ahead (106 : Time) (100 + (5 : BitVec 8).setWidth 32) = true := by decide

/-- The samples of a line: initialising, at the stable level, growing, and reaching Q. -/
theorem test_witness_SampleOfALine :
    let l := live.line 0
    let q : Nat → Line := fun n => { l with awaiting := false, qualify := 15, count := n }
    l.awaiting = true ∧ (q 0).awaiting = false ∧ (false = (q 0).stable) ∧ true ≠ (q 0).stable ∧
    (q 14).count + 1 < (q 14).qualify.toNat + 1 ∧ (q 15).count = (q 15).qualify.toNat := by decide

/-- Lines 0 and 1 sample on TICK, line 1 in blanking set 1, whose window is live; line 2 samples on unit 0. -/
def sampling : State :=
  let l := { live.line 0 with source := .tick, awaiting := false, edgeMode := .both }
  let s := ((live.setLine 0 l).setLine 1 { l with bset := 1 }).setLine 2 { l with source := .unit 0 }
  { s.setWindow 0 (some { opened := 99, until_ := 100 }) with
    port := { s.port with inPins := 0xFFFF }
    adv := { s.adv with sampleDue := true } }

theorem test_witness_SampleOfALine_samples :
    sampling.adv.sampleDue = true ∧ (sampling.countSources.line 0).source = .tick ∧
    sampling.blanked 0 = false ∧ sampling.blanked 1 = true ∧ sampling.sampled 2 = false ∧
    sampling.takeSample.adv.edges = [.edge 0 true none 100] ∧
    (sampling.takeSample.line 0).stable ≠ (sampling.line 0).stable := by decide

/-- The samples give one evaluation of the new stable vector, which waits behind the EDGE record (R115, R142). -/
theorem test_witness_EvaluationOfAnEntry_job :
    sampling.takeSample.handEdge.adv.edges = [] ∧
    sampling.takeSample.handEdge.adv.eval = some { vector := 0x0001, left := List.finRange 8 } := by decide

/-- The watermark 1 is reached by the first record. -/
theorem test_witness_WatermarkWrite :
    ∃ t, exec (.capWmark 0) live = .next t ∧ t.cap.queue.length < 128 ∧
      t.cap.wmark.toNat ≤ t.cap.queue.length + 1 := ⟨_, rfl, by decide, by decide⟩

/-- 127 and 128 records. -/
theorem test_witness_RecordIsStoredOrDropped :
    let r : Record := { body := .pattern 0 0 0, seq := 0, gap := 0, gapSat := false }
    (List.replicate 127 r).length < 128 ∧ 128 ≤ (List.replicate 128 r).length := by
  simp

theorem test_witness_PatternWrites : live.adv.edges = [] ∧ live.adv.eval = none := by decide

/-- No candidate; a candidate of each trigger; one that counts to 1 of 2 and one that fires at 2 of 2. -/
theorem test_witness_EvaluationOfAnEntry :
    let e : PatternEntry :=
      { mask := 1, value := 1, enable := true, change := false, divide := 1, record := true, launch := false,
        prog := 0, event := true, counter := 0, matched := false }
    let s := live.setEntryAt 0 e
    ((0 : Word) &&& e.mask ≠ e.value) ∧ ((1 : Word) &&& e.mask = e.value ∧ e.matched = false) ∧
    ((1 : Word) ^^^ s.pat.held) &&& e.mask ≠ 0 ∧ e.counter + 1 < e.divide.toNat + 1 ∧
    (1 : Nat) = e.divide.toNat := by decide

/-- Class 15 asserts with level 3 above threshold 2, and is the only one. -/
theorem test_witness_InterruptLineAndTopClass :
    let v : EventUnit := { flags := 0x8000, enable := 0xFFFF, levelLo := 0, levelHi := 0xC000, thresh := 2 }
    (v.flags.getLsbD 15 = true ∧ v.enable.getLsbD 15 = true ∧ v.thresh < v.level 15) ∧
    (∀ c : Fin 16, c ≠ 15 → v.flags.getLsbD c.val = false) ∧ live.ev.flags = 0 := by decide

/-- Words at both ends of the ranges that the statement names. -/
theorem test_witness_RegisterWriteByAddress :
    hasOwnWriteRow 0x00 = false ∧ hasOwnWriteRow 0x6F = false ∧ hasOwnWriteRow 0x75 = false ∧
    (0x6F : BitVec 7).toNat < 0x70 ∧ 0x73 < (0x75 : BitVec 7).toNat ∧ hasOwnWriteRow 0x74 = true := by decide

/-- A step from a state with a run, an entry and a record; the reset state meets the laws that the step keeps. -/
theorem test_witness_StepKeeps :
    ∃ t, step { runs 1 0 false 0 [runEntry 105 0 1 2] with pending := [.tick 0 [] true] } = .next t := ⟨_, rfl⟩

theorem test_witness_StepKeeps_runEntry :
    RunEntryLaw (runs 1 0 false 0 [runEntry 105 0 1 2]) ∧ BindingLaw (runs 1 0 false 0 [runEntry 105 0 1 2]) := by
  refine ⟨?_, ?_, by decide⟩
  · intro p
    match p with
    | 0 =>
      exact (by decide :
        ((runs 1 0 false 0 [runEntry 105 0 1 2]).sched.pel.filter fun e => e.isRun 0).map Entry.origin = [.run 0 0])
    | 1 | 2 | 3 | 4 | 5 | 6 | 7 =>
      exact fun e h => by rw [List.mem_singleton.mp h]; decide
  · intro g
    cases g <;> decide

/-- Two records in the queue, one lost before the second: the sequence numbers of R126. -/
theorem test_witness_StepKeeps_capture :
    let x : Record := { body := .pattern 0 0 0, seq := 255, gap := 0, gapSat := false }
    let y : Record := { body := .pattern 0 0 1, seq := 1, gap := 1, gapSat := false }
    y.seq = x.seq + y.gap + 1 ∧ CaptureBounded live := by
  unfold CaptureBounded
  decide

/-! ### Worked cases -/

/-- A LAUNCH of programme 0 at 100 with a first delay of 5 gives STARTED and an entry at 105 (R72). -/
theorem test_launch_places_the_first_step :
    ∃ t, exec .launch (inFlight 3 noWords (stored 1 live)) = .next t ∧ t.cmd.result = 1 ∧
      t.sched.pel = [runEntry 105 0 1 2] ∧ t.store.boundA = 1 := ⟨_, rfl, by decide, by decide, by decide⟩

/-- Step 0 of the run sets line 2 and is followed by step 1, 7 ticks later (R80, R97). -/
theorem test_entryDue_applies_a_step :
    ∃ t, exec .entryDue (runs 1 0 false 0 [runEntry 100 0 1 2]) = .next t ∧ t.out.logic = 0x0004 ∧
      t.sched.pel.map Entry.due = [107] ∧ (t.slot 0).dueCount = 1 := ⟨_, rfl, by decide, by decide, by decide⟩

/-- The last step of the run ends it COMPLETE, with RUNEND and a RUN_END record (R82). -/
theorem test_entryDue_ends_the_run :
    ∃ t, exec .entryDue (runs 1 1 false 0 [runEntry 100 1 0 0]) = .next t ∧ (t.slot 0).run = none ∧
      t.ev.flags.getLsbD 4 = true ∧ t.cap.queue.map Record.body = [.runEnd 0 .complete 1 100] ∧
      t.store.boundA = 0 := ⟨_, rfl, by decide, by decide, by decide, by decide⟩

/-- The expiry of unit 0 launches the programme that is armed for it and disarms it (R68, R71). -/
theorem test_iuExpiry_launches :
    ∃ t, exec (.iuExpiry 0) armedExpiry = .next t ∧ (t.unit 0).c = 3 ∧ t.ev.flags.getLsbD 11 = true ∧
      (t.slot 0).armed = false ∧ t.sched.pel = [runEntry 105 0 1 2] := ⟨_, rfl, by decide, by decide, by decide, by decide⟩

/-- A LAUNCH that completes before the swap point of the same timeline value binds to the old page, which then becomes
DRAINING (R61). -/
def launchBeforeSwap : State :=
  inFlight 3 noWords { stored 1 (counting 0 1 0 0) with store := { (stored 1 live).store with swap := some 0 } }

theorem test_launch_before_the_swap_point :
    ∃ t u, exec .launch launchBeforeSwap = .next t ∧ t.cmd.result = 1 ∧ t.store.swap = some 0 ∧ t.store.boundA = 1 ∧
      exec (.iuExpiry 0) t = .next u ∧ u.store.active = .b ∧ u.store.stateOf .a = .draining ∧
      (u.slot 0).run.map Run.page = some .a :=
  ⟨_, _, rfl, by decide, by decide, by decide, rfl, by decide, by decide, by decide⟩

/-- Unit 0 counts to its expiry, which is a swap point, with programme 0 of page B armed and a SWAP NOW in flight. -/
def swapPointTaken : State :=
  let s := stored 1 (counting 0 1 0 0)
  let t := s.setSlot 0 { s.slot 0 with armed := true }
  let u : State := { t with store := { t.store with pageA := [], pageB := page 1, swap := some 0 } }
  runJob (.swapPoint 0) (runJob (.count 0) (inFlight 6 noWords u))

/-- A SWAP NOW that completes between a swap point and its launches finds them taken, bound to the page that the swap
point made active (R60, R155). -/
theorem test_swap_back_follows_the_launches :
    swapPointTaken.store.active = .b ∧ (swapPointTaken.slot 0).run = none ∧
    ∃ t, exec .swapNow swapPointTaken = .next t ∧ t.store.active = .a ∧ t.store.stateOf .b = .draining ∧
      (t.slot 0).run.map Run.page = some .b :=
  ⟨by decide, by decide, _, rfl, by decide, by decide, by decide⟩

/-- With an EDGE record still to be handed over CAP_LEVEL, CAPR0 and EV_FLAGS show what stands (R131, R171). -/
theorem test_reads_show_what_stands :
    (sampling.takeSample.readWord 0x4D).1 = some 0 ∧ (sampling.takeSample.readWord 0x48).1 = some 0 ∧
    (sampling.takeSample.readWord 0x7A).1 = some 0 ∧ (sampling.takeSample.handEdge.readWord 0x4D).1 = some 1 := by
  decide

/-- OUT_PIN is read after the whole of the advance, which is then taken (R104; log 12). -/
theorem test_read_of_outPin_takes_the_advance :
    ((listed [direct 100 1 0]).readWord 0x39).1 = some 1 ∧
    ((listed [direct 100 1 0]).readWord 0x39).2.sched.pel = [] := by decide

/-- Reads before READY (R182). -/
theorem test_reads_before_ready :
    ((inPhase .initialising 5).readWord 0x00).1 = some 0 ∧ ((inPhase .initialising 5).readWord 0x03).1 = some 0 ∧
    ((inPhase .resetLow 0).readWord 0x00).1 = none := by decide

/-- A record's words (section 11.9): PATTERN of entry 3, seq 1, gap 2. -/
theorem test_record_words :
    let r : Record := { body := .pattern 3 0xABCD 0x00010002, seq := 1, gap := 2, gapSat := false }
    r.word 0 = 0x0032 ∧ r.word 1 = 0x0201 ∧ r.word 2 = 0x0002 ∧ r.word 3 = 0x0001 ∧ r.word 4 = 0xABCD := by decide

end Sys2Proof.Tests
end

section
/-! PROOFS. A write of TICKDIV and the tick that follows it, and a write of IU_PAIR (R1, R2, R15). -/

namespace Sys2Proof.Machine

variable {s : State}

/-! ### TICKDIV and the tick (R1, R2) -/

theorem exec_tickdiv_of_ready (ready : s.port.phase = .ready) (w : Word) :
    exec (.tickdiv w) s = .next (s.writeTickdiv w) :=
  congrArg Host.Outcome.next (State.whenReady_of_ready ready _)

theorem exec_tick_of_ready (ready : s.port.phase = .ready) (pins : Word) (order : List Job) (whole : Bool) :
    exec (.tick pins order whole) s = .next (s.tick pins order whole) :=
  congrArg Host.Outcome.next (State.whenReady_of_ready ready _)

theorem State.writeTickdiv_eq (w : Word) (s : State) :
    s.writeTickdiv w = { s with tb := { s.tb with tickdiv := w.setWidth 8 } } := by
  rw [State.writeTickdiv, field, BitVec.setWidth_eq_extractLsb' (by decide)]

theorem toNat_low_byte (w : Word) : (w &&& 0x00FF).toNat = w.toNat % 2 ^ 8 := by
  rw [BitVec.toNat_and]
  exact Nat.and_two_pow_sub_one_eq_mod w.toNat 8

theorem place_low_byte (w : Word) : place (w.setWidth 8) 0 = w &&& 0x00FF := by
  apply BitVec.eq_of_toNat_eq
  rw [toNat_low_byte, place, BitVec.shiftLeft_zero, BitVec.toNat_setWidth_of_le (by decide), BitVec.toNat_setWidth]

/-- The TICKDIV word reads the stored division, with the upper byte 0. -/
theorem State.readWord_tickdiv (ready : s.port.phase = .ready) :
    (s.readWord 0x02).1 = some (place s.tb.tickdiv 0) := by
  rw [State.readWord_of_ready ready]
  rfl

/-- A tick reloads the timebase; what the owners take before and after the advance leaves it as it is. -/
theorem State.tick_tb (running : s.tb.tbrun = true) (pins : Word) (order : List Job) (whole : Bool) :
    (s.tick pins order whole).tb =
      { s.tb with tl := s.tb.tl + 1, divider := 0, tickLen := s.tb.tickdiv.toNat + 1 } := by
  let begun := s.settle.beginAdvance pins
  have jobs : HandleRel begun (order.foldl (fun t j => runJob j t) begun) := .runJobs order begun
  have taken : HandleRel begun (s.tick pins order whole) := by
    rw [State.tick, if_pos running]
    exact .ite (jobs.trans (.settle _)) jobs
  have before : s.settle.tb = s.tb := (HandleRel.settle s).tb
  rw [taken.tb]
  simp only [begun, State.beginAdvance, before]

/-- Settles O7: the write changes no field but TICKDIV, and the tick that begins next takes its length from it
(`State.tick_tb`). -/
theorem tickdivGovernsTheNextTick : Obligations.TickdivGovernsTheNextTick := by
  intro s w ready
  have written := exec_tickdiv_of_ready ready w
  refine ⟨written.trans (congrArg _ (State.writeTickdiv_eq w s)), fun t next => ?_⟩
  obtain rfl : s.writeTickdiv w = t := Host.Outcome.next.inj (written.symm.trans next)
  have stored : (s.writeTickdiv w).tb.tickdiv = w.setWidth 8 := by rw [State.writeTickdiv_eq]
  have still_ready : (s.writeTickdiv w).port.phase = .ready := ready
  refine ⟨rfl, rfl, ?_, fun pins order whole u running ticked => ?_⟩
  · rw [State.readWord_tickdiv still_ready, stored, place_low_byte]
  · rw [exec_tick_of_ready still_ready] at ticked
    obtain rfl := Host.Outcome.next.inj ticked
    rw [State.tick_tb running, stored, toNat_low_byte, BitVec.toNat_setWidth]

/-! ### IU_PAIR (R15) -/

theorem exec_iuPair_of_ready (ready : s.port.phase = .ready) (w : Word) :
    exec (.iuPair w) s = .next (s.writeIuPair w) :=
  congrArg Host.Outcome.next (State.whenReady_of_ready ready _)

theorem State.refuseWrite_iuPair (s : State) :
    s.refuseWrite 2 0x14 =
      { s with ev := { s.ev with flags := s.ev.flags ||| 0x8000 }
               port := { s.port with portErr := 0x1402 } } := rfl

theorem eq_evenUnit_iff (u : Fin 4) (i : Fin 2) :
    u = ⟨2 * i.val, by omega⟩ ↔ isOdd u = false ∧ pairOf u = i := by
  revert u i
  decide

theorem State.setCascade_of_eq {i : Fin 2} {b : Bool} (same : s.iu.pairs[i].cascade = b) : s.setCascade i b = s :=
  if_pos same

theorem State.setCascade_of_ne {i : Fin 2} {b : Bool} (differs : s.iu.pairs[i].cascade ≠ b) :
    s.setCascade i b =
      (s.setUnit ⟨2 * i.val, by omega⟩ { s.unit ⟨2 * i.val, by omega⟩ with phase := 0 }).setPair i
        { cascade := b, snapshot := none } :=
  if_neg differs

theorem State.setCascade_frame (s : State) (i : Fin 2) (b : Bool) :
    s.setCascade i b = { s with iu := (s.setCascade i b).iu } := by
  rw [State.setCascade]
  split <;> rfl

theorem State.pairs_setCascade (s : State) (i j : Fin 2) (b : Bool) :
    (s.setCascade i b).iu.pairs[j] =
      if j = i ∧ s.iu.pairs[i].cascade ≠ b then { cascade := b, snapshot := none } else s.iu.pairs[j] := by
  by_cases same : s.iu.pairs[i].cascade = b
  · simp only [State.setCascade_of_eq same, same, ne_eq, not_true_eq_false, and_false, if_false]
  · simp only [State.setCascade_of_ne same, State.pairs_setPair, State.pairs_setUnit, same, ne_eq,
      not_false_eq_true, and_true]

theorem State.unit_setCascade (s : State) (i : Fin 2) (b : Bool) (u : Fin 4) :
    (s.setCascade i b).unit u =
      if (isOdd u = false ∧ pairOf u = i) ∧ s.iu.pairs[i].cascade ≠ b then { s.unit u with phase := 0 }
      else s.unit u := by
  by_cases same : s.iu.pairs[i].cascade = b
  · simp only [State.setCascade_of_eq same, same, ne_eq, not_true_eq_false, and_false, if_false]
  · simp only [State.setCascade_of_ne same, State.unit_setPair, State.unit_setUnit, same, ne_eq,
      not_false_eq_true, and_true, ← eq_evenUnit_iff]
    refine ite_congr rfl (fun even => ?_) fun _ => rfl
    rw [even]

/-- The flags of both pairs written, once the write is not refused (R15). -/
def State.setCascades (w : Word) (s : State) : State :=
  (s.setCascade 0 (pairBit w 0)).setCascade 1 (pairBit w 1)

theorem State.setCascades_frame (w : Word) (s : State) : s.setCascades w = { s with iu := (s.setCascades w).iu } := by
  rw [State.setCascades, State.setCascade_frame (s.setCascade 0 _), State.setCascade_frame s]

theorem State.pairs_setCascades (w : Word) (s : State) (i : Fin 2) :
    (s.setCascades w).iu.pairs[i] =
      if s.iu.pairs[i].cascade ≠ w.getLsbD i.val then { cascade := w.getLsbD i.val, snapshot := none }
      else s.iu.pairs[i] := by
  rw [State.setCascades, State.pairs_setCascade, State.pairs_setCascade, State.pairs_setCascade]
  match i with
  | 0 => simp [pairBit, bit]
  | 1 => simp [pairBit, bit]

theorem State.unit_setCascades (w : Word) (s : State) (u : Fin 4) :
    (s.setCascades w).unit u =
      if isOdd u = false ∧ s.iu.pairs[pairOf u].cascade ≠ w.getLsbD (pairOf u).val then { s.unit u with phase := 0 }
      else s.unit u := by
  rw [State.setCascades, State.unit_setCascade, State.unit_setCascade, State.pairs_setCascade]
  obtain inPair0 | inPair1 : pairOf u = 0 ∨ pairOf u = 1 := by omega
  · simp [inPair0, pairBit, bit]
  · simp [inPair1, pairBit, bit]

theorem State.pairRunning_iff (s : State) (i : Fin 2) :
    s.pairRunning i = true ↔
      (s.unit ⟨2 * i.val, by omega⟩).running = true ∨ (s.unit ⟨2 * i.val + 1, by omega⟩).running = true :=
  Bool.or_eq_true_iff

/-- A write of IU_PAIR is refused when a pair whose flag would change has a RUNNING unit. -/
theorem State.writeIuPair_of_busy {w : Word} {i : Fin 2} (changes : s.iu.pairs[i].cascade ≠ w.getLsbD i.val)
    (busy : s.pairRunning i = true) : s.writeIuPair w = s.refuseWrite 2 0x14 := by
  have found : (s.iu.pairs[i].cascade != pairBit w i && s.pairRunning i) = true :=
    Bool.and_eq_true_iff.mpr ⟨bne_iff_ne.mpr changes, busy⟩
  exact if_pos (List.any_eq_true.mpr ⟨i, List.mem_finRange i, found⟩)

/-- A write of IU_PAIR is taken when both units of every pair whose flag would change are STOPPED. -/
theorem State.writeIuPair_of_stopped {w : Word}
    (stopped : ∀ i : Fin 2, s.iu.pairs[i].cascade ≠ w.getLsbD i.val → ¬s.pairRunning i = true) :
    s.writeIuPair w = s.setCascades w := by
  refine if_neg fun refused => ?_
  obtain ⟨i, -, found⟩ := List.any_eq_true.mp refused
  obtain ⟨changes, busy⟩ := Bool.and_eq_true_iff.mp found
  exact stopped i (bne_iff_ne.mp changes) busy

/-- Settles O16: the refused write by `State.writeIuPair_of_busy`, the one that is taken by the values that
`State.setCascades` gives the pairs and the units. -/
theorem iuPairWrite : Obligations.IuPairWrite := by
  intro s w ready changes busy
  rw [exec_iuPair_of_ready ready]
  constructor
  case left =>
    rintro ⟨i, changed, running⟩
    rw [State.writeIuPair_of_busy changed ((s.pairRunning_iff i).mpr running), State.refuseWrite_iuPair]
  case right =>
    intro stopped
    rw [State.writeIuPair_of_stopped fun i changed running => stopped i changed ((s.pairRunning_iff i).mp running)]
    refine ⟨s.setCascades w, rfl, s.setCascades_frame w, fun i => ?_, fun u => ?_⟩
    · rw [State.pairs_setCascades]
      exact ⟨fun changed => if_pos changed, fun kept => if_neg kept⟩
    · rw [State.unit_setCascades]
      exact ⟨fun even => if_pos even, fun other => if_neg other⟩

end Sys2Proof.Machine
end

section
/-! PROOFS. The place that insertion gives an entry in the Pending Edge List (R22). -/

namespace Sys2Proof.Machine

variable {n : Time} {e x : Entry} {xs : List Entry}

theorem insertByTime_cons_of_le (sooner : remaining x.due n ≤ remaining e.due n) :
    insertByTime n e (x :: xs) = x :: insertByTime n e xs :=
  if_pos sooner

theorem insertByTime_cons_of_lt (later : remaining e.due n < remaining x.due n) :
    insertByTime n e (x :: xs) = e :: x :: xs :=
  if_neg (Nat.not_le_of_lt later)

/-- Insertion into an ordered list splits it at the entry's place and keeps the others in their order. That the list
is in order puts every entry behind the first later one on the later side too. -/
theorem insertByTime_splits (e : Entry) {pel : List Entry}
    (ordered : pel.Pairwise fun x y => remaining x.due n ≤ remaining y.due n) :
    ∃ l r, pel = l ++ r ∧ insertByTime n e pel = l ++ e :: r ∧
      (∀ x ∈ l, remaining x.due n ≤ remaining e.due n) ∧ ∀ x ∈ r, remaining e.due n < remaining x.due n := by
  induction pel with
  | nil => exact ⟨[], [], rfl, rfl, List.forall_mem_nil _, List.forall_mem_nil _⟩
  | cons x xs ih =>
    obtain ⟨head_first, tail_ordered⟩ := List.pairwise_cons.mp ordered
    obtain later | sooner := Nat.lt_or_ge (remaining e.due n) (remaining x.due n)
    case inl =>
      have rest_later : ∀ y ∈ xs, remaining e.due n < remaining y.due n :=
        fun y member => Nat.lt_of_lt_of_le later (head_first y member)
      exact ⟨[], x :: xs, rfl, insertByTime_cons_of_lt later, List.forall_mem_nil _,
        List.forall_mem_cons.mpr ⟨later, rest_later⟩⟩
    case inr =>
      obtain ⟨l, r, split, inserted, not_later, rest_later⟩ := ih tail_ordered
      refine ⟨x :: l, r, congrArg (x :: ·) split, ?_, List.forall_mem_cons.mpr ⟨sooner, not_later⟩, rest_later⟩
      rw [insertByTime_cons_of_le sooner, inserted, List.cons_append]

/-- Insertion keeps the law of the list (R22, R23) for an entry that is ahead. -/
theorem ListOrdered.insertEntry {s : State} (ordered : ListOrdered s) (is_ahead : ahead e.due s.tl = true) :
    ListOrdered (s.insertEntry e) :=
  OrderedAt.insert ordered e is_ahead

/-- Settles O20: the place of the entry by `insertByTime_splits`, the order of the new list by
`ListOrdered.insertEntry`. -/
theorem insertionPlacesByTimeRemaining : Obligations.InsertionPlacesByTimeRemaining := by
  intro s e ordered is_ahead
  obtain ⟨l, r, split, inserted, not_later, later⟩ := insertByTime_splits e ordered.1
  refine ⟨l, r, split, ?_, not_later, later, ordered.insertEntry is_ahead⟩
  rw [State.insertEntry, inserted, State.setPel]

end Sys2Proof.Machine
end

section
/-! PROOFS. The words LINE_CFGn and BLANK_LENs written and read back, and the window of a set after a pin-change
report (R107, R116, R117). -/

namespace Sys2Proof.Machine

variable {s : State}

/-! ### Fields read back -/

/-- A field put back at its own place is the word under the mask of that field. -/
theorem place_field (w : Word) (lo len : Nat) : place (field w lo len) lo = w &&& place (BitVec.allOnes len) lo := by
  ext i inWord
  by_cases below : i < lo
  · simp [place, field, below]
  · have restored : lo + (i - lo) = i := by omega
    simp [place, field, below, restored, BitVec.getLsbD_eq_getElem inWord, Bool.and_comm]

theorem SampleSource.ofCode_eq (v : BitVec 3) :
    SampleSource.ofCode v =
      if v = 1 then .tick else if v = 2 then .unit 0 else if v = 3 then .unit 1
      else if v = 4 then .unit 2 else if v = 5 then .unit 3 else .none := by
  revert v
  decide

theorem SampleSource.code_ofCode (v : BitVec 3) : (SampleSource.ofCode v).code = if 6 ≤ v.toNat then 0 else v := by
  revert v
  decide

theorem EdgeMode.ofCode_eq (v : BitVec 2) :
    EdgeMode.ofCode v = if v = 0 then .off else if v = 1 then .rise else if v = 2 then .fall else .both := by
  revert v
  decide

theorem EdgeMode.code_ofCode (v : BitVec 2) : (EdgeMode.ofCode v).code = v := by
  revert v
  decide

/-! ### The words of the qualifiers (section 11.7) -/

/-- A read from LINE_CFG0 up to BLANK_LEN3 shows what stands and has no side effect. -/
theorem State.takeRead_qualifier {a : BitVec 7} (lower : 0x20 ≤ a.toNat) (upper : a.toNat ≤ 0x34) :
    s.takeRead a = (s.showWord a.toNat, s) := by
  have not_settled : ¬afterHandling a.toNat = true := by
    simp only [afterHandling, Bool.or_eq_true, beq_iff_eq]
    omega
  unfold State.takeRead
  rw [if_neg (by omega), if_neg (by omega), if_neg (by omega), if_neg (by omega), if_neg (by omega),
    if_neg not_settled]

theorem State.readWord_qualifier (ready : s.port.phase = .ready) {a : BitVec 7} (lower : 0x20 ≤ a.toNat)
    (upper : a.toNat ≤ 0x34) : (s.readWord a).1 = some (s.showWord a.toNat) := by
  rw [State.readWord_of_ready ready, State.takeRead_qualifier lower upper]

theorem State.showWord_lineCfg (s : State) (n : Fin 16) : s.showWord (0x20 + n.val) = (s.line n).cfgWord := by
  unfold State.showWord
  iterate 8 rw [if_neg (by omega)]
  rw [if_pos (by omega), Nat.add_sub_cancel_left, indexBelow, dif_pos n.isLt]

theorem State.showWord_blankLen (s : State) (k : Fin 3) : s.showWord (0x32 + k.val) = place s.inp.lens[k] 0 := by
  unfold State.showWord
  iterate 11 rw [if_neg (by omega)]
  rw [if_pos (by omega), Nat.add_sub_cancel_left, indexBelow, dif_pos k.isLt]

/-! ### LINE_CFGn (R107) -/

theorem exec_lineCfg_of_ready (ready : s.port.phase = .ready) (n : Fin 16) (w : Word) :
    exec (.lineCfg n w) s = .next (s.writeLineCfg n w) :=
  congrArg Host.Outcome.next (State.whenReady_of_ready ready _)

theorem State.readWord_lineCfg (ready : s.port.phase = .ready) (n : Fin 16) :
    (s.readWord (0x20 + BitVec.ofNat 7 n.val)).1 = some (s.line n).cfgWord := by
  have address : (0x20 + BitVec.ofNat 7 n.val).toNat = 0x20 + n.val := by bv_omega
  rw [State.readWord_qualifier ready (by omega) (by omega), address, State.showWord_lineCfg]

/-- The written word reads back under the mask of the four fields, its source field as 0 for the codes stored as
NONE. -/
theorem Line.cfgWord_configure (w : Word) (l : Line) :
    (l.configure w).cfgWord = w &&& (if 6 ≤ (field w 0 3).toNat then 0x3378 else 0x337F) := by
  have source_field :
      place (SampleSource.ofCode (field w 0 3)).code 0 = w &&& (if 6 ≤ (field w 0 3).toNat then 0 else 0x0007) := by
    rw [SampleSource.code_ofCode]
    split
    · exact BitVec.and_zero.symm
    · exact place_field w 0 3
  rw [Line.cfgWord, Line.configure, EdgeMode.code_ofCode, source_field, place_field, place_field, place_field,
    ← BitVec.and_or_distrib_left, ← BitVec.and_or_distrib_left, ← BitVec.and_or_distrib_left]
  apply congrArg (w &&& ·)
  split <;> rfl

/-- Settles O43: the stored source and mode by `SampleSource.ofCode_eq` and `EdgeMode.ofCode_eq`, the word read back by
`Line.cfgWord_configure`. -/
theorem lineCfgWrite : Obligations.LineCfgWrite := by
  intro s n w ready l code src mode
  have written := exec_lineCfg_of_ready ready n w
  have source_stored : SampleSource.ofCode (field w 0 3) = src := SampleSource.ofCode_eq _
  have mode_stored : EdgeMode.ofCode (field w 8 2) = mode := EdgeMode.ofCode_eq _
  refine ⟨?stored, fun t next => ?readBack⟩
  case stored =>
    rw [written, State.writeLineCfg, Line.configure, source_stored, mode_stored]
    rfl
  case readBack =>
    obtain rfl : s.writeLineCfg n w = t := Host.Outcome.next.inj (written.symm.trans next)
    have still_ready : (s.writeLineCfg n w).port.phase = .ready := ready
    rw [State.readWord_lineCfg still_ready, State.writeLineCfg, State.line_setLine, if_pos rfl,
      Line.cfgWord_configure]
    rfl

/-! ### BLANK_LENs (R116) -/

theorem exec_blankLen_of_ready (ready : s.port.phase = .ready) (k : Fin 3) (w : Word) :
    exec (.blankLen k w) s = .next (s.writeBlankLen k w) :=
  congrArg Host.Outcome.next (State.whenReady_of_ready ready _)

theorem State.readWord_blankLen (ready : s.port.phase = .ready) (k : Fin 3) :
    (s.readWord (0x32 + BitVec.ofNat 7 k.val)).1 = some (place s.inp.lens[k] 0) := by
  have address : (0x32 + BitVec.ofNat 7 k.val).toNat = 0x32 + k.val := by bv_omega
  rw [State.readWord_qualifier ready (by omega) (by omega), address, State.showWord_blankLen]

theorem State.lens_writeBlankLen (k : Fin 3) (w : Word) (s : State) :
    (s.writeBlankLen k w).inp.lens[k] = field w 0 8 :=
  Vector.getElem_set_self k.isLt

theorem windowAfterReport_of_length_zero (n : Time) (x : Option Window) : windowAfterReport 0 n x = x := by
  unfold windowAfterReport
  exact if_pos rfl

/-- Settles O44: the low byte by `State.lens_writeBlankLen`, and a set of length 0 by
`windowAfterReport_of_length_zero`. -/
theorem blankLenWrite : Obligations.BlankLenWrite := by
  intro s k w ready
  have written := exec_blankLen_of_ready ready k w
  refine ⟨written, fun t next => ?_, windowAfterReport_of_length_zero⟩
  obtain rfl : s.writeBlankLen k w = t := Host.Outcome.next.inj (written.symm.trans next)
  have still_ready : (s.writeBlankLen k w).port.phase = .ready := ready
  rw [State.readWord_blankLen still_ready, State.lens_writeBlankLen, place_field]
  rfl

/-! ### The window after a report (R117) -/

section
variable {l : BitVec 8} {n : Time} {v : Window}

theorem reached_self (n : Time) : reached n n = true := by
  simp [reached]

/-- The blank-until time that a report gives is ahead at the time of the report. -/
theorem ahead_add_length (positive : l ≠ 0) (n : Time) : ahead (n + l.setWidth 32) n = true := by
  have still_to_come : (n - (n + l.setWidth 32)).toNat = 2 ^ 32 - l.toNat := by bv_omega
  have bound : l.toNat < 2 ^ 8 := l.isLt
  simp only [ahead, reached, still_to_come, Bool.not_eq_true', decide_eq_false_iff_not]
  omega

theorem Window.live_iff :
    v.live n = true ↔ reached v.opened n = true ∧ (v.until_ = n ∨ ahead v.until_ n = true) := by
  simp [Window.live]

/-- The window that a report opens, or extends while it is live, is live at the time of the report. -/
theorem Window.live_until_add_length (positive : l ≠ 0) {r : Time} (opened : reached r n = true) :
    ({ opened := r, until_ := n + l.setWidth 32 } : Window).live n = true :=
  Window.live_iff.mpr ⟨opened, .inr (ahead_add_length positive n)⟩

theorem windowAfterReport_closed (positive : l ≠ 0) :
    windowAfterReport l n none = some { opened := n, until_ := n + l.setWidth 32 } := by
  rw [windowAfterReport, if_neg positive]

theorem windowAfterReport_open (positive : l ≠ 0) :
    windowAfterReport l n (some v) =
      if v.live n then
        (if reached v.until_ (n + l.setWidth 32) then some { v with until_ := n + l.setWidth 32 } else some v)
      else some { opened := n, until_ := n + l.setWidth 32 } := by
  rw [windowAfterReport, if_neg positive]

theorem windowAfterReport_reopens (positive : l ≠ 0) (dead : ¬v.live n = true) :
    windowAfterReport l n (some v) = some { opened := n, until_ := n + l.setWidth 32 } := by
  rw [windowAfterReport_open positive, if_neg dead]

theorem windowAfterReport_extends (positive : l ≠ 0) (live : v.live n = true)
    (grows : reached v.until_ (n + l.setWidth 32) = true) :
    windowAfterReport l n (some v) = some { v with until_ := n + l.setWidth 32 } := by
  rw [windowAfterReport_open positive, if_pos live, if_pos grows]

theorem windowAfterReport_keeps (positive : l ≠ 0) (live : v.live n = true)
    (later : ahead v.until_ (n + l.setWidth 32) = true) : windowAfterReport l n (some v) = some v := by
  have not_reached : ¬reached v.until_ (n + l.setWidth 32) = true := by simpa [ahead] using later
  rw [windowAfterReport_open positive, if_pos live, if_neg not_reached]

/-- A second report at `n` finds the window live and its blank-until time already as late as its own. -/
theorem windowAfterReport_until_add_length (positive : l ≠ 0) {r : Time} (opened : reached r n = true) :
    windowAfterReport l n (some { opened := r, until_ := n + l.setWidth 32 }) =
      some { opened := r, until_ := n + l.setWidth 32 } :=
  windowAfterReport_extends positive (Window.live_until_add_length positive opened) (reached_self _)

theorem windowAfterReport_idem (l : BitVec 8) (n : Time) (x : Option Window) :
    windowAfterReport l n (windowAfterReport l n x) = windowAfterReport l n x := by
  obtain rfl | positive : l = 0 ∨ l ≠ 0 := Decidable.em _
  · rw [windowAfterReport_of_length_zero]
  cases x with
  | none => rw [windowAfterReport_closed positive, windowAfterReport_until_add_length positive (reached_self n)]
  | some v =>
    by_cases live : v.live n = true
    case neg =>
      rw [windowAfterReport_reopens positive live, windowAfterReport_until_add_length positive (reached_self n)]
    case pos =>
      by_cases grows : reached v.until_ (n + l.setWidth 32) = true
      · rw [windowAfterReport_extends positive live grows,
          windowAfterReport_until_add_length positive (Window.live_iff.mp live).1]
      · have later : ahead v.until_ (n + l.setWidth 32) = true := by simpa [ahead] using grows
        rw [windowAfterReport_keeps positive live later, windowAfterReport_keeps positive live later]

end

/-- Settles O45: a lemma for each row of the table of R117, and `windowAfterReport_idem` for several reports at one
time. -/
theorem windowAfterAReport : Obligations.WindowAfterAReport := by
  intro l n v e live
  have live_iff : v.live n = true ↔ live := Window.live_iff
  exact ⟨windowAfterReport_of_length_zero n, windowAfterReport_closed,
    fun positive dead => windowAfterReport_reopens positive (mt live_iff.mp dead),
    fun positive isLive => windowAfterReport_extends positive (live_iff.mpr isLive),
    fun positive isLive => windowAfterReport_keeps positive (live_iff.mpr isLive),
    windowAfterReport_idem l n⟩

end Sys2Proof.Machine
end

section
/-! PROOFS. A write of CAP_WMARK, and the store that consults the watermark next (R129, R130). -/

namespace Sys2Proof.Machine

variable {s : State}

/-! ### CAP_WMARK (R129) -/

theorem exec_capWmark_of_ready (ready : s.port.phase = .ready) (w : Word) :
    exec (.capWmark w) s = .next (s.writeWmark w) :=
  congrArg Host.Outcome.next (State.whenReady_of_ready ready _)

theorem clampWmark_toNat (b : BitVec 8) :
    (clampWmark b).toNat = if b.toNat = 0 then 1 else if b.toNat ≤ 128 then b.toNat else 128 := by
  have zero_iff : b = 0 ↔ b.toNat = 0 := BitVec.toNat_inj.symm
  simp only [clampWmark, zero_iff]
  split
  · rfl
  · split <;> rfl

theorem field_low_byte_toNat (w : Word) : (field w 0 8).toNat = w.toNat % 256 :=
  BitVec.extractLsb'_toNat 0 8 w

theorem State.readWord_capWmark (ready : s.port.phase = .ready) :
    (s.readWord 0x4E).1 = some (s.cap.wmark.setWidth 16) := by
  have word : place s.cap.wmark 0 = s.cap.wmark.setWidth 16 := BitVec.shiftLeft_zero _
  rw [State.readWord_of_ready ready, ← word]
  rfl

/-! ### A record handed over while there is room (R130) -/

theorem EventClass.code_lt (c : EventClass) : c.code < 16 := by
  cases c with
  | iu u => exact Nat.add_lt_add_left (Nat.lt_succ_of_lt u.isLt) 11
  | _ => decide

theorem placeBit_true_getLsbD {i : Nat} (inWord : i < 16) : (placeBit true i).getLsbD i = true := by
  simp [placeBit, place, inWord]

/-- A request sets the flag of its class. -/
theorem State.request_flag (s : State) (c : EventClass) : (s.request c).ev.flags.getLsbD c.code = true := by
  rw [State.request, BitVec.getLsbD_or, placeBit_true_getLsbD c.code_lt, Bool.or_true]

theorem Capture.take_length_of_room {c : Capture} (room : c.queue.length < capDepth) (h : Happening) :
    (c.take h).queue.length = c.queue.length + 1 := by
  rw [Capture.take, if_pos room, List.length_append, List.length_singleton]

/-- A store whose level reaches the watermark requests CAPW. -/
theorem State.produce_of_wmark_reached (room : s.cap.queue.length < capDepth)
    (atMark : s.cap.wmark.toNat ≤ s.cap.queue.length + 1) (h : Happening) :
    s.produce h = ({ s with cap := s.cap.take h } : State).request .capw := by
  rw [State.produce, if_pos room, Capture.take_wmark, Capture.take_length_of_room room, State.requestIf,
    if_pos (decide_eq_true atMark)]

/-- Settles O47: the stored value by `clampWmark_toNat`, the word read back by `State.readWord_capWmark`, and the
next store by `State.produce_of_wmark_reached`. -/
theorem watermarkWrite : Obligations.WatermarkWrite := by
  intro s w ready b
  refine ⟨s.writeWmark w, exec_capWmark_of_ready ready w, rfl, ?stored, State.readWord_capWmark ready,
    fun h room atMark => ?consulted⟩
  case stored =>
    have clamped := clampWmark_toNat (field w 0 8)
    rwa [field_low_byte_toNat] at clamped
  case consulted =>
    rw [State.produce_of_wmark_reached room atMark]
    exact State.request_flag _ .capw

end Sys2Proof.Machine
end

section
/-! PROOFS. A write of CMD: the command block takes it or rejects it (R153, R154). -/

namespace Sys2Proof.Machine

variable {s : State}

theorem exec_cmd_of_ready (ready : s.port.phase = .ready) (w : Word) : exec (.cmd w) s = .next (s.writeCmd w) :=
  congrArg Host.Outcome.next (State.whenReady_of_ready ready _)

theorem State.request_cmderr (s : State) :
    s.request .cmderr = { s with ev := { s.ev with flags := s.ev.flags ||| 0x0100 } } := rfl

/-- With no command in flight the write is taken, with the argument words as they stand (R153). -/
theorem State.writeCmd_of_idle (idle : s.cmd.inflight = none) (w : Word) :
    s.writeCmd w =
      { s with cmd := { s.cmd with
        lastCode := w, inflight := some { code := w, args := s.cmd.args }, reject := false } } := by
  simp only [State.writeCmd, idle]

/-- With a command in flight the write is rejected, whatever that command and the word written are (R154). -/
theorem State.writeCmd_of_busy {f : InFlight} (busy : s.cmd.inflight = some f) (w : Word) :
    s.writeCmd w = ({ s with cmd := { s.cmd with reject := true } } : State).request .cmderr := by
  simp only [State.writeCmd, busy]

/-- Settles O27, by the two cases of the command block: `State.writeCmd_of_idle` and `State.writeCmd_of_busy`. -/
theorem cmdIsTakenOrRejected : Obligations.CmdIsTakenOrRejected := by
  intro s w ready
  rw [exec_cmd_of_ready ready]
  constructor
  case left =>
    intro idle
    rw [State.writeCmd_of_idle idle]
  case right =>
    intro busy
    obtain ⟨f, inFlight⟩ := Option.ne_none_iff_exists'.mp busy
    rw [State.writeCmd_of_busy inFlight, State.request_cmderr]

end Sys2Proof.Machine
end

section
/-! PROOFS. The writes of the event unit and their reads, the line IRQ# and the word EV_TOP (R171, R172, R173, R175). -/

namespace Sys2Proof.Machine

variable {s : State} {e : EventUnit}

/-! ### The words of the event unit (section 11.7) -/

/-- A read from ARG0 up shows what stands and has no side effect. -/
theorem State.readWord_high (ready : s.port.phase = .ready) {a : BitVec 7} (high : 0x70 ≤ a.toNat) :
    s.readWord a = (some (s.showWord a.toNat), s) := by
  have not_settled : ¬afterHandling a.toNat = true := by
    simp only [afterHandling, Bool.or_eq_true, beq_iff_eq]
    omega
  have shown : s.takeRead a = (s.showWord a.toNat, s) := by
    unfold State.takeRead
    iterate 5 rw [if_neg (by omega)]
    rw [if_neg not_settled]
  rw [State.readWord_of_ready ready, shown]

theorem State.readWord_evFlags (ready : s.port.phase = .ready) : s.readWord 0x7A = (some s.ev.flags, s) :=
  State.readWord_high ready (by decide)

theorem State.readWord_evEnable (ready : s.port.phase = .ready) : s.readWord 0x7B = (some s.ev.enable, s) :=
  State.readWord_high ready (by decide)

theorem State.readWord_evLevelLo (ready : s.port.phase = .ready) : s.readWord 0x7C = (some s.ev.levelLo, s) :=
  State.readWord_high ready (by decide)

theorem State.readWord_evLevelHi (ready : s.port.phase = .ready) : s.readWord 0x7D = (some s.ev.levelHi, s) :=
  State.readWord_high ready (by decide)

theorem State.readWord_evThresh (ready : s.port.phase = .ready) :
    s.readWord 0x7E = (some (place s.ev.thresh 0), s) :=
  State.readWord_high ready (by decide)

theorem State.readWord_evTop (ready : s.port.phase = .ready) : s.readWord 0x7F = (some s.ev.topWord, s) :=
  State.readWord_high ready (by decide)

/-! ### The writes (R171, R172) -/

theorem exec_evFlags_of_ready (ready : s.port.phase = .ready) (w : Word) :
    exec (.evFlags w) s = .next (s.writeEvFlags w) :=
  congrArg Host.Outcome.next (State.whenReady_of_ready ready _)

theorem exec_evEnable_of_ready (ready : s.port.phase = .ready) (w : Word) :
    exec (.evEnable w) s = .next (s.writeEvEnable w) :=
  congrArg Host.Outcome.next (State.whenReady_of_ready ready _)

theorem exec_evLevel_of_ready (ready : s.port.phase = .ready) (hi : Bool) (w : Word) :
    exec (.evLevel hi w) s = .next (s.writeEvLevel hi w) :=
  congrArg Host.Outcome.next (State.whenReady_of_ready ready _)

theorem exec_evThresh_of_ready (ready : s.port.phase = .ready) (w : Word) :
    exec (.evThresh w) s = .next (s.writeEvThresh w) :=
  congrArg Host.Outcome.next (State.whenReady_of_ready ready _)

/-- EV_TOP is read-only (R175, R178). -/
theorem exec_registerWrite_evTop (ready : s.port.phase = .ready) (w : Word) :
    exec (.registerWrite 0x7F w) s = .next s :=
  congrArg Host.Outcome.next (State.whenReady_of_ready ready _)

/-- A flag stands after a write of EV_FLAGS when it stood and its bit was written as 0. -/
theorem State.getLsbD_writeEvFlags (w : Word) (s : State) (c : Fin 16) :
    (s.writeEvFlags w).ev.flags.getLsbD c.val = (s.ev.flags.getLsbD c.val && !w.getLsbD c.val) := by
  rw [State.writeEvFlags, BitVec.getLsbD_and, BitVec.getLsbD_not, decide_eq_true c.isLt, Bool.true_and]

theorem EventUnit.level_of_low {c : Fin 16} (low : c.val < 8) :
    e.level c = e.levelLo.extractLsb' (2 * c.val) 2 :=
  if_pos low

theorem EventUnit.level_of_high {c : Fin 16} (high : 8 ≤ c.val) :
    e.level c = e.levelHi.extractLsb' (2 * (c.val - 8)) 2 :=
  if_neg (Nat.not_lt.mpr high)

/-- Settles O51: the cleared flags by `State.getLsbD_writeEvFlags`, the words read back by `State.readWord_high`, and
the levels of the classes by `EventUnit.level_of_low` and `EventUnit.level_of_high`. -/
theorem eventUnitWrites : Obligations.EventUnitWrites := by
  intro s w ready
  have low_written := exec_evLevel_of_ready ready false w
  have high_written := exec_evLevel_of_ready ready true w
  refine ⟨⟨_, exec_evFlags_of_ready ready w, rfl, State.getLsbD_writeEvFlags w s⟩, State.readWord_evFlags ready,
    exec_evEnable_of_ready ready w, low_written, high_written, exec_evThresh_of_ready ready w, fun c t next => ?_⟩
  refine ⟨?enable, ?levelLo, ?levelHi, ?thresh, ?lowClasses, ?highClasses⟩ <;> rintro rfl
  case enable =>
    obtain rfl := Host.Outcome.next.inj ((exec_evEnable_of_ready ready w).symm.trans next)
    exact congrArg Prod.fst (State.readWord_evEnable (s := s.writeEvEnable w) ready)
  case levelLo =>
    obtain rfl := Host.Outcome.next.inj (low_written.symm.trans next)
    exact congrArg Prod.fst (State.readWord_evLevelLo (s := s.writeEvLevel false w) ready)
  case levelHi =>
    obtain rfl := Host.Outcome.next.inj (high_written.symm.trans next)
    exact congrArg Prod.fst (State.readWord_evLevelHi (s := s.writeEvLevel true w) ready)
  case thresh =>
    obtain rfl := Host.Outcome.next.inj ((exec_evThresh_of_ready ready w).symm.trans next)
    have shown := congrArg Prod.fst (State.readWord_evThresh (s := s.writeEvThresh w) ready)
    exact shown.trans (congrArg some (place_field w 0 2))
  case lowClasses =>
    obtain rfl := Host.Outcome.next.inj (low_written.symm.trans next)
    exact fun k low => EventUnit.level_of_low low
  case highClasses =>
    obtain rfl := Host.Outcome.next.inj (high_written.symm.trans next)
    exact fun k high => EventUnit.level_of_high high

/-! ### The classes that assert, and IRQ# (R173) -/

theorem EventUnit.asserts_iff {c : Fin 16} :
    e.asserts c = true ↔
      e.flags.getLsbD c.val = true ∧ e.enable.getLsbD c.val = true ∧ e.thresh < e.level c := by
  rw [EventUnit.asserts, Bool.and_eq_true, Bool.and_eq_true, decide_eq_true_iff, and_assoc]
  rfl

theorem EventUnit.irqLow_iff : e.irqLow = true ↔ ∃ c, e.asserts c = true := by
  simp [EventUnit.irqLow]

/-! ### The most urgent class (R175) -/

/-- The levels at which a class can assert: a level above the threshold is not 0. -/
theorem EventUnit.level_of_asserts {c : Fin 16} (asserting : e.asserts c = true) :
    e.level c = 3 ∨ e.level c = 2 ∨ e.level c = 1 := by
  obtain ⟨-, -, above⟩ := EventUnit.asserts_iff.mp asserting
  bv_omega

theorem EventUnit.firstAt_eq_none_iff {l : BitVec 2} :
    e.firstAt l = none ↔ ∀ c, e.asserts c = true → e.level c ≠ l := by
  simp [EventUnit.firstAt]

/-- An asserting class that no other one at its level precedes is the first of that level. -/
theorem EventUnit.firstAt_level {c : Fin 16} (asserting : e.asserts c = true)
    (lowest : ∀ d, e.asserts d = true → e.level d = e.level c → c ≤ d) : e.firstAt (e.level c) = some c := by
  rw [EventUnit.firstAt, List.find?_eq_some_iff_getElem]
  refine ⟨by simp [asserting], c.val, by simp, by simp, fun j before => ?_⟩
  simp only [List.getElem_finRange, Bool.not_eq_true', Bool.and_eq_false_imp, beq_eq_false_iff_ne]
  intro earlier same
  exact absurd before (Nat.not_lt.mpr (lowest _ earlier same))

theorem EventUnit.top_eq_none_iff : e.top = none ↔ ∀ c, ¬e.asserts c = true := by
  simp only [EventUnit.top, List.findSome?_eq_none_iff, Option.map_eq_none_iff, EventUnit.firstAt_eq_none_iff]
  constructor
  case mp =>
    intro none_at c asserting
    have listed : e.level c ∈ ([3, 2, 1] : List (BitVec 2)) := by simpa using EventUnit.level_of_asserts asserting
    exact none_at _ listed c asserting rfl
  case mpr => exact fun silent l _ c asserting => absurd asserting (silent c)

/-- The highest level among the asserting classes, and the lowest class at that level. -/
theorem EventUnit.top_eq_some {c : Fin 16} (asserting : e.asserts c = true)
    (first : ∀ d, e.asserts d = true → e.level d < e.level c ∨ (e.level d = e.level c ∧ c ≤ d)) :
    e.top = some (e.level c, c) := by
  have here : e.firstAt (e.level c) = some c := by
    refine EventUnit.firstAt_level asserting fun d other same => ?_
    obtain lower | ⟨-, after⟩ := first d other
    · exact absurd same (BitVec.ne_of_lt lower)
    · exact after
  have none_above (l : BitVec 2) (above : e.level c < l) : e.firstAt l = none := by
    refine EventUnit.firstAt_eq_none_iff.mpr fun d other same => ?_
    obtain lower | ⟨equal, -⟩ := first d other <;> bv_omega
  rw [EventUnit.top]
  obtain level | level | level := EventUnit.level_of_asserts asserting <;> rw [level] at here none_above ⊢
  · simp only [List.findSome?_cons, here, Option.map_some]
  · simp only [List.findSome?_cons, none_above 3 (by decide), here, Option.map_none, Option.map_some]
  · simp only [List.findSome?_cons, none_above 3 (by decide), none_above 2 (by decide), here, Option.map_none,
      Option.map_some]

/-! ### EV_TOP (R175) -/

theorem EventUnit.topWord_of_none (none_asserts : e.top = none) : e.topWord = 0 := by
  rw [EventUnit.topWord, none_asserts]

theorem EventUnit.topWord_of_some {l : BitVec 2} {c : Fin 16} (top : e.top = some (l, c)) :
    e.topWord.getLsbD 15 = true ∧ e.topWord.extractLsb' 8 2 = l ∧
      e.topWord.extractLsb' 0 4 = BitVec.ofNat 4 c.val := by
  rw [EventUnit.topWord, top]
  clear top
  revert l c
  decide

/-- The ANY bit is the line IRQ#. -/
theorem EventUnit.topWord_any (e : EventUnit) : e.topWord.getLsbD 15 = e.irqLow := by
  cases top : e.top with
  | none =>
    have silent : e.irqLow = false := by
      rw [Bool.eq_false_iff, ne_eq, EventUnit.irqLow_iff, not_exists]
      exact EventUnit.top_eq_none_iff.mp top
    rw [EventUnit.topWord_of_none top, silent]
    rfl
  | some lc =>
    have low : e.irqLow = true := by
      rw [EventUnit.irqLow_iff, ← Classical.not_forall_not, ← EventUnit.top_eq_none_iff, top]
      exact Option.some_ne_none lc
    obtain ⟨any, -, -⟩ := EventUnit.topWord_of_some top
    rw [any, low]

/-- Settles O52: the line by `EventUnit.irqLow_iff`, the fields of EV_TOP from `EventUnit.top_eq_some` and
`EventUnit.top_eq_none_iff`. -/
theorem interruptLineAndTopClass : Obligations.InterruptLineAndTopClass := by
  intro s asserts
  have asserts_eq : asserts = fun c => s.ev.asserts c = true := funext fun _ => propext EventUnit.asserts_iff.symm
  rw [asserts_eq]
  exact ⟨EventUnit.irqLow_iff,
    fun silent => EventUnit.topWord_of_none (EventUnit.top_eq_none_iff.mpr silent),
    fun c asserting first => EventUnit.topWord_of_some (EventUnit.top_eq_some asserting first),
    EventUnit.topWord_any s.ev,
    fun ready => ⟨State.readWord_evTop ready, exec_registerWrite_evTop ready⟩⟩

end Sys2Proof.Machine
end

section
/-! PROOFS. What each part of the handling of an advance leaves of the record of that advance, and that `settle`
leaves nothing of it (R4, R19, R26, R32, R71, R109, R115, R118, R142). -/

namespace Sys2Proof.Machine

variable {s t : State}

/-! ### Choices -/

theorem ite_of_iff {α : Type} {p q : Prop} [Decidable p] [Decidable q] (same : p ↔ q) (a b : α) :
    (if p then a else b) = if q then a else b :=
  ite_congr (propext same) (fun _ => rfl) fun _ => rfl

/-! ### Iteration to an end -/

theorem iter_succ (f : State → State) (n : Nat) (s : State) : iter f (n + 1) s = iter f n (f s) := rfl

theorem iter_of_fixed {f : State → State} (fixed : f s = s) (n : Nat) : iter f n s = s := by
  induction n with
  | zero => rfl
  | succ n ih => rw [iter_succ, fixed, ih]

theorem iter_keeps {f : State → State} {P : State → Prop} (one : ∀ v, P v → P (f v)) (n : Nat) (before : P s) :
    P (iter f n s) := by
  induction n generalizing s with
  | zero => exact before
  | succ n ih => exact ih (one s before)

theorem foldl_keeps {α : Type} {f : State → α → State} {P : State → Prop} (one : ∀ v a, P v → P (f v a)) (l : List α)
    (before : P s) : P (l.foldl f s) := by
  induction l generalizing s with
  | nil => exact before
  | cons a l ih => exact ih (one s a before)

/-- What one element of the list brings about, and every element keeps, holds after the list. -/
theorem foldl_reaches {α : Type} {f : State → α → State} {P : State → Prop} {a : α}
    (brings : ∀ v, P (f v a)) (keeps : ∀ v b, P v → P (f v b)) {l : List α} (listed : a ∈ l) (s : State) :
    P (l.foldl f s) := by
  induction l generalizing s with
  | nil => exact nomatch listed
  | cons b l ih =>
    obtain rfl | later := List.mem_cons.mp listed
    · exact foldl_keeps keeps l (brings s)
    · exact ih later (f s b)

/-- An iteration that lowers a measure until it is done is done after as many turns as the measure says. -/
theorem iter_done {f : State → State} {P done : State → Prop} (size : State → Nat) (keeps : ∀ v, P v → P (f v))
    (lowers : ∀ v, P v → ¬done v → size (f v) < size v) (stays : ∀ v, P v → done v → done (f v)) {n : Nat}
    (before : P s) (enough : size s ≤ n) : done (iter f n s) := by
  induction n generalizing s with
  | zero =>
    refine Classical.byContradiction fun busy => ?_
    have := lowers s before busy
    omega
  | succ n ih =>
    rw [iter_succ]
    by_cases finished : done s
    · have both : P (iter f n (f s)) ∧ done (iter f n (f s)) :=
        iter_keeps (P := fun v => P v ∧ done v) (fun v kept => ⟨keeps v kept.1, stays v kept.1 kept.2⟩) n
          ⟨keeps s before, stays s before finished⟩
      exact both.2
    · exact ih (keeps s before) (Nat.le_of_lt_succ (Nat.lt_of_lt_of_le (lowers s before finished) enough))

/-! ### The scheduler's part (R26, R32) -/

/-- No entry of the list is due. -/
def NoneDue (s : State) : Prop := ∀ e ∈ s.sched.pel, e.due ≠ s.tl

theorem PelReach.mem {n : Time} {l m : List Entry} (reach : PelReach n l m) {e : Entry} (listed : e ∈ m) :
    e ∈ l ∨ ahead e.due n = true := by
  induction reach with
  | refl => exact .inl listed
  | insert x _ isAhead _ ih =>
    obtain rfl | old := mem_insertByTime.mp listed
    · exact .inr isAhead
    · exact ih old
  | remove p _ ih => exact ih (List.mem_filter.mp listed).1

theorem ListReach.mem {n : Time} {l m : List Entry} (reach : ListReach n l m) {e : Entry} (listed : e ∈ m) :
    e ∈ l ∨ ahead e.due n = true := by
  induction reach with
  | refl => exact .inl listed
  | chain _ moved ih =>
    obtain old | isAhead := moved.mem listed
    · exact ih old
    · exact .inr isAhead
  | takeHead _ _ ih => exact ih (List.mem_cons_of_mem _ listed)

theorem ne_of_ahead {t n : Time} (isAhead : ahead t n = true) : t ≠ n := (remaining_of_ahead isAhead).2

/-- What a handling inserts is ahead (R32). -/
theorem HandleRel.noneDue (h : HandleRel s t) (none : NoneDue s) : NoneDue t := by
  intro e listed
  rw [h.tl]
  obtain old | isAhead := h.pel.mem listed
  · exact none e old
  · exact ne_of_ahead isAhead

/-- The entries of a list that are due at `n`. -/
def dueCountAt (n : Time) (l : List Entry) : Nat := l.countP fun e => e.due == n

theorem countP_insertByTime {n m : Time} {e : Entry} (notDue : e.due ≠ n) (l : List Entry) :
    dueCountAt n (insertByTime m e l) = dueCountAt n l := by
  rw [dueCountAt, dueCountAt, List.countP_eq_length_filter, List.countP_eq_length_filter,
    filter_insertByTime_neg (fun x => x.due == n) _ (beq_false_of_ne notDue)]

theorem PelReach.dueCountAt_le {n : Time} {l m : List Entry} (reach : PelReach n l m) :
    dueCountAt n m ≤ dueCountAt n l := by
  induction reach with
  | refl => exact Nat.le_refl _
  | insert e _ isAhead _ ih => rwa [countP_insertByTime (ne_of_ahead isAhead)]
  | remove p _ ih => exact Nat.le_trans (List.Sublist.countP_le List.filter_sublist) ih

/-- In a list in order an entry is due only behind due entries. -/
theorem head_due_of_ordered {n : Time} {e x : Entry} {rest : List Entry} (ordered : OrderedAt n (e :: rest))
    (listed : x ∈ e :: rest) (due : x.due = n) : e.due = n := by
  obtain rfl | later := List.mem_cons.mp listed
  · exact due
  · have nearest := (List.pairwise_cons.mp ordered.1).1 x later
    have zero : remaining x.due n = 0 := by simp [remaining, due]
    have still : (e.due - n).toNat = 0 := Nat.le_zero.mp (zero ▸ nearest)
    bv_omega

/-- The head is taken when it is due, with the chain that it sets off. -/
theorem State.takeDueEntry_of_due {e : Entry} {rest : List Entry} (list : s.sched.pel = e :: rest)
    (due : e.due = s.tl) :
    s.takeDueEntry =
      ({ s with
        sched := { s.sched with pel := rest }
        adv := { s.adv with schedBegun := true } }).chain [.take e false] := by
  simp only [State.takeDueEntry, list, if_pos due]

theorem State.takeDueEntry_of_not_due (notDue : ∀ e ∈ s.sched.pel.head?, e.due ≠ s.tl) : s.takeDueEntry = s := by
  rw [State.takeDueEntry]
  split
  · rfl
  · next e rest list => rw [if_neg (notDue e (by simp [list]))]

theorem State.takeDueEntry_of_noneDue (none : NoneDue s) : s.takeDueEntry = s :=
  State.takeDueEntry_of_not_due fun e head => none e (List.mem_of_mem_head? head)

theorem State.takeDueEntries_of_not_due (notDue : ∀ e ∈ s.sched.pel.head?, e.due ≠ s.tl) : s.takeDueEntries = s :=
  iter_of_fixed (State.takeDueEntry_of_not_due notDue) _

/-- A turn of the scheduler lowers the number of due entries, while there is one. -/
theorem State.takeDueEntry_lowers (ordered : ListOrdered s) (due : ¬NoneDue s) :
    dueCountAt s.takeDueEntry.tl s.takeDueEntry.sched.pel < dueCountAt s.tl s.sched.pel := by
  rw [(HandleRel.takeDueEntry s).tl]
  obtain ⟨x, listed, isDue⟩ : ∃ x ∈ s.sched.pel, x.due = s.tl :=
    Classical.byContradiction fun none => due fun e listed isDue => none ⟨e, listed, isDue⟩
  cases list : s.sched.pel with
  | nil => rw [list] at listed; exact nomatch listed
  | cons e rest =>
    have headDue : e.due = s.tl := head_due_of_ordered (list ▸ ordered) (list ▸ listed) isDue
    rw [State.takeDueEntry_of_due list headDue]
    have taken (v : State) (sameTl : v.tl = s.tl) (rest_left : v.sched.pel = rest) :
        dueCountAt s.tl (v.chain [.take e false]).sched.pel < dueCountAt s.tl (e :: rest) := by
      have fewer := (ChainRel.chain [.take e false] v).pel.dueCountAt_le
      rw [sameTl, rest_left] at fewer
      refine Nat.lt_of_le_of_lt fewer ?_
      simp [dueCountAt, headDue]
    exact taken _ rfl rfl

/-- The scheduler leaves no entry of an ordered list due (R26). -/
theorem State.takeDueEntries_noneDue (ordered : ListOrdered s) : NoneDue s.takeDueEntries :=
  iter_done (P := ListOrdered) (fun v => dueCountAt v.tl v.sched.pel)
    (fun v => (HandleRel.takeDueEntry v).ordered) (fun _ => State.takeDueEntry_lowers)
    (fun v _ => (HandleRel.takeDueEntry v).noneDue) ordered List.countP_le_length

/-! ### The interval units' part (R10, R16) -/

theorem State.countSingle_owes (s : State) (u : Fin 4) : ((s.countSingle u).unit u).owes = false := by
  have stepped : ∀ x : IntervalUnit, x.phaseStep.1.owes = x.owes := by
    intro x
    rw [IntervalUnit.phaseStep]
    split <;> rfl
  have expired (v : State) (w : Fin 4) : (v.expire w).unit u = v.unit u := rfl
  simp only [State.countSingle]
  split
  · split
    · split <;> simp [expired, stepped]
    · simp [stepped]
  · simp

theorem State.countPair_owes (s : State) (r : Fin 4) : ((s.countPair r).unit (evenOf r)).owes = false := by
  have stepped : ∀ x : IntervalUnit, x.phaseStep.1.owes = x.owes := by
    intro x
    rw [IntervalUnit.phaseStep]
    split <;> rfl
  have expired (v : State) (w u : Fin 4) : (v.expire w).unit u = v.unit u := rfl
  have differ : evenOf r ≠ oddOf r := (oddOf_ne_evenOf r).symm
  simp only [State.countPair]
  split
  · split
    · split <;> simp [expired, stepped, differ]
    · simp [stepped]
  · simp

/-- The odd unit of a pair has its own flag cleared, and no other. -/
theorem State.clearOwes_if (v : State) (u : Fin 4) :
    ((if (v.unit u).owes then v.clearOwes u else v).unit u).owes = false ∧
      ∀ w, w ≠ u → (if (v.unit u).owes then v.clearOwes u else v).unit w = v.unit w := by
  split
  · exact ⟨by simp [State.clearOwes], fun w other => by simp [State.clearOwes, other]⟩
  · next paid => exact ⟨by simpa using paid, fun w other => rfl⟩

theorem State.countUnit_of_odd {u : Fin 4} (pair : s.cascaded u = true) (odd : isOdd u = true) :
    s.countUnit u =
      let v := if (s.unit (evenOf u)).owes then s.countPair u else s
      if (v.unit u).owes then v.clearOwes u else v := by
  rw [State.countUnit, if_pos pair, if_pos odd]

theorem State.countUnit_of_even {u : Fin 4} (pair : s.cascaded u = true) (even : isOdd u = false) :
    s.countUnit u = s := by
  rw [State.countUnit, if_pos pair, if_neg (by simp [even])]

theorem State.countUnit_of_single {u : Fin 4} (single : s.cascaded u = false) :
    s.countUnit u = if (s.unit u).owes then s.countSingle u else s := by
  rw [State.countUnit, if_neg (by simp [single])]

theorem evenOf_ne_of_odd {u : Fin 4} (odd : isOdd u = true) : evenOf u ≠ u := by
  revert u
  decide

theorem State.countUnit_owes_of_single {u : Fin 4} (single : s.cascaded u = false) :
    ((s.countUnit u).unit u).owes = false := by
  rw [State.countUnit_of_single single]
  split
  · exact s.countSingle_owes u
  · next paid => simpa using paid

/-- A pair that is counted owes nothing, in neither of its units. -/
theorem State.countUnit_owes_of_odd {u : Fin 4} (pair : s.cascaded u = true) (odd : isOdd u = true) :
    ((s.countUnit u).unit u).owes = false ∧ ((s.countUnit u).unit (evenOf u)).owes = false := by
  have even_paid : ((if (s.unit (evenOf u)).owes then s.countPair u else s).unit (evenOf u)).owes = false := by
    split
    · exact s.countPair_owes u
    · next paid => simpa using paid
  rw [State.countUnit_of_odd pair odd]
  generalize (if (s.unit (evenOf u)).owes then s.countPair u else s) = v at even_paid
  obtain ⟨own, others⟩ := v.clearOwes_if u
  exact ⟨own, (others _ (evenOf_ne_of_odd odd)).symm ▸ even_paid⟩

theorem pairOf_oddOf (u : Fin 4) : pairOf (oddOf u) = pairOf u := by
  revert u
  decide

theorem State.cascaded_oddOf (s : State) (u : Fin 4) : s.cascaded (oddOf u) = s.cascaded u := by
  simp only [State.cascaded, pairOf_oddOf]

theorem eq_oddOf_or_evenOf (u : Fin 4) : u = oddOf u ∨ u = evenOf (oddOf u) := by
  revert u
  decide

/-- After every unit has counted no unit owes anything. -/
theorem State.countAll_owes (s : State) (u : Fin 4) : (s.countAll.unit u).owes = false := by
  have keeps (w : Fin 4) (v : State) (r : Fin 4) (paid : (v.unit w).owes = false) :
      ((v.countUnit r).unit w).owes = false := ((HandleRel.countUnit v r).units w).owes paid
  have pairs_kept (v : State) (r w : Fin 4) : (v.countUnit r).cascaded w = v.cascaded w :=
    (HandleRel.countUnit v r).cascaded w
  cases pair : s.cascaded u with
  | false =>
    have both : s.countAll.cascaded u = false → (s.countAll.unit u).owes = false := by
      refine foldl_reaches (P := fun v => v.cascaded u = false → (v.unit u).owes = false) (a := u)
        (fun v single => ?_) (fun v r before single => ?_) (List.mem_finRange u) s
      · rw [pairs_kept] at single
        exact State.countUnit_owes_of_single single
      · rw [pairs_kept] at single
        exact keeps u v r (before single)
    exact both ((HandleRel.countAll s).cascaded u ▸ pair)
  | true =>
    have odd_pair : s.cascaded (oddOf u) = true := (s.cascaded_oddOf u).trans pair
    have both : s.countAll.cascaded (oddOf u) = true →
        (s.countAll.unit (oddOf u)).owes = false ∧ (s.countAll.unit (evenOf (oddOf u))).owes = false := by
      refine foldl_reaches (P := fun v => v.cascaded (oddOf u) = true →
          (v.unit (oddOf u)).owes = false ∧ (v.unit (evenOf (oddOf u))).owes = false) (a := oddOf u)
        (fun v pair => ?_) (fun v r before pair => ?_) (List.mem_finRange _) s
      · rw [pairs_kept] at pair
        exact State.countUnit_owes_of_odd pair (isOdd_oddOf u)
      · rw [pairs_kept] at pair
        exact ⟨keeps _ v r (before pair).1, keeps _ v r (before pair).2⟩
    obtain ⟨odd_paid, even_paid⟩ := both ((HandleRel.countAll s).cascaded _ ▸ odd_pair)
    obtain odd | even := eq_oddOf_or_evenOf u
    · exact odd ▸ odd_paid
    · exact even ▸ even_paid

/-- A unit with nothing to count is not counted. -/
theorem State.countUnit_of_paid (paid : ∀ u, (s.unit u).owes = false) (r : Fin 4) : s.countUnit r = s := by
  simp [State.countUnit, paid]

theorem State.countSources_of_paid (paid : ∀ u, (s.unit u).owes = false) : s.countSources = s :=
  foldl_keeps (P := fun v => v = s) (fun v r same => by rw [same, State.countUnit_of_paid paid, ite_self]) _ rfl

/-! ### The expiries on their way (R19, R59, R71) -/

/-- Of the advance nothing has changed but the expiry reported as `r`. -/
def OnlyExpiry (r : Fin 4) (s t : State) : Prop :=
  t.adv = { s.adv with expiry := t.adv.expiry } ∧ ∀ u, u ≠ r → t.adv.expiry[u] = s.adv.expiry[u]

/-- The run controller reads descriptor `q` of `page` for the expiry reported as `r`, and takes a hardware launch if
the descriptor names `r` (R71). -/
def State.launchIf (page : Page) (r : Fin 4) (q : Fin 8) (s : State) : State :=
  if (s.descriptor page q).triggers r then (s.launchNow .hardware q).2 else s

theorem ChainRel.launchIf (s : State) (page : Page) (r : Fin 4) (q : Fin 8) : ChainRel s (s.launchIf page r q) := by
  rw [State.launchIf]
  split
  · exact .launchNow s .hardware q
  · exact .refl s

theorem State.takeUnitLaunch_of_none {r : Fin 4} (none : s.adv.expiry[r] = .none) : s.takeUnitLaunch r = s := by
  simp only [State.takeUnitLaunch, none]

theorem State.takeUnitLaunch_of_nil {r : Fin 4} {x : Expiry} (expired : s.adv.expiry[r] = some x)
    (left : x.left = []) : s.takeUnitLaunch r = (s.takeSwapPoint r).setExpiry r none := by
  simp only [State.takeUnitLaunch, expired, left]

/-- A turn of the run controller: the expiry goes to the store first, and then the next descriptor is read. -/
theorem State.takeUnitLaunch_of_cons {r : Fin 4} {x : Expiry} {q : Fin 8} {qs : List (Fin 8)}
    (expired : s.adv.expiry[r] = some x) (left : x.left = q :: qs) :
    s.takeUnitLaunch r =
      let t := s.takeSwapPoint r
      let page := x.page.getD t.store.active
      (t.setExpiry r (if qs = [] then none else some { stored := true, page := some page, left := qs })).launchIf
        page r q := by
  simp only [State.takeUnitLaunch, expired, left, State.launchIf]

namespace OnlyExpiry

variable {r : Fin 4} {u : State}

theorem of_adv (same : t.adv = s.adv) : OnlyExpiry r s t := by
  rw [OnlyExpiry, same]
  exact ⟨rfl, fun _ _ => rfl⟩

theorem trans (first : OnlyExpiry r s t) (second : OnlyExpiry r t u) : OnlyExpiry r s u := by
  obtain ⟨kept, others⟩ := first
  obtain ⟨kept', others'⟩ := second
  refine ⟨?_, fun w other => (others' w other).trans (others w other)⟩
  rw [kept', kept]

theorem setExpiry (s : State) (x : Option Expiry) : OnlyExpiry r s (s.setExpiry r x) :=
  ⟨rfl, fun _ other => by rw [State.expiry_setExpiry, if_neg other]⟩

theorem takeSwapPoint (s : State) (r : Fin 4) : OnlyExpiry r s (s.takeSwapPoint r) := by
  rw [State.takeSwapPoint]
  split
  · exact of_adv rfl
  · split
    · exact of_adv rfl
    · split
      · exact (of_adv (t := s.swapPages) rfl).trans (setExpiry _ _)
      · exact setExpiry _ _

theorem takeUnitLaunch (s : State) (r : Fin 4) : OnlyExpiry r s (s.takeUnitLaunch r) := by
  cases expired : s.adv.expiry[r] with
  | none =>
    rw [State.takeUnitLaunch_of_none expired]
    exact of_adv rfl
  | some x =>
    cases left : x.left with
    | nil =>
      rw [State.takeUnitLaunch_of_nil expired left]
      exact (takeSwapPoint s r).trans (setExpiry _ _)
    | cons q qs =>
      rw [State.takeUnitLaunch_of_cons expired left]
      exact ((takeSwapPoint s r).trans (setExpiry _ _)).trans (of_adv (ChainRel.launchIf _ _ _ _).adv)

theorem iter {f : State → State} (one : ∀ v, OnlyExpiry r v (f v)) (n : Nat) (s : State) :
    OnlyExpiry r s (iter f n s) :=
  iter_keeps (P := OnlyExpiry r s) (fun v before => before.trans (one v)) n (of_adv rfl)

theorem deliver (s : State) (r : Fin 4) : OnlyExpiry r s (s.deliver r) := by
  rw [State.deliver]
  split
  · exact of_adv rfl
  · exact iter (fun v => takeUnitLaunch v r) _ s

end OnlyExpiry

/-- How many turns an expiry still needs. -/
def turnsLeft (r : Fin 4) (s : State) : Nat := (s.adv.expiry[r].map fun x => x.left.length + 1).getD 0

theorem turnsLeft_of_adv {r : Fin 4} (same : t.adv = s.adv) : turnsLeft r t = turnsLeft r s := by
  rw [turnsLeft, turnsLeft, same]

theorem turnsLeft_setExpiry (s : State) (r : Fin 4) (y : Option Expiry) :
    turnsLeft r (s.setExpiry r y) = (y.map fun x => x.left.length + 1).getD 0 := by
  rw [turnsLeft, State.expiry_setExpiry, if_pos rfl]

/-- A turn takes the next descriptor of the expiry, or ends it. -/
theorem State.takeUnitLaunch_lowers {r : Fin 4} (busy : s.adv.expiry[r] ≠ none) :
    turnsLeft r (s.takeUnitLaunch r) < turnsLeft r s := by
  obtain ⟨x, expired⟩ := Option.ne_none_iff_exists'.mp busy
  have before : turnsLeft r s = x.left.length + 1 := by rw [turnsLeft, expired]; rfl
  rw [before]
  cases left : x.left with
  | nil =>
    rw [State.takeUnitLaunch_of_nil expired left, turnsLeft_setExpiry]
    exact Nat.succ_pos _
  | cons q qs =>
    rw [State.takeUnitLaunch_of_cons expired left, turnsLeft_of_adv (ChainRel.launchIf _ _ _ _).adv,
      turnsLeft_setExpiry]
    split <;> simp

theorem State.deliver_expiry (s : State) (r : Fin 4) : (s.deliver r).adv.expiry[r] = none := by
  rw [State.deliver]
  split
  · assumption
  · next x expired =>
    refine iter_done (P := fun _ => True) (done := fun v => v.adv.expiry[r] = none) (turnsLeft r) (fun _ _ => trivial)
      (fun v _ => State.takeUnitLaunch_lowers) (fun v _ finished => ?_) trivial
      (by rw [turnsLeft, expired]; exact Nat.le_refl _)
    rw [State.takeUnitLaunch_of_none finished]
    exact finished

theorem State.deliver_of_none {r : Fin 4} (none : s.adv.expiry[r] = .none) : s.deliver r = s := by
  rw [State.deliver, none]

/-- Every expiry is delivered. -/
def State.deliverAll (s : State) : State := (List.finRange 4).foldl (fun t r => t.deliver r) s

theorem State.deliverAll_expiry (s : State) (u : Fin 4) : s.deliverAll.adv.expiry[u] = none := by
  refine foldl_reaches (P := fun v => v.adv.expiry[u] = none) (a := u) (fun v => v.deliver_expiry u)
    (fun v r none => ?_) (List.mem_finRange u) s
  by_cases same : u = r
  · exact same ▸ v.deliver_expiry u
  · exact ((OnlyExpiry.deliver v r).2 u same).trans none

theorem OnlyExpiry.closeDue {r : Fin 4} (h : OnlyExpiry r s t) : t.adv.closeDue = s.adv.closeDue := by
  rw [h.1]

/-! ### The input side's part (R109, R115, R142) -/

theorem State.produce_adv (s : State) (h : Happening) : (s.produce h).adv = s.adv := (ChainRel.produce s h).adv

theorem State.handEdge_adv (s : State) : s.handEdge.adv = { s.adv with edges := s.adv.edges.tail } := by
  rw [State.handEdge]
  split
  · next none =>
    rw [none, List.tail_nil, ← none]
  · next h hs edges => rw [State.produce_adv, edges, List.tail_cons]

/-- The EDGE records that wait are handed over. -/
def State.handEdges (s : State) : State := iter State.handEdge s.adv.edges.length s

theorem State.handEdges_adv (s : State) : s.handEdges.adv = { s.adv with edges := [] } := by
  have turns (n : Nat) (v : State) : (iter State.handEdge n v).adv = { v.adv with edges := v.adv.edges.drop n } := by
    induction n generalizing v with
    | zero => rfl
    | succ n ih => simp [iter_succ, ih, State.handEdge_adv]
  rw [State.handEdges, turns, List.drop_length]

theorem State.fire_adv (s : State) (k : Fin 8) (v : Word) : (s.fire k v).adv = s.adv := by
  simp only [State.fire]
  rw [(ChainRel.requestIf _ _ _).adv]
  split
  · rw [(ChainRel.launchNow _ _ _).adv]
    split
    · exact s.produce_adv _
    · rfl
  · split
    · exact s.produce_adv _
    · rfl

theorem State.evalOne_adv (s : State) (k : Fin 8) (v : Word) : (s.evalOne k v).adv = s.adv := by
  simp only [State.evalOne, State.setEntryAt_adv]
  split
  · split
    · exact State.fire_adv _ _ _
    · rfl
  · rfl

theorem State.takePatternEntry_of_none (none : s.adv.eval = .none) : s.takePatternEntry = s := by
  simp [State.takePatternEntry, none]

theorem State.takePatternEntry_of_nil {v : Word} (noEdges : s.adv.edges = [])
    (eval : s.adv.eval = some { vector := v, left := [] }) : s.takePatternEntry = s.endEval v := by
  simp only [State.takePatternEntry, noEdges, eval, if_true]

theorem State.takePatternEntry_of_cons {v : Word} {k : Fin 8} {ks : List (Fin 8)} (noEdges : s.adv.edges = [])
    (eval : s.adv.eval = some { vector := v, left := k :: ks }) :
    s.takePatternEntry =
      let t := ({ s with adv := { s.adv with eval := some { vector := v, left := ks } } } : State).evalOne k v
      if ks = [] then t.endEval v else t := by
  simp only [State.takePatternEntry, noEdges, eval, if_true]

/-- A turn of the pattern table changes nothing of the advance but the evaluation. -/
theorem State.takePatternEntry_adv (s : State) :
    s.takePatternEntry.adv = { s.adv with eval := s.takePatternEntry.adv.eval } := by
  by_cases noEdges : s.adv.edges = []
  case neg => rw [State.takePatternEntry, if_neg noEdges]
  case pos =>
    cases eval : s.adv.eval with
    | none => rw [State.takePatternEntry_of_none eval]
    | some x =>
      obtain ⟨v, left⟩ := x
      cases left with
      | nil => rw [State.takePatternEntry_of_nil noEdges eval]; rfl
      | cons k ks =>
        rw [State.takePatternEntry_of_cons noEdges eval]
        dsimp only
        split
        · simp only [State.endEval, State.evalOne_adv]
        · rw [State.evalOne_adv]

/-- How many turns an evaluation still needs. -/
def entriesLeft (s : State) : Nat := (s.adv.eval.map fun x => x.left.length + 1).getD 0

theorem State.takePatternEntry_lowers (noEdges : s.adv.edges = []) (busy : s.adv.eval ≠ none) :
    entriesLeft s.takePatternEntry < entriesLeft s := by
  obtain ⟨⟨v, left⟩, eval⟩ := Option.ne_none_iff_exists'.mp busy
  have before : entriesLeft s = left.length + 1 := by rw [entriesLeft, eval]; rfl
  rw [before]
  cases left with
  | nil =>
    rw [State.takePatternEntry_of_nil noEdges eval]
    exact Nat.succ_pos _
  | cons k ks =>
    rw [State.takePatternEntry_of_cons noEdges eval]
    dsimp only
    split
    · exact Nat.succ_pos _
    · simp [entriesLeft, State.evalOne_adv]

theorem State.handEdges_eval (s : State) : s.handEdges.adv.eval = s.adv.eval := by rw [State.handEdges_adv]

theorem State.finishInputs_of_none (none : s.adv.eval = .none) : s.finishInputs = s.handEdges := by
  have after := s.handEdges_eval.trans none
  simp only [State.handEdges] at after
  simp only [State.finishInputs, State.handEdges, after]

theorem State.finishInputs_of_some {x : Evaluation} (eval : s.adv.eval = some x) :
    s.finishInputs = Machine.iter State.takePatternEntry (x.left.length + 1) s.handEdges := by
  have after := s.handEdges_eval.trans eval
  simp only [State.handEdges] at after
  simp only [State.finishInputs, State.handEdges, after]

/-- After it no EDGE record and no evaluation is left; of the rest of the advance nothing has changed. -/
theorem State.finishInputs_adv (s : State) : s.finishInputs.adv = { s.adv with edges := [], eval := none } := by
  have handed := s.handEdges_adv
  cases eval : s.adv.eval with
  | none =>
    rw [State.finishInputs_of_none eval, handed]
    simp only [eval]
  | some x =>
    rw [State.finishInputs_of_some eval]
    have eval' : s.handEdges.adv.eval = some x := s.handEdges_eval.trans eval
    have framed : (Machine.iter State.takePatternEntry (x.left.length + 1) s.handEdges).adv =
        { s.handEdges.adv with
          eval := (Machine.iter State.takePatternEntry (x.left.length + 1) s.handEdges).adv.eval } :=
      iter_keeps (P := fun v => v.adv = { s.handEdges.adv with eval := v.adv.eval })
        (fun v before => by rw [v.takePatternEntry_adv, before]) _ rfl
    have ended : (Machine.iter State.takePatternEntry (x.left.length + 1) s.handEdges).adv.eval = none := by
      refine iter_done (P := fun v => v.adv.edges = []) (done := fun v => v.adv.eval = none) entriesLeft
        (fun v noEdges => ?_) (fun v => State.takePatternEntry_lowers) (fun v _ finished => ?_)
        (by rw [handed]) (by rw [entriesLeft, eval']; exact Nat.le_refl _)
      · rw [v.takePatternEntry_adv]; exact noEdges
      · rw [State.takePatternEntry_of_none finished]; exact finished
    rw [framed, ended, handed]

theorem State.finishInputs_of_idle (noEdges : s.adv.edges = []) (noEval : s.adv.eval = none) : s.finishInputs = s := by
  rw [State.finishInputs_of_none noEval, State.handEdges, noEdges, List.length_nil, Machine.iter]

theorem State.evalFirst_of_due (due : s.adv.sampleDue = true) : s.evalFirst = s := if_pos due

theorem State.evalFirst_of_taken (taken : s.adv.sampleDue = false) : s.evalFirst = s.finishInputs :=
  if_neg (by simp [taken])

/-- Samples that have not begun, or nothing that follows them, are left as they are. -/
theorem State.evalFirst_of_idle (idle : s.adv.sampleDue = true ∨ (s.adv.edges = [] ∧ s.adv.eval = none)) :
    s.evalFirst = s := by
  obtain due | ⟨noEdges, noEval⟩ := idle
  · exact State.evalFirst_of_due due
  · rw [State.evalFirst, State.finishInputs_of_idle noEdges noEval, ite_self]

/-- After it either the samples are still due, or no evaluation is in progress. -/
theorem State.evalFirst_idle (s : State) :
    s.evalFirst.adv.sampleDue = true ∨ (s.evalFirst.adv.edges = [] ∧ s.evalFirst.adv.eval = none) := by
  cases due : s.adv.sampleDue with
  | true => rw [State.evalFirst_of_due due]; exact .inl due
  | false => rw [State.evalFirst_of_taken due, State.finishInputs_adv]; exact .inr ⟨rfl, rfl⟩

/-! ### The whole (R4) -/

theorem State.closeWindows_closeDue (s : State) : s.closeWindows.adv.closeDue = false := by
  rw [State.closeWindows]
  split
  · rfl
  · next closed => simpa using closed

/-- Nothing of the advance is left but, it may be, due entries (R4). -/
structure Settled (s : State) : Prop where
  closeDue : s.adv.closeDue = false
  owes : ∀ u, (s.unit u).owes = false
  expiry : ∀ u : Fin 4, s.adv.expiry[u] = none
  sampleDue : s.adv.sampleDue = false
  edges : s.adv.edges = []
  eval : s.adv.eval = none

theorem State.quiet_iff (s : State) : s.quiet = true ↔ Settled s ∧ s.headDue = false := by
  constructor
  case mp =>
    intro quiet
    simp only [State.quiet, Bool.and_eq_true, Bool.not_eq_true', List.any_eq_false, List.isEmpty_iff,
      Option.isNone_iff_eq_none, List.mem_finRange, true_implies, Bool.not_eq_true, Option.isSome_eq_false_iff] at quiet
    obtain ⟨⟨⟨⟨⟨⟨closeDue, headDue⟩, owes⟩, expiry⟩, sampleDue⟩, edges⟩, eval⟩ := quiet
    exact ⟨⟨closeDue, owes, expiry, sampleDue, edges, eval⟩, headDue⟩
  case mpr =>
    rintro ⟨⟨closeDue, owes, expiry, sampleDue, edges, eval⟩, headDue⟩
    simp only [State.quiet, closeDue, headDue, owes, expiry, sampleDue, edges, eval]
    rfl

/-! What the parts leave of the record of the advance. -/

theorem State.takeDueEntry_adv (s : State) :
    s.takeDueEntry.adv = { s.adv with schedBegun := s.takeDueEntry.adv.schedBegun } := by
  rw [State.takeDueEntry]
  split
  · rfl
  · split
    · rw [(ChainRel.chain _ _).adv]
    · rfl

theorem State.takeDueEntries_adv (s : State) :
    s.takeDueEntries.adv = { s.adv with schedBegun := s.takeDueEntries.adv.schedBegun } :=
  iter_keeps (P := fun v => v.adv = { s.adv with schedBegun := v.adv.schedBegun })
    (fun v before => by rw [v.takeDueEntry_adv, before]) _ rfl

/-- Of the advance a count changes the sample points and the expiries only. -/
def OnlyExpired (s t : State) : Prop := t.adv = { s.adv with expired := t.adv.expired, expiry := t.adv.expiry }

theorem OnlyExpired.expire (s v : State) (r : Fin 4) (same : v.adv = s.adv) : OnlyExpired s (v.expire r) := by
  simp only [OnlyExpired, State.expire, State.request_adv, same]

theorem OnlyExpired.countSingle (s : State) (u : Fin 4) : OnlyExpired s (s.countSingle u) := by
  simp only [State.countSingle]
  split
  · split
    · split
      · exact expire _ _ _ rfl
      · exact rfl
    · exact rfl
  · exact rfl

theorem OnlyExpired.countPair (s : State) (r : Fin 4) : OnlyExpired s (s.countPair r) := by
  simp only [State.countPair]
  split
  · split
    · split
      · exact expire _ _ _ rfl
      · exact rfl
    · exact rfl
  · exact rfl

theorem OnlyExpired.countUnit (s : State) (r : Fin 4) : OnlyExpired s (s.countUnit r) := by
  have unchanged : OnlyExpired s s := rfl
  cases pair : s.cascaded r with
  | false =>
    rw [State.countUnit_of_single pair]
    split
    · exact countSingle s r
    · exact unchanged
  | true =>
    cases odd : isOdd r with
    | false => rw [State.countUnit_of_even pair odd]; exact unchanged
    | true =>
      have counted : OnlyExpired s (if (s.unit (evenOf r)).owes then s.countPair r else s) := by
        split
        · exact countPair s r
        · exact unchanged
      rw [State.countUnit_of_odd pair odd]
      generalize (if (s.unit (evenOf r)).owes then s.countPair r else s) = v at counted
      dsimp only
      split <;> exact counted

theorem OnlyExpired.countAll (s : State) : OnlyExpired s s.countAll := by
  refine foldl_keeps (P := OnlyExpired s) (fun v r before => ?_) _ rfl
  have counted : (v.countUnit r).adv = _ := countUnit v r
  rw [OnlyExpired, counted, show v.adv = _ from before]

theorem State.takeSample_of_due (due : s.adv.sampleDue = true) : s.takeSample = s.countSources.sampleAll := if_pos due

theorem State.takeSample_of_taken (taken : s.adv.sampleDue = false) : s.takeSample = s := if_neg (by simp [taken])

theorem State.takeSample_sampleDue (s : State) : s.takeSample.adv.sampleDue = false := by
  cases due : s.adv.sampleDue with
  | true => rw [State.takeSample_of_due due]; rfl
  | false => rw [State.takeSample_of_taken due]; exact due

/-- With no unit that owes a count the samples change the input side's part of the advance only. -/
theorem State.takeSample_adv_of_paid (paid : ∀ u, (s.unit u).owes = false) :
    s.takeSample.adv.closeDue = s.adv.closeDue ∧ s.takeSample.adv.expiry = s.adv.expiry := by
  cases due : s.adv.sampleDue with
  | true =>
    rw [State.takeSample_of_due due, State.countSources_of_paid paid]
    exact ⟨rfl, rfl⟩
  | false =>
    rw [State.takeSample_of_taken due]
    exact ⟨rfl, rfl⟩

theorem State.deliverAll_adv (s : State) : s.deliverAll.adv = { s.adv with expiry := s.deliverAll.adv.expiry } :=
  foldl_keeps (P := fun v => v.adv = { s.adv with expiry := v.adv.expiry })
    (fun v r before => by rw [(OnlyExpiry.deliver v r).1, before]) _ rfl

theorem HandleRel.deliverAll (s : State) : HandleRel s s.deliverAll := .foldl HandleRel.deliver _ _

theorem HandleRel.owes (h : HandleRel s t) (paid : ∀ u, (s.unit u).owes = false) (u : Fin 4) :
    (t.unit u).owes = false :=
  (h.units u).owes (paid u)

theorem State.settle_of_busy (busy : s.quiet = false) :
    s.settle = s.closeWindows.takeDueEntries.countAll.deliverAll.takeSample.finishInputs := by
  simp only [State.settle, busy, Bool.false_eq_true, if_false, State.deliverAll]

/-- After `settle` nothing of the advance is left but, it may be, due entries of a list out of order. -/
theorem State.settle_settled (s : State) : Settled s.settle := by
  cases quiet : s.quiet with
  | true =>
    rw [State.settle_of_quiet s quiet]
    exact (s.quiet_iff.mp quiet).1
  | false =>
    rw [State.settle_of_busy quiet]
    have counted := s.closeWindows.takeDueEntries.countAll_owes
    have closed : s.closeWindows.takeDueEntries.countAll.adv.closeDue = false := by
      rw [show State.adv _ = _ from OnlyExpired.countAll _, State.takeDueEntries_adv]
      exact s.closeWindows_closeDue
    generalize s.closeWindows.takeDueEntries.countAll = v at counted closed
    have paid := (HandleRel.deliverAll v).owes counted
    have closed : v.deliverAll.adv.closeDue = false := by rw [v.deliverAll_adv]; exact closed
    have delivered := v.deliverAll_expiry
    generalize v.deliverAll = w at paid closed delivered
    obtain ⟨close_kept, expiry_kept⟩ := State.takeSample_adv_of_paid paid
    have ended := w.takeSample.finishInputs_adv
    exact {
      closeDue := by rw [ended]; exact close_kept.trans closed
      owes := (HandleRel.finishInputs _).owes ((HandleRel.takeSample w).owes paid)
      expiry := fun u => by rw [ended, expiry_kept]; exact delivered u
      sampleDue := by rw [ended]; exact w.takeSample_sampleDue
      edges := by rw [ended]
      eval := by rw [ended] }

theorem State.headDue_iff (s : State) : s.headDue = false ↔ ∀ e ∈ s.sched.pel.head?, e.due ≠ s.tl := by
  rw [State.headDue]
  split
  · next none => simp [none]
  · next e rest list => simp [list]

/-- An ordered list whose head is not due has no due entry. -/
theorem noneDue_of_head (ordered : ListOrdered s) (notDue : s.headDue = false) : NoneDue s := by
  intro x listed due
  rw [State.headDue_iff] at notDue
  cases list : s.sched.pel with
  | nil => rw [list] at listed; exact nomatch listed
  | cons e rest =>
    exact notDue e (by simp [list]) (head_due_of_ordered (list ▸ ordered) (list ▸ listed) due)

theorem headDue_of_noneDue (none : NoneDue s) : s.headDue = false :=
  s.headDue_iff.mpr fun e head => none e (List.mem_of_mem_head? head)

/-- After `settle` no entry of a list in order is due (R26, R32). -/
theorem State.settle_noneDue (ordered : ListOrdered s) : NoneDue s.settle := by
  cases quiet : s.quiet with
  | true =>
    rw [State.settle_of_quiet s quiet]
    exact noneDue_of_head ordered (s.quiet_iff.mp quiet).2
  | false =>
    rw [State.settle_of_busy quiet]
    have taken := State.takeDueEntries_noneDue ((HandleRel.closeWindows s).ordered ordered)
    have rest := (((HandleRel.countAll s.closeWindows.takeDueEntries).trans (.deliverAll _)).trans
      (.takeSample _)).trans (.finishInputs _)
    exact rest.noneDue taken

theorem State.settle_quiet (ordered : ListOrdered s) : s.settle.quiet = true :=
  s.settle.quiet_iff.mpr ⟨s.settle_settled, headDue_of_noneDue (State.settle_noneDue ordered)⟩

/-- In an ordered list an entry that is not due is ahead. -/
theorem NoneDue.ahead (none : NoneDue s) (ordered : ListOrdered s) :
    ∀ e ∈ s.sched.pel, Machine.ahead e.due s.tl = true :=
  fun e listed => ahead_of_remaining (ordered.2 e listed) (none e listed)

theorem remaining_succ {t n : Time} (notDue : t ≠ n) : remaining t (n + 1) = remaining t n - 1 := by
  simp only [remaining]
  bv_omega

/-- The list stays in order when TL advances with no entry due (R22). -/
theorem OrderedAt.advance {n : Time} {l : List Entry} (ordered : OrderedAt n l) (none : ∀ e ∈ l, e.due ≠ n) :
    OrderedAt (n + 1) l := by
  obtain ⟨sorted, near⟩ := ordered
  constructor
  · refine sorted.imp_of_mem fun {x y} inX inY before => ?_
    rw [remaining_succ (none x inX), remaining_succ (none y inY)]
    exact Nat.sub_le_sub_right before 1
  · intro e listed
    rw [remaining_succ (none e listed)]
    exact Nat.le_trans (Nat.sub_le _ _) (near e listed)

theorem ListOrdered.beginAdvance (ordered : ListOrdered s) (pins : Word) :
    ListOrdered (s.settle.beginAdvance pins) :=
  OrderedAt.advance ((HandleRel.settle s).ordered ordered) (State.settle_noneDue ordered)

/-- Settles O9: `settle` leaves nothing (`State.settle_quiet`), a completion begins with the due entries
(`State.takeDueEntries_noneDue`), and what a handling inserts is ahead (`HandleRel.noneDue`). -/
theorem wholeTickLeavesNoEntryDue : Obligations.WholeTickLeavesNoEntryDue := by
  intro s ordered
  have settled (v : State) (inOrder : ListOrdered v) :
      v.settle.quiet = true ∧ ∀ e ∈ v.settle.sched.pel, ahead e.due v.tl = true := by
    have all_ahead := (State.settle_noneDue inOrder).ahead ((HandleRel.settle v).ordered inOrder)
    exact ⟨State.settle_quiet inOrder, (HandleRel.settle v).tl ▸ all_ahead⟩
  refine ⟨settled s ordered, ?completion, fun pins order ready running => ?tick⟩
  case completion =>
    have rest : HandleRel s.takeDueEntries s.beforeCompletion := (HandleRel.finishLaunches _).trans (.evalFirst _)
    have all_ahead := (rest.noneDue (State.takeDueEntries_noneDue ordered)).ahead
      ((HandleRel.beforeCompletion s).ordered ordered)
    exact (HandleRel.beforeCompletion s).tl ▸ all_ahead
  case tick =>
    have jobs := HandleRel.runJobs order (s.settle.beginAdvance pins)
    have sameTl : (s.settle.beginAdvance pins).tl = s.tl + 1 := congrArg (· + 1) (HandleRel.settle s).tl
    have whole := settled _ (jobs.ordered (ordered.beginAdvance pins))
    rw [jobs.tl, sameTl] at whole
    refine ⟨_, exec_tick_of_ready ready pins order true, ?_⟩
    rw [State.tick, if_pos running]
    exact whole

end Sys2Proof.Machine
end

section
/-! PROOFS. What a step is made of, said once: `Move` lists the elementary changes of the state, and `exec_moves`
says that every command is made of them, but for RESET#, the initialisation and the stores of STORE_DATA. -/

namespace Sys2Proof.Machine

variable {s t u : State}

/-! ### Jobs taken one after the other -/

/-- `t` comes from `s` by jobs of an advance, in some order (R4). -/
def Handled (s t : State) : Prop := ∃ jobs : List Job, t = jobs.foldl (fun v j => runJob j v) s

namespace Handled

theorem refl (s : State) : Handled s s := ⟨[], rfl⟩

theorem job (j : Job) (s : State) : Handled s (runJob j s) := ⟨[j], rfl⟩

theorem trans (first : Handled s t) (second : Handled t u) : Handled s u := by
  obtain ⟨js, rfl⟩ := first
  obtain ⟨ks, rfl⟩ := second
  exact ⟨js ++ ks, List.foldl_append.symm⟩

theorem iter {f : State → State} (one : ∀ v, Handled v (f v)) (n : Nat) (s : State) : Handled s (iter f n s) := by
  induction n generalizing s with
  | zero => exact refl s
  | succ n ih => exact (one s).trans (ih (f s))

theorem foldl {α : Type} {f : State → α → State} (one : ∀ v a, Handled v (f v a)) (l : List α) (s : State) :
    Handled s (l.foldl f s) := by
  induction l generalizing s with
  | nil => exact refl s
  | cons a l ih => exact (one s a).trans (ih (f s a))

theorem ite {c : Prop} [Decidable c] (yes : Handled s t) (no : Handled s u) : Handled s (if c then t else u) := by
  split
  · exact yes
  · exact no

/-- What every job keeps is kept. -/
theorem keeps {P : State → Prop} (one : ∀ j v, P v → P (runJob j v)) (handled : Handled s t) (before : P s) :
    P t := by
  obtain ⟨js, rfl⟩ := handled
  induction js generalizing s with
  | nil => exact before
  | cons j js ih => exact ih (one j s before)

theorem deliver (s : State) (r : Fin 4) : Handled s (s.deliver r) := by
  rw [State.deliver]
  split
  · exact refl s
  · exact iter (job (.unitLaunch r)) _ s

theorem takeDueEntries (s : State) : Handled s s.takeDueEntries := iter (job .entry) _ s

theorem finishInputs (s : State) : Handled s s.finishInputs := by
  have edges := iter (job .edge) s.adv.edges.length s
  simp only [State.finishInputs]
  split
  · exact edges
  · exact edges.trans (iter (job .patternEntry) _ _)

theorem evalFirst (s : State) : Handled s s.evalFirst := ite (refl s) (finishInputs s)

theorem settle (s : State) : Handled s s.settle := by
  have counted : Handled s s.closeWindows.takeDueEntries.countAll :=
    ((job .closeWindows s).trans (takeDueEntries _)).trans (foldl (fun v r => job (.count r) v) _ _)
  exact ite (refl s) (((counted.trans (foldl deliver _ _)).trans (job .sample _)).trans (finishInputs _))

theorem finishBegun (s : State) : Handled s s.finishBegun :=
  (ite (takeDueEntries s) (refl s)).trans (evalFirst _)

theorem finishLaunches (s : State) : Handled s s.finishLaunches :=
  foldl (fun v r => ite (deliver v r) (refl v)) _ s

theorem beforeCompletion (s : State) : Handled s s.beforeCompletion :=
  ((takeDueEntries s).trans (finishLaunches _)).trans (evalFirst _)

end Handled

/-! ### The elementary changes -/

/-- The state with everything erased that no law of `Sys2Proof/Safety.lean` speaks of. -/
def State.ruled (s : State) : State :=
  { s with
    tb := { s.tb with tickdiv := 0, tbrun := false, snapshot := none }
    sched := { s.sched with lateCount := 0 }
    store := { s.store with addrPage := .a, addr := 0 }
    out := .reset
    inp := { s.inp with lens := Inputs.reset.lens, windows := Inputs.reset.windows }
    cmd := .reset
    ev := .reset
    port := State.reset.port
    freeCount := 0 }

/-- A piece of work of the owners: a part of the handling of an advance, or a chain that a command sets off. -/
inductive Work (s : State) : State → Prop
  | job (j : Job) : Work s (runJob j s)
  /-- SCHEDULE applies a late DIRECT entry at once (R34) -/
  | applyLate (e : Entry) (direct : e.isDirect = true) : Work s (s.chain [.take e true])
  | launch (src : LaunchSource) (q : Fin 8) : Work s (s.launchNow src q).2
  | endRun (q : Fin 8) : Work s (s.endRun q .aborted).2

theorem Work.handle (work : Work s t) : HandleRel s t := by
  cases work with
  | job j => exact .runJob j s
  | applyLate e _ => exact (ChainRel.chain _ s).handle
  | launch src q => exact (ChainRel.launchNow s src q).handle
  | endRun q => exact (ChainRel.endRun s q .aborted).handle

/-- The samples of the advance have not begun, or nothing that follows them is left. -/
def InputsIdle (s : State) : Prop := s.adv.sampleDue = true ∨ (s.adv.edges = [] ∧ s.adv.eval = none)

/-- What CLEAR does to the blocks, before the output levels go to their idle levels (R183). -/
def State.clearBlocks (s : State) : State :=
  { s with
    sched := { pel := [], lateCount := 0 }
    store := s.store.clear
    slots := tabulate fun p : Fin 8 => (s.slot p).clear
    inp := s.inp.clear
    cap := s.cap.clear
    pat := s.pat.clear
    cmd := s.cmd.clear }

theorem State.clearAll_eq (s : State) : s.clearAll = s.clearBlocks.clearOutputs := rfl

/-- A change that an access or the clock makes. -/
inductive Change (s : State) : State → Prop
  /-- TL advances, after what is left of the advance before (R1) -/
  | advance (pins : Word) : Change s (s.settle.beginAdvance pins)
  | clear (idle : InputsIdle s) : Change s s.clearBlocks
  /-- no law speaks of what changes -/
  | unruled {t : State} (same : t.ruled = s.ruled) : Change s t
  /-- a tick begins when TBRUN goes to 1 (R3) -/
  | startTick : Change s { s with tb := { s.tb with divider := 0, tickLen := s.tb.tickdiv.toNat + 1 } }
  /-- a CLK cycle within the tick in progress (R1) -/
  | clk (within : s.tb.divider + 1 < s.tb.tickLen) :
      Change s { s with tb := { s.tb with divider := s.tb.divider + 1 } }
  /-- LOAD_TIME with the list empty (R8) -/
  | loadTime (n : Time) (empty : s.sched.pel = []) :
      Change s { s with tb := { s.tb with tl := n, snapshot := none } }
  | unitCtrl (u : Fin 4) (w : Word) : Change s { s with iu := (s.writeUnitCtrl u w).iu }
  | reload (u : Fin 4) (w : Word) : Change s (s.writeReload u w)
  | iuPair (w : Word)
      (stopped : ∀ i : Fin 2, s.iu.pairs[i].cascade ≠ w.getLsbD i.val → ¬s.pairRunning i = true) :
      Change s { s with iu := (s.setCascades w).iu }
  /-- a COUNT read takes or invalidates the snapshot of a pair (R17) -/
  | pairSnapshot (i : Fin 2) (v : Option Word) : Change s (s.setPair i { s.iu.pairs[i] with snapshot := v })
  | armed (w : Word) (b : Bool) : Change s (s.setArmed w b)
  | lineCfg (n : Fin 16) (w : Word) : Change s (s.writeLineCfg n w)
  | wmark (w : Word) : Change s (s.writeWmark w)
  /-- FLUSH_QUEUE (R136) -/
  | flush : Change s { s with cap := s.cap.flush }
  /-- a CAPR0 read finds no record (R133) -/
  | invalidate : Change s { s with cap := { s.cap with holding := none } }
  /-- a CAPR0 read takes the oldest record (R132) -/
  | pop (r : Record) (rest : List Record) (queue : s.cap.queue = r :: rest) :
      Change s { s with cap := { s.cap with queue := rest, holding := some r } }
  | maskValue (k : Fin 8) (value : Bool) (w : Word) (idle : InputsIdle s) : Change s (s.writeMaskValue k value w)
  | pctrl (k : Fin 8) (w : Word) (idle : InputsIdle s) : Change s (s.writePctrl k w)
  /-- SCHEDULE puts a DIRECT entry into the list (R25) -/
  | insert (e : Entry) (isAhead : ahead e.due s.tl = true) (direct : e.isDirect = true)
      (room : s.sched.directCount < directMax) : Change s (s.insertEntry e)
  /-- CANCEL takes the entries with a tag out of the list (R39) -/
  | cancel (tag : BitVec 8) : Change s (s.setPel (s.sched.pel.filter fun e => !e.hasTag tag))
  /-- SWAP with mode NOW, which nothing refuses (R57) -/
  | swapPages (allowed : s.store.swapRefusal = none) : Change s s.swapPages
  /-- SWAP with mode AT_UNIT, which nothing refuses (R58) -/
  | pendSwap (u : Fin 4) (allowed : s.store.swapRefusal = none) :
      Change s { s with store := { s.store with swap := some u } }
  /-- SWAP with mode WITHDRAW (R62) -/
  | withdraw : Change s { s with store := { s.store with swap := none } }

/-- An elementary change of the state. -/
def Move (s t : State) : Prop := Work s t ∨ Change s t

theorem Work.move (work : Work s t) : Move s t := .inl work

theorem Change.move (change : Change s t) : Move s t := .inr change

/-- `t` comes from `s` by elementary changes. -/
inductive Moves (s : State) : State → Prop
  | refl : Moves s s
  | tail {t u : State} : Moves s t → Move t u → Moves s u

theorem Work.moves (work : Work s t) : Moves s t := .tail .refl work.move

theorem Change.moves (change : Change s t) : Moves s t := .tail .refl change.move

namespace Moves

theorem trans (first : Moves s t) (second : Moves t u) : Moves s u := by
  induction second with
  | refl => exact first
  | tail _ last ih => exact ih.tail last

theorem unruled (same : t.ruled = s.ruled) : Moves s t := (Change.unruled same).moves

theorem ite {c : Prop} [Decidable c] (yes : Moves s t) (no : Moves s u) : Moves s (if c then t else u) := by
  split
  · exact yes
  · exact no

theorem whenReady {f : State → State} (taken : ∀ v, Moves v (f v)) (s : State) : Moves s (s.whenReady f) :=
  ite (taken s) .refl

/-- What every elementary change keeps is kept. -/
theorem keeps {P : State → Prop} (one : ∀ {v w}, Move v w → P v → P w) (moves : Moves s t) (before : P s) : P t := by
  induction moves with
  | refl => exact before
  | tail _ last ih => exact one last ih

theorem handled (jobs : Handled s t) : Moves s t :=
  jobs.keeps (P := Moves s) (fun j _ before => before.tail (Work.job j).move) .refl

theorem settle (s : State) : Moves s s.settle := handled (.settle s)

/-! ### Accesses -/

theorem outputEvent (s : State) (f : Outputs → Outputs) : Moves s (s.outputEvent f) := by
  rw [State.outputEvent_eq]
  exact unruled rfl

theorem writeTbrun (b : Bool) (s : State) : Moves s (s.writeTbrun b) :=
  ite (.trans Change.startTick.moves (unruled rfl)) (unruled rfl)

theorem writeOuten (b : Bool) (s : State) : Moves s (s.writeOuten b) := by
  refine ite ?_ (unruled rfl)
  rw [State.reportSets_eq]
  exact unruled rfl

theorem finishBegun_idle (s : State) : InputsIdle s.finishBegun := State.evalFirst_idle _

theorem clearAll (idle : InputsIdle s) : Moves s s.clearAll := by
  rw [State.clearAll_eq, State.clearOutputs]
  exact (Change.clear idle).moves.trans (outputEvent _ _)

theorem writeCtrl (w : Word) (s : State) : Moves s (s.writeCtrl w) := by
  have cleared : Moves s (if bit w 15 then s.finishBegun.clearAll else s.settle) :=
    ite ((handled (.finishBegun s)).trans (clearAll (finishBegun_idle s))) (settle s)
  exact (cleared.trans (writeTbrun _ _)).trans (writeOuten _ _)

theorem writeUnitCtrl (u : Fin 4) (w : Word) (s : State) : Moves s (s.writeUnitCtrl u w) := by
  have frame : s.writeUnitCtrl u w = { s with iu := (s.writeUnitCtrl u w).iu } := by
    simp only [State.writeUnitCtrl, State.reloadOddHalf]
    split
    · rfl
    · split
      · split <;> rfl
      · rfl
  rw [frame]
  exact (Change.unitCtrl u w).moves

theorem writeIuPair (w : Word) (s : State) : Moves s (s.writeIuPair w) := by
  by_cases refused : ∃ i : Fin 2, s.iu.pairs[i].cascade ≠ w.getLsbD i.val ∧ s.pairRunning i = true
  · obtain ⟨i, changes, busy⟩ := refused
    rw [State.writeIuPair_of_busy changes busy]
    exact unruled rfl
  · have stopped (i : Fin 2) (changes : s.iu.pairs[i].cascade ≠ w.getLsbD i.val) : ¬s.pairRunning i = true :=
      fun busy => refused ⟨i, changes, busy⟩
    rw [State.writeIuPair_of_stopped stopped, State.setCascades_frame]
    exact (Change.iuPair w stopped).moves

theorem writeMaskValue (k : Fin 8) (value : Bool) (w : Word) (s : State) :
    Moves s (s.evalFirst.writeMaskValue k value w) :=
  (handled (.evalFirst s)).trans (Change.maskValue k value w (State.evalFirst_idle s)).moves

theorem writePctrl (k : Fin 8) (w : Word) (s : State) : Moves s (s.evalFirst.writePctrl k w) :=
  (handled (.evalFirst s)).trans (Change.pctrl k w (State.evalFirst_idle s)).moves

theorem writeUnitWord (k : Nat) (w : Word) (s : State) : Moves s (s.writeUnitWord k w) := by
  rw [State.writeUnitWord]
  split
  · exact writeUnitCtrl _ w s
  · exact (Change.reload _ w).moves
  · exact .refl

theorem writePatternWord (k : Nat) (w : Word) (s : State) : Moves s (s.writePatternWord k w) := by
  rw [State.writePatternWord]
  split
  · exact writeMaskValue _ false w s
  · exact writeMaskValue _ true w s
  · exact writePctrl _ w s
  · exact handled (.evalFirst s)

theorem writeOutPol (w : Word) (s : State) : Moves s (s.writeOutPol w) := by
  rw [State.writeOutPol]
  exact outputEvent s _

theorem writeOutIdle (w : Word) (s : State) : Moves s (s.writeOutIdle w) := by
  rw [State.writeOutIdle]
  exact outputEvent s _

theorem writeOutMode (w : Word) (s : State) : Moves s (s.writeOutMode w) := by
  rw [State.writeOutMode]
  exact outputEvent s _

theorem setLines (w : Word) (s : State) : Moves s (s.setLines w) := by
  rw [State.setLines]
  exact outputEvent s _

theorem clrLines (w : Word) (s : State) : Moves s (s.clrLines w) := by
  rw [State.clrLines]
  exact outputEvent s _

theorem toggleLines (w : Word) (s : State) : Moves s (s.toggleLines w) := by
  rw [State.toggleLines]
  exact outputEvent s _

theorem writeOutBset (hi : Bool) (w : Word) (s : State) : Moves s (s.writeOutBset hi w) := unruled rfl

theorem writeOutputWord (a : Nat) (w : Word) (s : State) : Moves s (s.writeOutputWord a w) := by
  have settles : Moves s s.settle := settle s
  unfold State.writeOutputWord
  split
  · exact settles.trans (writeOutPol w _)
  · exact settles.trans (writeOutIdle w _)
  · exact settles.trans (writeOutMode w _)
  · exact settles.trans (writeOutBset false w _)
  · exact settles.trans (writeOutBset true w _)
  · exact settles.trans (setLines w _)
  · exact settles.trans (clrLines w _)
  · exact settles.trans (toggleLines w _)
  · exact .refl

theorem writeCmd (w : Word) (s : State) : Moves s (s.writeCmd w) := by
  rw [State.writeCmd]
  split <;> exact unruled rfl

theorem writeHighWord (a : Nat) (w : Word) (s : State) : Moves s (s.writeHighWord a w) := by
  unfold State.writeHighWord
  split
  case h_5 => exact writeCmd w s
  case h_11 => exact .refl
  all_goals exact unruled rfl

/-- A write of any word of the window but STORE_DATA. -/
theorem writeWord {a : BitVec 7} (notStoreData : a ≠ 0x69) (w : Word) (s : State) : Moves s (s.writeWord a w) := by
  have not_data : ¬a.toNat = 0x69 := fun same => notStoreData (BitVec.eq_of_toNat_eq same)
  simp only [State.writeWord, if_neg not_data]
  refine ite (writeCtrl w s) (ite (unruled rfl) (ite (unruled rfl) (ite (writeUnitWord _ w s)
    (ite (writeIuPair w s) (ite ?lineCfg (ite ?blankLen (ite (writeOutputWord _ w s) (ite (Change.wmark w).moves
    (ite (writePatternWord _ w s) (ite (unruled rfl) (ite (Change.armed w true).moves (ite (Change.armed w false).moves
    (ite (writeHighWord _ w s) .refl)))))))))))))
  case lineCfg =>
    split
    · exact (Change.lineCfg _ w).moves
    · exact .refl
  case blankLen =>
    split
    · exact unruled rfl
    · exact .refl

theorem readCount (s : State) (u : Fin 4) : Moves s (s.readCount u).2 := by
  simp only [State.readCount]
  split
  · split
    · split
      · exact (Change.pairSnapshot _ _).moves
      · exact .refl
    · exact (Change.pairSnapshot _ _).moves
  · exact .refl

theorem readCapr0 (s : State) : Moves s s.readCapr0.2 := by
  rw [State.readCapr0]
  split
  · exact Change.invalidate.moves
  · next r rest queue => exact (Change.pop r rest queue).moves

theorem takeRead (a : BitVec 7) (s : State) : Moves s (s.takeRead a).2 := by
  simp only [State.takeRead]
  split
  · exact unruled rfl
  · split
    · rw [State.readTimeHi]
      split
      · exact unruled rfl
      · exact .refl
    · split
      · split
        · exact readCount s _
        · exact .refl
      · split
        · exact readCapr0 s
        · split
          · exact unruled rfl
          · split
            · exact settle s
            · exact .refl

theorem readAccess (a : BitVec 7) (s : State) : Moves s (s.readAccess a) := by
  have read : Moves s (s.readWord a).2 := by
    rw [State.readWord]
    split
    · exact takeRead a s
    · exact .refl
    · exact .refl
  exact read.trans (unruled rfl)

theorem tick (pins : Word) (order : List Job) (whole : Bool) (s : State) : Moves s (s.tick pins order whole) := by
  have begun : Moves s (s.settle.beginAdvance pins) := (Change.advance pins).moves
  have jobs := begun.trans (handled ⟨order, rfl⟩)
  exact ite (ite (jobs.trans (settle _)) jobs) .refl

/-! ### Completions -/

theorem finish {a : Answer} (acted : Moves s a.after) : Moves s a.finish := by
  rw [Answer.finish_eq_completed]
  exact acted.trans (unruled rfl)

/-- A completion that acts by elementary changes. -/
theorem complete {act : Vector Word 4 → State → Answer} (acts : ∀ a v, Moves v (act a v).after)
    (p : InFlight → Bool) (s : State) : Moves s (s.complete p act) := by
  rw [State.complete]
  split
  · exact .refl
  · exact ite (finish ((handled (.beforeCompletion s)).trans (acts _ _))) .refl

theorem scheduleEntry_direct {a : Vector Word 4} {n : Time} {e : Entry} {drop : Bool}
    (asked : scheduleEntry a n = some (e, drop)) : e.isDirect = true := by
  simp only [scheduleEntry] at asked
  iterate 4
    split at asked
    · exact nomatch asked
  obtain ⟨rfl, -⟩ := Prod.mk.inj (Option.some.inj asked)
  rfl

theorem countLate (s : State) : Moves s s.countLate := unruled rfl

theorem completeSchedule (a : Vector Word 4) (s : State) : Moves s (completeSchedule a s).after := by
  rw [Machine.completeSchedule]
  split
  · exact .refl
  · next e drop asked =>
    split
    · split
      · exact countLate s
      · exact (Work.applyLate e (scheduleEntry_direct asked)).moves.trans (countLate _)
    · next notReached =>
      split
      · next room => exact (Change.insert e (by simpa [ahead] using notReached) (scheduleEntry_direct asked) room).moves
      · exact .refl

theorem completeCancel (a : Vector Word 4) (s : State) : Moves s (completeCancel a s).after := by
  simp only [Machine.completeCancel]
  split
  · exact .refl
  · exact (Change.cancel _).moves

theorem completeLaunch (a : Vector Word 4) (s : State) : Moves s (completeLaunch a s).after := by
  rw [Machine.completeLaunch]
  split
  · exact .refl
  · exact (Work.launch _ _).moves

theorem completeAbort (a : Vector Word 4) (s : State) : Moves s (completeAbort a s).after := by
  rw [Machine.completeAbort]
  split
  · exact .refl
  · split
    · exact .refl
    · exact (Work.endRun _).moves

theorem foldl {α : Type} {f : State → α → State} (one : ∀ v a, Moves v (f v a)) (l : List α) (s : State) :
    Moves s (l.foldl f s) := by
  induction l generalizing s with
  | nil => exact .refl
  | cons a l ih => exact (one s a).trans (ih (f s a))

theorem completeAbortAll (a : Vector Word 4) (s : State) : Moves s (completeAbortAll a s).after := by
  have one (v : State) (p : Fin 8) : Moves v (v.endRun p .aborted).2 := (Work.endRun p).moves
  simp only [Machine.completeAbortAll, answer]
  exact foldl one (List.finRange 8) s

theorem completeSwapNow (a : Vector Word 4) (s : State) : Moves s (completeSwapNow a s).after := by
  rw [Machine.completeSwapNow]
  split
  · exact .refl
  · next allowed => exact (Change.swapPages allowed).moves

theorem completeAtUnit (a : Vector Word 4) (s : State) : Moves s (completeAtUnit a s).after := by
  rw [Machine.completeAtUnit]
  split
  · split
    · exact .refl
    · next allowed => exact (Change.pendSwap _ allowed).moves
  · exact .refl

theorem completeWithdraw (a : Vector Word 4) (s : State) : Moves s (completeWithdraw a s).after := by
  rw [Machine.completeWithdraw]
  split
  · exact Change.withdraw.moves
  · exact .refl

theorem completePeekList (a : Vector Word 4) (s : State) : Moves s (completePeekList a s).after := by
  rw [Machine.completePeekList]
  split <;> exact .refl

theorem completeQueryRun (a : Vector Word 4) (s : State) : Moves s (completeQueryRun a s).after := by
  rw [Machine.completeQueryRun]
  split <;> exact .refl

theorem completeLoadTime (a : Vector Word 4) (s : State) : Moves s (completeLoadTime a s).after := by
  simp only [Machine.completeLoadTime]
  split
  · next free =>
    obtain ⟨empty, -⟩ := Bool.and_eq_true_iff.mp free
    exact (settle s).tail (Change.loadTime _ (List.isEmpty_iff.mp empty)).move
  · exact settle s

/-! ### Every command -/

/-- An access that is taken from READY on. -/
theorem access {f : State → State} (taken : ∀ v, Moves v (f v)) (s : State) :
    ∃ t, Host.Outcome.next (s.whenReady f) = (.next t : Host.Outcome State Fault Refusal) ∧ Moves s t :=
  ⟨_, rfl, whenReady taken s⟩

theorem read (a : BitVec 7) (s : State) :
    ∃ t, Host.Outcome.next (s.readAccess a) = (.next t : Host.Outcome State Fault Refusal) ∧ Moves s t :=
  ⟨_, rfl, readAccess a s⟩

end Moves

/-- The commands of RESET# and of the initialisation (R182). -/
def Instr.resets : Instr → Bool
  | .reset | .resetRelease | .initialisationEnd => true
  | _ => false

/-- The command stores a word of a page: a write of STORE_DATA (R54). -/
def Instr.storesData : Instr → Option Word
  | .storeDataWrite w => some w
  | .registerWrite a w => if a = 0x69 then some w else none
  | _ => none

/-- Every command but those of RESET# and of the initialisation, and but a write of STORE_DATA, is made of
elementary changes. -/
theorem exec_moves (c : Instr) (s : State) (running : Instr.resets c = false) (other : Instr.storesData c = none) :
    ∃ t, exec c s = .next t ∧ Moves s t := by
  cases c with
  | reset | initialisationEnd | resetRelease => exact nomatch running
  | storeDataWrite w => exact nomatch other
  | registerWrite a w =>
    have notData : a ≠ 0x69 := by
      rintro rfl
      exact nomatch other
    exact Moves.access (Moves.writeWord notData w) s
  | tick pins order whole => exact Moves.access (.tick pins order whole) s
  | iuExpiry u => exact Moves.access (fun v => .handled ((Handled.job (.count u) v).trans (.deliver _ u))) s
  | entryDue => exact Moves.access (fun v => .handled (.takeDueEntries v)) s
  | windowClose => exact Moves.access (fun v => .handled (.job .closeWindows v)) s
  | tbrun w | outenOn w | outenOff w | clear w => exact Moves.access (.writeCtrl w) s
  | timeLo => exact Moves.read 0x04 s
  | timeHi => exact Moves.read 0x05 s
  | countRead u => exact Moves.read _ s
  | storeDataRead => exact Moves.read 0x69 s
  | capr0 => exact Moves.read 0x48 s
  | run u w | preset u w | prescale u w => exact Moves.access (Moves.writeUnitCtrl u w) s
  | reload u w => exact Moves.access (fun v => (Change.reload u w).moves) s
  | iuPair w => exact Moves.access (Moves.writeIuPair w) s
  | armSet w => exact Moves.access (fun v => (Change.armed w true).moves) s
  | armClr w => exact Moves.access (fun v => (Change.armed w false).moves) s
  | outMode w => exact Moves.access (fun v => (Moves.settle v).trans (Moves.writeOutMode w _)) s
  | outPol w => exact Moves.access (fun v => (Moves.settle v).trans (Moves.writeOutPol w _)) s
  | outIdle w => exact Moves.access (fun v => (Moves.settle v).trans (Moves.writeOutIdle w _)) s
  | outSet w => exact Moves.access (fun v => (Moves.settle v).trans (Moves.setLines w _)) s
  | outClr w => exact Moves.access (fun v => (Moves.settle v).trans (Moves.clrLines w _)) s
  | outToggle w => exact Moves.access (fun v => (Moves.settle v).trans (Moves.toggleLines w _)) s
  | outBset hi w => exact Moves.access (fun v => (Moves.settle v).trans (Moves.writeOutBset hi w _)) s
  | lineCfg n w => exact Moves.access (fun v => (Change.lineCfg n w).moves) s
  | capWmark w => exact Moves.access (fun v => (Change.wmark w).moves) s
  | maskValue k value w => exact Moves.access (Moves.writeMaskValue k value w) s
  | pctrl k w => exact Moves.access (Moves.writePctrl k w) s
  | cmd w => exact Moves.access (.writeCmd w) s
  | schedule => exact Moves.access (.complete .completeSchedule _) s
  | cancel => exact Moves.access (.complete .completeCancel _) s
  | launch => exact Moves.access (.complete .completeLaunch _) s
  | abort => exact Moves.access (.complete .completeAbort _) s
  | abortAll => exact Moves.access (.complete .completeAbortAll _) s
  | swapNow =>
    exact Moves.access (fun v => ((Moves.complete .completeSwapNow _ v).trans (Moves.complete (fun _ _ => .refl) _ _))) s
  | atUnit => exact Moves.access (.complete .completeAtUnit _) s
  | withdraw => exact Moves.access (.complete .completeWithdraw _) s
  | queryRun => exact Moves.access (.complete .completeQueryRun _) s
  | peekList => exact Moves.access (.complete .completePeekList _) s
  | loadTime => exact Moves.access (.complete .completeLoadTime _) s
  | flushQueue => exact Moves.access (.complete (fun _ _ => Change.flush.moves) _) s
  | unknownCommand => exact Moves.access (.complete (fun _ _ => .refl) _) s
  | tickdiv w => exact Moves.access (f := State.writeTickdiv w) (fun v => .unruled rfl) s
  | lateCount w => exact Moves.access (f := State.writeLateCount) (fun v => .unruled rfl) s
  | blankLen k w => exact Moves.access (f := State.writeBlankLen k w) (fun v => .unruled rfl) s
  | evFlags w => exact Moves.access (f := State.writeEvFlags w) (fun v => .unruled rfl) s
  | evEnable w => exact Moves.access (f := State.writeEvEnable w) (fun v => .unruled rfl) s
  | evLevel hi w => exact Moves.access (f := State.writeEvLevel hi w) (fun v => .unruled rfl) s
  | evThresh w => exact Moves.access (f := State.writeEvThresh w) (fun v => .unruled rfl) s

/-- A command of RESET# or of the initialisation resets every block, or finds the part in another phase. -/
theorem exec_of_resets {c : Instr} (resets : Instr.resets c = true) (s : State) :
    ∃ t, exec c s = .next t ∧ ((∃ p, t = s.resetTo p) ∨ t = s) := by
  have either {q : Prop} [Decidable q] (p : Phase) :
      (∃ p', (if q then s.resetTo p else s) = s.resetTo p') ∨ (if q then s.resetTo p else s) = s := by
    split
    · exact .inl ⟨p, rfl⟩
    · exact .inr rfl
  cases c with
  | reset => exact ⟨_, rfl, .inl ⟨_, rfl⟩⟩
  | resetRelease => exact ⟨_, rfl, either .initialising⟩
  | initialisationEnd => exact ⟨_, rfl, either .ready⟩
  | _ => exact nomatch resets

theorem exec_of_storesData {c : Instr} {w : Word} (stores : Instr.storesData c = some w) (s : State) :
    exec c s = .next (s.whenReady (State.writeStoreData w)) := by
  cases c with
  | storeDataWrite v =>
    obtain rfl := Option.some.inj stores
    rfl
  | registerWrite a v =>
    obtain ⟨rfl, written⟩ := Option.ite_none_right_eq_some.mp stores
    obtain rfl := Option.some.inj written
    rfl
  | _ => exact nomatch stores

/-! ### A step -/

/-- A CLK cycle ends the initialisation, or is made of elementary changes. -/
theorem clkCycle_moves (s : State) : (∃ p, s.clkCycle = s.resetTo p) ∨ Moves s s.clkCycle := by
  rw [State.clkCycle]
  split
  · exact .inr .refl
  · next phase =>
    split
    · exact .inl ⟨.ready, if_pos phase⟩
    · exact .inr (.unruled rfl)
  · refine .inr (.ite ?_ .refl)
    split
    · have counted : Moves s { s with freeCount := s.freeCount + 1 } := .unruled rfl
      exact counted.trans (Moves.tick _ _ _ _)
    · next within => exact (Change.clk (Nat.lt_of_not_le within)).moves

/-- A predicate of states that looks at no queue of commands, that holds of every reset state, and that every
elementary change and every write of STORE_DATA keeps, is kept by every step. -/
theorem step_keeps {P : State → Prop} (queue : ∀ v rest, P v → P { v with pending := rest })
    (reset : ∀ v p, P (State.resetTo p v)) (stored : ∀ v w, P v → P (State.writeStoreData w v))
    (worked : ∀ v w, Work v w → P v → P w) (changed : ∀ v w, Change v w → P v → P w) (stepped : step s = .next t)
    (before : P s) : P t := by
  have moved {v w : State} (move : Move v w) : P v → P w := move.elim (worked v w) (changed v w)
  rw [step] at stepped
  split at stepped
  case h_1 =>
    obtain rfl := Host.Outcome.next.inj stepped
    obtain ⟨p, ended⟩ | moves := clkCycle_moves s
    · exact ended ▸ reset s p
    · exact moves.keeps moved before
  case h_2 c rest _ =>
    have queued := queue s rest before
    generalize ({ s with pending := rest } : State) = v at stepped queued
    cases resets : Instr.resets c with
    | true =>
      obtain ⟨u, next, ⟨p, rfl⟩ | rfl⟩ := exec_of_resets resets v <;>
        obtain rfl := Host.Outcome.next.inj (next.symm.trans stepped)
      · exact reset v p
      · exact queued
    | false =>
      cases stores : Instr.storesData c with
      | some w =>
        obtain rfl := Host.Outcome.next.inj ((exec_of_storesData stores v).symm.trans stepped)
        rw [State.whenReady]
        split
        · exact stored v w queued
        · exact queued
      | none =>
        obtain ⟨u, next, moves⟩ := exec_moves c v resets stores
        obtain rfl := Host.Outcome.next.inj (next.symm.trans stepped)
        exact moves.keeps moved queued

end Sys2Proof.Machine
end

section
/-! PROOFS. The laws that look at one block each, kept by every elementary change: the timebase and the interval units
(R1, R10, R16), the list (R22, R24), the capture queue (R125, R126, R129), the same-due counts (R78), the form of the
pages (R44), the candidate and divide counts (R112, R144). -/

namespace Sys2Proof.Machine

variable {s t : State}

/-! ### After reset -/

/-- Settles O54, law by law. -/
theorem resetKeepsTheLaws : Obligations.ResetKeepsTheLaws := by
  refine ⟨?timebase, ?units, ?list, ?direct, ?entries, ?bindings, ?sameDue, ⟨Memory.wf_nil, Memory.wf_nil⟩, ?capture,
    ?seq, ?candidate, ?divide, ?pattern⟩
  case timebase => unfold TimebaseLaw; decide
  case units => unfold UnitLaw; decide
  case list => exact ⟨.nil, fun e listed => nomatch listed⟩
  case direct => unfold DirectBounded; decide
  case entries =>
    intro p
    have idle : (State.reset.slot p).run = none := by revert p; decide
    rw [idle]
    exact fun e listed => nomatch listed
  case bindings =>
    refine ⟨fun g => ?_, fun pending => nomatch pending⟩
    cases g <;> decide
  case sameDue => unfold SameDueLaw; decide
  case capture => unfold CaptureBounded; decide
  case seq => exact ⟨fun i x y earlier => (by simp [State.reset, Capture.reset] at earlier), fun x last => nomatch last⟩
  case candidate => unfold CandidateLaw; decide
  case divide => unfold DivideLaw; decide
  case pattern => exact ⟨fun due => (nomatch due), (by decide), (by decide)⟩

/-! ### What the laws do not look at -/

/-- A predicate that does not look at what no law speaks of. -/
theorem of_ruled {P : State → Prop} (blind : ∀ v, P v ↔ P v.ruled) (same : t.ruled = s.ruled) (law : P s) : P t := by
  rw [blind, same, ← blind]
  exact law

theorem State.writeStoreData_frame (w : Word) (s : State) :
    s.writeStoreData w =
      { s with store := (s.writeStoreData w).store
               ev := (s.writeStoreData w).ev
               port := (s.writeStoreData w).port } := by
  simp only [State.writeStoreData]
  split
  · rfl
  · split <;> rfl

/-! ### The timebase (R1, R2) -/

theorem Change.timebaseLaw (change : Change s t) (law : TimebaseLaw s) : TimebaseLaw t := by
  have whole_tick (d : BitVec 8) : 0 < d.toNat + 1 ∧ d.toNat + 1 ≤ 256 := ⟨Nat.succ_pos _, d.isLt⟩
  cases change with
  | advance pins => exact whole_tick _
  | startTick => exact whole_tick _
  | unruled same => exact of_ruled (P := TimebaseLaw) (fun _ => .rfl) same law
  | clk within => exact ⟨within, law.2⟩
  | _ => exact law

theorem step_keeps_timebaseLaw (stepped : step s = .next t) (law : TimebaseLaw s) : TimebaseLaw t := by
  refine step_keeps (P := TimebaseLaw) (fun _ _ => id) (fun _ _ => resetKeepsTheLaws.1) (fun v w law => ?_)
    (fun v w work law => ?_) (fun _ _ => Change.timebaseLaw) stepped law
  · rw [v.writeStoreData_frame]
    exact law
  · rw [TimebaseLaw, work.handle.tb]
    exact law

/-! ### The interval units (R10, R16) -/

theorem HandleRel.unitLaw (h : HandleRel s t) (law : UnitLaw s) : UnitLaw t := by
  obtain ⟨phase, odd⟩ := law
  refine ⟨fun u => (h.units u).phase (phase u), fun u isOdd pair => ?_⟩
  rw [h.cascaded] at pair
  rw [h.oddRun u isOdd pair]
  exact odd u isOdd pair

/-- The law of the units of a state whose pairs are those of another. -/
theorem UnitLaw.of_units (law : UnitLaw s) (pairs : t.iu.pairs = s.iu.pairs)
    (phase : ∀ u, (s.unit u).phase < prescaleTicks (s.unit u).prescale →
      (t.unit u).phase < prescaleTicks (t.unit u).prescale)
    (odd : ∀ u, isOdd u = true → s.cascaded u = true → (t.unit u).running = (s.unit u).running) : UnitLaw t := by
  obtain ⟨phase_before, odd_before⟩ := law
  refine ⟨fun u => phase u (phase_before u), fun u isOdd pair => ?_⟩
  have pair : s.cascaded u = true := by simpa only [State.cascaded, pairs] using pair
  rw [odd u isOdd pair]
  exact odd_before u isOdd pair

theorem UnitLaw.setUnit (law : UnitLaw s) {u : Fin 4} {x : IntervalUnit}
    (phase : (s.unit u).phase < prescaleTicks (s.unit u).prescale → x.phase < prescaleTicks x.prescale)
    (odd : isOdd u = true → s.cascaded u = true → x.running = (s.unit u).running) : UnitLaw (s.setUnit u x) := by
  refine law.of_units rfl (fun v => ?_) (fun v isOdd pair => ?_) <;> rw [State.unit_setUnit] <;> split
  · next same => exact same ▸ phase
  · exact id
  · next same => subst same; exact odd isOdd pair
  · rfl

/-- A CTRL word leaves the phase below P: a change of P sets it to 0 (R12). -/
theorem IntervalUnit.control_phase (w : Word) (x : IntervalUnit) (phase : x.phase < prescaleTicks x.prescale) :
    (x.control w).phase < prescaleTicks (x.control w).prescale := by
  simp only [IntervalUnit.control]
  split
  · exact prescaleTicks_pos _
  · next stays =>
    have same : field w 2 2 = x.prescale := by simp_all
    rw [same]
    exact phase

theorem IntervalUnit.controlOdd_phase (w : Word) (x : IntervalUnit) (phase : x.phase < prescaleTicks x.prescale) :
    (x.controlOdd w).phase < prescaleTicks (x.controlOdd w).prescale := by
  simp only [IntervalUnit.controlOdd]
  split
  · exact prescaleTicks_pos _
  · next stays =>
    have same : field w 2 2 = x.prescale := by simpa using stays
    rw [same]
    exact phase

theorem UnitLaw.reloadOddHalf (law : UnitLaw s) (u : Fin 4) : UnitLaw (s.reloadOddHalf u) :=
  (ChainRel.reloadOddHalf s u).handle.unitLaw law

theorem UnitLaw.writeUnitCtrl (law : UnitLaw s) (u : Fin 4) (w : Word) : UnitLaw (s.writeUnitCtrl u w) := by
  simp only [State.writeUnitCtrl]
  split
  · exact law.setUnit (IntervalUnit.controlOdd_phase w _) fun _ _ => rfl
  · next free =>
    have governed : UnitLaw (s.setUnit u ((s.unit u).control w)) :=
      law.setUnit (IntervalUnit.control_phase w _) fun odd pair => absurd (by simp [odd, pair]) free
    split
    · exact governed.reloadOddHalf u
    · exact governed

theorem eq_half_of_pair (u : Fin 4) :
    u = ⟨2 * (pairOf u).val, by omega⟩ ∨ u = ⟨2 * (pairOf u).val + 1, by omega⟩ := by
  revert u
  decide

theorem State.pairRunning_of_running {u : Fin 4} (running : (s.unit u).running = true) :
    s.pairRunning (pairOf u) = true := by
  rw [State.pairRunning_iff]
  obtain even | odd := eq_half_of_pair u
  · exact .inl (even ▸ running)
  · exact .inr (odd ▸ running)

/-- A pair whose flag goes to 1 has both units STOPPED (R15). -/
theorem UnitLaw.setCascades (law : UnitLaw s) {w : Word}
    (stopped : ∀ i : Fin 2, s.iu.pairs[i].cascade ≠ w.getLsbD i.val → ¬s.pairRunning i = true) :
    UnitLaw (s.setCascades w) := by
  obtain ⟨phase, odd⟩ := law
  refine ⟨fun u => ?_, fun u isOdd pair => ?_⟩ <;> rw [State.unit_setCascades] <;> split
  · exact prescaleTicks_pos _
  · exact phase u
  · next even => rw [isOdd] at even; exact nomatch even.1
  · rw [State.cascaded, State.pairs_setCascades] at pair
    split at pair
    · next changes =>
      cases running : (s.unit u).running with
      | false => rfl
      | true => exact absurd (State.pairRunning_of_running running) (stopped _ changes)
    · exact odd u isOdd pair

theorem UnitLaw.setPair_snapshot (law : UnitLaw s) (i : Fin 2) (v : Option Word) :
    UnitLaw (s.setPair i { s.iu.pairs[i] with snapshot := v }) := by
  refine ⟨law.1, fun u isOdd pair => law.2 u isOdd ?_⟩
  rw [State.cascaded, State.pairs_setPair] at pair
  split at pair
  · next same => subst same; exact pair
  · exact pair

theorem UnitLaw.beginAdvance (law : UnitLaw s) (pins : Word) : UnitLaw (s.beginAdvance pins) := by
  have owing (u : Fin 4) : (s.beginAdvance pins).unit u = { s.unit u with owes := true } :=
    getElem_tabulate (fun v : Fin 4 => ({ s.iu.units[v] with owes := true } : IntervalUnit)) u
  refine law.of_units rfl (fun u => ?_) (fun u _ _ => ?_) <;> rw [owing]
  exact id

theorem Change.unitLaw (change : Change s t) (law : UnitLaw s) : UnitLaw t := by
  cases change with
  | advance pins => exact ((HandleRel.settle s).unitLaw law).beginAdvance pins
  | unruled same => exact of_ruled (P := UnitLaw) (fun _ => .rfl) same law
  | unitCtrl u w => exact law.writeUnitCtrl u w
  | reload u w => exact law.setUnit id fun _ _ => rfl
  | iuPair w stopped => exact law.setCascades stopped
  | pairSnapshot i v => exact law.setPair_snapshot i v
  | _ => exact law

theorem step_keeps_unitLaw (stepped : step s = .next t) (law : UnitLaw s) : UnitLaw t := by
  refine step_keeps (P := UnitLaw) (fun _ _ => id) (fun _ _ => resetKeepsTheLaws.2.1) (fun v w law => ?_)
    (fun v w work => work.handle.unitLaw) (fun _ _ => Change.unitLaw) stepped law
  rw [v.writeStoreData_frame]
  exact law

/-- Settles O55, law by law, each by `step_keeps`. -/
theorem stepKeepsTimebaseAndUnitLaws : Obligations.StepKeepsTimebaseAndUnitLaws :=
  fun _ _ stepped => ⟨step_keeps_timebaseLaw stepped, step_keeps_unitLaw stepped⟩

/-! ### The list (R22, R24) -/

theorem Change.listOrdered (change : Change s t) (law : ListOrdered s) : ListOrdered t := by
  cases change with
  | advance pins => exact law.beginAdvance pins
  | clear _ => exact ⟨.nil, fun e listed => nomatch listed⟩
  | unruled same => exact of_ruled (P := ListOrdered) (fun _ => .rfl) same law
  | loadTime n empty =>
    rw [ListOrdered, empty]
    exact ⟨.nil, fun e listed => nomatch listed⟩
  | insert e isAhead _ _ => exact law.insertEntry isAhead
  | cancel tag => exact OrderedAt.filter law _
  | _ => exact law

theorem step_keeps_listOrdered (stepped : step s = .next t) (law : ListOrdered s) : ListOrdered t := by
  obtain ⟨-, -, reset, -⟩ := resetKeepsTheLaws
  refine step_keeps (P := ListOrdered) (fun _ _ => id) (fun _ _ => reset) (fun v w law => ?_)
    (fun v w work => work.handle.ordered) (fun _ _ => Change.listOrdered) stepped law
  rw [v.writeStoreData_frame]
  exact law

theorem Change.directBounded (change : Change s t) (law : DirectBounded s) : DirectBounded t := by
  cases change with
  | advance pins => exact (HandleRel.settle s).direct law
  | clear _ => exact Nat.zero_le _
  | unruled same => exact of_ruled (P := DirectBounded) (fun _ => .rfl) same law
  | insert e _ direct room =>
    have grown : (s.insertEntry e).sched.directCount = s.sched.directCount + 1 :=
      length_filter_insertByTime _ _ direct
    rw [DirectBounded, grown]
    exact room
  | cancel tag => exact Nat.le_trans (List.filter_sublist.filter _).length_le law
  | _ => exact law

theorem step_keeps_directBounded (stepped : step s = .next t) (law : DirectBounded s) : DirectBounded t := by
  obtain ⟨-, -, -, reset, -⟩ := resetKeepsTheLaws
  refine step_keeps (P := DirectBounded) (fun _ _ => id) (fun _ _ => reset) (fun v w law => ?_)
    (fun v w work => work.handle.direct) (fun _ _ => Change.directBounded) stepped law
  rw [v.writeStoreData_frame]
  exact law

/-- Settles O56: the order needs that no entry is due when TL advances (`ListOrdered.beginAdvance`). -/
theorem stepKeepsTheListInOrder : Obligations.StepKeepsTheListInOrder :=
  fun _ _ stepped ordered => ⟨step_keeps_listOrdered stepped ordered, step_keeps_directBounded stepped⟩

/-! ### The capture queue (R125, R126, R129) -/

theorem clampWmark_range (b : BitVec 8) : 1 ≤ (clampWmark b).toNat ∧ (clampWmark b).toNat ≤ 128 := by
  rw [clampWmark_toNat]
  split
  · decide
  · split <;> omega

theorem Change.captureBounded (change : Change s t) (law : CaptureBounded s) : CaptureBounded t := by
  obtain ⟨bounded, wmark⟩ := law
  cases change with
  | advance pins => exact (HandleRel.settle s).captureBounded ⟨bounded, wmark⟩
  | clear _ | flush => exact ⟨Nat.zero_le _, wmark⟩
  | unruled same => exact of_ruled (P := CaptureBounded) (fun _ => .rfl) same ⟨bounded, wmark⟩
  | wmark w => exact ⟨bounded, clampWmark_range _⟩
  | pop r rest queue =>
    rw [queue] at bounded
    exact ⟨Nat.le_of_succ_le bounded, wmark⟩
  | _ => exact ⟨bounded, wmark⟩

theorem step_keeps_captureBounded (stepped : step s = .next t) (law : CaptureBounded s) : CaptureBounded t := by
  obtain ⟨-, -, -, -, -, -, -, -, reset, -⟩ := resetKeepsTheLaws
  refine step_keeps (P := CaptureBounded) (fun _ _ => id) (fun _ _ => reset) (fun v w law => ?_)
    (fun v w work => work.handle.captureBounded) (fun _ _ => Change.captureBounded) stepped law
  rw [v.writeStoreData_frame]
  exact law

/-- An empty queue has no two records and no newest one. -/
theorem seqLaw_of_empty (empty : s.cap.queue = []) : SeqLaw s := by
  rw [SeqLaw, empty]
  exact ⟨fun i x y earlier => by simp at earlier, fun x newest => nomatch newest⟩

/-- The law of the sequence numbers holds of the queue without its oldest record. -/
theorem SeqLaw.pop (law : SeqLaw s) {r : Record} {rest : List Record} (queue : s.cap.queue = r :: rest) :
    SeqLaw { s with cap := { s.cap with queue := rest, holding := some r } } := by
  obtain ⟨gaps, newest⟩ := law
  rw [queue] at gaps newest
  refine ⟨fun i x y earlier later => gaps (i + 1) x y (by simpa using earlier) (by simpa using later), ?_⟩
  intro x last
  refine newest x ?_
  have last : rest.getLast? = some x := last
  rw [List.getLast?_cons, last]
  rfl

theorem Change.seqLaw (change : Change s t) (law : SeqLaw s) : SeqLaw t := by
  cases change with
  | advance pins => exact (HandleRel.settle s).seqLaw law
  | clear _ | flush => exact seqLaw_of_empty rfl
  | unruled same => exact of_ruled (P := SeqLaw) (fun _ => .rfl) same law
  | pop r rest queue => exact law.pop queue
  | _ => exact law

theorem step_keeps_seqLaw (stepped : step s = .next t) (law : SeqLaw s) : SeqLaw t := by
  obtain ⟨-, -, -, -, -, -, -, -, -, reset, -⟩ := resetKeepsTheLaws
  refine step_keeps (P := SeqLaw) (fun _ _ => id) (fun _ _ => reset) (fun v w law => ?_)
    (fun v w work => work.handle.seqLaw) (fun _ _ => Change.seqLaw) stepped law
  rw [v.writeStoreData_frame]
  exact law

/-- Settles O59, law by law, each by `step_keeps`. -/
theorem stepKeepsTheCaptureLaws : Obligations.StepKeepsTheCaptureLaws :=
  fun _ _ stepped => ⟨step_keeps_captureBounded stepped, step_keeps_seqLaw stepped⟩

/-! ### The same-due counts (R78) -/

theorem Change.sameDueLaw (change : Change s t) (law : SameDueLaw s) : SameDueLaw t := by
  cases change with
  | advance pins => exact fun p => (HandleRel.settle s).sameDue p (law p)
  | clear _ =>
    intro p
    rw [State.slot, State.clearBlocks, getElem_tabulate]
    exact law p
  | unruled same => exact of_ruled (P := SameDueLaw) (fun _ => .rfl) same law
  | armed w b =>
    intro p
    simp only [State.slot, State.setArmed, getElem_tabulate]
    split <;> exact law p
  | _ => exact law

theorem step_keeps_sameDueLaw (stepped : step s = .next t) (law : SameDueLaw s) : SameDueLaw t := by
  obtain ⟨-, -, -, -, -, -, reset, -⟩ := resetKeepsTheLaws
  refine step_keeps (P := SameDueLaw) (fun _ _ => id) (fun _ _ => reset) (fun v w law => ?_)
    (fun v w work law p => work.handle.sameDue p (law p)) (fun _ _ => Change.sameDueLaw) stepped law
  rw [v.writeStoreData_frame]
  exact law

/-! ### The form of the pages (R44, R54) -/

/-- The contents of both pages are the same. -/
def SamePages (s t : State) : Prop := t.store.pageA = s.store.pageA ∧ t.store.pageB = s.store.pageB

theorem HandleRel.samePages (h : HandleRel s t) : SamePages s t := ⟨h.pageA, h.pageB⟩

theorem Change.samePages (change : Change s t) : SamePages s t := by
  cases change with
  | advance pins => exact (HandleRel.settle s).samePages
  | unruled same => exact ⟨congrArg (fun v => v.store.pageA) same, congrArg (fun v => v.store.pageB) same⟩
  | _ => exact ⟨rfl, rfl⟩

theorem SamePages.pagesWf (same : SamePages s t) (law : PagesWf s) : PagesWf t := by
  rw [PagesWf, same.1, same.2]
  exact law

theorem PagesWf.setPage (law : PagesWf s) (g : Page) {m : PageMem} (formed : Memory.wf m) :
    PagesWf { s with store := s.store.setPage g m } := by
  cases g with
  | a => exact ⟨formed, law.2⟩
  | b => exact ⟨law.1, formed⟩

theorem PagesWf.page (law : PagesWf s) (g : Page) : Memory.wf (s.store.page g) := by
  cases g with
  | a => exact law.1
  | b => exact law.2

theorem PagesWf.writeStoreData (law : PagesWf s) (w : Word) : PagesWf (s.writeStoreData w) := by
  simp only [State.writeStoreData]
  split
  · exact law
  · next within =>
    split
    · exact law
    · exact law.setPage _ (Memory.wf_write (law.page _) (Nat.lt_of_not_le within) w)

theorem step_keeps_pagesWf (stepped : step s = .next t) (law : PagesWf s) : PagesWf t :=
  step_keeps (P := PagesWf) (fun _ _ => id) (fun _ _ => ⟨Memory.wf_nil, Memory.wf_nil⟩)
    (fun _ w law => law.writeStoreData w) (fun _ _ work => work.handle.samePages.pagesWf)
    (fun _ _ change => change.samePages.pagesWf) stepped law

theorem Moves.samePages (moves : Moves s t) : SamePages s t :=
  moves.keeps (P := SamePages s)
    (fun move before => by
      have after := move.elim (fun work => work.handle.samePages) Change.samePages
      exact ⟨after.1.trans before.1, after.2.trans before.2⟩)
    ⟨rfl, rfl⟩

/-! ### The candidate and divide counts (R112, R144) -/

theorem Change.candidateLaw (change : Change s t) (law : CandidateLaw s) : CandidateLaw t := by
  cases change with
  | advance pins => exact fun n => (HandleRel.settle s).candidate n (law n)
  | clear _ =>
    intro n
    simp only [State.line, State.clearBlocks, Inputs.clear, getElem_tabulate]
    exact Nat.zero_le _
  | unruled same => exact of_ruled (P := CandidateLaw) (fun _ => .rfl) same law
  | lineCfg n w =>
    intro m
    rw [State.writeLineCfg, State.line_setLine]
    split
    · exact Nat.zero_le _
    · exact law m
  | _ => exact law

theorem step_keeps_candidateLaw (stepped : step s = .next t) (law : CandidateLaw s) : CandidateLaw t := by
  obtain ⟨-, -, -, -, -, -, -, -, -, -, reset, -⟩ := resetKeepsTheLaws
  refine step_keeps (P := CandidateLaw) (fun _ _ => id) (fun _ _ => reset) (fun v w law => ?_)
    (fun v w work law n => work.handle.candidate n (law n)) (fun _ _ => Change.candidateLaw) stepped law
  rw [v.writeStoreData_frame]
  exact law

theorem DivideLaw.setEntryAt (law : DivideLaw s) {k : Fin 8} {x : PatternEntry}
    (counted : (s.entryAt k).counter ≤ (s.entryAt k).divide.toNat → x.counter ≤ x.divide.toNat) :
    DivideLaw (s.setEntryAt k x) := by
  intro j
  rw [State.entryAt_setEntryAt]
  split
  · exact counted (law k)
  · exact law j

theorem Change.divideLaw (change : Change s t) (law : DivideLaw s) : DivideLaw t := by
  cases change with
  | advance pins => exact fun k => (HandleRel.settle s).divide k (law k)
  | clear _ =>
    intro k
    simp only [State.entryAt, State.clearBlocks, Patterns.clear, getElem_tabulate]
    exact Nat.zero_le _
  | unruled same => exact of_ruled (P := DivideLaw) (fun _ => .rfl) same law
  | maskValue k value w _ =>
    cases value <;> exact law.setEntryAt id
  | pctrl k w _ => exact law.setEntryAt fun _ => Nat.zero_le _
  | _ => exact law

theorem step_keeps_divideLaw (stepped : step s = .next t) (law : DivideLaw s) : DivideLaw t := by
  obtain ⟨-, -, -, -, -, -, -, -, -, -, -, reset, -⟩ := resetKeepsTheLaws
  refine step_keeps (P := DivideLaw) (fun _ _ => id) (fun _ _ => reset) (fun v w law => ?_)
    (fun v w work law k => work.handle.divide k (law k)) (fun _ _ => Change.divideLaw) stepped law
  rw [v.writeStoreData_frame]
  exact law

/-! ### The queue of commands, and the pages command by command -/

theorem Change.pending (change : Change s t) : t.pending = s.pending := by
  cases change with
  | advance pins => exact (HandleRel.settle s).pending
  | unruled same => exact congrArg (fun v => v.pending) same
  | _ => rfl

theorem Moves.pending (moves : Moves s t) : t.pending = s.pending :=
  moves.keeps (P := fun v => v.pending = s.pending)
    (fun move before => (move.elim (fun work => work.handle.pending) Change.pending).trans before) rfl

/-- Settles O6: the three forms of a command (`exec_of_resets`, `exec_of_storesData`, `exec_moves`). -/
theorem everyCommandGoesAndKeepsTheQueue : Obligations.EveryCommandGoesAndKeepsTheQueue := by
  intro c s
  cases resets : Instr.resets c with
  | true =>
    obtain ⟨t, next, ⟨p, rfl⟩ | rfl⟩ := exec_of_resets resets s
    · exact ⟨_, next, rfl⟩
    · exact ⟨_, next, rfl⟩
  | false =>
    cases stores : Instr.storesData c with
    | some w =>
      refine ⟨_, exec_of_storesData stores s, ?_⟩
      rw [State.whenReady]
      split
      · rw [s.writeStoreData_frame]
      · rfl
    | none =>
      obtain ⟨t, next, moves⟩ := exec_moves c s resets stores
      exact ⟨t, next, moves.pending⟩

theorem Instr.resets_iff {c : Instr} :
    Instr.resets c = true ↔ c = .reset ∨ c = .resetRelease ∨ c = .initialisationEnd := by
  cases c <;> simp [Instr.resets]

theorem Instr.eq_of_storesData {c : Instr} {w : Word} (stores : Instr.storesData c = some w) :
    c = .storeDataWrite w ∨ c = .registerWrite 0x69 w := by
  cases c with
  | storeDataWrite v => exact .inl (congrArg _ (Option.some.inj stores))
  | registerWrite a v =>
    obtain ⟨rfl, written⟩ := Option.ite_none_right_eq_some.mp stores
    exact .inr (congrArg _ (Option.some.inj written))
  | _ => exact nomatch stores

/-- A write of STORE_DATA that changes a page finds it addressed, OPEN and not the target of a pending swap (R54). -/
theorem State.writeStoreData_page {w : Word} {g : Page} (changed : (s.writeStoreData w).store.page g ≠ s.store.page g) :
    s.store.addrPage = g ∧ s.store.stateOf g = .open_ ∧ s.store.swap = none := by
  have advanced (v : State) : v.advanceAddr.store.page g = v.store.page g := by cases g <;> rfl
  simp only [State.writeStoreData, advanced] at changed
  split at changed
  · exact absurd rfl changed
  · split at changed
    · exact absurd rfl changed
    · next unlocked =>
      have addressed : s.store.addrPage = g := by
        refine Classical.byContradiction fun other => changed ?_
        cases page : s.store.addrPage <;> cases g <;> simp_all [Store.setPage, Store.page]
      rw [Store.locked, addressed, Bool.not_eq_true, Bool.or_eq_false_iff, bne_eq_false_iff_eq,
        Option.isSome_eq_false_iff, Option.isNone_iff_eq_none] at unlocked
      exact ⟨addressed, unlocked⟩

/-- Settles O40: elementary changes leave the pages as they are (`Moves.samePages`). -/
theorem pageContentsChangeOnlyWhenWritable : Obligations.PageContentsChangeOnlyWhenWritable := by
  intro c s t g next changed
  cases resets : Instr.resets c with
  | true => exact (Instr.resets_iff.mp resets).imp_right fun h => h.imp_right .inl
  | false =>
    cases stores : Instr.storesData c with
    | some w =>
      obtain rfl := Host.Outcome.next.inj ((exec_of_storesData stores s).symm.trans next)
      rw [State.whenReady] at changed
      split at changed
      · obtain ⟨addressed, open_, noSwap⟩ := State.writeStoreData_page changed
        exact .inr (.inr (.inr ⟨addressed, open_, noSwap, w, Instr.eq_of_storesData stores⟩))
      · exact absurd rfl changed
    | none =>
      obtain ⟨u, moved, moves⟩ := exec_moves c s resets stores
      obtain rfl := Host.Outcome.next.inj (moved.symm.trans next)
      obtain ⟨pageA, pageB⟩ := moves.samePages
      cases g with
      | a => exact absurd pageA changed
      | b => exact absurd pageB changed

end Sys2Proof.Machine
end

section
/-! PROOFS. The held vector and the match states, kept by every step (R112, R139 to R142, R144). -/

namespace Sys2Proof.Machine

variable {s t u : State}

/-! ### What the law of the pattern table looks at -/

/-- The law of the pattern table sees no difference between the two states. -/
structure SameInputs (s t : State) : Prop where
  sampleDue : t.adv.sampleDue = s.adv.sampleDue
  edges : t.adv.edges = s.adv.edges
  eval : t.adv.eval = s.adv.eval
  pat : t.pat = s.pat
  lines : t.inp.lines = s.inp.lines

namespace SameInputs

theorem refl (s : State) : SameInputs s s := ⟨rfl, rfl, rfl, rfl, rfl⟩

theorem trans (h : SameInputs s t) (k : SameInputs t u) : SameInputs s u :=
  ⟨k.sampleDue.trans h.sampleDue, k.edges.trans h.edges, k.eval.trans h.eval, k.pat.trans h.pat,
    k.lines.trans h.lines⟩

theorem ite {c : Prop} [Decidable c] (yes : SameInputs s t) (no : SameInputs s u) :
    SameInputs s (if c then t else u) := by
  split
  · exact yes
  · exact no

theorem countSingle (s : State) (r : Fin 4) : SameInputs s (s.countSingle r) := by
  simp only [State.countSingle]
  split
  · split
    · split <;> exact ⟨rfl, rfl, rfl, rfl, rfl⟩
    · exact ⟨rfl, rfl, rfl, rfl, rfl⟩
  · exact ⟨rfl, rfl, rfl, rfl, rfl⟩

theorem countPair (s : State) (r : Fin 4) : SameInputs s (s.countPair r) := by
  simp only [State.countPair]
  split
  · split
    · split <;> exact ⟨rfl, rfl, rfl, rfl, rfl⟩
    · exact ⟨rfl, rfl, rfl, rfl, rfl⟩
  · exact ⟨rfl, rfl, rfl, rfl, rfl⟩

theorem countUnit (s : State) (r : Fin 4) : SameInputs s (s.countUnit r) := by
  cases pair : s.cascaded r with
  | false =>
    rw [State.countUnit_of_single pair]
    exact ite (countSingle s r) (refl s)
  | true =>
    cases odd : isOdd r with
    | false => rw [State.countUnit_of_even pair odd]; exact refl s
    | true =>
      rw [State.countUnit_of_odd pair odd]
      exact ite ((ite (countPair s r) (refl s)).trans ⟨rfl, rfl, rfl, rfl, rfl⟩) (ite (countPair s r) (refl s))

theorem countSources (s : State) : SameInputs s s.countSources :=
  foldl_keeps (P := SameInputs s) (fun v r before => before.trans (ite (countUnit v r) (refl v))) _ (refl s)

theorem takeSwapPoint (s : State) (r : Fin 4) : SameInputs s (s.takeSwapPoint r) := by
  rw [State.takeSwapPoint]
  split
  · exact refl s
  · refine ite (refl s) (ite ?_ ?_) <;> exact ⟨rfl, rfl, rfl, rfl, rfl⟩

end SameInputs

theorem ChainRel.sameInputs (h : ChainRel s t) : SameInputs s t :=
  ⟨congrArg Advance.sampleDue h.adv, congrArg Advance.edges h.adv, congrArg Advance.eval h.adv, h.pat, h.lines⟩

theorem SameInputs.takeUnitLaunch (s : State) (r : Fin 4) : SameInputs s (s.takeUnitLaunch r) := by
  have setExpiry (v : State) (x : Option Expiry) : SameInputs v (v.setExpiry r x) := ⟨rfl, rfl, rfl, rfl, rfl⟩
  cases expired : s.adv.expiry[r] with
  | none => rw [State.takeUnitLaunch_of_none expired]; exact refl s
  | some x =>
    cases left : x.left with
    | nil => rw [State.takeUnitLaunch_of_nil expired left]; exact (takeSwapPoint s r).trans (setExpiry _ _)
    | cons q qs =>
      rw [State.takeUnitLaunch_of_cons expired left]
      exact ((takeSwapPoint s r).trans (setExpiry _ _)).trans (ChainRel.launchIf _ _ _ _).sameInputs

theorem SameInputs.takeDueEntry (s : State) : SameInputs s s.takeDueEntry := by
  rw [State.takeDueEntry]
  split
  · exact refl s
  · refine ite (SameInputs.trans ?_ (ChainRel.chain _ _).sameInputs) (refl s)
    exact ⟨rfl, rfl, rfl, rfl, rfl⟩

theorem SameInputs.closeWindows (s : State) : SameInputs s s.closeWindows := by
  rw [State.closeWindows]
  exact ite ⟨rfl, rfl, rfl, rfl, rfl⟩ (refl s)

/-! ### The stable vector -/

theorem Inputs.stableVector_congr {i j : Inputs} (same : ∀ k : Fin 16, i.lines[k].stable = j.lines[k].stable) :
    i.stableVector = j.stableVector :=
  congrArg maskOf (funext same)

/-! ### The law, part by part -/

/-- The law while no evaluation is in progress. -/
theorem patternLaw_of_none (none : s.adv.eval = .none) :
    PatternLaw s ↔ (s.adv.sampleDue = true → s.adv.edges = []) ∧ s.pat.held = s.inp.stableVector ∧
      ∀ k, (s.entryAt k).matched = (s.entryAt k).matches s.pat.held := by
  rw [PatternLaw, none]
  exact and_congr_left' ⟨fun h due => (h due).2, fun h due => ⟨rfl, h due⟩⟩

/-- The law while an evaluation is in progress. -/
theorem patternLaw_of_some {x : Evaluation} (eval : s.adv.eval = some x) :
    PatternLaw s ↔ s.adv.sampleDue = false ∧ x.vector = s.inp.stableVector ∧ x.left.Nodup ∧
      ∀ k, (s.entryAt k).matched = (s.entryAt k).matches (if k ∈ x.left then s.pat.held else x.vector) := by
  rw [PatternLaw, eval]
  refine and_congr_left' ⟨fun h => ?_, fun h due => absurd due (by simp [h])⟩
  cases due : s.adv.sampleDue with
  | false => rfl
  | true => exact nomatch (h due).1

theorem SameInputs.patternLaw (h : SameInputs s t) (law : PatternLaw s) : PatternLaw t := by
  obtain ⟨sampleDue, edges, eval, pat, lines⟩ := h
  rw [PatternLaw, Inputs.stableVector] at law ⊢
  simp only [State.entryAt] at law ⊢
  rw [sampleDue, edges, eval, pat, lines]
  exact law

theorem PatternLaw.idle_eval (law : PatternLaw s) (idle : InputsIdle s) : s.adv.eval = none :=
  idle.elim (fun due => (law.1 due).1) And.right

theorem PatternLaw.sampleAll (law : PatternLaw s) (due : s.adv.sampleDue = true) : PatternLaw s.sampleAll := by
  obtain ⟨-, held, matched⟩ := (patternLaw_of_none (law.1 due).1).mp law
  have eval : s.sampleAll.adv.eval =
      if (List.finRange 16).any fun k => s.sampleAll.inp.lines[k].stable != s.inp.lines[k].stable then
        some { vector := s.sampleAll.inp.stableVector, left := List.finRange 8 }
      else none := rfl
  split at eval
  case isTrue =>
    refine (patternLaw_of_some eval).mpr ⟨rfl, rfl, List.nodup_finRange 8, fun k => ?_⟩
    rw [if_pos (List.mem_finRange k)]
    exact matched k
  case isFalse unchanged =>
    have same : s.sampleAll.inp.stableVector = s.inp.stableVector := by
      refine Inputs.stableVector_congr fun k => ?_
      rw [List.any_eq_true, not_exists] at unchanged
      have steady := unchanged k
      simp only [List.mem_finRange, true_and, bne_iff_ne, ne_eq, Decidable.not_not] at steady
      exact steady
    exact (patternLaw_of_none eval).mpr ⟨fun due => (nomatch due), held.trans same.symm, matched⟩

theorem PatternLaw.handEdge (law : PatternLaw s) : PatternLaw s.handEdge := by
  have kept : SameInputs { s with adv := { s.adv with edges := s.adv.edges.tail } } s.handEdge := by
    rw [State.handEdge]
    split
    · next none => exact ⟨rfl, by simp [none], rfl, rfl, rfl⟩
    · next edges => rw [edges]; exact (ChainRel.produce _ _).sameInputs
  refine kept.patternLaw ⟨fun due => ?_, law.2⟩
  obtain ⟨noEval, noEdges⟩ := law.1 due
  exact ⟨noEval, by rw [noEdges]; rfl⟩

theorem State.setEntryAt_setEntryAt (s : State) (k : Fin 8) (x y : PatternEntry) :
    (s.setEntryAt k x).setEntryAt k y = s.setEntryAt k y := by
  simp only [State.setEntryAt, Vector.set_set]

theorem State.evalOne_of_no_candidate {k : Fin 8} {v : Word}
    (idle : (s.entryAt k).candidate s.pat.held v = false) :
    s.evalOne k v = s.setEntryAt k { s.entryAt k with matched := (s.entryAt k).matches v } := by
  simp only [State.evalOne, idle, Bool.false_eq_true, if_false]

theorem State.evalOne_of_counts {k : Fin 8} {v : Word} (candidate : (s.entryAt k).candidate s.pat.held v = true)
    (counts : (s.entryAt k).fires = false) :
    s.evalOne k v =
      s.setEntryAt k
        { s.entryAt k with counter := (s.entryAt k).counter + 1, matched := (s.entryAt k).matches v } := by
  simp only [State.evalOne, candidate, counts, Bool.false_eq_true, if_false, if_true, State.entryAt_setEntryAt,
    State.setEntryAt_setEntryAt]

theorem State.evalOne_of_fires {k : Fin 8} {v : Word} (candidate : (s.entryAt k).candidate s.pat.held v = true)
    (fires : (s.entryAt k).fires = true) :
    s.evalOne k v =
      let t := (s.setEntryAt k { s.entryAt k with counter := 0 }).fire k v
      t.setEntryAt k { t.entryAt k with matched := (s.entryAt k).matches v } := by
  simp only [State.evalOne, candidate, fires, if_true]

theorem ChainRel.fire (s : State) (k : Fin 8) (v : Word) : ChainRel s (s.fire k v) := by
  simp only [State.fire]
  refine ChainRel.trans ?_ (.requestIf _ _ _)
  have recorded : ChainRel s (if (s.entryAt k).record then s.produce (.pattern k v s.tl) else s) := by
    split
    · exact .produce _ _
    · exact .refl s
  split
  · exact recorded.trans (.launchNow _ _ _)
  · exact recorded

theorem State.setEntryAt_pat (same : t.pat = s.pat) (k : Fin 8) (x : PatternEntry) :
    (t.setEntryAt k x).pat = (s.setEntryAt k x).pat := by
  simp only [State.setEntryAt, same]

theorem State.entryAt_of_pat (same : t.pat = s.pat) (k : Fin 8) : t.entryAt k = s.entryAt k := by
  rw [State.entryAt, same, State.entryAt]

/-- Of the pattern table an entry's part in an evaluation changes the entry's counter and match state only (R142). -/
theorem State.evalOne_pat (s : State) (k : Fin 8) (v : Word) :
    ∃ c, (s.evalOne k v).pat =
      (s.setEntryAt k { s.entryAt k with counter := c, matched := (s.entryAt k).matches v }).pat := by
  cases candidate : (s.entryAt k).candidate s.pat.held v with
  | false => exact ⟨(s.entryAt k).counter, by rw [State.evalOne_of_no_candidate candidate]⟩
  | true =>
    cases fires : (s.entryAt k).fires with
    | false => exact ⟨_, by rw [State.evalOne_of_counts candidate fires]⟩
    | true =>
      have fired := (ChainRel.fire (s.setEntryAt k { s.entryAt k with counter := 0 }) k v).pat
      refine ⟨0, ?_⟩
      rw [State.evalOne_of_fires candidate fires]
      dsimp only
      rw [State.setEntryAt_pat fired, State.entryAt_of_pat fired, State.setEntryAt_setEntryAt,
        State.entryAt_setEntryAt, if_pos rfl]

theorem State.evalOne_lines (s : State) (k : Fin 8) (v : Word) : (s.evalOne k v).inp.lines = s.inp.lines := by
  cases candidate : (s.entryAt k).candidate s.pat.held v with
  | false => rw [State.evalOne_of_no_candidate candidate]; rfl
  | true =>
    cases fires : (s.entryAt k).fires with
    | false => rw [State.evalOne_of_counts candidate fires]; rfl
    | true =>
      rw [State.evalOne_of_fires candidate fires]
      exact (ChainRel.fire (s.setEntryAt k { s.entryAt k with counter := 0 }) k v).lines

/-- The entry at the front takes its part: it has the match state of the vector evaluated from then on. -/
theorem PatternLaw.evalOne {v : Word} {k : Fin 8} {ks : List (Fin 8)} (law : PatternLaw s)
    (eval : s.adv.eval = some { vector := v, left := k :: ks }) :
    PatternLaw (({ s with adv := { s.adv with eval := some { vector := v, left := ks } } } : State).evalOne k v) := by
  obtain ⟨taken, stable, nodup, matched⟩ := (patternLaw_of_some eval).mp law
  obtain ⟨notLater, nodup⟩ := List.nodup_cons.mp nodup
  generalize next : ({ s with adv := { s.adv with eval := some { vector := v, left := ks } } } : State) = u
  have adv : (u.evalOne k v).adv = { s.adv with eval := some { vector := v, left := ks } } := by
    rw [State.evalOne_adv, ← next]
  have lines : (u.evalOne k v).inp.lines = s.inp.lines := by rw [State.evalOne_lines, ← next]
  obtain ⟨c, pat⟩ := u.evalOne_pat k v
  have entries (j : Fin 8) : (u.evalOne k v).entryAt j =
      if j = k then { s.entryAt k with counter := c, matched := (s.entryAt k).matches v } else s.entryAt j := by
    rw [State.entryAt, pat, ← next]
    exact State.entryAt_setEntryAt _ _ _ _
  refine (patternLaw_of_some (by rw [adv])).mpr ⟨by rw [adv]; exact taken, ?_, nodup, fun j => ?_⟩
  · rw [Inputs.stableVector, lines]
    exact stable
  · have held : (u.evalOne k v).pat.held = s.pat.held := by rw [pat, ← next]; rfl
    rw [entries, held]
    split
    · next same =>
      rw [same, if_neg notLater]
      rfl
    · next other =>
      rw [matched j]
      simp only [List.mem_cons, other, false_or]

/-- After the last entry the held vector is the vector evaluated. -/
theorem PatternLaw.endEval {v : Word} (law : PatternLaw s) (eval : s.adv.eval = some { vector := v, left := [] }) :
    PatternLaw (s.endEval v) := by
  obtain ⟨taken, stable, -, matched⟩ := (patternLaw_of_some eval).mp law
  refine (patternLaw_of_none rfl).mpr ⟨fun due => absurd due (by simp [State.endEval, taken]), stable, fun k => ?_⟩
  have own := matched k
  rw [if_neg List.not_mem_nil] at own
  exact own

theorem PatternLaw.takePatternEntry (law : PatternLaw s) : PatternLaw s.takePatternEntry := by
  by_cases noEdges : s.adv.edges = []
  case neg => rwa [State.takePatternEntry, if_neg noEdges]
  case pos =>
    cases eval : s.adv.eval with
    | none => rwa [State.takePatternEntry_of_none eval]
    | some x =>
      obtain ⟨v, left⟩ := x
      cases left with
      | nil =>
        rw [State.takePatternEntry_of_nil noEdges eval]
        exact law.endEval eval
      | cons k ks =>
        rw [State.takePatternEntry_of_cons noEdges eval]
        have evaluated := law.evalOne eval
        dsimp only
        split
        · next last =>
          refine evaluated.endEval ?_
          rw [State.evalOne_adv, last]
        · exact evaluated

theorem PatternLaw.runJob (j : Job) (s : State) (law : PatternLaw s) : PatternLaw (runJob j s) := by
  cases j with
  | entry => exact (SameInputs.takeDueEntry s).patternLaw law
  | count u => exact (SameInputs.countUnit s u).patternLaw law
  | swapPoint u => exact (SameInputs.takeSwapPoint s u).patternLaw law
  | unitLaunch u => exact (SameInputs.takeUnitLaunch s u).patternLaw law
  | sample =>
    have counted := SameInputs.countSources s
    change PatternLaw s.takeSample
    rw [State.takeSample]
    split
    · next due => exact (counted.patternLaw law).sampleAll (counted.sampleDue.trans due)
    · exact law
  | edge => exact law.handEdge
  | patternEntry => exact law.takePatternEntry
  | closeWindows => exact (SameInputs.closeWindows s).patternLaw law

theorem Handled.patternLaw (handled : Handled s t) (law : PatternLaw s) : PatternLaw t :=
  handled.keeps PatternLaw.runJob law

/-! ### The changes of an access -/

theorem PatternLaw.beginAdvance (law : PatternLaw s) (pins : Word) : PatternLaw (s.settle.beginAdvance pins) := by
  obtain ⟨-, held, matched⟩ := (patternLaw_of_none s.settle_settled.eval).mp ((Handled.settle s).patternLaw law)
  exact (patternLaw_of_none rfl).mpr ⟨fun _ => rfl, held, matched⟩

theorem PatternLaw.clearBlocks (law : PatternLaw s) (idle : InputsIdle s) : PatternLaw s.clearBlocks := by
  have noEval := law.idle_eval idle
  obtain ⟨due, held, -⟩ := (patternLaw_of_none noEval).mp law
  refine (patternLaw_of_none (s := s.clearBlocks) noEval).mpr ⟨due, held.trans ?_, fun k => ?_⟩
  · refine Inputs.stableVector_congr fun k => ?_
    simp only [State.clearBlocks, Inputs.clear, getElem_tabulate]
  · simp only [State.entryAt, State.clearBlocks, Patterns.clear, getElem_tabulate]
    rfl

theorem PatternLaw.writeLineCfg (law : PatternLaw s) (n : Fin 16) (w : Word) : PatternLaw (s.writeLineCfg n w) := by
  have stable : (s.writeLineCfg n w).inp.stableVector = s.inp.stableVector := by
    refine Inputs.stableVector_congr fun k => ?_
    have written : (s.writeLineCfg n w).inp.lines[k] = if k = n then (s.line n).configure w else s.line k :=
      State.line_setLine s n k _
    rw [written]
    split
    · next same => rw [same]; rfl
    · rfl
  rw [PatternLaw, stable]
  exact law

/-- A write that recomputes the match state of its entry keeps the law, while no evaluation is in progress. -/
theorem PatternLaw.rematch (law : PatternLaw s) (idle : InputsIdle s) (k : Fin 8) (e : PatternEntry) :
    PatternLaw (s.setEntryAt k (e.rematch s.pat.held)) := by
  have noEval := law.idle_eval idle
  obtain ⟨due, held, matched⟩ := (patternLaw_of_none noEval).mp law
  refine (patternLaw_of_none (s := s.setEntryAt k _) noEval).mpr ⟨due, held, fun j => ?_⟩
  rw [State.entryAt_setEntryAt]
  split
  · rfl
  · exact matched j

theorem Work.patternLaw (work : Work s t) (law : PatternLaw s) : PatternLaw t := by
  cases work with
  | job j => exact law.runJob j
  | applyLate e _ => exact (ChainRel.chain _ s).sameInputs.patternLaw law
  | launch src q => exact (ChainRel.launchNow s src q).sameInputs.patternLaw law
  | endRun q => exact (ChainRel.endRun s q .aborted).sameInputs.patternLaw law

theorem Change.patternLaw (change : Change s t) (law : PatternLaw s) : PatternLaw t := by
  cases change with
  | advance pins => exact law.beginAdvance pins
  | clear idle => exact law.clearBlocks idle
  | unruled same => exact of_ruled (P := PatternLaw) (fun _ => .rfl) same law
  | lineCfg n w => exact law.writeLineCfg n w
  | maskValue k value w idle => exact law.rematch idle k _
  | pctrl k w idle => exact law.rematch idle k _
  | _ => exact law

theorem step_keeps_patternLaw (stepped : step s = .next t) (law : PatternLaw s) : PatternLaw t := by
  obtain ⟨-, -, -, -, -, -, -, -, -, -, -, -, reset⟩ := resetKeepsTheLaws
  refine step_keeps (P := PatternLaw) (fun _ _ => id) (fun _ _ => reset) (fun v w law => ?_)
    (fun _ _ => Work.patternLaw) (fun _ _ => Change.patternLaw) stepped law
  rw [v.writeStoreData_frame]
  exact law

/-- Settles O60, law by law, each by `step_keeps`. -/
theorem stepKeepsTheInputLaws : Obligations.StepKeepsTheInputLaws :=
  fun _ _ stepped =>
    ⟨step_keeps_candidateLaw stepped, step_keeps_divideLaw stepped, step_keeps_patternLaw stepped⟩

end Sys2Proof.Machine
end

section
/-! PROOFS. What a chain does to the runs, the list and the bindings, said once (`Runs`), and what follows: every
chain ends within its fuel (R31, R78), and every step keeps one entry for each run and the bindings (R24, R48, R65). -/

namespace Sys2Proof.Machine

variable {s t u : State}

/-! ### The states between which a chain makes no difference to the runs -/

/-- The runs, the list and the store are the same, at the same time. -/
structure SameRuns (s t : State) : Prop where
  tb : t.tb = s.tb
  slots : t.slots = s.slots
  pel : t.sched.pel = s.sched.pel
  store : t.store = s.store

namespace SameRuns

theorem refl (s : State) : SameRuns s s := ⟨rfl, rfl, rfl, rfl⟩

theorem trans (h : SameRuns s t) (k : SameRuns t u) : SameRuns s u :=
  ⟨k.tb.trans h.tb, k.slots.trans h.slots, k.pel.trans h.pel, k.store.trans h.store⟩

theorem request (s : State) (c : EventClass) : SameRuns s (s.request c) := ⟨rfl, rfl, rfl, rfl⟩

theorem requestIf (s : State) (b : Bool) (c : EventClass) : SameRuns s (s.requestIf b c) := by
  rw [State.requestIf]
  split
  · exact request s c
  · exact refl s

theorem produce (s : State) (h : Happening) : SameRuns s (s.produce h) := by
  simp only [State.produce]
  have taken : SameRuns s { s with cap := s.cap.take h } := ⟨rfl, rfl, rfl, rfl⟩
  split
  · exact taken.trans (requestIf _ _ _)
  · exact taken.trans (request _ _)

theorem outputEvent (s : State) (f : Outputs → Outputs) : SameRuns s (s.outputEvent f) := by
  rw [State.outputEvent_eq]
  exact ⟨rfl, rfl, rfl, rfl⟩

theorem setLines (s : State) (m : Word) : SameRuns s (s.setLines m) := by
  rw [State.setLines]
  exact outputEvent s _

theorem clrLines (s : State) (m : Word) : SameRuns s (s.clrLines m) := by
  rw [State.clrLines]
  exact outputEvent s _

theorem toggleLines (s : State) (m : Word) : SameRuns s (s.toggleLines m) := by
  rw [State.toggleLines]
  exact outputEvent s _

theorem startUnit (s : State) (v : Fin 4) : SameRuns s (s.startUnit v) := by
  simp only [State.startUnit, State.reloadOddHalf]
  split
  · exact refl s
  · split <;> exact ⟨rfl, rfl, rfl, rfl⟩

theorem stopUnit (s : State) (v : Fin 4) : SameRuns s (s.stopUnit v) := by
  rw [State.stopUnit]
  split
  · exact refl s
  · exact ⟨rfl, rfl, rfl, rfl⟩

end SameRuns

/-! ### The elementary changes of the runs -/

/-- The run `r` leaves slot `p`: its entry and its binding go (R40, R50). -/
def State.leave (p : Fin 8) (r : Run) (s : State) : State :=
  { (s.setSlot p { s.slot p with run := none }).removeRun p with
    store := s.store.setBound r.page (s.store.bound r.page - 1) }

/-- The run `r` is bound to the ACTIVE page, in slot `q` (R72). -/
def State.bindRun (q : Fin 8) (r : Run) (armed : Bool) (s : State) : State :=
  s.bindActive.setSlot q { s.slot q with run := some r, bindId := (s.slot q).bindId + 1, armed := armed }

/-- The run of programme `q` as a launch now would bind it (R72). -/
def State.firstRun (q : Fin 8) (s : State) : Run :=
  let d := s.descriptor s.store.active q
  { page := s.store.active, step := d.first, passes := d.repeats, launchTime := s.tl, applied := 0,
    launchPending := false }

/-- The origins of the entries of slot `p` in the list. -/
def State.originsOf (s : State) (p : Fin 8) : List Origin :=
  (s.sched.pel.filter fun e => e.isRun p).map Entry.origin

/-- How many steps a slot may still apply at timeline value `n` (R78). -/
def Slot.credit (n : Time) (x : Slot) : Nat := if x.dueTime = n then sameDueMax - x.dueCount else sameDueMax

/-- For each slot the number of its binds, and whether the current step of its run is out of the list, on its way
through the scheduler and back to the run controller (R27, R30). -/
abbrev Ghost := Fin 8 → Nat × Bool

/-- The ghost with `x` for slot `p`. -/
def Ghost.update (G : Ghost) (p : Fin 8) (x : Nat × Bool) : Ghost := fun q => if q = p then x else G q

theorem Ghost.update_apply (G : Ghost) (p : Fin 8) (x : Nat × Bool) (q : Fin 8) :
    G.update p x q = if q = p then x else G q := rfl

theorem Ghost.update_self (G : Ghost) (p : Fin 8) : G.update p (G p) = G := by
  funext q
  rw [Ghost.update_apply]
  split
  · next same => rw [same]
  · rfl

/-- The ghost of slot `p` with its step in the list, or out of it. -/
def Ghost.setOut (G : Ghost) (p : Fin 8) (b : Bool) : Ghost := G.update p ((G p).1, b)

/-- The ghost after a bind in slot `q`: the first step of the new run is still to be offered. -/
def Ghost.bind (G : Ghost) (q : Fin 8) : Ghost := G.update q ((G q).1 + 1, true)

/-- Everything that a chain does to the runs, the list and the bindings. -/
inductive Runs : Ghost → State → Ghost → State → Prop
  | same (G : Ghost) {s t : State} (h : SameRuns s t) : Runs G s G t
  | trans {G H K : Ghost} {s t u : State} : Runs G s H t → Runs H t K u → Runs G s K u
  | leave (G : Ghost) {s : State} {p : Fin 8} {r : Run} (running : (s.slot p).run = some r) :
      Runs G s G (s.leave p r)
  /-- the entry of a slot that has no run is taken out, if there is one (R40) -/
  | purge (G : Ghost) {s : State} {p : Fin 8} (idle : (s.slot p).run = none) : Runs G s G (s.removeRun p)
  /-- a run is bound to the ACTIVE page (R72) -/
  | bind (G : Ghost) {s : State} {q : Fin 8} {r : Run} (armed : Bool) (idle : (s.slot q).run = none)
      (page : r.page = s.store.active) :
      Runs G s (G.bind q) (s.bindRun q r armed)
  /-- a slot changes, but its run keeps its page and its step, and no step is refunded -/
  | adjust (G : Ghost) {s : State} {p : Fin 8} {x : Slot}
      (run : x.run.map (fun r => (r.page, r.step)) = (s.slot p).run.map fun r => (r.page, r.step))
      (bindId : x.bindId = (s.slot p).bindId) (credit : x.credit s.tl ≤ (s.slot p).credit s.tl) :
      Runs G s G (s.setSlot p x)
  /-- a run goes to another step, whose entry is still to be offered (R80) -/
  | step (G : Ghost) {s : State} {p : Fin 8} {r x : Run} (out : (G p).2 = true) (running : (s.slot p).run = some r)
      (page : x.page = r.page) : Runs G s G (s.setSlot p { s.slot p with run := some x })
  /-- the step of a run is put into the list (R81) -/
  | insert (G : Ghost) {s : State} {p : Fin 8} {r : Run} {e : Entry} (out : (G p).2 = true)
      (running : (s.slot p).run = some r) (origin : e.origin = .run p r.step) :
      Runs G s (G.setOut p false) (s.insertEntry e)
  /-- a slot that has no run has no step that is in the list or out of it -/
  | forget (G : Ghost) {s : State} {p : Fin 8} (b : Bool) (idle : (s.slot p).run = none) :
      Runs G s (G.setOut p b) s

theorem Runs.refl (G : Ghost) (s : State) : Runs G s G s := .same G (.refl s)

/-! ### The operations of the run controller -/

section
variable {G : Ghost} {p q : Fin 8} {r : Run}

theorem State.endRun_of_idle (idle : (s.slot p).run = none) (why : EndReason) : s.endRun p why = ([], s) := by
  simp only [State.endRun, idle]

theorem State.endRun_of_running (running : (s.slot p).run = some r) (why : EndReason) :
    s.endRun p why =
      (if why == .complete && r.launchPending then [.launch .queued p] else [],
        let t := ((s.setSlot p { s.slot p with run := none }).removeRun p).request .runend
        (if (s.descriptor r.page p).reportEnd then t.produce (.runEnd p why r.applied s.tl) else t).dropBinding
          r.page) := by
  simp only [State.endRun, running]

theorem SameRuns.dropBinding (g : Page) (n : Nat) (bound : s.store.bound g = n) :
    SameRuns { s with store := s.store.setBound g (n - 1) } (s.dropBinding g) := by
  subst bound
  exact SameRuns.requestIf _ _ _

/-- A run that has left but for its binding, which then drops. -/
theorem SameRuns.leave (left : SameRuns ((s.setSlot p { s.slot p with run := none }).removeRun p) t) (r : Run) :
    SameRuns (s.leave p r) (t.dropBinding r.page) := by
  obtain ⟨tb, slots, pel, store⟩ := left
  have dropped := SameRuns.dropBinding (s := t) r.page _ rfl
  exact ⟨dropped.tb.trans tb, dropped.slots.trans slots, dropped.pel.trans pel,
    dropped.store.trans (by rw [store]; rfl)⟩

theorem Runs.endRun (G : Ghost) (s : State) (p : Fin 8) (why : EndReason) : Runs G s G (s.endRun p why).2 := by
  cases run : (s.slot p).run with
  | none => rw [State.endRun_of_idle run]; exact .refl G s
  | some r =>
    rw [State.endRun_of_running run]
    have ended : SameRuns ((s.setSlot p { s.slot p with run := none }).removeRun p)
        (((s.setSlot p { s.slot p with run := none }).removeRun p).request .runend) := .request _ _
    refine (Runs.leave G run).trans (.same G (SameRuns.leave ?_ r))
    dsimp only
    split
    · exact ended.trans (.produce _ _)
    · exact ended

theorem Runs.faultRun (G : Ghost) (s : State) (p : Fin 8) (why : FaultReason) (i : BitVec 7) (due : Time) :
    Runs G s G (s.faultRun p why i due) := by
  have faulted : SameRuns ((s.setSlot p { s.slot p with run := none }).removeRun p)
      ((((s.setSlot p { s.slot p with run := none }).removeRun p).produce (.fault p why i due)).request .runflt) :=
    (SameRuns.produce _ _).trans (.request _ _)
  rw [State.faultRun]
  dsimp only
  split
  · next idle =>
    have emptied : Runs G s G (s.setSlot p { s.slot p with run := none }) :=
      .adjust G (by rw [idle]) rfl (Nat.le_refl _)
    refine (emptied.trans (.purge G (p := p) ?_)).trans (.same G faulted)
    rw [State.slot_setSlot, if_pos rfl]
  · next r running => exact (Runs.leave G running).trans (.same G (faulted.leave r))

theorem Runs.perform (G : Ghost) (s : State) (e : Entry) : Runs G s G (s.perform e).2 := by
  simp only [State.perform]
  split
  · exact .refl G s
  · exact .refl G s
  · exact .same G (.setLines s _)
  · exact .same G (.clrLines s _)
  · exact .same G (.toggleLines s _)
  · exact .refl G s
  · exact .same G (.startUnit s _)
  · exact .same G (.stopUnit s _)
  · split
    · exact .refl G s
    · exact .endRun G s _ _

/-- An admitted step uses up one of the slot's steps of its due time (R78). -/
theorem Slot.credit_countStep {x : Slot} {e : Entry} (admitted : x.refusal e = none) :
    (x.countStep e.due).credit e.due + 1 ≤ x.credit e.due := by
  have limit : ¬(x.dueTime = e.due ∧ sameDueMax ≤ x.dueCount) := by
    intro looping
    rw [Slot.refusal, if_pos looping] at admitted
    split at admitted <;> exact nomatch admitted
  simp only [Slot.credit, Slot.countStep, if_true]
  by_cases same : x.dueTime = e.due
  · have below : x.dueCount < sameDueMax := Nat.lt_of_not_le fun full => limit ⟨same, full⟩
    rw [if_pos same, if_pos same]
    omega
  · rw [if_neg same, if_neg same]
    decide

theorem Runs.countStep (G : Ghost) {e : Entry} (due : e.due = s.tl) (admitted : (s.slot p).refusal e = none) :
    Runs G s G (s.setSlot p ((s.slot p).countStep e.due)) := by
  refine .adjust G ?_ rfl (due ▸ Nat.le_of_succ_le (Slot.credit_countStep admitted))
  simp only [Slot.countStep, Option.map_map]
  rfl

/-- The tasks are none, or the step `i` of slot `p` due at once. -/
def OffersAtMost (p : Fin 8) (i : BitVec 7) (n : Time) (ts : List Task) : Prop :=
  ts = [] ∨ ∃ e : Entry, e.origin = .run p i ∧ e.due = n ∧ ts = [.take e false]

/-- A delay is less than 2^16 ticks: the due time that it gives is ahead, or TL itself (R5, R31). -/
theorem due_of_not_ahead {n : Time} {d : Word} (notAhead : ¬ahead (n + d.setWidth 32) n = true) :
    n + d.setWidth 32 = n := by
  simp only [ahead, reached, Bool.not_eq_true', decide_eq_false_iff_not, Decidable.not_not] at notAhead
  bv_omega

theorem ahead_of_delay {n : Time} {d : Word} (positive : d ≠ 0) : ahead (n + d.setWidth 32) n = true := by
  simp only [ahead, reached, Bool.not_eq_true', decide_eq_false_iff_not]
  bv_omega

/-- The entry of step `i` of page `g` for slot `p`, due at `n` (R21, R81). -/
def State.stepEntry (p : Fin 8) (g : Page) (i : BitVec 7) (n : Time) (s : State) : Entry :=
  let d := s.stepRecord g i
  { due := n + d.delay.setWidth 32, origin := .run p i, kind := d.kind, operand := d.operand, mark := d.mark }

theorem State.offer_of_running (running : (s.slot p).run = some r) (i : BitVec 7) (n : Time) :
    s.offer p i n =
      if ahead (s.stepEntry p r.page i n).due s.tl then ([], s.insertEntry (s.stepEntry p r.page i n))
      else ([.take (s.stepEntry p r.page i n) false], s) := by
  rw [State.offer, running]
  rfl

theorem State.offer_tasks (s : State) (p : Fin 8) (i : BitVec 7) : OffersAtMost p i s.tl (s.offer p i s.tl).1 := by
  cases run : (s.slot p).run with
  | none => simp only [State.offer, run]; exact .inl rfl
  | some r =>
    rw [State.offer_of_running run]
    split
    · exact .inl rfl
    · next notAhead => exact .inr ⟨_, rfl, due_of_not_ahead notAhead, rfl⟩

/-- An offer puts the step into the list, or leaves it out to be handled at once. -/
theorem Runs.offer (out : (G p).2 = true) (running : (s.slot p).run = some r) (n : Time) :
    Runs G s (G.setOut p !(s.offer p r.step n).1.isEmpty) (s.offer p r.step n).2 := by
  rw [State.offer_of_running running]
  split
  · exact .insert G out running rfl
  · have unchanged : G.setOut p true = G := by rw [Ghost.setOut, ← out]; exact G.update_self p
    rw [List.isEmpty_cons, Bool.not_false, unchanged]
    exact .refl G s

/-- What a launch of programme `q` does: nothing to the run in its slot, or a bind, whose first step goes into the list
or is due at once. -/
def Launched (G : Ghost) (s : State) (q : Fin 8) (ts : List Task) (t : State) : Prop :=
  (ts = [] ∧ Runs G s G t) ∨
    (∃ i, OffersAtMost q i s.tl ts) ∧ Runs G s ((G.bind q).setOut q !ts.isEmpty) t

/-- After a bind, the offer of the first step makes the launch complete. -/
theorem Launched.ofBind {G : Ghost} {r : Run} (bound : Runs G s (G.bind q) t) (running : (t.slot q).run = some r)
    (sameTl : t.tl = s.tl) : Launched G s q (t.offer q r.step s.tl).1 (t.offer q r.step s.tl).2 := by
  have out : (G.bind q q).2 = true := by rw [Ghost.bind, Ghost.update_apply, if_pos rfl]
  refine .inr ⟨⟨r.step, ?_⟩, bound.trans (Runs.offer out running _)⟩
  rw [← sameTl]
  exact t.offer_tasks q r.step

theorem State.bindRun_run (s : State) (q : Fin 8) (r : Run) (armed : Bool) :
    ((s.bindRun q r armed).slot q).run = some r := by
  rw [State.bindRun, State.slot_setSlot, if_pos rfl]

theorem State.startRun_of_valid (valid : (s.descriptor s.store.active q).valid = true) (src : LaunchSource)
    (silent : Bool) (ok : LaunchResult) :
    s.startRun src silent ok q =
      (ok, (s.bindRun q (s.firstRun q) (armedAfter src (s.descriptor s.store.active q) (s.slot q).armed)).offer q
        (s.firstRun q).step s.tl) := by
  rw [State.startRun]
  exact if_pos valid

theorem State.startRun_of_invalid (invalid : (s.descriptor s.store.active q).valid = false) (src : LaunchSource)
    (silent : Bool) (ok : LaunchResult) :
    s.startRun src silent ok q =
      (.badDescriptor, [], if silent then s else s.reportBadDescriptor q (s.descriptor s.store.active q)) := by
  rw [State.startRun]
  exact if_neg (Bool.eq_false_iff.mp invalid)

theorem Launched.startRun (G : Ghost) (idle : (s.slot q).run = none) (src : LaunchSource) (silent : Bool)
    (ok : LaunchResult) : Launched G s q (s.startRun src silent ok q).2.1 (s.startRun src silent ok q).2.2 := by
  cases valid : (s.descriptor s.store.active q).valid with
  | true =>
    rw [State.startRun_of_valid valid]
    exact .ofBind (.bind G _ idle rfl) (s.bindRun_run q _ _) rfl
  | false =>
    rw [State.startRun_of_invalid valid]
    refine .inl ⟨rfl, .same G ?_⟩
    dsimp only
    split
    · exact .refl s
    · exact (SameRuns.produce _ _).trans (.request _ _)

theorem Launched.after {q : Fin 8} {ts : List Task} (first : Runs G s G t) (sameTl : t.tl = s.tl)
    (launched : Launched G t q ts u) : Launched G s q ts u := by
  obtain ⟨none, runs⟩ | ⟨offered, runs⟩ := launched
  · exact .inl ⟨none, first.trans runs⟩
  · exact .inr ⟨sameTl ▸ offered, first.trans runs⟩

theorem SameRuns.dropRun (s : State) (q : Fin 8) (r : Run) : SameRuns (s.leave q r) (s.dropRun q r) :=
  SameRuns.leave (.refl _) r

theorem Runs.dropRun (G : Ghost) (running : (s.slot q).run = some r) : Runs G s G (s.dropRun q r) :=
  (Runs.leave G running).trans (.same G (.dropRun s q r))

theorem SameRuns.slot (h : SameRuns s t) (p : Fin 8) : t.slot p = s.slot p := by
  rw [State.slot, h.slots, State.slot]

theorem State.slot_leave (s : State) (p q : Fin 8) (r : Run) :
    (s.leave p r).slot q = if q = p then { s.slot p with run := none } else s.slot q :=
  State.slot_setSlot s p q _

theorem State.dropRun_run (s : State) (q : Fin 8) (r : Run) : ((s.dropRun q r).slot q).run = none := by
  rw [(SameRuns.dropRun s q r).slot, State.slot_leave, if_pos rfl]

theorem Runs.ignoreLaunch (G : Ghost) (s : State) (q : Fin 8) : Runs G s G (s.ignoreLaunch q) :=
  .adjust G rfl rfl (Nat.le_refl _)

theorem Launched.takeLaunch (G : Ghost) (s : State) (src : LaunchSource) (q : Fin 8) :
    Launched G s q (s.takeLaunch src q).2.1 (s.takeLaunch src q).2.2 := by
  simp only [State.takeLaunch]
  split
  · exact .inl ⟨rfl, .refl G s⟩
  · split
    · next idle => exact .startRun G idle _ _ _
    · next r running =>
      split
      · exact Launched.after (.dropRun G running) (ChainRel.dropRun s q r).tl (.startRun G (s.dropRun_run q r) _ _ _)
      · split
        · exact .inl ⟨rfl, .ignoreLaunch G s q⟩
        · exact .inl ⟨rfl, .adjust G (by rw [running]; rfl) rfl (Nat.le_refl _)⟩
      · exact .inl ⟨rfl, .ignoreLaunch G s q⟩

/-- An end other than COMPLETE sets off nothing (R82, R84). -/
theorem State.endRun_tasks (s : State) (p : Fin 8) (why : EndReason) :
    (s.endRun p why).1 = [] ∨ (s.endRun p why).1 = [.launch .queued p] := by
  cases run : (s.slot p).run with
  | none => rw [State.endRun_of_idle run]; exact .inl rfl
  | some r =>
    rw [State.endRun_of_running run]
    split
    · exact .inr rfl
    · exact .inl rfl

theorem State.endRun_tasks_of_ne {why : EndReason} (other : why ≠ .complete) (s : State) (p : Fin 8) :
    (s.endRun p why).1 = [] := by
  cases run : (s.slot p).run with
  | none => rw [State.endRun_of_idle run]
  | some r =>
    rw [State.endRun_of_running run, beq_false_of_ne other]
    rfl

theorem State.endRun_run (s : State) (p : Fin 8) (why : EndReason) : ((s.endRun p why).2.slot p).run = none := by
  cases run : (s.slot p).run with
  | none => rw [State.endRun_of_idle run]; exact run
  | some r =>
    have left : SameRuns (s.leave p r) (s.endRun p why).2 := by
      have ended : SameRuns ((s.setSlot p { s.slot p with run := none }).removeRun p)
        (((s.setSlot p { s.slot p with run := none }).removeRun p).request .runend) := .request _ _
      rw [State.endRun_of_running run]
      refine SameRuns.leave ?_ r
      dsimp only
      split
      · exact ended.trans (.produce _ _)
      · exact ended
    rw [left.slot, State.slot_leave, if_pos rfl]

/-- What the hand-off of a step of slot `p` does: the next step goes into the list or is due at once, or the run ends. -/
def HandedOff (G : Ghost) (s : State) (p : Fin 8) (ts : List Task) (t : State) : Prop :=
  ((∃ i, OffersAtMost p i s.tl ts) ∧ Runs G s (G.setOut p !ts.isEmpty) t) ∨
    ((ts = [] ∨ ts = [.launch .queued p]) ∧ Runs G s G t ∧ (t.slot p).run = none)

theorem HandedOff.endRun (G : Ghost) (s : State) (p : Fin 8) (why : EndReason) :
    HandedOff G s p (s.endRun p why).1 (s.endRun p why).2 :=
  .inr ⟨s.endRun_tasks p why, .endRun G s p why, s.endRun_run p why⟩

theorem HandedOff.stepTo (out : (G p).2 = true) (running : (s.slot p).run = some r) (x : Run)
    (page : x.page = r.page) :
    HandedOff G s p ((s.setSlot p { s.slot p with run := some x }).offer p x.step s.tl).1
      ((s.setSlot p { s.slot p with run := some x }).offer p x.step s.tl).2 := by
  refine .inl ⟨⟨_, State.offer_tasks (s.setSlot p { s.slot p with run := some x }) p _⟩,
    (Runs.step G out running page).trans (Runs.offer out ?_ _)⟩
  rw [State.slot_setSlot, if_pos rfl]

theorem HandedOff.advanceRun (out : (G p).2 = true) (running : (s.slot p).run = some r) (i : BitVec 7) :
    HandedOff G s p (s.advanceRun p i r).1 (s.advanceRun p i r).2 := by
  simp only [State.advanceRun]
  split
  · exact .stepTo out running { r with step := i + 1 } rfl
  · split
    · exact .stepTo out running { r with step := (s.descriptor r.page p).first } rfl
    · split
      · exact .endRun G s p .complete
      · exact .stepTo out running { r with step := (s.descriptor r.page p).first, passes := r.passes - 1 } rfl

end

/-! ### What every such change keeps -/

/-- The slots use up steps of the time TL, and get none back. -/
theorem Runs.credit {G H : Ghost} (runs : Runs G s H t) :
    t.tl = s.tl ∧ ∀ p, (t.slot p).credit t.tl ≤ (s.slot p).credit s.tl := by
  have set (v : State) (p : Fin 8) (x : Slot) (fewer : x.credit v.tl ≤ (v.slot p).credit v.tl) (q : Fin 8) :
      ((v.setSlot p x).slot q).credit v.tl ≤ (v.slot q).credit v.tl := by
    rw [State.slot_setSlot]
    split
    · next same => exact same ▸ fewer
    · exact Nat.le_refl _
  induction runs with
  | same G h => exact ⟨State.tl_eq h.tb, fun p => Nat.le_of_eq (by rw [State.tl_eq h.tb, h.slot])⟩
  | trans _ _ first second =>
    exact ⟨second.1.trans first.1, fun p => Nat.le_trans (second.2 p) (first.2 p)⟩
  | leave G _ => exact ⟨rfl, set _ _ _ (Nat.le_refl _)⟩
  | purge G _ => exact ⟨rfl, fun _ => Nat.le_refl _⟩
  | bind G armed _ _ => exact ⟨rfl, set _ _ _ (Nat.le_refl _)⟩
  | adjust G _ _ fewer => exact ⟨rfl, set _ _ _ fewer⟩
  | step G _ _ _ => exact ⟨rfl, set _ _ _ (Nat.le_refl _)⟩
  | insert G _ _ _ => exact ⟨rfl, fun _ => Nat.le_refl _⟩
  | forget G _ _ => exact ⟨rfl, fun _ => Nat.le_refl _⟩

/-! ### Sums over the slots -/

/-- The sum of a number for each slot. -/
def sumSlots (f : Fin 8 → Nat) : Nat := ((List.finRange 8).map f).sum

section
variable {f g : Fin 8 → Nat}

theorem sum_map_le (le : ∀ p, f p ≤ g p) (l : List (Fin 8)) : (l.map f).sum ≤ (l.map g).sum := by
  induction l with
  | nil => exact Nat.le_refl _
  | cons p ps ih =>
    rw [List.map_cons, List.map_cons, List.sum_cons, List.sum_cons]
    exact Nat.add_le_add (le p) ih

/-- Two sums that differ in one slot only differ by what they have there. -/
theorem sum_map_of_others {p : Fin 8} (others : ∀ q, q ≠ p → g q = f q) {l : List (Fin 8)} (listed : p ∈ l)
    (once : l.Nodup) : (l.map g).sum + f p = (l.map f).sum + g p := by
  induction l with
  | nil => exact nomatch listed
  | cons q qs ih =>
    obtain ⟨new, once⟩ := List.nodup_cons.mp once
    rw [List.map_cons, List.map_cons, List.sum_cons, List.sum_cons]
    by_cases same : q = p
    · subst same
      have rest : qs.map g = qs.map f :=
        List.map_congr_left fun x later => others x fun isHead => new (isHead ▸ later)
      rw [rest]
      omega
    · have rest := ih ((List.mem_cons.mp listed).resolve_left fun isHead => same isHead.symm) once
      rw [others q same]
      omega

theorem sumSlots_le (le : ∀ p, f p ≤ g p) : sumSlots f ≤ sumSlots g := sum_map_le le _

theorem sumSlots_congr (same : ∀ p, f p = g p) : sumSlots f = sumSlots g := congrArg sumSlots (funext same)

theorem finRange_nodup : (List.finRange 8).Nodup := by decide

theorem sumSlots_of_others (p : Fin 8) (others : ∀ q, q ≠ p → g q = f q) : sumSlots g + f p = sumSlots f + g p :=
  sum_map_of_others others (List.mem_finRange p) finRange_nodup

end

/-! ### Every chain ends (R31, R78) -/

/-- The steps that all slots together may still apply at TL. -/
def State.credit (s : State) : Nat := sumSlots fun p => (s.slot p).credit s.tl

theorem Runs.credit_le {G H : Ghost} (runs : Runs G s H t) : t.credit ≤ s.credit :=
  sumSlots_le fun p => runs.credit.2 p

theorem State.credit_le (s : State) : s.credit ≤ 256 := by
  have each (p : Fin 8) : (s.slot p).credit s.tl ≤ 32 := by
    rw [Slot.credit]
    split
    · exact Nat.sub_le _ _
    · exact Nat.le_refl _
  calc s.credit ≤ sumSlots fun _ => 32 := sumSlots_le each
    _ = 256 := rfl

theorem State.credit_countStep {p : Fin 8} {e : Entry} (due : e.due = s.tl)
    (admitted : (s.slot p).refusal e = none) :
    (s.setSlot p ((s.slot p).countStep e.due)).credit + 1 ≤ s.credit := by
  have counted := Slot.credit_countStep admitted
  rw [due] at counted ⊢
  have moved := sumSlots_of_others (f := fun q => (s.slot q).credit s.tl)
    (g := fun q => ((s.setSlot p ((s.slot p).countStep s.tl)).slot q).credit s.tl) p
    fun q other => by rw [State.slot_setSlot, if_neg other]
  rw [State.slot_setSlot, if_pos rfl] at moved
  change sumSlots (fun q => ((s.setSlot p ((s.slot p).countStep s.tl)).slot q).credit s.tl) + 1 ≤ _
  rw [State.credit]
  omega

/-- How many tasks a task can set off without a step of a slot, itself among them. -/
def Task.weight : Task → Nat
  | .take e _ => if e.isDirect then 4 else 1
  | .mark .. => 1
  | .handOff .. => 3
  | .launch .. => 2

/-- A bound on the tasks that a chain still handles: each admitted step sets off at most six more. -/
def potential (ts : List Task) (s : State) : Nat := 6 * s.credit + (ts.map Task.weight).sum

/-- Every RUN entry that waits in a chain is due now. -/
def RunTakesDue (ts : List Task) (s : State) : Prop :=
  ∀ e late, .take e late ∈ ts → e.isDirect = false → e.due = s.tl

theorem State.perform_tasks (s : State) (e : Entry) :
    (s.perform e).1 = [] ∨ ∃ q, (s.perform e).1 = [.launch .entry q] := by
  simp only [State.perform]
  split
  case h_6 q _ => exact .inr ⟨q, rfl⟩
  case h_9 q _ =>
    split
    · exact .inl rfl
    · exact .inl (State.endRun_tasks_of_ne (by decide) s q)
  all_goals exact .inl rfl

theorem State.perform_weight (s : State) (e : Entry) : ((s.perform e).1.map Task.weight).sum ≤ 2 := by
  obtain none | ⟨q, launch⟩ := s.perform_tasks e
  · rw [none]; exact Nat.zero_le _
  · rw [launch]; exact Nat.le_refl _

theorem Entry.markTasks_weight (e : Entry) (late : Bool) : ((e.markTasks late).map Task.weight).sum ≤ 1 := by
  rw [Entry.markTasks]
  split
  · exact Nat.le_refl _
  · exact Nat.zero_le _

theorem OffersAtMost.weight {p : Fin 8} {i : BitVec 7} {n : Time} {ts : List Task} (offers : OffersAtMost p i n ts) :
    (ts.map Task.weight).sum ≤ 1 := by
  obtain rfl | ⟨e, origin, -, rfl⟩ := offers
  · exact Nat.zero_le _
  · simp [Task.weight, Entry.isDirect, origin]

theorem State.takeEntry_of_direct {e : Entry} (direct : e.isDirect = true) (late : Bool) :
    s.takeEntry e late = ((s.perform e).1 ++ e.markTasks late, (s.perform e).2) := by
  cases origin : e.origin with
  | run p i => simp [Entry.isDirect, origin] at direct
  | direct tag => simp only [State.takeEntry, origin]

theorem State.takeEntry_of_refused {e : Entry} {p : Fin 8} {i : BitVec 7} {why : FaultReason}
    (origin : e.origin = .run p i) (refused : (s.slot p).refusal e = some why) (late : Bool) :
    s.takeEntry e late = ([], s.faultRun p why i e.due) := by
  simp only [State.takeEntry, origin, refused]

theorem State.takeEntry_of_admitted {e : Entry} {p : Fin 8} {i : BitVec 7} (origin : e.origin = .run p i)
    (admitted : (s.slot p).refusal e = none) (late : Bool) :
    s.takeEntry e late =
      let a := (s.setSlot p ((s.slot p).countStep e.due)).perform e
      (a.1 ++ e.markTasks late ++ [.handOff p i (s.slot p).bindId e.selfAbort], a.2) := by
  simp only [State.takeEntry, origin, admitted]

/-- A ghost for what looks at no ghost. -/
def Ghost.out : Ghost := fun _ => (0, true)

theorem State.takeHandOff_of_stale {p : Fin 8} {b : Nat}
    (stale : (s.slot p).run = none ∨ (s.slot p).bindId ≠ b) (i : BitVec 7) (self : Bool) :
    s.takeHandOff p i b self = ([], s) := by
  rw [State.takeHandOff]
  split
  · rfl
  · next r running =>
    obtain idle | other := stale
    · exact absurd (running.symm.trans idle) (Option.some_ne_none r)
    · rw [if_pos other]

theorem State.takeHandOff_of_live {p : Fin 8} {r : Run} (running : (s.slot p).run = some r) (i : BitVec 7)
    (self : Bool) :
    s.takeHandOff p i (s.slot p).bindId self =
      if self then s.endRun p .abortedByStep else s.advanceRun p i r := by
  simp only [State.takeHandOff, running, ne_eq, not_true_eq_false, if_false]

theorem HandedOff.takeHandOff {G : Ghost} {p : Fin 8} {r : Run} (out : (G p).2 = true)
    (running : (s.slot p).run = some r) (i : BitVec 7) (self : Bool) :
    HandedOff G s p (s.takeHandOff p i (s.slot p).bindId self).1 (s.takeHandOff p i (s.slot p).bindId self).2 := by
  rw [State.takeHandOff_of_live running]
  split
  · exact .endRun G s p _
  · exact .advanceRun out running i

theorem runTakesDue_of_noTakes {ts : List Task} (noTakes : ∀ e late, .take e late ∉ ts) : RunTakesDue ts s :=
  fun e late listed => absurd listed (noTakes e late)

theorem OffersAtMost.runTakesDue {p : Fin 8} {i : BitVec 7} {ts : List Task} (offers : OffersAtMost p i s.tl ts) :
    RunTakesDue ts s := by
  obtain rfl | ⟨e, -, isDue, rfl⟩ := offers
  · exact runTakesDue_of_noTakes (by simp)
  · intro e' late listed _
    obtain ⟨rfl, -⟩ := Task.take.inj (List.mem_singleton.mp listed)
    exact isDue

/-- The handling of an entry leaves no entry to be handled at once. -/
theorem State.takeEntry_noTakes (s : State) (e : Entry) (late : Bool) (x : Entry) (l : Bool) :
    .take x l ∉ (s.takeEntry e late).1 := by
  have performed (v : State) : .take x l ∉ (v.perform e).1 := by
    obtain none | ⟨q, launch⟩ := v.perform_tasks e
    · simp [none]
    · simp [launch]
  have marked : .take x l ∉ e.markTasks late := by
    rw [Entry.markTasks]
    split <;> simp
  cases origin : e.origin with
  | direct tag =>
    rw [State.takeEntry_of_direct (by rw [Entry.isDirect, origin])]
    simp [performed, marked]
  | run p i =>
    cases refusal : (s.slot p).refusal e with
    | some why => rw [State.takeEntry_of_refused origin refusal]; simp
    | none => rw [State.takeEntry_of_admitted origin refusal]; simp [performed, marked]

/-- An admitted step pays for all that it sets off, and a DIRECT entry sets off a launch and a record at most. -/
theorem potential_takeEntry {e : Entry} (due : e.isDirect = false → e.due = s.tl) (late : Bool) :
    potential (s.takeEntry e late).1 (s.takeEntry e late).2 + 1 ≤ 6 * s.credit + (Task.take e late).weight := by
  have marked := e.markTasks_weight late
  cases origin : e.origin with
  | direct tag =>
    have direct : e.isDirect = true := by rw [Entry.isDirect, origin]
    have fewer := (Runs.perform .out s e).credit_le
    have performed := s.perform_weight e
    rw [State.takeEntry_of_direct direct]
    simp only [potential, Task.weight, direct, if_true, List.map_append, List.sum_append]
    omega
  | run p i =>
    have run : e.isDirect = false := by rw [Entry.isDirect, origin]
    cases refusal : (s.slot p).refusal e with
    | some why =>
      have fewer := (Runs.faultRun .out s p why i e.due).credit_le
      rw [State.takeEntry_of_refused origin refusal]
      simp only [potential, Task.weight, run, Bool.false_eq_true, if_false, List.map_nil, List.sum_nil]
      omega
    | none =>
      have counted := State.credit_countStep (due run) refusal
      have fewer := (Runs.perform .out (s.setSlot p ((s.slot p).countStep e.due)) e).credit_le
      have performed := (s.setSlot p ((s.slot p).countStep e.due)).perform_weight e
      rw [State.takeEntry_of_admitted origin refusal]
      simp only [potential, Task.weight, run, Bool.false_eq_true, if_false, List.map_append, List.sum_append, List.map_cons,
        List.map_nil,
        List.sum_cons, List.sum_nil]
      omega

/-- A task lowers the bound, and every RUN entry that it leaves to be handled at once is due now. -/
theorem doTask_lowers (t : Task) (s : State) (due : RunTakesDue [t] s) :
    potential (doTask t s).1 (doTask t s).2 + 1 ≤ 6 * s.credit + t.weight ∧ RunTakesDue (doTask t s).1 s := by
  cases t with
  | take e late =>
    exact ⟨potential_takeEntry (due e late (List.mem_singleton_self _)) late,
      runTakesDue_of_noTakes (s.takeEntry_noTakes e late)⟩
  | mark o late =>
    have fewer := (Runs.same .out ((SameRuns.produce s (.mark o late s.tl)).trans (.request _ .mark))).credit_le
    refine ⟨?_, runTakesDue_of_noTakes (by simp [doTask])⟩
    simp only [doTask, potential, Task.weight, List.map_nil, List.sum_nil]
    omega
  | launch src q =>
    obtain ⟨none, runs⟩ | ⟨⟨i, offers⟩, runs⟩ := Launched.takeLaunch .out s src q
    · have fewer := runs.credit_le
      refine ⟨?_, by simpa only [doTask, none] using runTakesDue_of_noTakes (by simp)⟩
      simp only [doTask, potential, Task.weight, none, List.map_nil, List.sum_nil]
      omega
    · have fewer := runs.credit_le
      have offered := offers.weight
      refine ⟨?_, offers.runTakesDue⟩
      simp only [doTask, potential, Task.weight]
      omega
  | handOff p i b self =>
    by_cases live : ∃ r, (s.slot p).run = some r ∧ (s.slot p).bindId = b
    · obtain ⟨r, running, rfl⟩ := live
      obtain ⟨⟨i, offers⟩, runs⟩ | ⟨ended, runs, -⟩ := HandedOff.takeHandOff (G := .out) rfl running i self
      · have fewer := runs.credit_le
        have offered := offers.weight
        refine ⟨?_, offers.runTakesDue⟩
        simp only [doTask, potential, Task.weight]
        omega
      · have fewer := runs.credit_le
        have queued : (((s.takeHandOff p i (s.slot p).bindId self).1).map Task.weight).sum ≤ 2 := by
          obtain none | launch := ended
          · rw [none]; exact Nat.zero_le _
          · rw [launch]; exact Nat.le_refl _
        refine ⟨?_, runTakesDue_of_noTakes fun e late listed => ?_⟩
        · simp only [doTask, potential, Task.weight]
          omega
        · obtain none | launch := ended
          · rw [doTask, none] at listed; exact nomatch listed
          · rw [doTask, launch] at listed; exact nomatch List.mem_singleton.mp listed
    · have stale : (s.slot p).run = none ∨ (s.slot p).bindId ≠ b := by
        refine Classical.or_iff_not_imp_left.mpr fun running same => live ?_
        obtain ⟨r, running⟩ := Option.ne_none_iff_exists'.mp running
        exact ⟨r, running, same⟩
      rw [doTask, State.takeHandOff_of_stale stale]
      refine ⟨?_, runTakesDue_of_noTakes (by simp)⟩
      simp only [potential, Task.weight, List.map_nil, List.sum_nil]
      omega

/-- A chain has no more tasks than its bound says. -/
theorem runChain_ends {n : Nat} {ts : List Task} (due : RunTakesDue ts s) (bounded : potential ts s ≤ n) :
    (runChain n ts s).1 = [] := by
  induction n generalizing ts s with
  | zero =>
    cases ts with
    | nil => rfl
    | cons t ts =>
      have positive : 1 ≤ t.weight := by
        cases t with
        | take e late => simp only [Task.weight]; split <;> decide
        | _ => simp [Task.weight]
      simp only [potential, List.map_cons, List.sum_cons] at bounded
      omega
  | succ n ih =>
    cases ts with
    | nil => rfl
    | cons t ts =>
      have first : RunTakesDue [t] s := fun e late listed =>
        due e late (List.mem_cons.mpr (.inl (List.mem_singleton.mp listed)))
      obtain ⟨lower, dueAfter⟩ := doTask_lowers t s first
      refine ih (fun e late listed run => ?_) ?_
      · rw [(ChainRel.doTask t s).tl]
        obtain new | old := List.mem_append.mp listed
        · exact dueAfter e late new run
        · exact due e late (List.mem_cons_of_mem _ old) run
      · simp only [potential, List.map_cons, List.map_append, List.sum_cons, List.sum_append] at bounded lower ⊢
        omega

theorem potential_singleton (t : Task) (s : State) : potential [t] s ≤ chainFuel := by
  have credit := s.credit_le
  have weight : t.weight ≤ 4 := by
    cases t with
    | take e late => simp only [Task.weight]; split <;> decide
    | _ => simp [Task.weight]
  simp only [potential, chainFuel, List.map_cons, List.map_nil, List.sum_cons, List.sum_nil]
  omega

/-- Settles O25: a chain has at most six tasks for each step that the slots may still apply at TL
(`doTask_lowers`). -/
theorem chainsEnd : Obligations.ChainsEnd := by
  intro s t due
  refine runChain_ends (fun e late listed => due e late ?_) (potential_singleton t s)
  exact (List.mem_singleton.mp listed).symm

end Sys2Proof.Machine
end

section
/-! PROOFS. Every step keeps one entry for each run, that of its current step (R24, R65). Within a chain the step of a
run may be out of the list: then exactly one task of the chain carries it (`Chained`). -/

namespace Sys2Proof.Machine

variable {s t u : State}

/-! ### The entries of the runs, and the steps that are out of the list -/

/-- The entries that the list holds for slot `p`, when its current step is in the list or `out` of it. -/
def Slot.expected (p : Fin 8) (out : Bool) (x : Slot) : List Origin :=
  match x.run with
  | none => []
  | some r => if out then [] else [.run p r.step]

theorem Slot.expected_of_idle {x : Slot} (idle : x.run = none) (p : Fin 8) (out : Bool) : x.expected p out = [] := by
  rw [Slot.expected, idle]

theorem Slot.expected_out (p : Fin 8) (x : Slot) : x.expected p true = [] := by
  rw [Slot.expected]
  split <;> rfl

theorem Slot.expected_congr {x y : Slot} (same : x.run.map (fun r => (r.page, r.step)) = y.run.map fun r => (r.page, r.step))
    (p : Fin 8) (out : Bool) : x.expected p out = y.expected p out := by
  cases x_run : x.run <;> cases y_run : y.run <;> simp_all [Slot.expected]

theorem runEntryLaw_iff : RunEntryLaw s ↔ ∀ p, s.originsOf p = (s.slot p).expected p false := by
  refine forall_congr' fun p => ?_
  cases run : (s.slot p).run with
  | none => simp [Slot.expected, run, State.originsOf, List.filter_eq_nil_iff]
  | some r => simp [Slot.expected, run, State.originsOf]

/-- The ghost counts the binds, and tells which steps are out of the list. -/
def Agrees (G : Ghost) (s : State) : Prop :=
  ∀ p, (s.slot p).bindId = (G p).1 ∧ s.originsOf p = (s.slot p).expected p (G p).2

theorem Entry.isRun_of_origin {e : Entry} {p : Fin 8} {i : BitVec 7} (origin : e.origin = .run p i) (q : Fin 8) :
    e.isRun q = (p == q) := by
  rw [Entry.isRun, origin]

theorem Entry.eq_of_isRun {e : Entry} {p q : Fin 8} (first : e.isRun p = true) (second : e.isRun q = true) :
    p = q := by
  cases origin : e.origin with
  | direct tag => rw [Entry.isRun, origin] at first; exact nomatch first
  | run r i =>
    rw [Entry.isRun_of_origin origin, beq_iff_eq] at first second
    exact first.symm.trans second

theorem State.originsOf_removeRun (s : State) (p q : Fin 8) :
    (s.removeRun p).originsOf q = if q = p then [] else s.originsOf q := by
  simp only [State.originsOf, State.removeRun, State.setPel, List.filter_filter]
  split
  · next same => subst same; simp
  · next other =>
    congr 1
    refine List.filter_congr fun e _ => ?_
    cases listed : e.isRun q with
    | false => rfl
    | true =>
      cases also : e.isRun p with
      | false => rfl
      | true => exact absurd (Entry.eq_of_isRun listed also) other

theorem State.originsOf_insertEntry_of_not {e : Entry} {q : Fin 8} (other : e.isRun q = false) (s : State) :
    (s.insertEntry e).originsOf q = s.originsOf q := by
  rw [State.originsOf, State.insertEntry, State.setPel, filter_insertByTime_neg _ _ other, State.originsOf]

theorem State.originsOf_insertEntry_of_isRun {e : Entry} {p : Fin 8} (mine : e.isRun p = true)
    (empty : s.originsOf p = []) : (s.insertEntry e).originsOf p = [e.origin] := by
  have noneBefore : s.sched.pel.filter (fun x => x.isRun p) = [] := List.map_eq_nil_iff.mp empty
  have one : ((insertByTime s.tl e s.sched.pel).filter fun x => x.isRun p).length = 1 := by
    rw [length_filter_insertByTime _ _ mine, noneBefore, List.length_nil]
  obtain ⟨x, only⟩ := List.length_eq_one_iff.mp one
  have listed : e ∈ (insertByTime s.tl e s.sched.pel).filter fun x => x.isRun p :=
    List.mem_filter.mpr ⟨mem_insertByTime.mpr (.inl rfl), mine⟩
  rw [only, List.mem_singleton] at listed
  rw [State.originsOf, State.insertEntry, State.setPel, only, listed]
  rfl

theorem Agrees.setSlot {G : Ghost} (agrees : Agrees G s) {p : Fin 8} {x : Slot} {n : Nat × Bool}
    (bindId : x.bindId = n.1) (entry : s.originsOf p = x.expected p n.2) :
    Agrees (G.update p n) (s.setSlot p x) := by
  intro q
  rw [State.slot_setSlot, Ghost.update_apply]
  split
  · next same => subst same; exact ⟨bindId, entry⟩
  · exact agrees q

theorem Agrees.setSlot_same {G : Ghost} (agrees : Agrees G s) {p : Fin 8} {x : Slot}
    (bindId : x.bindId = (s.slot p).bindId) (entry : s.originsOf p = x.expected p (G p).2) :
    Agrees G (s.setSlot p x) := by
  have set := agrees.setSlot (n := G p) (bindId.trans (agrees p).1) entry
  rwa [Ghost.update_self] at set

theorem Agrees.originsOf_of_idle {G : Ghost} (agrees : Agrees G s) {p : Fin 8} (idle : (s.slot p).run = none) :
    s.originsOf p = [] := by
  rw [(agrees p).2, Slot.expected_of_idle idle]

theorem Agrees.originsOf_of_out {G : Ghost} (agrees : Agrees G s) {p : Fin 8} (out : (G p).2 = true) :
    s.originsOf p = [] := by
  rw [(agrees p).2, out, Slot.expected_out]

theorem Agrees.originsOf_congr {G : Ghost} (agrees : Agrees G s) (slots : t.slots = s.slots)
    (entries : ∀ p, t.originsOf p = s.originsOf p) : Agrees G t := by
  intro p
  rw [entries p, State.slot, slots]
  exact agrees p

/-- The ghost follows what a chain does. -/
theorem Runs.agrees {G H : Ghost} (runs : Runs G s H t) (before : Agrees G s) : Agrees H t := by
  induction runs with
  | same G h => exact before.originsOf_congr h.slots fun p => by rw [State.originsOf, h.pel, State.originsOf]
  | trans _ _ first second => exact second (first before)
  | @leave G s p r running =>
    intro q
    have entry : (s.leave p r).originsOf q = if q = p then [] else s.originsOf q :=
      State.originsOf_removeRun (s.setSlot p { s.slot p with run := none }) p q
    rw [entry, State.slot_leave]
    split
    · next same => subst same; exact ⟨(before q).1, rfl⟩
    · exact before q
  | @purge G s p idle =>
    refine before.originsOf_congr rfl fun q => ?_
    rw [State.originsOf_removeRun]
    split
    · next same => subst same; exact (before.originsOf_of_idle idle).symm
    · rfl
  | @bind G s q r armed idle page =>
    have bound : Agrees G s.bindActive := before
    refine bound.setSlot (congrArg (· + 1) (before q).1) ?_
    rw [Slot.expected_out]
    exact before.originsOf_of_idle idle
  | @adjust G s p x run bindId credit =>
    refine before.setSlot_same bindId ?_
    rw [Slot.expected_congr run]
    exact (before p).2
  | @step G s p r x out running page =>
    refine before.setSlot_same rfl ?_
    rw [out, Slot.expected_out]
    exact before.originsOf_of_out out
  | @insert G s p r e out running origin =>
    intro q
    rw [Ghost.setOut, Ghost.update_apply]
    split
    · next same =>
      subst same
      have mine : e.isRun q = true := by rw [Entry.isRun_of_origin origin, beq_self_eq_true]
      rw [State.originsOf_insertEntry_of_isRun mine (before.originsOf_of_out out), origin]
      refine ⟨(before q).1, ?_⟩
      have stays : ((s.insertEntry e).slot q).run = some r := running
      rw [Slot.expected, stays]
      rfl
    · next other =>
      rw [State.originsOf_insertEntry_of_not]
      · exact before q
      · rw [Entry.isRun_of_origin origin]
        exact beq_false_of_ne (Ne.symm other)
  | @forget G s p b idle =>
    intro q
    rw [Ghost.setOut, Ghost.update_apply]
    split
    · next same =>
      subst same
      exact ⟨(before q).1, by rw [before.originsOf_of_idle idle, Slot.expected_of_idle idle]⟩
    · exact before q

/-! ### The tasks of a chain that carry a step -/

/-- The task carries the current step of the run that is the `b`-th bound in slot `p`. -/
def Task.carries (p : Fin 8) (b : Nat) : Task → Bool
  | .take e _ => e.isRun p
  | .handOff q _ c _ => q == p && c == b
  | _ => false

/-- How many tasks carry the current step of slot `p`. -/
def carriers (G : Ghost) (p : Fin 8) (ts : List Task) : Nat := ts.countP (Task.carries p (G p).1)

/-- The task can wait behind others: it is no entry, and its hand-off is of a run that has been bound. -/
def Task.waits (G : Ghost) : Task → Prop
  | .take .. => False
  | .handOff p _ b _ => b ≤ (G p).1
  | _ => True

theorem carriers_congr {G H : Ghost} {p : Fin 8} (same : (H p).1 = (G p).1) (ts : List Task) :
    carriers H p ts = carriers G p ts := by
  rw [carriers, same, carriers]

theorem carriers_append (G : Ghost) (p : Fin 8) (ts us : List Task) :
    carriers G p (ts ++ us) = carriers G p ts + carriers G p us := List.countP_append

/-- A run that is bound anew has no step among the tasks that wait. -/
theorem carriers_of_waits {G H : Ghost} {p : Fin 8} (bound : (G p).1 < (H p).1) {ts : List Task}
    (waits : ∀ x ∈ ts, x.waits G) : carriers H p ts = 0 := by
  refine List.countP_eq_zero.mpr fun x listed => ?_
  have waiting := waits x listed
  cases x with
  | take e late => exact nomatch waiting
  | handOff q i b self =>
    simp only [Task.carries, Bool.and_eq_true, beq_iff_eq, not_and]
    rintro rfl rfl
    exact absurd waiting (Nat.not_le_of_lt bound)
  | _ => exact Bool.false_ne_true

theorem Task.waits_of_le {G H : Ghost} (more : ∀ p, (G p).1 ≤ (H p).1) {x : Task} (waits : x.waits G) : x.waits H := by
  cases x with
  | handOff p i b self => exact Nat.le_trans waits (more p)
  | _ => exact waits

/-- How the tasks `new` that `t` sets off take over the steps that `t` carried: those of a run that is bound meanwhile
are new, and of every other one they carry as much as the ghost says. -/
structure Passed (G : Ghost) (t : Task) (H : Ghost) (new : List Task) : Prop where
  waits : ∀ x ∈ new.tail, x.waits H
  count : ∀ p,
    ((H p).1 = (G p).1 ∧ carriers H p new + (G p).2.toNat = carriers G p [t] + (H p).2.toNat) ∨
      ((G p).1 < (H p).1 ∧ carriers H p new = (H p).2.toNat)

/-- Within a chain: the tasks `ts` that are left carry exactly the steps that are out of the list. -/
structure Chained (G : Ghost) (ts : List Task) (s : State) : Prop where
  agrees : Agrees G s
  count : ∀ p, carriers G p ts = (G p).2.toNat
  waits : ∀ x ∈ ts.tail, x.waits G

theorem Chained.next {G H : Ghost} {t : Task} {ts new : List Task} (chained : Chained G (t :: ts) s)
    (runs : Runs G s H u) (passed : Passed G t H new) : Chained H (new ++ ts) u := by
  obtain ⟨agrees, count, waits⟩ := chained
  obtain ⟨waitsNew, passes⟩ := passed
  have more (p : Fin 8) : (G p).1 ≤ (H p).1 := (passes p).elim (fun h => Nat.le_of_eq h.1.symm) (fun h => Nat.le_of_lt h.1)
  refine ⟨runs.agrees agrees, fun p => ?_, fun x listed => ?_⟩
  · have whole := count p
    rw [← List.singleton_append, carriers_append] at whole
    rw [carriers_append]
    obtain ⟨same, carried⟩ | ⟨bound, carried⟩ := passes p
    · rw [carriers_congr same ts]
      omega
    · rw [carriers_of_waits (ts := ts) bound waits, carried, Nat.add_zero]
  · cases new with
    | nil => exact Task.waits_of_le more (waits x (List.mem_of_mem_tail listed))
    | cons y ys =>
      obtain new | old := List.mem_append.mp listed
      · exact waitsNew x new
      · exact Task.waits_of_le more (waits x old)

/-- With nothing left to do every step is in the list. -/
theorem Chained.runEntryLaw {G : Ghost} (chained : Chained G [] s) : RunEntryLaw s := by
  refine runEntryLaw_iff.mpr fun p => ?_
  have inList : (G p).2 = false := by
    have none := chained.count p
    cases out : (G p).2 with
    | false => rfl
    | true => rw [out] at none; exact nomatch none
  rw [(chained.agrees p).2, inList]

/-! ### Every task passes on the steps that it carries -/

theorem Passed.unmoved {G : Ghost} {t : Task} {new : List Task} (waits : ∀ x ∈ new.tail, x.waits G)
    (carried : ∀ p, carriers G p new = carriers G p [t]) : Passed G t G new :=
  ⟨waits, fun p => .inl ⟨rfl, by rw [carried]⟩⟩

/-- A task that carries the step of slot `p` alone passes it on, or not, as the ghost then says. -/
theorem Passed.setOut {G : Ghost} {t : Task} {new : List Task} {p : Fin 8} {b : Bool} (out : (G p).2 = true)
    (waits : ∀ x ∈ new.tail, x.waits (G.setOut p b)) (head : ∀ q, carriers G q [t] = if q = p then 1 else 0)
    (carried : ∀ q, carriers G q new = if q = p then b.toNat else 0) : Passed G t (G.setOut p b) new := by
  have binds (q : Fin 8) : (G.setOut p b q).1 = (G q).1 := by
    rw [Ghost.setOut, Ghost.update_apply]
    split
    · next same => rw [same]
    · rfl
  refine ⟨waits, fun q => .inl ⟨binds q, ?_⟩⟩
  rw [carriers_congr (binds q), head, carried, Ghost.setOut, Ghost.update_apply]
  split
  · next same => subst same; rw [out]; exact Nat.add_comm _ _
  · rfl

/-- A launch binds a run in slot `q`: its first step is a new one. -/
theorem Passed.bind {G : Ghost} {t : Task} {new : List Task} {q : Fin 8} {b : Bool} (last : new.tail = [])
    (head : ∀ p, carriers G p [t] = 0) (carried : ∀ H p, carriers H p new = if p = q then b.toNat else 0) :
    Passed G t ((G.bind q).setOut q b) new := by
  refine ⟨fun x listed => ?_, fun p => ?_⟩
  · rw [last] at listed
    exact nomatch listed
  · simp only [carried, head, Ghost.setOut, Ghost.bind, Ghost.update_apply]
    by_cases same : p = q
    · simp [same]
    · simp [same]

/-- The task carries no step, and can wait: a mark or a launch. -/
def Task.plain : Task → Bool
  | .mark .. | .launch .. => true
  | _ => false

theorem Task.waits_of_plain {G : Ghost} {x : Task} (plain : x.plain = true) : x.waits G := by
  cases x with
  | mark | launch => exact trivial
  | _ => exact nomatch plain

theorem carriers_of_plain {ts : List Task} (plain : ∀ x ∈ ts, x.plain = true) (G : Ghost) (p : Fin 8) :
    carriers G p ts = 0 := by
  refine List.countP_eq_zero.mpr fun x listed => ?_
  have isPlain := plain x listed
  cases x with
  | mark | launch => exact Bool.false_ne_true
  | _ => exact nomatch isPlain

theorem State.perform_plain (s : State) (e : Entry) : ∀ x ∈ (s.perform e).1, x.plain = true := by
  obtain none | ⟨q, launch⟩ := s.perform_tasks e
  · simp [none]
  · simp [launch, Task.plain]

theorem Entry.markTasks_plain (e : Entry) (late : Bool) : ∀ x ∈ e.markTasks late, x.plain = true := by
  rw [Entry.markTasks]
  split
  · simp [Task.plain]
  · simp

theorem State.performed_plain (s : State) (e : Entry) (late : Bool) :
    ∀ x ∈ (s.perform e).1 ++ e.markTasks late, x.plain = true :=
  List.forall_mem_append.mpr ⟨s.perform_plain e, e.markTasks_plain late⟩

theorem carriers_take {e : Entry} {p : Fin 8} {i : BitVec 7} (origin : e.origin = .run p i) (late : Bool) (G : Ghost)
    (q : Fin 8) : carriers G q [.take e late] = if q = p then 1 else 0 := by
  simp only [carriers, List.countP_singleton, Task.carries, Entry.isRun_of_origin origin, beq_iff_eq]
  exact ite_of_iff eq_comm _ _

theorem carriers_handOff {p : Fin 8} {b : Nat} {G : Ghost} (live : (G p).1 = b) (i : BitVec 7) (self : Bool)
    (q : Fin 8) : carriers G q [.handOff p i b self] = if q = p then 1 else 0 := by
  simp only [carriers, List.countP_singleton, Task.carries, Bool.and_eq_true, beq_iff_eq]
  by_cases same : q = p
  · simp [same, live]
  · simp [same, Ne.symm same]

theorem carriers_handOff_of_stale {p : Fin 8} {b : Nat} {G : Ghost} (stale : (G p).1 ≠ b) (i : BitVec 7) (self : Bool)
    (q : Fin 8) : carriers G q [.handOff p i b self] = 0 := by
  simp only [carriers, List.countP_singleton, Task.carries, Bool.and_eq_true, beq_iff_eq, ite_eq_right_iff]
  rintro ⟨rfl, rfl⟩
  exact absurd rfl stale

theorem OffersAtMost.carriers {p : Fin 8} {i : BitVec 7} {n : Time} {ts : List Task} (offers : OffersAtMost p i n ts)
    (G : Ghost) (q : Fin 8) : carriers G q ts = if q = p then (!ts.isEmpty).toNat else 0 := by
  obtain rfl | ⟨e, origin, -, rfl⟩ := offers
  · exact (ite_self 0).symm
  · exact carriers_take origin false G q

theorem OffersAtMost.tail {p : Fin 8} {i : BitVec 7} {n : Time} {ts : List Task} (offers : OffersAtMost p i n ts) :
    ts.tail = [] := by
  obtain rfl | ⟨e, -, -, rfl⟩ := offers <;> rfl

theorem forall_mem_of_nil {α : Type} {P : α → Prop} {l : List α} (empty : l = []) : ∀ x ∈ l, P x := by
  subst empty
  exact List.forall_mem_nil P

theorem State.faultRun_run (s : State) (p : Fin 8) (why : FaultReason) (i : BitVec 7) (due : Time) :
    ((s.faultRun p why i due).slot p).run = none := by
  have idle (v : State) (same : SameRuns ((s.setSlot p { s.slot p with run := none }).removeRun p) v) :
      (v.slot p).run = none := by
    rw [same.slot]
    exact congrArg Slot.run ((State.slot_setSlot _ _ _ _).trans (if_pos rfl))
  have faulted : SameRuns ((s.setSlot p { s.slot p with run := none }).removeRun p)
      ((((s.setSlot p { s.slot p with run := none }).removeRun p).produce (.fault p why i due)).request .runflt) :=
    (SameRuns.produce _ _).trans (.request _ _)
  rw [State.faultRun]
  dsimp only
  split
  · exact idle _ faulted
  · next r _ =>
    rw [(faulted.leave r).slot, State.slot_leave, if_pos rfl]

theorem takeEntry_passes {G : Ghost} {e : Entry} {late : Bool} (binds : ∀ p, (s.slot p).bindId = (G p).1)
    (out : ∀ p, e.isRun p = true → (G p).2 = true) (due : e.isDirect = false → e.due = s.tl) :
    ∃ H, Runs G s H (s.takeEntry e late).2 ∧ Passed G (.take e late) H (s.takeEntry e late).1 := by
  cases origin : e.origin with
  | direct tag =>
    have direct : e.isDirect = true := by rw [Entry.isDirect, origin]
    rw [State.takeEntry_of_direct direct]
    have plain := s.performed_plain e late
    refine ⟨G, .perform G s e, .unmoved (fun x listed => Task.waits_of_plain (plain x (List.mem_of_mem_tail listed)))
      fun p => ?_⟩
    rw [carriers_of_plain plain]
    simp [carriers, Task.carries, Entry.isRun, origin]
  | run p i =>
    have mine : (G p).2 = true := out p (by rw [Entry.isRun_of_origin origin, beq_self_eq_true])
    have head := carriers_take origin late G
    cases refusal : (s.slot p).refusal e with
    | some why =>
      rw [State.takeEntry_of_refused origin refusal]
      refine ⟨G.setOut p false, (Runs.faultRun G s p why i e.due).trans (.forget G false (s.faultRun_run p why i _)),
        .setOut mine (List.forall_mem_nil _) head fun q => (ite_self 0).symm⟩
    | none =>
      have isDue := due (by rw [Entry.isDirect, origin])
      have plain := (s.setSlot p ((s.slot p).countStep e.due)).performed_plain e late
      rw [State.takeEntry_of_admitted origin refusal]
      refine ⟨G, (Runs.countStep G isDue refusal).trans (.perform G _ e), .unmoved (fun x listed => ?_) fun q => ?_⟩
      · obtain new | rfl := List.mem_append.mp (List.mem_of_mem_tail listed) |>.imp_right List.mem_singleton.mp
        · exact Task.waits_of_plain (plain x new)
        · exact Nat.le_of_eq (binds p)
      · rw [carriers_append, carriers_of_plain plain, head, carriers_handOff (binds p).symm, Nat.zero_add]

theorem takeLaunch_passes (G : Ghost) (s : State) (src : LaunchSource) (q : Fin 8) :
    ∃ H, Runs G s H (s.takeLaunch src q).2.2 ∧ Passed G (.launch src q) H (s.takeLaunch src q).2.1 := by
  obtain ⟨none, runs⟩ | ⟨⟨i, offers⟩, runs⟩ := Launched.takeLaunch G s src q
  · rw [none]
    exact ⟨G, runs, .unmoved (List.forall_mem_nil _) fun _ => rfl⟩
  · exact ⟨_, runs, .bind offers.tail (fun _ => rfl) offers.carriers⟩

theorem takeHandOff_passes {G : Ghost} {p : Fin 8} {b : Nat} (binds : ∀ q, (s.slot q).bindId = (G q).1)
    (out : (G p).1 = b → (G p).2 = true) (i : BitVec 7) (self : Bool) :
    ∃ H, Runs G s H (s.takeHandOff p i b self).2 ∧ Passed G (.handOff p i b self) H (s.takeHandOff p i b self).1 := by
  by_cases live : (G p).1 = b
  · have mine := out live
    have head := carriers_handOff live i self
    cases run : (s.slot p).run with
    | none =>
      rw [State.takeHandOff_of_stale (.inl run)]
      exact ⟨G.setOut p false, .forget G false run,
        .setOut mine (List.forall_mem_nil _) head fun q => (ite_self 0).symm⟩
    | some r =>
      obtain rfl : (s.slot p).bindId = b := (binds p).trans live
      obtain ⟨⟨j, offers⟩, runs⟩ | ⟨ended, runs, idle⟩ := HandedOff.takeHandOff mine run i self
      · exact ⟨_, runs, .setOut mine (forall_mem_of_nil offers.tail) head (offers.carriers G)⟩
      · have plain : ∀ x ∈ (s.takeHandOff p i (s.slot p).bindId self).1, x.plain = true := by
          obtain none | launch := ended
          · simp [none]
          · simp [launch, Task.plain]
        refine ⟨G.setOut p false, runs.trans (.forget G false idle), .setOut mine
          (fun x listed => Task.waits_of_plain (plain x (List.mem_of_mem_tail listed))) head fun q => ?_⟩
        rw [carriers_of_plain plain]
        exact (ite_self 0).symm
  · rw [State.takeHandOff_of_stale (.inr fun same => live ((binds p).symm.trans same))]
    exact ⟨G, .refl G s, .unmoved (List.forall_mem_nil _) fun q => (carriers_handOff_of_stale live i self q).symm⟩

/-- Every task changes the runs as `Runs` says, and passes on the steps that it carried. -/
theorem doTask_passes {G : Ghost} {t : Task} (binds : ∀ p, (s.slot p).bindId = (G p).1)
    (out : ∀ p, t.carries p (G p).1 = true → (G p).2 = true) (due : RunTakesDue [t] s) :
    ∃ H, Runs G s H (doTask t s).2 ∧ Passed G t H (doTask t s).1 := by
  cases t with
  | take e late => exact takeEntry_passes binds out (due e late (List.mem_singleton_self _))
  | mark o late =>
    exact ⟨G, .same G ((SameRuns.produce _ _).trans (.request _ _)), .unmoved (List.forall_mem_nil _) fun _ => rfl⟩
  | handOff p i b self =>
    refine takeHandOff_passes binds (fun live => out p ?_) i self
    simp [Task.carries, live]
  | launch src q => exact takeLaunch_passes G s src q

theorem Chained.doTask {G : Ghost} {t : Task} {ts : List Task} (chained : Chained G (t :: ts) s)
    (due : RunTakesDue [t] s) : ∃ H, Chained H ((doTask t s).1 ++ ts) (doTask t s).2 := by
  have out (p : Fin 8) (carried : t.carries p (G p).1 = true) : (G p).2 = true := by
    have count := chained.count p
    rw [carriers, List.countP_cons_of_pos carried] at count
    cases isOut : (G p).2 with
    | true => rfl
    | false => rw [isOut] at count; exact nomatch count
  obtain ⟨H, runs, passed⟩ := doTask_passes (fun p => (chained.agrees p).1) out due
  exact ⟨H, chained.next runs passed⟩

/-! ### Whole chains -/

theorem RunTakesDue.head {t : Task} {ts : List Task} (due : RunTakesDue (t :: ts) s) : RunTakesDue [t] s :=
  fun e late listed => due e late (List.mem_cons.mpr (.inl (List.mem_singleton.mp listed)))

theorem RunTakesDue.next {t : Task} {ts : List Task} (due : RunTakesDue (t :: ts) s) :
    RunTakesDue ((doTask t s).1 ++ ts) (doTask t s).2 := by
  obtain ⟨-, dueAfter⟩ := doTask_lowers t s due.head
  intro e late listed run
  rw [(ChainRel.doTask t s).tl]
  obtain new | old := List.mem_append.mp listed
  · exact dueAfter e late new run
  · exact due e late (List.mem_cons_of_mem _ old) run

theorem RunTakesDue.launched (s : State) (src : LaunchSource) (q : Fin 8) :
    RunTakesDue [.launch src q] s ∧ RunTakesDue (s.takeLaunch src q).2.1 (s.takeLaunch src q).2.2 := by
  have due : RunTakesDue [.launch src q] s := runTakesDue_of_noTakes (by simp)
  have dueAfter := due.next
  rw [List.append_nil] at dueAfter
  exact ⟨due, dueAfter⟩

/-- What every task of a chain keeps, the chain keeps. -/
theorem runChain_keeps {P : List Task → State → Prop}
    (one : ∀ t ts v, RunTakesDue [t] v → P (t :: ts) v → P ((doTask t v).1 ++ ts) (doTask t v).2) {n : Nat}
    {ts : List Task} (due : RunTakesDue ts s) (before : P ts s) : P (runChain n ts s).1 (runChain n ts s).2 := by
  induction n generalizing ts s with
  | zero => exact before
  | succ n ih =>
    cases ts with
    | nil => exact before
    | cons t ts => exact ih due.next (one t ts s due.head before)

/-- A chain that begins with the steps that are out of the list ends with every step in it. -/
theorem Chained.chain {G : Ghost} {ts : List Task} (chained : Chained G ts s) (due : RunTakesDue ts s)
    (bounded : potential ts s ≤ chainFuel) : RunEntryLaw (s.chain ts) := by
  obtain ⟨H, ended⟩ := runChain_keeps (P := fun ts v => ∃ H, Chained H ts v) (n := chainFuel)
    (fun t ts v due ⟨G, chained⟩ => chained.doTask due) due ⟨G, chained⟩
  rw [runChain_ends due bounded] at ended
  exact ended.runEntryLaw

/-- A task that carries no step begins a chain in a state where every step is in the list. -/
theorem RunEntryLaw.chained (law : RunEntryLaw s) {t : Task} (plain : ∀ p b, t.carries p b = false) :
    Chained (fun p => ((s.slot p).bindId, false)) [t] s := by
  refine ⟨fun p => ⟨rfl, runEntryLaw_iff.mp law p⟩, fun p => ?_, List.forall_mem_nil _⟩
  rw [carriers, List.countP_singleton, plain]
  rfl

/-- The entry at the head of the list begins a chain in which the step that it is of is out of the list. -/
theorem RunEntryLaw.chained_head (law : RunEntryLaw s) {e : Entry} {rest : List Entry} (list : s.sched.pel = e :: rest) :
    Chained (fun p => ((s.slot p).bindId, e.isRun p)) [.take e false] { s with sched := { s.sched with pel := rest } } := by
  refine ⟨fun p => ⟨rfl, ?_⟩, fun p => ?_, List.forall_mem_nil _⟩
  · have entries := runEntryLaw_iff.mp law p
    rw [State.originsOf, list] at entries
    cases mine : e.isRun p with
    | false =>
      rw [List.filter_cons_of_neg (by simp [mine])] at entries
      exact entries
    | true =>
      rw [List.filter_cons_of_pos (by simp [mine]), List.map_cons, Slot.expected] at entries
      refine Eq.trans ?_ (Slot.expected_out p _).symm
      split at entries
      · exact nomatch entries
      · exact (List.cons.inj entries).2
  · rw [carriers, List.countP_singleton, Task.carries]
    cases e.isRun p <;> rfl

/-! ### The parts of an advance -/

/-- A count changes the units alone, the expiries noted, and the flags. -/
def OnlyUnits (s t : State) : Prop := t = { s with iu := t.iu, adv := t.adv, ev := t.ev }

namespace OnlyUnits

theorem refl (s : State) : OnlyUnits s s := rfl

theorem trans (h : OnlyUnits s t) (k : OnlyUnits t u) : OnlyUnits s u := by
  rw [OnlyUnits] at *
  rw [k, h]

theorem countSingle (s : State) (r : Fin 4) : OnlyUnits s (s.countSingle r) := by
  simp only [State.countSingle]
  split
  · split
    · split <;> rfl
    · rfl
  · rfl

theorem countPair (s : State) (r : Fin 4) : OnlyUnits s (s.countPair r) := by
  simp only [State.countPair]
  split
  · split
    · split <;> rfl
    · rfl
  · rfl

theorem ite {c : Prop} [Decidable c] (yes : OnlyUnits s t) (no : OnlyUnits s u) : OnlyUnits s (if c then t else u) := by
  split
  · exact yes
  · exact no

theorem countUnit (s : State) (r : Fin 4) : OnlyUnits s (s.countUnit r) := by
  have cleared (v : State) : OnlyUnits v (v.clearOwes r) := rfl
  have counted : OnlyUnits s (if (s.unit (evenOf r)).owes then s.countPair r else s) := ite (countPair s r) (refl s)
  rw [State.countUnit]
  refine ite (ite ?_ (refl s)) (ite (countSingle s r) (refl s))
  generalize (if (s.unit (evenOf r)).owes then s.countPair r else s) = v at counted ⊢
  exact counted.trans (ite (cleared v) (refl v))

theorem countSources (s : State) : OnlyUnits s s.countSources :=
  foldl_keeps (P := OnlyUnits s) (fun v r before => before.trans (ite (countUnit v r) (refl v))) _ (refl s)

theorem sameRuns (h : OnlyUnits s t) : SameRuns s t := by
  rw [OnlyUnits] at h
  rw [h]
  exact ⟨rfl, rfl, rfl, rfl⟩

end OnlyUnits

theorem SameRuns.setEntryAt (s : State) (k : Fin 8) (x : PatternEntry) : SameRuns s (s.setEntryAt k x) :=
  ⟨rfl, rfl, rfl, rfl⟩

theorem SameRuns.setExpiry (s : State) (r : Fin 4) (x : Option Expiry) : SameRuns s (s.setExpiry r x) :=
  ⟨rfl, rfl, rfl, rfl⟩

theorem SameRuns.endEval (s : State) (v : Word) : SameRuns s (s.endEval v) := ⟨rfl, rfl, rfl, rfl⟩

theorem SameRuns.closeWindows (s : State) : SameRuns s s.closeWindows := by
  rw [State.closeWindows]
  split <;> exact ⟨rfl, rfl, rfl, rfl⟩

theorem SameRuns.takeSample (s : State) : SameRuns s s.takeSample := by
  have sampled (v : State) : SameRuns v v.sampleAll := ⟨rfl, rfl, rfl, rfl⟩
  rw [State.takeSample]
  split
  · exact (OnlyUnits.countSources s).sameRuns.trans (sampled _)
  · exact refl s

theorem SameRuns.handEdge (s : State) : SameRuns s s.handEdge := by
  rw [State.handEdge]
  split
  · exact refl s
  · next h hs _ =>
    have noted : SameRuns s { s with adv := { s.adv with edges := hs } } := ⟨rfl, rfl, rfl, rfl⟩
    exact noted.trans (.produce _ h)

/-- A predicate that what a piece of work does keeps: it looks at the runs, the list and the store alone, and every
chain and every swap keeps it. -/
structure KeptByWork (P : State → Prop) : Prop where
  same : ∀ {v w}, SameRuns v w → P v → P w
  /-- the entry at the head of the list is taken (R26) -/
  taken : ∀ v e rest, v.sched.pel = e :: rest → e.due = v.tl → P v →
    P (({ v with sched := { v.sched with pel := rest } } : State).chain [.take e false])
  late : ∀ v e, e.isDirect = true → P v → P (v.chain [.take e true])
  launch : ∀ v src q, P v → P (v.launchNow src q).2
  ended : ∀ v q, P v → P (v.endRun q .aborted).2
  swapped : ∀ v u, v.store.swap = some u → P v → P v.swapPages

namespace KeptByWork

variable {P : State → Prop}

theorem takeDueEntry (kept : KeptByWork P) (before : P s) : P s.takeDueEntry := by
  by_cases due : ∃ e ∈ s.sched.pel.head?, e.due = s.tl
  · obtain ⟨e, head, isDue⟩ := due
    obtain ⟨rest, list⟩ := List.head?_eq_some_iff.mp head
    have begun : SameRuns s { s with adv := { s.adv with schedBegun := true } } := ⟨rfl, rfl, rfl, rfl⟩
    rw [State.takeDueEntry_of_due list isDue]
    exact kept.taken { s with adv := { s.adv with schedBegun := true } } e rest list isDue (kept.same begun before)
  · rw [State.takeDueEntry_of_not_due fun e head isDue => due ⟨e, head, isDue⟩]
    exact before

theorem takeSwapPoint (kept : KeptByWork P) (r : Fin 4) (before : P s) : P (s.takeSwapPoint r) := by
  rw [State.takeSwapPoint]
  split
  · exact before
  · split
    · exact before
    · split
      · next pending => exact kept.same (.setExpiry _ _ _) (kept.swapped s r pending before)
      · exact kept.same (.setExpiry _ _ _) before

theorem launchIf (kept : KeptByWork P) (page : Page) (r : Fin 4) (q : Fin 8) (before : P s) :
    P (s.launchIf page r q) := by
  rw [State.launchIf]
  split
  · exact kept.launch s .hardware q before
  · exact before

theorem takeUnitLaunch (kept : KeptByWork P) (r : Fin 4) (before : P s) : P (s.takeUnitLaunch r) := by
  have stored := kept.takeSwapPoint r before
  cases expired : s.adv.expiry[r] with
  | none => rw [State.takeUnitLaunch_of_none expired]; exact before
  | some x =>
    cases left : x.left with
    | nil => rw [State.takeUnitLaunch_of_nil expired left]; exact kept.same (.setExpiry _ _ _) stored
    | cons q qs =>
      rw [State.takeUnitLaunch_of_cons expired left]
      exact kept.launchIf _ r q (kept.same (.setExpiry _ _ _) stored)

theorem fire (kept : KeptByWork P) (k : Fin 8) (v : Word) (before : P s) : P (s.fire k v) := by
  have recorded : P (if (s.entryAt k).record then s.produce (.pattern k v s.tl) else s) := by
    split
    · exact kept.same (.produce _ _) before
    · exact before
  simp only [State.fire]
  refine kept.same (.requestIf _ _ _) ?_
  split
  · exact kept.launch _ _ _ recorded
  · exact recorded

theorem evalOne (kept : KeptByWork P) (k : Fin 8) (v : Word) (before : P s) : P (s.evalOne k v) := by
  cases candidate : (s.entryAt k).candidate s.pat.held v with
  | false => rw [State.evalOne_of_no_candidate candidate]; exact kept.same (.setEntryAt _ _ _) before
  | true =>
    cases fires : (s.entryAt k).fires with
    | false => rw [State.evalOne_of_counts candidate fires]; exact kept.same (.setEntryAt _ _ _) before
    | true =>
      rw [State.evalOne_of_fires candidate fires]
      exact kept.same (.setEntryAt _ _ _) (kept.fire k v (kept.same (.setEntryAt _ _ _) before))

theorem takePatternEntry (kept : KeptByWork P) (before : P s) : P s.takePatternEntry := by
  have noted (x : Option Evaluation) : P { s with adv := { s.adv with eval := x } } := by
    have same : SameRuns s { s with adv := { s.adv with eval := x } } := ⟨rfl, rfl, rfl, rfl⟩
    exact kept.same same before
  simp only [State.takePatternEntry]
  split
  · split
    · exact before
    · split
      · exact kept.same (.endEval _ _) before
      · have evaluated := fun x k v => kept.evalOne k v (noted x)
        split
        · exact kept.same (.endEval _ _) (evaluated _ _ _)
        · exact evaluated _ _ _
  · exact before

theorem job (kept : KeptByWork P) (j : Job) (before : P s) : P (runJob j s) := by
  cases j with
  | entry => exact kept.takeDueEntry before
  | count u => exact kept.same (OnlyUnits.countUnit s u).sameRuns before
  | swapPoint u => exact kept.takeSwapPoint u before
  | unitLaunch u => exact kept.takeUnitLaunch u before
  | sample => exact kept.same (.takeSample s) before
  | edge => exact kept.same (.handEdge s) before
  | patternEntry => exact kept.takePatternEntry before
  | closeWindows => exact kept.same (.closeWindows s) before

theorem work (kept : KeptByWork P) (work : Work s t) (before : P s) : P t := by
  cases work with
  | job j => exact kept.job j before
  | applyLate e direct => exact kept.late s e direct before
  | launch src q => exact kept.launch s src q before
  | endRun q => exact kept.ended s q before

theorem settle (kept : KeptByWork P) (before : P s) : P s.settle :=
  (Handled.settle s).keeps (fun j _ => kept.job j) before

end KeptByWork

/-! ### One entry for each run -/

/-- The task that a chain begins with has its entry due, or is no RUN entry. -/
theorem runTakesDue_single {e : Entry} {late : Bool} (due : e.isDirect = false → e.due = s.tl) :
    RunTakesDue [.take e late] s := by
  intro x l listed run
  obtain ⟨rfl, -⟩ := Task.take.inj (List.mem_singleton.mp listed)
  exact due run

theorem Runs.runEntryLaw {G H : Ghost} (runs : Runs G s H t) (binds : ∀ p, G p = ((s.slot p).bindId, false))
    (same : G = H) (law : RunEntryLaw s) : RunEntryLaw t := by
  have agrees : Agrees G s := fun p => by rw [binds p]; exact ⟨rfl, runEntryLaw_iff.mp law p⟩
  refine runEntryLaw_iff.mpr fun p => ?_
  rw [(runs.agrees agrees p).2, ← same, binds p]

theorem runEntryLaw_kept : KeptByWork RunEntryLaw where
  same h law := (Runs.same (fun p => ((_ : State).slot p |>.bindId, false)) h).runEntryLaw (fun _ => rfl) rfl law
  taken v e rest list due law := (law.chained_head list).chain (runTakesDue_single fun _ => due) (potential_singleton _ _)
  late v e direct law := by
    refine (law.chained fun p b => ?_).chain (runTakesDue_single fun run => ?_) (potential_singleton _ _)
    · exact isRun_isDirect direct
    · exact nomatch direct.symm.trans run
  launch v src q law := by
    obtain ⟨due, dueAfter⟩ := RunTakesDue.launched v src q
    obtain ⟨H, chained⟩ := (law.chained (t := .launch src q) fun _ _ => rfl).doTask due
    rw [List.append_nil] at chained
    refine chained.chain dueAfter ?_
    have lower := (doTask_lowers (.launch src q) v due).1
    have credit := v.credit_le
    simp only [Task.weight] at lower
    simp only [chainFuel]
    omega
  ended v q law := (Runs.endRun _ v q .aborted).runEntryLaw (fun _ => rfl) rfl law
  swapped v u _ law := law

theorem runEntryLaw_of_idle (empty : s.sched.pel = []) (idle : ∀ p, (s.slot p).run = none) : RunEntryLaw s := by
  intro p
  rw [idle p, empty]
  exact List.forall_mem_nil _

theorem State.clearBlocks_run (s : State) (p : Fin 8) : (s.clearBlocks.slot p).run = none := by
  rw [State.slot, State.clearBlocks, getElem_tabulate]
  rfl

/-- A change of the list that leaves the RUN entries. -/
theorem RunEntryLaw.setPel (law : RunEntryLaw s) {pel : List Entry}
    (entries : ∀ p : Fin 8, pel.filter (fun e => e.isRun p) = s.sched.pel.filter fun e => e.isRun p) :
    RunEntryLaw (s.setPel pel) := by
  refine runEntryLaw_iff.mpr fun p => ?_
  rw [State.originsOf, State.setPel, entries p]
  exact runEntryLaw_iff.mp law p

theorem Entry.not_hasTag_of_isRun {e : Entry} {p : Fin 8} (run : e.isRun p = true) (tag : BitVec 8) :
    e.hasTag tag = false := by
  cases origin : e.origin with
  | run q i => rw [Entry.hasTag, origin]
  | direct u => rw [Entry.isRun, origin] at run; exact nomatch run

theorem State.slot_setArmed (s : State) (w : Word) (b : Bool) (p : Fin 8) :
    (s.setArmed w b).slot p = if bit w p.val then { s.slot p with armed := b } else s.slot p := by
  rw [State.slot, State.setArmed, getElem_tabulate]

theorem Change.runEntryLaw (change : Change s t) (law : RunEntryLaw s) : RunEntryLaw t := by
  cases change with
  | advance pins => exact runEntryLaw_kept.settle law
  | clear _ => exact runEntryLaw_of_idle rfl s.clearBlocks_run
  | unruled same => exact of_ruled (P := RunEntryLaw) (fun _ => .rfl) same law
  | armed w b =>
    refine runEntryLaw_iff.mpr fun p => (runEntryLaw_iff.mp law p).trans ?_
    rw [State.slot_setArmed]
    split <;> rfl
  | insert e _ direct _ => exact law.setPel fun p => filter_insertByTime_neg _ _ (isRun_isDirect direct)
  | cancel tag =>
    refine law.setPel fun p => ?_
    rw [List.filter_filter]
    refine List.filter_congr fun e _ => ?_
    cases run : e.isRun p with
    | false => rfl
    | true => rw [Entry.not_hasTag_of_isRun run]; rfl
  | _ => exact law

/-- Settles O57 by `step_keeps`; a chain keeps the law although the step that it handles is out of the list meanwhile
(`Chained`). -/
theorem stepKeepsOneEntryForEachRun : Obligations.StepKeepsOneEntryForEachRun := by
  intro s t stepped law
  obtain ⟨-, -, -, -, reset, -⟩ := resetKeepsTheLaws
  refine step_keeps (P := RunEntryLaw) (fun _ _ => id) (fun _ _ => reset) (fun v w law => ?_)
    (fun v w => runEntryLaw_kept.work) (fun _ _ => Change.runEntryLaw) stepped law
  rw [v.writeStoreData_frame]
  exact law

end Sys2Proof.Machine
end

section
/-! PROOFS. Every step keeps the bindings: each bound-run count is the number of runs bound to the page, and a swap is
pending only while the other page is OPEN (R48, R57). -/

namespace Sys2Proof.Machine

variable {s t u : State}

/-! ### The number of runs bound to a page -/

/-- 1 when the slot has a run that is bound to the page, and otherwise 0. -/
def Slot.binds (g : Page) (x : Slot) : Nat := if x.run.map Run.page == some g then 1 else 0

theorem boundRuns_eq_sum (s : State) (g : Page) : boundRuns s g = sumSlots fun p => (s.slot p).binds g := by
  rw [boundRuns, ← List.countP_eq_length_filter, sumSlots]
  induction List.finRange 8 with
  | nil => rfl
  | cons p ps ih =>
    rw [List.countP_cons, ih, List.map_cons, List.sum_cons, Nat.add_comm]
    rfl

theorem boundRuns_congr (slots : t.slots = s.slots) (g : Page) : boundRuns t g = boundRuns s g := by
  simp only [boundRuns, State.slot, slots]

/-- A slot changes: the count of its old run is taken off, and that of its new run added. -/
theorem boundRuns_setSlot (s : State) (p : Fin 8) (x : Slot) (g : Page) :
    boundRuns (s.setSlot p x) g + (s.slot p).binds g = boundRuns s g + x.binds g := by
  have moved := sumSlots_of_others (f := fun q => (s.slot q).binds g) (g := fun q => ((s.setSlot p x).slot q).binds g) p
    fun q other => by rw [State.slot_setSlot, if_neg other]
  rw [State.slot_setSlot, if_pos rfl, ← boundRuns_eq_sum, ← boundRuns_eq_sum] at moved
  exact moved

theorem boundRuns_of_idle (idle : ∀ p, (s.slot p).run = none) (g : Page) : boundRuns s g = 0 := by
  simp [boundRuns, idle]

theorem Slot.binds_of_running {x : Slot} {r : Run} (running : x.run = some r) (g : Page) :
    x.binds g = if r.page = g then 1 else 0 := by
  simp [Slot.binds, running]

theorem Slot.binds_of_idle {x : Slot} (idle : x.run = none) (g : Page) : x.binds g = 0 := by
  simp [Slot.binds, idle]

theorem Slot.binds_congr {x y : Slot} (same : x.run.map Run.page = y.run.map Run.page) (g : Page) :
    x.binds g = y.binds g := by
  rw [Slot.binds, same, Slot.binds]

theorem Store.bound_setBound (c : Store) (g h : Page) (n : Nat) :
    (c.setBound g n).bound h = if h = g then n else c.bound h := by
  cases g <;> cases h <;> rfl

theorem Store.setBound_active (c : Store) (g : Page) (n : Nat) : (c.setBound g n).active = c.active := by
  cases g <;> rfl

theorem Store.setBound_swap (c : Store) (g : Page) (n : Nat) : (c.setBound g n).swap = c.swap := by
  cases g <;> rfl

/-! ### The law -/

theorem Page.other_ne (g : Page) : g.other ≠ g := by
  cases g <;> decide

theorem Store.stateOf_other (c : Store) : c.stateOf c.active.other = .open_ ↔ c.bound c.active.other = 0 := by
  rw [Store.stateOf, if_neg (Page.other_ne _)]
  simp

theorem bindingLaw_iff :
    BindingLaw s ↔ (∀ g, s.store.bound g = boundRuns s g) ∧
      (s.store.swap.isSome = true → s.store.bound s.store.active.other = 0) := by
  rw [BindingLaw, Store.stateOf_other]

/-- A run leaves with its binding, or comes with it. -/
theorem Runs.bindingLaw {G H : Ghost} (runs : Runs G s H t) (law : BindingLaw s) : BindingLaw t := by
  have set {v : State} (p : Fin 8) {x : Slot} (same : ∀ g, x.binds g = (v.slot p).binds g) (law : BindingLaw v) :
      BindingLaw (v.setSlot p x) := by
    obtain ⟨counts, pending⟩ := law
    refine ⟨fun g => (counts g).trans ?_, pending⟩
    have moved := boundRuns_setSlot v p x g
    rw [same] at moved
    omega
  induction runs with
  | same G h =>
    obtain ⟨counts, pending⟩ := law
    rw [BindingLaw, h.store]
    exact ⟨fun g => (counts g).trans (boundRuns_congr h.slots g).symm, pending⟩
  | trans _ _ first second => exact second (first law)
  | @leave G s p r running =>
    obtain ⟨counts, pending⟩ := bindingLaw_iff.mp law
    refine bindingLaw_iff.mpr ⟨fun g => ?_, ?_⟩
    · have moved := boundRuns_setSlot s p { s.slot p with run := none } g
      rw [Slot.binds_of_running running, Slot.binds_of_idle rfl] at moved
      have left : boundRuns (s.leave p r) g = boundRuns (s.setSlot p { s.slot p with run := none }) g := rfl
      have bound := counts g
      rw [left, State.leave, Store.bound_setBound]
      split
      · next same => subst same; rw [if_pos rfl] at moved; omega
      · next other => rw [if_neg (Ne.symm other)] at moved; omega
    · rw [State.leave, Store.setBound_swap, Store.setBound_active, Store.bound_setBound]
      intro swap
      have open_ := pending swap
      split
      · next same => rw [same] at open_; rw [open_]
      · exact open_
  | purge G _ => exact law
  | @bind G s q r armed idle page =>
    obtain ⟨counts, pending⟩ := bindingLaw_iff.mp law
    refine bindingLaw_iff.mpr ⟨fun g => ?_, ?_⟩
    · have moved := boundRuns_setSlot s.bindActive q
        { s.slot q with run := some r, bindId := (s.slot q).bindId + 1, armed := armed } g
      have before : boundRuns s.bindActive g = boundRuns s g := rfl
      have empty : (s.bindActive.slot q).run = none := idle
      rw [before, Slot.binds_of_idle empty, Slot.binds_of_running rfl, page] at moved
      have bound := counts g
      change (s.store.setBound s.store.active (s.store.bound s.store.active + 1)).bound g = boundRuns (s.bindRun q r armed) g
      rw [Store.bound_setBound, State.bindRun]
      split
      · next same => subst same; rw [if_pos rfl] at moved; omega
      · next other => rw [if_neg (Ne.symm other)] at moved; omega
    · change (s.store.setBound s.store.active _).swap.isSome = true →
        (s.store.setBound s.store.active _).bound (s.store.setBound s.store.active _).active.other = 0
      rw [Store.setBound_swap, Store.setBound_active, Store.bound_setBound, if_neg (Page.other_ne _)]
      exact pending
  | @adjust G s p x run bindId credit =>
    refine set p (Slot.binds_congr ?_) law
    have pages := congrArg (Option.map Prod.fst) run
    rw [Option.map_map, Option.map_map] at pages
    exact pages
  | @step G s p r x out running page =>
    refine set p (Slot.binds_congr ?_) law
    rw [running, Option.map_some, Option.map_some, page]
  | insert G _ _ _ => exact law
  | forget G _ _ => exact law

/-! ### What every step keeps -/

/-- A task changes the bindings as `Runs` says; which steps are out of the list does not matter here. -/
theorem BindingLaw.doTask (law : BindingLaw s) {t : Task} (due : RunTakesDue [t] s) : BindingLaw (doTask t s).2 := by
  obtain ⟨H, runs, -⟩ := doTask_passes (G := fun p => ((s.slot p).bindId, true)) (fun _ => rfl) (fun _ _ => rfl) due
  exact runs.bindingLaw law

theorem BindingLaw.chain (law : BindingLaw s) {ts : List Task} (due : RunTakesDue ts s) : BindingLaw (s.chain ts) :=
  runChain_keeps (P := fun _ => BindingLaw) (fun _ _ _ due law => law.doTask due) due law

/-- A swap makes the OPEN page ACTIVE, and no swap is pending then. -/
theorem BindingLaw.swapPages (law : BindingLaw s) : BindingLaw s.swapPages :=
  ⟨law.1, fun pending => nomatch pending⟩

theorem bindingLaw_kept : KeptByWork BindingLaw where
  same h law := (Runs.same .out h).bindingLaw law
  taken v e rest list due law := by
    have removed : BindingLaw { v with sched := { v.sched with pel := rest } } := law
    exact removed.chain (runTakesDue_single fun _ => due)
  late v e direct law := law.chain (runTakesDue_single fun run => nomatch direct.symm.trans run)
  launch v src q law := by
    obtain ⟨due, dueAfter⟩ := RunTakesDue.launched v src q
    exact (law.doTask due).chain dueAfter
  ended v q law := (Runs.endRun .out v q .aborted).bindingLaw law
  swapped v u _ law := law.swapPages

theorem bindingLaw_of_idle (idle : ∀ p, (s.slot p).run = none) (unbound : ∀ g, s.store.bound g = 0)
    (noSwap : s.store.swap = none) : BindingLaw s := by
  refine ⟨fun g => ?_, fun pending => ?_⟩
  · rw [unbound, boundRuns_of_idle idle]
  · rw [noSwap] at pending
    exact nomatch pending

theorem Store.other_open_of_allowed {c : Store} (allowed : c.swapRefusal = none) : c.stateOf c.active.other = .open_ := by
  rw [Store.swapRefusal] at allowed
  split at allowed
  · exact nomatch allowed
  · split at allowed
    · exact nomatch allowed
    · next notDraining =>
      rw [Store.stateOf, if_neg (Page.other_ne _)] at notDraining ⊢
      split
      · rfl
      · next bound => rw [if_neg bound] at notDraining; exact absurd rfl notDraining

theorem Change.bindingLaw (change : Change s t) (law : BindingLaw s) : BindingLaw t := by
  cases change with
  | advance pins => exact bindingLaw_kept.settle law
  | clear _ => exact bindingLaw_of_idle s.clearBlocks_run (fun g => by cases g <;> rfl) rfl
  | unruled same => exact of_ruled (P := BindingLaw) (fun _ => .rfl) same law
  | armed w b =>
    obtain ⟨counts, pending⟩ := law
    refine ⟨fun g => (counts g).trans ?_, pending⟩
    rw [boundRuns_eq_sum, boundRuns_eq_sum]
    refine sumSlots_congr fun p => Slot.binds_congr ?_ g
    rw [State.slot_setArmed]
    split <;> rfl
  | swapPages allowed => exact law.swapPages
  | pendSwap u allowed =>
    have opened := Store.other_open_of_allowed allowed
    exact ⟨law.1, fun _ => opened⟩
  | withdraw => exact ⟨law.1, fun pending => nomatch pending⟩
  | _ => exact law

theorem Store.setPage_bindings (c : Store) (g : Page) (m : PageMem) :
    (c.setPage g m).boundA = c.boundA ∧ (c.setPage g m).boundB = c.boundB ∧ (c.setPage g m).active = c.active ∧
      (c.setPage g m).swap = c.swap := by
  cases g <;> exact ⟨rfl, rfl, rfl, rfl⟩

theorem State.writeStoreData_bindings (w : Word) (s : State) :
    (∀ g, (s.writeStoreData w).store.bound g = s.store.bound g) ∧
      (s.writeStoreData w).store.active = s.store.active ∧ (s.writeStoreData w).store.swap = s.store.swap := by
  simp only [State.writeStoreData]
  split
  · exact ⟨fun g => by cases g <;> rfl, rfl, rfl⟩
  · split
    · exact ⟨fun g => by cases g <;> rfl, rfl, rfl⟩
    · obtain ⟨boundA, boundB, active, swap⟩ := s.store.setPage_bindings s.store.addrPage
        (Memory.write (s.store.page s.store.addrPage) s.store.addr.toNat (w &&& storeMask s.store.addr.toNat))
      refine ⟨fun g => ?_, active, swap⟩
      cases g with
      | a => exact boundA
      | b => exact boundB

theorem BindingLaw.writeStoreData (law : BindingLaw s) (w : Word) : BindingLaw (s.writeStoreData w) := by
  obtain ⟨bound, active, swap⟩ := s.writeStoreData_bindings w
  obtain ⟨counts, pending⟩ := bindingLaw_iff.mp law
  have slots : (s.writeStoreData w).slots = s.slots := by rw [s.writeStoreData_frame]
  refine bindingLaw_iff.mpr ⟨fun g => ?_, ?_⟩
  · rw [bound, counts, boundRuns_congr slots]
  · rw [swap, active, bound]
    exact pending

theorem step_keeps_bindingLaw (stepped : step s = .next t) (law : BindingLaw s) : BindingLaw t := by
  obtain ⟨-, -, -, -, -, reset, -⟩ := resetKeepsTheLaws
  exact step_keeps (P := BindingLaw) (fun _ _ => id) (fun _ _ => reset) (fun _ w law => law.writeStoreData w)
    (fun _ _ => bindingLaw_kept.work) (fun _ _ => Change.bindingLaw) stepped law

/-- Settles O58, law by law, each by `step_keeps`. -/
theorem stepKeepsTheBindings : Obligations.StepKeepsTheBindings :=
  fun _ _ stepped => ⟨step_keeps_bindingLaw stepped, step_keeps_sameDueLaw stepped, step_keeps_pagesWf stepped⟩

end Sys2Proof.Machine
end

section
/-! PROOFS. The step, the phases of the initialisation, and the writes that change one field (R1, R13, R38, R67, R92,
R118, R182). -/

namespace Sys2Proof.Machine

variable {s : State}

theorem tabulate_congr {α : Type} {n : Nat} {f g : Fin n → α} (same : ∀ i, f i = g i) : tabulate f = tabulate g :=
  congrArg tabulate (funext same)

/-- A command that waits for READY, in READY. -/
theorem next_whenReady (ready : s.port.phase = .ready) (f : State → State) :
    (Host.Outcome.next (s.whenReady f) : Host.Outcome State Fault Refusal) = .next (f s) :=
  congrArg Host.Outcome.next (State.whenReady_of_ready ready f)

/-! ### The step (R1, R182) -/

/-- Settles O1: the queue is looked at first. -/
theorem stepRunsTheFrontCommand : Obligations.StepRunsTheFrontCommand := by
  intro c rest s front
  rw [step, front]

theorem step_of_empty (empty : s.pending = []) : step s = .next s.clkCycle := by
  rw [step, empty]

theorem State.clkCycle_of_resetLow (phase : s.port.phase = .resetLow) : s.clkCycle = s := by
  rw [State.clkCycle, phase]

theorem State.clkCycle_of_initialising (phase : s.port.phase = .initialising) :
    s.clkCycle =
      if initCycles ≤ s.port.initClk + 1 then s.endInitialisation
      else { s with port := { s.port with initClk := s.port.initClk + 1 } } := by
  rw [State.clkCycle, phase]

theorem State.clkCycle_of_ready (phase : s.port.phase = .ready) :
    s.clkCycle =
      if s.tb.tbrun then
        if s.tb.tickLen ≤ s.tb.divider + 1 then
          State.tick (Config.idlePins s.freeCount) (Config.idleOrder s.freeCount) true
            { s with freeCount := s.freeCount + 1 }
        else { s with tb := { s.tb with divider := s.tb.divider + 1 } }
      else s := by
  rw [State.clkCycle, phase]

/-- Settles O2, phase by phase. -/
theorem emptyQueuePassesOneClkCycle : Obligations.EmptyQueuePassesOneClkCycle := by
  intro s empty
  rw [step_of_empty empty]
  refine ⟨fun phase => ?_, fun phase counting => ?_, fun phase ended => ?_, fun phase stopped => ?_,
    fun phase running within => ?_, fun phase running whole => ?_⟩
  · rw [State.clkCycle_of_resetLow phase]
  · exact congrArg _ ((State.clkCycle_of_initialising phase).trans (if_neg (Nat.not_le_of_lt counting)))
  · exact congrArg _ ((State.clkCycle_of_initialising phase).trans (if_pos ended))
  · rw [State.clkCycle_of_ready phase, if_neg (by simp [stopped])]
  · rw [State.clkCycle_of_ready phase, if_pos running, if_neg (Nat.not_le_of_lt within)]
  · refine ⟨Config.idlePins s.freeCount, Config.idleOrder s.freeCount, ?_⟩
    rw [State.clkCycle_of_ready phase, if_pos running, if_pos whole]
    exact (exec_tick_of_ready (s := { s with freeCount := s.freeCount + 1 }) phase _ _ _).symm

/-! ### RESET# and the initialisation (R182) -/

/-- Settles O3 by evaluating the reads of all 128 words of the one reset state. -/
theorem windowAfterReset : Obligations.WindowAfterReset := by
  refine ⟨?words, rfl, fun n => rfl, rfl⟩
  decide

/-- Settles O4, phase by phase. -/
theorem resetAndInitialisation : Obligations.ResetAndInitialisation := by
  intro s at_
  exact ⟨rfl, fun low => congrArg Host.Outcome.next (if_pos low), fun high => congrArg Host.Outcome.next (if_neg high),
    fun begun => congrArg Host.Outcome.next (if_pos begun), fun other => congrArg Host.Outcome.next (if_neg other)⟩

theorem exec_of_not_ready (notReady : s.port.phase ≠ .ready) {c : Instr} (noReset : c ≠ .reset)
    (noRelease : c ≠ .resetRelease) (noEnd : c ≠ .initialisationEnd) :
    exec c s = .next (if isRead c then { s with port := { s.port with dataOut := earlyData s } } else s) := by
  have reads {a : BitVec 7} (notStatus : a ≠ 0x03) :
      (Host.Outcome.next (s.readAccess a) : Host.Outcome State Fault Refusal) =
        .next { s with port := { s.port with dataOut := earlyData s } } :=
    congrArg Host.Outcome.next (State.readAccess_of_not_ready notReady notStatus)
  cases c with
  | reset => exact absurd rfl noReset
  | resetRelease => exact absurd rfl noRelease
  | initialisationEnd => exact absurd rfl noEnd
  | timeLo => exact reads (a := 0x04) (by decide)
  | timeHi => exact reads (a := 0x05) (by decide)
  | countRead u => exact reads (by revert u; decide)
  | storeDataRead => exact reads (a := 0x69) (by decide)
  | capr0 => exact reads (a := 0x48) (by decide)
  | _ => exact congrArg Host.Outcome.next (State.whenReady_of_not_ready notReady _)

/-- STATUS shows READY in its lowest bit. -/
theorem State.statusWord_ready (notReady : s.port.phase ≠ .ready) : s.statusWord.getLsbD 0 = false := by
  have low : (s.port.phase == .ready) = false := beq_false_of_ne notReady
  rw [State.statusWord, low]
  simp [placeBit, place]

/-- Settles O5: `exec_of_not_ready`, and the reads by phase. -/
theorem nothingActsBeforeReady : Obligations.NothingActsBeforeReady := by
  intro c s notReady
  refine ⟨exec_of_not_ready notReady, State.readWord_of_resetLow, fun phase => ⟨fun a notStatus => ?_, s.statusWord, ?_,
    State.statusWord_ready notReady⟩⟩
  · rw [State.readWord_of_initialising phase, if_neg notStatus]
  · rw [State.readWord_of_initialising phase, if_pos rfl]

/-! ### Writes of one field (R13, R38, R67) -/

theorem Slot.setArmed_eq (w : Word) (p : Nat) (b : Bool) (x : Slot) :
    (if bit w p then { x with armed := b } else x) =
      { x with armed := if b then x.armed || w.getLsbD p else x.armed && !w.getLsbD p } := by
  rw [bit]
  cases w.getLsbD p <;> cases b <;> simp

theorem State.setArmed_eq (w : Word) (b : Bool) (s : State) :
    s.setArmed w b =
      { s with
        slots := tabulate fun p : Fin 8 =>
          { s.slot p with
            armed := if b then (s.slot p).armed || w.getLsbD p.val else (s.slot p).armed && !w.getLsbD p.val } } := by
  rw [State.setArmed, tabulate_congr fun p : Fin 8 => Slot.setArmed_eq w p.val b (s.slot p)]

/-- Settles O14, word by word. -/
theorem lateCountArmAndReloadWrites : Obligations.LateCountArmAndReloadWrites := by
  intro s w ready
  refine ⟨next_whenReady ready _, ?set, ?clr, fun u => next_whenReady ready _⟩
  case set => exact (next_whenReady ready (State.setArmed w true)).trans (congrArg _ (s.setArmed_eq w true))
  case clr => exact (next_whenReady ready (State.setArmed w false)).trans (congrArg _ (s.setArmed_eq w false))

/-! ### Windows closed (R118) -/

/-- Settles O26: a window that is not live is closed. -/
theorem windowCloseShutsDeadWindows : Obligations.WindowCloseShutsDeadWindows := by
  intro s ready
  refine (next_whenReady ready State.closeWindows).trans (congrArg _ ?_)
  rw [State.closeWindows]
  split
  · have windows (k : Fin 3) :
        (s.inp.windows[k].bind fun v => if v.live s.tl then some v else none) =
          s.inp.windows[k].bind fun v =>
            if reached v.opened s.tl = true ∧ (v.until_ = s.tl ∨ ahead v.until_ s.tl = true) then some v else none :=
      congrArg _ (funext fun v => ite_of_iff Window.live_iff _ _)
    rw [tabulate_congr windows]
  · rfl

/-! ### Pin levels (R92) -/

theorem low_octet_getLsbD (n : Fin 16) :
    (0x00FF : Word).getLsbD n.val = decide (n.val < 8) ∧ (0xFF00 : Word).getLsbD n.val = !decide (n.val < 8) := by
  revert n
  decide

/-- The level of a pin is that of its octet's force mode. -/
theorem Outputs.pins_getLsbD (o : Outputs) (n : Fin 16) :
    o.pins.getLsbD n.val = (o.levelsIn (if n.val < 8 then o.mode0 else o.mode1)).getLsbD n.val := by
  obtain ⟨low, high⟩ := low_octet_getLsbD n
  rw [Outputs.pins, BitVec.getLsbD_or, BitVec.getLsbD_and, BitVec.getLsbD_and, low, high]
  split
  · next below => simp [below]
  · next above => simp [above]

/-- Settles O41, mode by mode. -/
theorem pinLevelByForceMode : Obligations.PinLevelByForceMode := by
  intro o n mode
  rw [o.pins_getLsbD n]
  change (mode = .follow → (o.levelsIn mode).getLsbD n.val = _) ∧
    (mode = .freeze → (o.levelsIn mode).getLsbD n.val = _) ∧
    (mode = .allIdle → (o.levelsIn mode).getLsbD n.val = _) ∧
    (mode = .allActive → (o.levelsIn mode).getLsbD n.val = _)
  refine ⟨fun m => ?_, fun m => ?_, fun m => ?_, fun m => ?_⟩ <;> rw [m] <;> simp [Outputs.levelsIn]

end Sys2Proof.Machine
end

section
/-! PROOFS. A tick of the timeline, what the handling of an advance leaves as it is, and the reads with a side effect
(R1, R4, R6, R7, R12, R17, R53, R132, R178). -/

namespace Sys2Proof.Machine

variable {s t : State}

/-! ### What a handling keeps -/

theorem CapReach.holding {c d : Capture} (h : CapReach c d) : d.holding = c.holding := by
  induction h with
  | refl => rfl
  | take x _ ih =>
    rw [← ih, Capture.take]
    split <;> rfl

namespace HandleRel

theorem out (h : HandleRel s t) : t.out = { s.out with logic := t.out.logic } := by
  have erased : ({ t.out with logic := 0 } : Outputs) = { s.out with logic := 0 } :=
    congrArg (fun x : State => x.out) h.kept
  calc t.out = { ({ t.out with logic := 0 } : Outputs) with logic := t.out.logic } := rfl
    _ = { s.out with logic := t.out.logic } := by rw [erased]

theorem ev (h : HandleRel s t) : t.ev = { s.ev with flags := t.ev.flags } := by
  have erased : ({ t.ev with flags := 0 } : EventUnit) = { s.ev with flags := 0 } :=
    congrArg (fun x : State => x.ev) h.kept
  calc t.ev = { ({ t.ev with flags := 0 } : EventUnit) with flags := t.ev.flags } := rfl
    _ = { s.ev with flags := t.ev.flags } := by rw [erased]

theorem addr (h : HandleRel s t) : t.store.addr = s.store.addr := by
  have same := congrArg (fun x : State => x.store.addr) h.kept
  exact same

theorem addrPage (h : HandleRel s t) : t.store.addrPage = s.store.addrPage := by
  have same := congrArg (fun x : State => x.store.addrPage) h.kept
  exact same

theorem lineConfig (h : HandleRel s t) (n : Fin 16) : (t.line n).config = (s.line n).config := by
  have lines : t.inp.lines.map Line.config = s.inp.lines.map Line.config :=
    congrArg (fun x : State => x.inp.lines) h.kept
  simpa [State.line] using congrArg (fun v => v[n]) lines

theorem entryConfig (h : HandleRel s t) (k : Fin 8) : (t.entryAt k).config = (s.entryAt k).config := by
  have entries : t.pat.entries.map PatternEntry.config = s.pat.entries.map PatternEntry.config :=
    congrArg (fun x : State => x.pat.entries) h.kept
  simpa [State.entryAt] using congrArg (fun v => v[k]) entries

end HandleRel

theorem Line.config_iff {l m : Line} :
    l.config = m.config ↔
      l.source = m.source ∧ l.qualify = m.qualify ∧ l.edgeMode = m.edgeMode ∧ l.bset = m.bset := by
  simp [Line.config]

theorem PatternEntry.eq_of_config {e f : PatternEntry} (same : e.config = f.config) :
    e = { f with counter := e.counter, matched := e.matched } :=
  calc e = { e.config with counter := e.counter, matched := e.matched } := rfl
    _ = { f.config with counter := e.counter, matched := e.matched } := by rw [same]

/-! ### TICK (R1, R4) -/

theorem State.tick_of_running (running : s.tb.tbrun = true) (pins : Word) (order : List Job) (whole : Bool) :
    s.tick pins order whole =
      let jobs := order.foldl (fun u j => runJob j u) (s.settle.beginAdvance pins)
      if whole then jobs.settle else jobs := if_pos running

theorem State.tick_of_stopped (stopped : s.tb.tbrun = false) (pins : Word) (order : List Job) (whole : Bool) :
    s.tick pins order whole = s := by
  rw [State.tick, if_neg (by simp [stopped])]

/-- What follows the beginning of an advance in a tick is a handling. -/
theorem HandleRel.tick (running : s.tb.tbrun = true) (pins : Word) (order : List Job) (whole : Bool) :
    HandleRel (s.settle.beginAdvance pins) (s.tick pins order whole) := by
  have jobs := HandleRel.runJobs order (s.settle.beginAdvance pins)
  rw [State.tick_of_running running]
  exact .ite (jobs.trans (.settle _)) jobs

/-- Settles O8: what is kept is kept by the handling of the advance before (`HandleRel.settle`) and by that of the new
one (`HandleRel.tick`). -/
theorem tickAdvancesTheTimeline : Obligations.TickAdvancesTheTimeline := by
  intro s pins order whole ready
  rw [exec_tick_of_ready ready]
  refine ⟨fun stopped => by rw [State.tick_of_stopped stopped],
    fun running => ⟨_, rfl, State.tick_of_running running _ _ _,
    State.tick_tb running _ _ _, ?_⟩⟩
  have before := HandleRel.settle s
  have after := HandleRel.tick running pins order whole
  generalize s.tick pins order whole = t at after
  have port : t.port = { s.settle.port with inPins := pins } := after.port
  refine ⟨by rw [port, before.port], after.cmd.trans before.cmd, after.pairs.trans before.pairs,
    after.lens.trans before.lens, ?out, ?ev, HandleRel.flags_trans before.flags after.flags,
    after.pageA.trans before.pageA, after.pageB.trans before.pageB, after.addr.trans before.addr,
    after.addrPage.trans before.addrPage, after.lateCount.trans before.lateCount, after.wmark.trans before.wmark,
    after.cap.holding.trans before.cap.holding, fun n => ?line, fun k => ?entry, after.pending.trans before.pending,
    fun u => ?unit⟩
  case out =>
    have out : t.out = { s.settle.out with logic := t.out.logic } := after.out
    rw [before.out] at out
    exact out
  case ev =>
    have ev : t.ev = { s.settle.ev with flags := t.ev.flags } := after.ev
    rw [before.ev] at ev
    exact ev
  case line => exact Line.config_iff.mp ((after.lineConfig n).trans (before.lineConfig n))
  case entry => exact ⟨_, _, PatternEntry.eq_of_config ((after.entryConfig k).trans (before.entryConfig k))⟩
  case unit =>
    have begun : (s.settle.beginAdvance pins).unit u = { s.settle.unit u with owes := true } :=
      getElem_tabulate (fun v : Fin 4 => ({ s.settle.iu.units[v] with owes := true } : IntervalUnit)) u
    obtain ⟨reload, prescale, mode, -, -⟩ := after.units u
    rw [begun] at reload prescale mode
    exact ⟨reload.trans (before.units u).reload, mode.trans (before.units u).mode,
      prescale.trans (before.units u).prescale⟩

/-! ### Reads (R6, R7, R12, R17, R18, R53, R132, R178) -/

theorem State.readAccess_of_ready (ready : s.port.phase = .ready) (a : BitVec 7) :
    s.readAccess a = (s.takeRead a).2.drive (some (s.takeRead a).1) := by
  rw [State.readAccess, State.readWord_of_ready ready]

/-- A read as a command. -/
theorem next_readAccess (ready : s.port.phase = .ready) {a : BitVec 7} {w : Word} (taken : s.takeRead a = (w, t)) :
    (Host.Outcome.next (s.readAccess a) : Host.Outcome State Fault Refusal) =
      .next { t with port := { t.port with dataOut := some w } } := by
  rw [State.readAccess_of_ready ready, taken]
  rfl

theorem State.readTimeHi_eq (s : State) :
    s.readTimeHi = (s.tb.snapshot.getD s.tl.hi, { s with tb := { s.tb with snapshot := none } }) := by
  rw [State.readTimeHi]
  cases taken : s.tb.snapshot with
  | some v => rfl
  | none =>
    have unchanged : ({ s with tb := { s.tb with snapshot := none } } : State) = s := by rw [← taken]
    rw [unchanged]
    rfl

theorem State.readCount_of_single {u : Fin 4} (single : s.cascaded u = false) : s.readCount u = ((s.unit u).c, s) := by
  rw [State.cascaded] at single
  simp only [State.readCount, single, Bool.false_eq_true, if_false]

theorem State.readCount_of_even {u : Fin 4} (pair : s.cascaded u = true) (even : isOdd u = false) :
    s.readCount u =
      ((s.unit u).c, s.setPair (pairOf u) { cascade := true, snapshot := some (s.unit (oddOf u)).c }) := by
  rw [State.cascaded] at pair
  simp only [State.readCount, pair, even, Bool.false_eq_true, if_false, if_true]

theorem State.setPair_self (s : State) (i : Fin 2) : s.setPair i s.iu.pairs[i] = s := by
  simp [State.setPair]

theorem State.readCount_of_odd {u : Fin 4} (pair : s.cascaded u = true) (odd : isOdd u = true) :
    s.readCount u =
      (s.iu.pairs[pairOf u].snapshot.getD (s.unit u).c, s.setPair (pairOf u) { cascade := true, snapshot := none }) := by
  rw [State.cascaded] at pair
  cases taken : s.iu.pairs[pairOf u].snapshot with
  | some v => simp only [State.readCount, pair, odd, taken, if_true, Option.getD_some]
  | none =>
    have invalid : s.iu.pairs[pairOf u] = { cascade := true, snapshot := none } := by
      rw [← pair, ← taken]
    have unchanged : s.setPair (pairOf u) { cascade := true, snapshot := none } = s := by
      rw [← invalid, State.setPair_self]
    simp only [State.readCount, pair, odd, taken, if_true, Option.getD_none, unchanged]

theorem State.takeRead_count (s : State) (u : Fin 4) : s.takeRead (BitVec.ofNat 7 (0x0A + 3 * u.val)) = s.readCount u := by
  match u with
  | 0 => rfl
  | 1 => rfl
  | 2 => rfl
  | 3 => rfl

theorem State.showWord_count (s : State) (u : Fin 4) : s.showWord (0x0A + 3 * u.val) = (s.unit u).c := by
  match u with
  | 0 => rfl
  | 1 => rfl
  | 2 => rfl
  | 3 => rfl

/-- A word of the window that is read after the whole of the advance (R41, R66, R104). -/
theorem State.takeRead_settled {a : BitVec 7} (late : a = 0x38 ∨ a = 0x39 ∨ a = 0x6E ∨ a = 0x6F) :
    s.takeRead a = (s.settle.showWord a.toNat, s.settle) := by
  obtain rfl | rfl | rfl | rfl := late <;> rfl

/-- Every word whose read has no side effect shows what stands. -/
theorem State.takeRead_shown {a : BitVec 7} (timeLo : a ≠ 0x04) (timeHi : a ≠ 0x05)
    (capr0 : a ≠ 0x48) (data : a ≠ 0x69)
    (notLate : ¬(a = 0x38 ∨ a = 0x39 ∨ a = 0x6E ∨ a = 0x6F))
    (single : ∀ u : Fin 4, a.toNat = 0x0A + 3 * u.val → s.cascaded u = false) :
    s.takeRead a = (s.showWord a.toNat, s) := by
  have differs {b : BitVec 7} (other : a ≠ b) : ¬a.toNat = b.toNat := fun same => other (BitVec.eq_of_toNat_eq same)
  have early : ¬afterHandling a.toNat = true := by
    intro late
    refine notLate ?_
    simp only [afterHandling, Bool.or_eq_true, beq_iff_eq] at late
    bv_omega
  by_cases count : 0x08 ≤ a.toNat ∧ a.toNat ≤ 0x13 ∧ (a.toNat - 0x08) % 3 = 2
  · obtain ⟨u, address⟩ : ∃ u : Fin 4, a.toNat = 0x0A + 3 * u.val :=
      ⟨⟨(a.toNat - 0x0A) / 3, by omega⟩, by simp only; omega⟩
    have word : a = BitVec.ofNat 7 (0x0A + 3 * u.val) := by rw [← address, BitVec.ofNat_toNat, BitVec.setWidth_eq]
    rw [address, State.showWord_count, word, State.takeRead_count, State.readCount_of_single (single u address)]
  · unfold State.takeRead
    exact (if_neg (differs timeLo)).trans ((if_neg (differs timeHi)).trans ((if_neg count).trans
      ((if_neg (differs capr0)).trans ((if_neg (differs data)).trans (if_neg early)))))

theorem State.readStoreData_eq (s : State) :
    s.readStoreData =
      (if s.store.addr.toNat < 272 then Memory.read (s.store.page s.store.addrPage) s.store.addr.toNat else 0,
        { s with store := { s.store with addr := s.store.addr + 1 } }) := rfl

theorem State.readCapr0_of_nil (empty : s.cap.queue = []) :
    s.readCapr0 = (0, { s with cap := { s.cap with holding := none } }) := by
  simp only [State.readCapr0, empty]

theorem State.readCapr0_of_cons {x : Record} {rest : List Record} (queue : s.cap.queue = x :: rest) :
    s.readCapr0 = (x.word 0, { s with cap := { s.cap with queue := rest, holding := some x } }) := by
  simp only [State.readCapr0, queue]

theorem exec_timeLo_of_ready (ready : s.port.phase = .ready) :
    exec .timeLo s = .next
      { s with tb := { s.tb with snapshot := some s.tl.hi }, port := { s.port with dataOut := some s.tl.lo } } :=
  next_readAccess (a := 0x04) ready rfl

theorem exec_timeHi_of_ready (ready : s.port.phase = .ready) :
    exec .timeHi s = .next
      { s with tb := { s.tb with snapshot := none }
               port := { s.port with dataOut := some (s.tb.snapshot.getD s.tl.hi) } } :=
  next_readAccess (a := 0x05) ready s.readTimeHi_eq

theorem exec_countRead_of_even (ready : s.port.phase = .ready) {u : Fin 4} (pair : s.cascaded u = true)
    (even : isOdd u = false) :
    exec (.countRead u) s = .next
      { s.setPair (pairOf u) { cascade := true, snapshot := some (s.unit (oddOf u)).c } with
        port := { s.port with dataOut := some (s.unit u).c } } :=
  next_readAccess ready ((s.takeRead_count u).trans (State.readCount_of_even pair even))

theorem exec_countRead_of_odd (ready : s.port.phase = .ready) {u : Fin 4} (pair : s.cascaded u = true)
    (odd : isOdd u = true) :
    exec (.countRead u) s = .next
      { s.setPair (pairOf u) { cascade := true, snapshot := none } with
        port := { s.port with dataOut := some (s.iu.pairs[pairOf u].snapshot.getD (s.unit u).c) } } :=
  next_readAccess ready ((s.takeRead_count u).trans (State.readCount_of_odd pair odd))

/-- Settles O10, word by word. -/
theorem readsAndTheirSideEffects : Obligations.ReadsAndTheirSideEffects := by
  intro s ready
  refine ⟨fun a late => ?_, fun a lo hi capr0 data pins pins' state count single => ?_, ?_, ?_, fun u single => ?_,
    fun u pair even => ?_, fun u pair odd => ?_, fun empty => ?_, fun x rest queue => ?_, ?_⟩
  · rw [State.readWord_of_ready ready, State.takeRead_settled late]
  · have notLate : ¬(a = 0x38 ∨ a = 0x39 ∨ a = 0x6E ∨ a = 0x6F) :=
      fun late => late.elim pins fun late => late.elim pins' fun late => late.elim state count
    rw [State.readWord_of_ready ready, State.takeRead_shown lo hi capr0 data notLate single]
  · exact exec_timeLo_of_ready ready
  · exact exec_timeHi_of_ready ready
  · exact next_readAccess ready ((s.takeRead_count u).trans (State.readCount_of_single single))
  · exact exec_countRead_of_even ready pair even
  · exact exec_countRead_of_odd ready pair odd
  · exact next_readAccess (a := 0x48) ready (State.readCapr0_of_nil empty)
  · exact next_readAccess (a := 0x48) ready (State.readCapr0_of_cons queue)
  · exact next_readAccess (a := 0x69) ready s.readStoreData_eq

/-! ### Two halves of one value (R7, R17) -/

/-- A tick changes no snapshot, no phase and no queue of commands. -/
theorem State.tick_keeps (pins : Word) (order : List Job) (whole : Bool) (s : State) :
    (s.tick pins order whole).tb.snapshot = s.tb.snapshot ∧ (s.tick pins order whole).iu.pairs = s.iu.pairs ∧
      (s.tick pins order whole).port.phase = s.port.phase ∧ (s.tick pins order whole).pending = s.pending := by
  cases running : s.tb.tbrun with
  | false =>
    rw [State.tick_of_stopped running]
    exact ⟨rfl, rfl, rfl, rfl⟩
  | true =>
    have before := HandleRel.settle s
    have after := HandleRel.tick running pins order whole
    have port : (s.tick pins order whole).port = { s.settle.port with inPins := pins } := after.port
    refine ⟨by rw [State.tick_tb running], after.pairs.trans before.pairs, ?_, after.pending.trans before.pending⟩
    rw [port, before.port]

theorem run_of_step (stepped : step s = .next t) (k : Nat) : core.run (k + 1) s = core.run k t := by
  simp only [Host.Core.run, core, stepped]

/-- However many ticks wait at the front, they pass, and every snapshot stands as before. -/
theorem run_ticks {ticks : List Instr} (isTick : ∀ c ∈ ticks, ∃ pins order whole, c = .tick pins order whole)
    {rest : List Instr} (ready : s.port.phase = .ready) (front : s.pending = ticks ++ rest) :
    ∃ v : State, (∀ k, core.run (ticks.length + k) s = core.run k v) ∧ v.pending = rest ∧ v.port.phase = .ready ∧
      v.tb.snapshot = s.tb.snapshot ∧ v.iu.pairs = s.iu.pairs := by
  induction ticks generalizing s with
  | nil => exact ⟨s, fun k => by rw [List.length_nil, Nat.zero_add], front, ready, rfl, rfl⟩
  | cons c ticks ih =>
    obtain ⟨pins, order, whole, rfl⟩ := isTick c List.mem_cons_self
    have stepped : step s = .next (State.tick pins order whole { s with pending := ticks ++ rest }) := by
      rw [step, front]
      exact exec_tick_of_ready (s := { s with pending := ticks ++ rest }) ready pins order whole
    obtain ⟨snapshot, pairs, phase, pending⟩ :=
      State.tick_keeps pins order whole { s with pending := ticks ++ rest }
    obtain ⟨v, runs, queue, readyAfter, sameTime, samePairs⟩ :=
      ih (fun c listed => isTick c (List.mem_cons_of_mem _ listed)) (phase.trans ready) pending
    refine ⟨v, fun k => ?_, queue, readyAfter, sameTime.trans snapshot, samePairs.trans pairs⟩
    have next := run_of_step stepped (ticks.length + k)
    rw [List.length_cons, Nat.add_right_comm, next, runs]

/-- Of two commands with ticks between them, the second finds the snapshots that the first leaves. -/
theorem run_around_ticks {c d : Instr} {ticks : List Instr}
    (isTick : ∀ c ∈ ticks, ∃ pins order whole, c = .tick pins order whole)
    (front : s.pending = c :: (ticks ++ [d]))
    (first : exec c { s with pending := ticks ++ [d] } = .next t) (ready : t.port.phase = .ready)
    (queue : t.pending = ticks ++ [d]) :
    core.run 1 s = .next t ∧
      ∃ v : State, v.port.phase = .ready ∧ v.tb.snapshot = t.tb.snapshot ∧ v.iu.pairs = t.iu.pairs ∧
        ∀ u, exec d v = .next u → core.run (ticks.length + 2) s = .next u := by
  have stepped : step s = .next t := by rw [step, front]; exact first
  obtain ⟨v, runs, last, readyAfter, sameTime, samePairs⟩ := run_ticks isTick ready queue
  refine ⟨run_of_step stepped 0, { v with pending := [] }, readyAfter, sameTime, samePairs, fun u next => ?_⟩
  have stepLast : step v = .next u := by rw [step, last]; exact next
  have around := run_of_step stepped (ticks.length + 1)
  rw [runs] at around
  exact around.trans (run_of_step stepLast 0)

theorem isOdd_of_even {u : Fin 4} (even : isOdd u = false) : isOdd (oddOf u) = true ∧ pairOf (oddOf u) = pairOf u := by
  revert u
  decide

/-- Settles O11: the ticks leave the snapshot that the first read takes (`run_around_ticks`). -/
theorem twoHalvesOfOneValue : Obligations.TwoHalvesOfOneValue := by
  intro s ticks ready isTick
  refine ⟨fun front => ?_, fun u pair even front => ?_⟩
  · have read := exec_timeLo_of_ready (s := { s with pending := ticks ++ [.timeHi] }) ready
    obtain ⟨first, v, readyAfter, snapshot, -, last⟩ := run_around_ticks isTick front read ready rfl
    refine ⟨_, _, first, rfl, last _ (exec_timeHi_of_ready readyAfter), ?_⟩
    rw [snapshot]
    rfl
  · obtain ⟨odd, samePair⟩ := isOdd_of_even even
    have read := exec_countRead_of_even (s := { s with pending := ticks ++ [.countRead (oddOf u)] }) ready pair even
    obtain ⟨first, v, readyAfter, -, pairs, last⟩ := run_around_ticks isTick front read ready rfl
    have taken : v.iu.pairs[pairOf u] = { cascade := true, snapshot := some (s.unit (oddOf u)).c } := by
      have same := congrArg (fun x : Vector UnitPair 2 => x[pairOf u]) pairs
      exact same.trans ((State.pairs_setPair _ _ _ _).trans (if_pos rfl))
    have stillPair : v.cascaded (oddOf u) = true := by
      simp only [State.cascaded, samePair, taken]
    refine ⟨_, _, first, rfl, last _ (exec_countRead_of_odd readyAfter stillPair odd), ?_⟩
    simp only [samePair, taken, Option.getD_some]

end Sys2Proof.Machine
end

section
/-! PROOFS. Events of the output stage and their reports, CTRL and CLEAR (R3, R92 to R106, R180, R183). -/

namespace Sys2Proof.Machine

variable {s t : State}

/-! ### Pin changes and their reports (R92, R103) -/

/-- A set is reported when an output line that is assigned to it has moved. -/
theorem movesInSet_iff (o o' : Outputs) (k : Fin 3) :
    ((List.finRange 16).any fun n =>
        bit (o.pins ^^^ o'.pins) n.val && o'.setOf n == BitVec.ofNat 2 (k.val + 1)) = true ↔
      ∃ n : Fin 16, o.pins.getLsbD n.val ≠ o'.pins.getLsbD n.val ∧
        o'.bset.extractLsb' (2 * n.val) 2 = BitVec.ofNat 2 (k.val + 1) := by
  simp [bit, Outputs.setOf, field]

/-- An event that leaves OUTEN makes the reports of its pin changes. -/
theorem State.outputEvent_windowsAfter {f : Outputs → Outputs} (outen : (f s.out).outen = s.out.outen) :
    s.outputEvent f = { s with out := f s.out, inp := { s.inp with windows := windowsAfter s (f s.out) } } := by
  have windows (k : Fin 3) :
      (if (f s.out).outen && (List.finRange 16).any fun n =>
          bit (s.out.pins ^^^ (f s.out).pins) n.val && (f s.out).setOf n == BitVec.ofNat 2 (k.val + 1)
        then windowAfterReport s.inp.lens[k] s.tl s.inp.windows[k] else s.inp.windows[k]) =
      if s.out.outen = true ∧ ∃ n : Fin 16, s.out.pins.getLsbD n.val ≠ (f s.out).pins.getLsbD n.val ∧
          (f s.out).bset.extractLsb' (2 * n.val) 2 = BitVec.ofNat 2 (k.val + 1)
        then windowAfterReport s.inp.lens[k] s.tl s.inp.windows[k] else s.inp.windows[k] :=
    ite_of_iff (by rw [Bool.and_eq_true, movesInSet_iff, outen]) _ _
  rw [State.outputEvent_eq, tabulate_congr windows, windowsAfter]

theorem State.setLines_eq (m : Word) (s : State) :
    s.setLines m =
      { s with
        out := { s.out with logic := s.out.logic ||| m }
        inp := { s.inp with windows := windowsAfter s { s.out with logic := s.out.logic ||| m } } } :=
  State.outputEvent_windowsAfter (f := fun o => { o with logic := o.logic ||| m }) rfl

theorem State.clrLines_eq (m : Word) (s : State) :
    s.clrLines m =
      { s with
        out := { s.out with logic := s.out.logic &&& ~~~m }
        inp := { s.inp with windows := windowsAfter s { s.out with logic := s.out.logic &&& ~~~m } } } :=
  State.outputEvent_windowsAfter (f := fun o => { o with logic := o.logic &&& ~~~m }) rfl

theorem State.toggleLines_eq (m : Word) (s : State) :
    s.toggleLines m =
      { s with
        out := { s.out with logic := s.out.logic ^^^ m }
        inp := { s.inp with windows := windowsAfter s { s.out with logic := s.out.logic ^^^ m } } } :=
  State.outputEvent_windowsAfter (f := fun o => { o with logic := o.logic ^^^ m }) rfl

theorem State.writeOutPol_eq (w : Word) (s : State) :
    s.writeOutPol w =
      { s with
        out := { s.out with pol := w }
        inp := { s.inp with windows := windowsAfter s { s.out with pol := w } } } :=
  State.outputEvent_windowsAfter (f := fun o => { o with pol := w }) rfl

theorem State.writeOutIdle_eq (w : Word) (s : State) :
    s.writeOutIdle w =
      { s with
        out := { s.out with idle := w }
        inp := { s.inp with windows := windowsAfter s { s.out with idle := w } } } :=
  State.outputEvent_windowsAfter (f := fun o => { o with idle := w }) rfl

/-- The output stage after a write of OUT_MODE (R93). -/
def Outputs.withMode (w : Word) (o : Outputs) : Outputs :=
  { o with
    frozen := o.frozenAfter (ForceMode.ofCode (field w 0 2)) (ForceMode.ofCode (field w 8 2))
    mode0 := ForceMode.ofCode (field w 0 2)
    mode1 := ForceMode.ofCode (field w 8 2) }

theorem State.writeOutMode_eq (w : Word) (s : State) :
    s.writeOutMode w =
      { s with
        out := s.out.withMode w
        inp := { s.inp with windows := windowsAfter s (s.out.withMode w) } } :=
  State.outputEvent_windowsAfter (f := Outputs.withMode w) rfl

/-! ### OUT_BSET (R96) -/

/-- The blanking sets of the lower octet are in the lower half, those of the upper octet in the upper half. -/
theorem bset_field (hi lo : Word) (n : Fin 16) :
    (hi ++ lo).extractLsb' (2 * n.val) 2 =
      if 8 ≤ n.val then hi.extractLsb' (2 * (n.val - 8)) 2 else lo.extractLsb' (2 * n.val) 2 := by
  ext i below
  split <;> simp only [BitVec.getElem_extractLsb', BitVec.getLsbD_append]
  · rw [if_neg (by omega)]
    congr 1
    omega
  · rw [if_pos (by omega)]

theorem Time.hi_append_lo (t : Time) : t.hi ++ t.lo = t := by
  refine BitVec.eq_of_getLsbD_eq fun i below => ?_
  rw [BitVec.getLsbD_append]
  split
  · next low => simp [Time.lo, low]
  · next high =>
    have placed : 16 + (i - 16) = i := by omega
    simp [Time.hi, placed, show i - 16 < 16 by omega]

theorem State.writeOutBset_field (hi : Bool) (w : Word) (s : State) (n : Fin 16) :
    (s.writeOutBset hi w).out.bset.extractLsb' (2 * n.val) 2 =
      if hi = true ∧ 8 ≤ n.val then w.extractLsb' (2 * (n.val - 8)) 2
      else if hi = false ∧ n.val < 8 then w.extractLsb' (2 * n.val) 2
      else s.out.bset.extractLsb' (2 * n.val) 2 := by
  have old : s.out.bset.extractLsb' (2 * n.val) 2 =
      (Time.hi s.out.bset ++ Time.lo s.out.bset).extractLsb' (2 * n.val) 2 := by rw [Time.hi_append_lo]
  rw [old, bset_field]
  cases hi with
  | true =>
    refine (bset_field w (Time.lo s.out.bset) n).trans ?_
    by_cases upper : 8 ≤ n.val <;> simp [upper]
  | false =>
    refine (bset_field (Time.hi s.out.bset) w n).trans ?_
    by_cases upper : 8 ≤ n.val
    · simp [upper, Nat.not_lt.mpr upper]
    · simp [upper, Nat.lt_of_not_le upper]

/-- Settles O42: each write is one event of the output stage, but for OUT_BSET. -/
theorem outputWrites : Obligations.OutputWrites := by
  intro s w ready
  have next (f : State → State) : Host.Outcome.next (s.whenReady fun t => f t.settle) =
      (.next (f s.settle) : Host.Outcome State Fault Refusal) := next_whenReady ready fun t => f t.settle
  exact ⟨(next _).trans (congrArg _ (s.settle.setLines_eq w)), (next _).trans (congrArg _ (s.settle.clrLines_eq w)),
    (next _).trans (congrArg _ (s.settle.toggleLines_eq w)), (next _).trans (congrArg _ (s.settle.writeOutPol_eq w)),
    (next _).trans (congrArg _ (s.settle.writeOutIdle_eq w)), (next _).trans (congrArg _ (s.settle.writeOutMode_eq w)),
    fun hi => ⟨s.settle.writeOutBset hi w, next _, rfl, s.settle.writeOutBset_field hi w⟩⟩

/-! ### CTRL (R3, R101, R102, R180) -/

/-- The timebase after a write of TBRUN (R3). -/
def Timebase.withTbrun (b : Bool) (c : Timebase) : Timebase :=
  if b = true ∧ c.tbrun = false then { c with tbrun := true, divider := 0, tickLen := c.tickdiv.toNat + 1 }
  else { c with tbrun := b }

theorem Timebase.withTbrun_tl (b : Bool) (c : Timebase) : (c.withTbrun b).tl = c.tl := by
  rw [Timebase.withTbrun]
  split <;> rfl

theorem State.writeTbrun_eq (b : Bool) (s : State) : s.writeTbrun b = { s with tb := s.tb.withTbrun b } := by
  have starts : (b && !s.tb.tbrun) = true ↔ b = true ∧ s.tb.tbrun = false := by simp
  rw [State.writeTbrun, Timebase.withTbrun]
  by_cases started : b = true ∧ s.tb.tbrun = false
  · rw [if_pos (starts.mpr started), if_pos started]
  · rw [if_neg (mt starts.mp started), if_neg started]

/-- The windows after OUTEN goes from 0 to 1: one report to each set with a line; none otherwise (R101, R102). -/
def windowsEnabled (s : State) (b : Bool) : Vector (Option Window) 3 :=
  tabulate fun k =>
    if b = true ∧ s.out.outen = false ∧ ∃ n : Fin 16, s.out.setOf n = BitVec.ofNat 2 (k.val + 1) then
      windowAfterReport s.inp.lens[k] s.tl s.inp.windows[k]
    else s.inp.windows[k]

theorem tabulate_getElem {α : Type} {n : Nat} (v : Vector α n) : (tabulate fun i : Fin n => v[i]) = v := by
  refine Vector.ext fun i below => ?_
  exact getElem_tabulate (fun j : Fin n => v[j]) ⟨i, below⟩

theorem State.writeOuten_eq (b : Bool) (s : State) :
    s.writeOuten b =
      { s with out := { s.out with outen := b }, inp := { s.inp with windows := windowsEnabled s b } } := by
  rw [State.writeOuten, windowsEnabled]
  by_cases enabled : b = true ∧ s.out.outen = false
  · obtain ⟨on, off⟩ := enabled
    have windows (k : Fin 3) :
        (if (List.finRange 16).any fun n => s.out.setOf n == BitVec.ofNat 2 (k.val + 1) then
          windowAfterReport s.inp.lens[k] s.tl s.inp.windows[k] else s.inp.windows[k]) =
        if b = true ∧ s.out.outen = false ∧ ∃ n : Fin 16, s.out.setOf n = BitVec.ofNat 2 (k.val + 1) then
          windowAfterReport s.inp.lens[k] s.tl s.inp.windows[k] else s.inp.windows[k] :=
      ite_of_iff (by simp [on, off]) _ _
    rw [if_pos (by simp [on, off])]
    refine (State.reportSets_eq _ _).trans ?_
    rw [← tabulate_congr windows]
    rfl
  · have unreported (k : Fin 3) :
        (if b = true ∧ s.out.outen = false ∧ ∃ n : Fin 16, s.out.setOf n = BitVec.ofNat 2 (k.val + 1) then
          windowAfterReport s.inp.lens[k] s.tl s.inp.windows[k] else s.inp.windows[k]) = s.inp.windows[k] :=
      if_neg fun ⟨on, off, _⟩ => enabled ⟨on, off⟩
    rw [if_neg (by simpa using enabled), tabulate_congr unreported, tabulate_getElem]

/-- The four rows of CTRL are one write (R180). -/
theorem exec_ctrl_of_ready (ready : s.port.phase = .ready) {w : Word} {c : Instr}
    (row : c = .tbrun w ∨ c = .outenOn w ∨ c = .outenOff w ∨ c = .clear w) :
    exec c s = .next (s.writeCtrl w) := by
  obtain rfl | rfl | rfl | rfl := row <;> exact next_whenReady ready (State.writeCtrl w)

/-- Settles O12, by `State.writeTbrun_eq` and `State.writeOuten_eq`. -/
theorem ctrlWriteWithoutClear : Obligations.CtrlWriteWithoutClear := by
  intro s w c ready noClear row b
  have kept := HandleRel.settle s
  have noBit : ¬bit w 15 = true := Bool.eq_false_iff.mp noClear
  rw [exec_ctrl_of_ready ready row, State.writeCtrl, if_neg noBit, State.writeTbrun_eq, State.writeOuten_eq, kept.tb]
  have windows : windowsEnabled { s.settle with tb := s.tb.withTbrun (bit w 0) } (bit w 1) =
      tabulate fun k =>
        if w.getLsbD 1 = true ∧ s.out.outen = false ∧
            ∃ n : Fin 16, b.out.setOf n = BitVec.ofNat 2 (k.val + 1) then
          windowAfterReport b.inp.lens[k] s.tl b.inp.windows[k]
        else b.inp.windows[k] := by
    have sameTl : State.tl { s.settle with tb := s.tb.withTbrun (bit w 0) } = s.tl := Timebase.withTbrun_tl _ _
    rw [windowsEnabled, sameTl, ← kept.outen]
    rfl
  rw [windows]
  rfl

/-! ### CLEAR (R106, R183) -/

theorem CommandBlock.clear_eq (c : CommandBlock) :
    c.clear =
      if c.inflight.isSome then { c with inflight := none, result := 19, res := Vector.replicate 4 0 } else c := by
  rw [CommandBlock.clear]
  cases c.inflight <;> rfl

/-- The windows after CLEAR: fresh ones from its own reports (R106, R183). -/
def windowsCleared (s : State) : Vector (Option Window) 3 :=
  tabulate fun k =>
    if s.inp.lens[k] ≠ 0 ∧ s.out.outen = true ∧
        ∃ n : Fin 16, s.out.setOf n = BitVec.ofNat 2 (k.val + 1) ∧
          bit s.out.pins n.val ≠ bit ({ s.out with logic := s.out.idle } : Outputs).pins n.val then
      some { opened := s.tl, until_ := s.tl + s.inp.lens[k].setWidth 32 }
    else none

theorem windowAfterReport_none (l : BitVec 8) (n : Time) :
    windowAfterReport l n none = if l ≠ 0 then some { opened := n, until_ := n + l.setWidth 32 } else none := by
  by_cases zero : l = 0
  · rw [windowAfterReport, if_pos zero, if_neg (Decidable.not_not.mpr zero)]
  · rw [windowAfterReport_closed zero, if_pos zero]

theorem ite_ite_none {α : Type} {p q : Prop} [Decidable p] [Decidable q] (x : Option α) :
    (if q then if p then x else none else none) = if p ∧ q then x else none := by
  by_cases holds : q <;> simp [holds]

theorem State.clearAll_cleared (s : State) :
    s.clearAll =
      { s.clearBlocks with
        out := { s.out with logic := s.out.idle }
        inp := { s.inp.clear with windows := windowsCleared s } } := by
  have closed (k : Fin 3) : s.clearBlocks.inp.windows[k] = none := by
    simp [State.clearBlocks, Inputs.clear]
  have windows : windowsAfter s.clearBlocks { s.out with logic := s.out.idle } = windowsCleared s := by
    refine tabulate_congr fun k => ?_
    rw [closed, windowAfterReport_none, ite_ite_none]
    refine ite_of_iff (and_congr_right fun _ => and_congr_right fun _ => exists_congr fun n => And.comm) _ _
  rw [State.clearAll_eq, ← windows]
  exact State.outputEvent_windowsAfter (f := fun o => { o with logic := o.idle }) rfl

theorem State.finishBegun_of_idle (notBegun : s.adv.schedBegun = false)
    (idle : s.adv.sampleDue = true ∨ (s.adv.edges = [] ∧ s.adv.eval = none)) : s.finishBegun = s := by
  rw [State.finishBegun, if_neg (by simp [notBegun]), State.evalFirst_of_idle idle]

/-- The windows of a CLEAR that writes OUTEN too: the reports of either find the windows closed. -/
theorem windowsEnabled_cleared (tl : t.tl = s.tl) (lens : t.inp.lens = s.inp.lens)
    (windows : t.inp.windows = windowsCleared s) (outen : t.out.outen = s.out.outen) (bset : t.out.bset = s.out.bset)
    (on : Bool) :
    windowsEnabled t on =
      tabulate fun k =>
        if s.inp.lens[k] ≠ 0 ∧
            ((s.out.outen = true ∧ ∃ n : Fin 16, s.out.setOf n = BitVec.ofNat 2 (k.val + 1) ∧
                bit s.out.pins n.val ≠ bit ({ s.out with logic := s.out.idle } : Outputs).pins n.val) ∨
             (s.out.outen = false ∧ on = true ∧ ∃ n : Fin 16, s.out.setOf n = BitVec.ofNat 2 (k.val + 1))) then
          some { opened := s.tl, until_ := s.tl + s.inp.lens[k].setWidth 32 }
        else none := by
  refine tabulate_congr fun k => ?_
  have sets (n : Fin 16) : t.out.setOf n = s.out.setOf n := by rw [Outputs.setOf, bset, Outputs.setOf]
  simp only [windows, tl, lens, outen, sets, windowsCleared, getElem_tabulate]
  cases enabled : s.out.outen with
  | true => simp
  | false =>
    simp only [Bool.false_eq_true, false_and, and_false, if_false, true_and, false_or, windowAfterReport_none,
      ite_ite_none]

/-- Settles O13: what has begun is finished first, and the reports find every window closed. -/
theorem clearResetsTheDynamicState : Obligations.ClearResetsTheDynamicState := by
  intro s w c ready clear row b idle
  refine ⟨State.finishBegun_of_idle, ?_⟩
  have kept : HandleRel s b := .finishBegun s
  have isClear : bit w 15 = true := clear
  rw [exec_ctrl_of_ready ready row, State.writeCtrl, if_pos isClear, State.writeTbrun_eq, State.writeOuten_eq]
  have tb : b.clearAll.tb = s.tb := by rw [State.clearAll_cleared]; exact kept.tb
  have tl : State.tl { b.clearAll with tb := s.tb.withTbrun (bit w 0) } = b.tl :=
    (Timebase.withTbrun_tl _ _).trans kept.tl.symm
  have windows := windowsEnabled_cleared tl (by rw [State.clearAll_cleared]; rfl) (by rw [State.clearAll_cleared])
    (by rw [State.clearAll_cleared]) (by rw [State.clearAll_cleared]) (bit w 1)
  rw [tb, windows, State.clearAll_cleared, kept.tl]
  simp only [State.clearBlocks, CommandBlock.clear_eq]
  rfl

end Sys2Proof.Machine
end

section
/-! PROOFS. A write of any word of the window, a record handed over, the pattern table's writes and its part in an
evaluation, and the samples of a line (R52, R109 to R118, R125 to R127, R130, R140 to R145, R152, R178). -/

namespace Sys2Proof.Machine

variable {s t : State}

/-! ### A write of any word of the window (R52, R152, R178) -/

theorem State.writeUnitWord_count {k : Nat} (count : k % 3 = 2) (w : Word) (s : State) : s.writeUnitWord k w = s := by
  rw [State.writeUnitWord, count]
  split
  · next zero => exact nomatch zero
  · next one => exact nomatch one
  · rfl

theorem State.writeHighWord_readOnly {a : Nat} (readOnly : 0x75 ≤ a ∧ a ≤ 0x79 ∨ 0x7F ≤ a) (w : Word) (s : State) :
    s.writeHighWord a w = s := by
  unfold State.writeHighWord
  split
  case h_11 => rfl
  all_goals omega

/-- The words that no row writes are read-only or not assigned. -/
theorem State.writeWord_ignored {a : BitVec 7} (noRow : hasOwnWriteRow a = false) (notAddr : a ≠ 0x68)
    (notArg : a.toNat < 0x70 ∨ 0x73 < a.toNat) (w : Word) (s : State) : s.writeWord a w = s := by
  have notAddr : a.toNat ≠ 0x68 := fun same => notAddr (BitVec.eq_of_toNat_eq same)
  have below : a.toNat < 128 := a.isLt
  simp only [hasOwnWriteRow, Bool.or_eq_false_iff, Bool.and_eq_false_iff, beq_eq_false_iff_ne, bne_eq_false_iff_eq,
    decide_eq_false_iff_not] at noRow
  unfold State.writeWord
  by_cases count : 0x08 ≤ a.toNat ∧ a.toNat ≤ 0x13
  · exact (if_neg (by omega)).trans ((if_neg (by omega)).trans ((if_neg (by omega)).trans ((if_pos count).trans
      (State.writeUnitWord_count (by omega) w s))))
  · refine (if_neg (by omega)).trans ((if_neg (by omega)).trans ((if_neg (by omega)).trans ((if_neg count).trans
      ((if_neg (by omega)).trans ((if_neg (by omega)).trans ((if_neg (by omega)).trans ((if_neg (by omega)).trans
      ((if_neg (by omega)).trans ((if_neg (by omega)).trans ((if_neg (by omega)).trans ((if_neg (by omega)).trans
      ((if_neg (by omega)).trans ((if_neg (by omega)).trans ?_)))))))))))))
    split
    · exact State.writeHighWord_readOnly (by omega) w s
    · rfl

/-- Settles O53: at each address with a row of its own the two commands are one access. -/
theorem registerWriteByAddress : Obligations.RegisterWriteByAddress := by
  intro s w ready
  refine ⟨next_whenReady ready (State.writeWord 0x68 w), fun i => ?arg, fun a noRow notAddr notArg => ?ignored, rfl, rfl,
    rfl, fun u => ?units, rfl, fun n => ?lines, fun k => ?lens, rfl, rfl, rfl, rfl, rfl, rfl, rfl, rfl, rfl,
    fun k => ?entries, rfl, rfl, rfl, rfl, rfl, rfl, rfl, rfl, rfl⟩
  case arg =>
    refine (next_whenReady ready (State.writeWord (0x70 + BitVec.ofNat 7 i.val) w)).trans (congrArg _ ?_)
    exact match i with | 0 | 1 | 2 | 3 => rfl
  case ignored =>
    exact (next_whenReady ready (State.writeWord a w)).trans (congrArg _ (State.writeWord_ignored noRow notAddr notArg w s))
  case units => exact match u with | 0 | 1 | 2 | 3 => ⟨rfl, rfl⟩
  case lines =>
    obtain ⟨n, below⟩ := n
    iterate 16
      obtain _ | n := n
      · rfl
    omega
  case lens => exact match k with | 0 | 1 | 2 => rfl
  case entries => exact match k with | 0 | 1 | 2 | 3 | 4 | 5 | 6 | 7 => ⟨rfl, rfl, rfl⟩

/-! ### A record handed over (R125 to R127, R130) -/

theorem satInc_eq {n : Nat} (v : BitVec n) :
    satInc v = if v = BitVec.allOnes n then BitVec.allOnes n else v + 1 :=
  ite_congr rfl id fun _ => rfl

theorem gapOf_eq (w : Word) :
    gapOf w = (if w.toNat ≤ 255 then w.setWidth 8 else 255, decide (255 < w.toNat)) := by
  rw [gapOf]
  split
  · next fits => rw [decide_eq_false (Nat.not_lt.mpr fits)]
  · next large => rw [decide_eq_true (Nat.lt_of_not_le large)]

/-- Settles O48, with room and without. -/
theorem recordIsStoredOrDropped : Obligations.RecordIsStoredOrDropped := by
  intro s h
  refine ⟨fun room => ?_, fun full => ?_⟩
  · have room : s.cap.queue.length < capDepth := room
    by_cases atMark : s.cap.wmark.toNat ≤ s.cap.queue.length + 1
    · rw [State.produce_of_wmark_reached room atMark, if_pos atMark, Capture.take, if_pos room, gapOf_eq]
      rfl
    · have below : ¬(s.cap.take h).wmark.toNat ≤ (s.cap.take h).queue.length := by
        rwa [Capture.take_wmark, Capture.take_length_of_room room]
      rw [State.produce, if_pos room, State.requestIf, if_neg (by simpa using below), if_neg atMark, Capture.take,
        if_pos room, gapOf_eq]
      simp
  · have noRoom : ¬s.cap.queue.length < capDepth := Nat.not_lt.mpr full
    rw [State.produce, if_neg noRoom, Capture.take, if_neg noRoom, satInc_eq]
    rfl

/-! ### Flags set (R170) -/

/-- The bits of one word are bits of another. -/
theorem and_not_eq_zero_iff {x y : Word} :
    x &&& ~~~y = 0 ↔ ∀ i < 16, x.getLsbD i = true → y.getLsbD i = true := by
  constructor
  · intro none i below set
    have bits := congrArg (fun w : Word => w.getLsbD i) none
    simpa [set, below] using bits
  · intro subset
    refine BitVec.eq_of_getLsbD_eq fun i below => ?_
    cases set : x.getLsbD i with
    | false => simp [set]
    | true => simp [set, subset i below set]

namespace FlagsSetWithin

variable {m : Word} {u : State}

theorem of_ev (same : t.ev = s.ev) : FlagsSetWithin m s t := by
  rw [FlagsSetWithin, same]
  exact ⟨rfl, and_not_self _, and_not_or_self _ _⟩

theorem trans (h : FlagsSetWithin m s t) (k : FlagsSetWithin m t u) : FlagsSetWithin m s u := by
  obtain ⟨frame, kept, within⟩ := h
  obtain ⟨frame', kept', within'⟩ := k
  simp only [and_not_eq_zero_iff, BitVec.getLsbD_or, Bool.or_eq_true] at within within' ⊢
  refine ⟨by rw [frame', frame], HandleRel.flags_trans kept kept', ?_⟩
  simp only [and_not_eq_zero_iff, BitVec.getLsbD_or, Bool.or_eq_true]
  intro i below set
  obtain old | new := within' i below set
  · exact within i below old
  · exact .inr new

theorem request (s : State) {c : EventClass} (listed : m.getLsbD c.code = true) : FlagsSetWithin m s (s.request c) := by
  refine ⟨rfl, and_not_or_self _ _, ?_⟩
  simp only [and_not_eq_zero_iff, BitVec.getLsbD_or, Bool.or_eq_true, State.request]
  intro i below set
  refine set.imp_right fun placed => ?_
  have same : i = c.code := by
    have lt := c.code_lt
    simp only [placeBit, place, BitVec.getLsbD_shiftLeft, BitVec.getLsbD_setWidth, BitVec.getLsbD_ofBool,
      Bool.and_eq_true, decide_eq_true_eq, Bool.not_eq_true', decide_eq_false_iff_not] at placed
    omega
  rw [same]
  exact listed

theorem requestIf (s : State) {c : EventClass} (listed : m.getLsbD c.code = true) (b : Bool) :
    FlagsSetWithin m s (s.requestIf b c) := by
  rw [State.requestIf]
  split
  · exact request s listed
  · exact of_ev rfl

theorem produce (s : State) (capw : m.getLsbD 0 = true) (capovr : m.getLsbD 1 = true) (h : Happening) :
    FlagsSetWithin m s (s.produce h) := by
  have taken : FlagsSetWithin m s { s with cap := s.cap.take h } := of_ev rfl
  simp only [State.produce]
  split
  · exact taken.trans (requestIf _ capw _)
  · exact taken.trans (request _ capovr)

end FlagsSetWithin

theorem State.produce_frame (s : State) (h : Happening) :
    s.produce h = { s with cap := s.cap.take h, ev := (s.produce h).ev } := by
  simp only [State.produce, State.requestIf]
  split
  · split <;> rfl
  · rfl

/-! ### The writes of the pattern table (R140, R141) -/

/-- Settles O49: an evaluation that has begun is carried to its end before the write. -/
theorem patternWrites : Obligations.PatternWrites := by
  intro s k w ready
  have next (f : State → State) : Host.Outcome.next (s.whenReady fun t => f t.evalFirst) =
      (.next (f s.evalFirst) : Host.Outcome State Fault Refusal) := next_whenReady ready fun t => f t.evalFirst
  exact ⟨State.evalFirst_of_idle, next (State.writeMaskValue k false w), next (State.writeMaskValue k true w),
    next (State.writePctrl k w)⟩

/-! ### One entry's part in an evaluation (R142 to R145) -/

theorem PatternEntry.candidate_iff {e : PatternEntry} {held v : Word} :
    e.candidate held v = true ↔
      e.enable = true ∧ ((e.change = true ∧ (v ^^^ held) &&& e.mask ≠ 0) ∨
        (e.change = false ∧ (v &&& e.mask == e.value) = true ∧ e.matched = false)) := by
  rw [PatternEntry.candidate, Bool.and_eq_true]
  refine and_congr_right fun _ => ?_
  cases e.change <;> simp [PatternEntry.matches]

theorem PatternEntry.fires_iff {e : PatternEntry} : e.fires = true ↔ e.divide.toNat ≤ e.counter := by
  simp [PatternEntry.fires]

/-- An entry that fires without a launch hands its record over, and then its event. -/
theorem State.fire_of_no_launch {k : Fin 8} (noLaunch : (s.entryAt k).launch = false) (v : Word) :
    s.fire k v =
      (if (s.entryAt k).record then s.produce (.pattern k v s.tl) else s).requestIf (s.entryAt k).event .pat := by
  simp only [State.fire, noLaunch, Bool.false_eq_true, if_false]

theorem State.fire_frame {k : Fin 8} (noLaunch : (s.entryAt k).launch = false) (v : Word) :
    s.fire k v =
      { s with
        cap := if (s.entryAt k).record then s.cap.take (.pattern k v s.tl) else s.cap
        ev := (s.fire k v).ev } := by
  rw [State.fire_of_no_launch noLaunch, State.requestIf]
  cases (s.entryAt k).record
  · simp only [Bool.false_eq_true, if_false]
    split <;> rfl
  · simp only [if_true]
    rw [State.produce_frame]
    split <;> rfl

theorem State.fire_event {k : Fin 8} (noLaunch : (s.entryAt k).launch = false) (event : (s.entryAt k).event = true)
    (v : Word) : (s.fire k v).ev.flags.getLsbD 2 = true := by
  rw [State.fire_of_no_launch noLaunch, event]
  exact State.request_flag _ .pat

theorem FlagsSetWithin.fire {k : Fin 8} (noLaunch : (s.entryAt k).launch = false) (v : Word) :
    FlagsSetWithin 0x0007 s (s.fire k v) := by
  rw [State.fire_of_no_launch noLaunch]
  refine trans ?_ (requestIf _ (by decide) _)
  split
  · exact produce s (by decide) (by decide) _
  · exact of_ev rfl

/-- Settles O50, case by case of the entry. -/
theorem evaluationOfAnEntry : Obligations.EvaluationOfAnEntry := by
  intro s k v e now candidate
  have candidate_iff : e.candidate s.pat.held v = true ↔ candidate := PatternEntry.candidate_iff
  refine ⟨fun idle => ?_, fun isCandidate counting => ?_, fun isCandidate last noLaunch => ?_, fun ks noEdges eval => ?_⟩
  · exact State.evalOne_of_no_candidate (Bool.eq_false_iff.mpr (mt candidate_iff.mp idle))
  · refine State.evalOne_of_counts (candidate_iff.mpr isCandidate) (Bool.eq_false_iff.mpr (mt PatternEntry.fires_iff.mp ?_))
    exact Nat.not_le_of_lt (Nat.lt_of_succ_lt_succ counting)
  · have fires : e.fires = true := PatternEntry.fires_iff.mpr (Nat.le_of_eq last.symm)
    refine ⟨_, State.evalOne_of_fires (candidate_iff.mpr isCandidate) fires, ?_⟩
    have entry : (s.setEntryAt k { e with counter := 0 }).entryAt k = { e with counter := 0 } := by
      rw [State.entryAt_setEntryAt, if_pos rfl]
    have launches : ((s.setEntryAt k { e with counter := 0 }).entryAt k).launch = false := by rw [entry]; exact noLaunch
    have frame := State.fire_frame launches v
    have event := State.fire_event launches (v := v)
    have flags := FlagsSetWithin.fire launches v
    rw [entry] at frame event
    generalize ((s.setEntryAt k { e with counter := 0 }).fire k v) = t at frame event flags
    have pat : t.pat = (s.setEntryAt k { e with counter := 0 }).pat := by rw [frame]
    have own : t.entryAt k = { e with counter := 0 } := (State.entryAt_of_pat pat k).trans entry
    refine ⟨?_, fun j other => ?_, ?_, ?_, event, ?_, ?_⟩
    · rw [State.entryAt_setEntryAt, if_pos rfl, own]
      rfl
    · rw [State.entryAt_setEntryAt, if_neg other, State.entryAt_of_pat pat, State.entryAt_setEntryAt, if_neg other]
    · rw [State.held_setEntryAt, pat, State.held_setEntryAt]
    · rw [State.setEntryAt_cap, frame]
      rfl
    · generalize ({ t.entryAt k with matched := e.matches v } : PatternEntry) = x
      rw [frame]
      rfl
    · exact flags
  · rw [show runJob .patternEntry s = s.takePatternEntry from rfl, State.takePatternEntry_of_cons noEdges eval]
    rfl

end Sys2Proof.Machine
end

section
/-! PROOFS. The samples of a line, and those of an advance (R109 to R118). -/

namespace Sys2Proof.Machine

variable {s t : State}

/-! ### One sample (R110 to R114, R118) -/

section
variable {k : Fin 16} {level : Bool} {n : Time} {l : Line}

theorem Line.sample_blanked (k : Fin 16) (level : Bool) (n : Time) (l : Line) :
    l.sample k level n true = ({ l with raw := level, count := 0 }, none) := rfl

theorem Line.sample_awaiting (awaiting : l.awaiting = true) :
    l.sample k level n false =
      ({ l with raw := level, stable := level, lastEdge := none, count := 0, awaiting := false }, none) := by
  simp only [Line.sample, awaiting, Bool.false_eq_true, if_false, if_true]

theorem Line.sample_stable (settled : l.awaiting = false) (same : level = l.stable) :
    l.sample k level n false = ({ l with raw := level, count := 0 }, none) := by
  simp only [Line.sample, settled, Bool.false_eq_true, if_false, if_pos same]

/-- The edge time of a candidate: that of its first sample (R111). -/
def Line.edgeStart (n : Time) (l : Line) : Time := if l.count = 0 then n else l.start

theorem Line.sample_grows (settled : l.awaiting = false) (differs : level ≠ l.stable) (grows : l.count < l.qualify.toNat) :
    l.sample k level n false = ({ l with raw := level, start := l.edgeStart n, count := l.count + 1 }, none) := by
  have below : ¬l.qualify.toNat + 1 ≤ l.count + 1 := by omega
  simp only [Line.sample, settled, Bool.false_eq_true, if_false, if_neg differs, if_neg below]
  rfl

theorem Line.sample_qualifies (settled : l.awaiting = false) (differs : level ≠ l.stable)
    (reaches : l.count = l.qualify.toNat) :
    l.sample k level n false =
      ({ l with raw := level, stable := level, start := l.edgeStart n, lastEdge := some (l.edgeStart n), count := 0 },
        if l.edgeMode.admits level then some (.edge k level (edgeDelta l.lastEdge (l.edgeStart n)) (l.edgeStart n))
        else none) := by
  have enough : l.qualify.toNat + 1 ≤ l.count + 1 := by omega
  simp only [Line.sample, settled, Bool.false_eq_true, if_false, if_neg differs, if_pos enough]
  rfl

theorem EdgeMode.admits_iff {m : EdgeMode} :
    m.admits level = true ↔ m = .both ∨ (m = .rise ∧ level = true) ∨ (m = .fall ∧ level = false) := by
  cases m <;> simp [EdgeMode.admits]

end

/-! ### The samples of an advance (R109, R115, R118) -/

theorem State.sampled_iff (s : State) (k : Fin 16) :
    s.sampled k = true ↔
      (s.line k).source = .tick ∨ ∃ u : Fin 4, (s.line k).source = .unit u ∧ s.adv.expired[u] = true := by
  rw [State.sampled]
  cases (s.line k).source <;> simp

theorem State.blanked_iff (s : State) (k : Fin 16) :
    s.blanked k = true ↔
      ∃ j : Fin 3, (s.line k).bset = BitVec.ofNat 2 (j.val + 1) ∧ ∃ v ∈ s.inp.windows[j],
        v.opened ≠ s.tl ∧ reached v.opened s.tl = true ∧ (v.until_ = s.tl ∨ ahead v.until_ s.tl = true) := by
  have window (w : Option Window) :
      (match w with
        | none => false
        | some w => w.live s.tl && w.opened != s.tl) = true ↔
        ∃ v ∈ w, v.opened ≠ s.tl ∧ reached v.opened s.tl = true ∧
          (v.until_ = s.tl ∨ ahead v.until_ s.tl = true) := by
    cases w with
    | none => simp
    | some v => simp [Window.live_iff, And.comm]
  simp only [State.blanked, List.any_eq_true, List.mem_finRange, true_and, Bool.and_eq_true, beq_iff_eq]
  exact exists_congr fun j => and_congr_right fun _ => window _

theorem State.sampleLine_of_not_sampled {k : Fin 16} (idle : ¬s.sampled k = true) :
    s.sampleLine k = (s.line k, none) := if_neg idle

theorem State.sampleLine_of_sampled {k : Fin 16} (sampled : s.sampled k = true) :
    s.sampleLine k = (s.line k).sample k (s.port.inPins.getLsbD k.val) s.tl (s.blanked k) := if_pos sampled

theorem State.line_sampleAll (s : State) (k : Fin 16) : s.sampleAll.line k = (s.sampleLine k).1 :=
  getElem_tabulate (fun n : Fin 16 => (s.sampleLine n).1) k

theorem placeBit_getLsbD (b : Bool) {i j : Nat} (inWord : j < 16) :
    (placeBit b i).getLsbD j = (b && decide (i = j)) := by
  simp only [placeBit, place, BitVec.getLsbD_shiftLeft, BitVec.getLsbD_setWidth, BitVec.getLsbD_ofBool, inWord,
    decide_true, Bool.true_and]
  by_cases same : i = j
  · subst same; simp
  · obtain below | above := Nat.lt_or_ge j i
    · simp [below, same]
    · have apart : ¬j - i = 0 := by omega
      simp [same, apart]

/-- A bit of a mask word is what the word's function says of its place. -/
theorem maskOf_getLsbD {n : Nat} (f : Fin n → Bool) (i : Fin n) (inWord : i.val < 16) :
    (maskOf f).getLsbD i.val = f i := by
  have folded (l : List (Fin n)) (w : Word) :
      (l.foldl (fun w i => w ||| placeBit (f i) i.val) w).getLsbD i.val =
        (w.getLsbD i.val || l.any fun j => f j && j == i) := by
    induction l generalizing w with
    | nil => simp
    | cons j l ih =>
      rw [List.foldl_cons, ih, BitVec.getLsbD_or, placeBit_getLsbD _ inWord, List.any_cons, Bool.or_assoc]
      simp only [← Fin.ext_iff]
      rfl
  rw [maskOf, folded]
  cases holds : f i with
  | true =>
    have found : (List.finRange n).any (fun j => f j && j == i) = true :=
      List.any_eq_true.mpr ⟨i, List.mem_finRange i, by simp [holds]⟩
    rw [found, Bool.or_true]
  | false =>
    have none : (List.finRange n).any (fun j => f j && j == i) = false := by
      simp only [List.any_eq_false, List.mem_finRange, true_implies, Bool.and_eq_true, beq_iff_eq, not_and]
      rintro j fires rfl
      exact absurd fires (by simp [holds])
    rw [none]
    simp

theorem State.stableVector_getLsbD (s : State) (k : Fin 16) :
    s.inp.stableVector.getLsbD k.val = (s.line k).stable :=
  maskOf_getLsbD (fun n : Fin 16 => s.inp.lines[n].stable) k k.isLt

theorem State.sampleAll_eval (s : State) :
    s.sampleAll.adv.eval =
      if (List.finRange 16).any fun k => (s.sampleAll.line k).stable != (s.line k).stable then
        some { vector := s.sampleAll.inp.stableVector, left := List.finRange 8 }
      else none := rfl

theorem State.anyChanged_iff (s : State) :
    ((List.finRange 16).any fun k => (s.sampleAll.line k).stable != (s.line k).stable) = true ↔
      ∃ k, (s.sampleAll.line k).stable ≠ (s.line k).stable := by
  simp

/-- A unit that a line samples on has counted before the samples are taken (R109). -/
theorem State.countSources_owes {k : Fin 16} {u : Fin 4} (source : (s.line k).source = .unit u)
    (single : s.cascaded u = false) : (s.countSources.unit u).owes = false := by
  have kept (v : State) (r : Fin 4) : SameInputs v (if v.samplesOn r then v.countUnit r else v) ∧
      HandleRel v (if v.samplesOn r then v.countUnit r else v) :=
    ⟨.ite (.countUnit v r) (.refl v), .ite (.countUnit v r) (.refl v)⟩
  have sameLine {v w : State} (same : SameInputs v w) : (w.line k).source = (v.line k).source := by
    rw [State.line, same.lines, State.line]
  refine foldl_reaches (P := fun v => (v.line k).source = .unit u → v.cascaded u = false → (v.unit u).owes = false)
    (fun v source single => ?_) (fun v r paid source single => ?_) (List.mem_finRange u) s ?_ ?_
  · obtain ⟨inputs, handled⟩ := kept v u
    rw [sameLine inputs] at source
    rw [handled.cascaded] at single
    have samples : v.samplesOn u = true := List.any_eq_true.mpr ⟨k, List.mem_finRange k, beq_iff_eq.mpr source⟩
    rw [if_pos samples]
    exact State.countUnit_owes_of_single single
  · obtain ⟨inputs, handled⟩ := kept v r
    rw [sameLine inputs] at source
    rw [handled.cascaded] at single
    exact (handled.units u).owes (paid source single)
  · exact (sameLine (SameInputs.countSources s)).trans source
  · exact ((HandleRel.countSources s).cascaded u).trans single

/-- Settles O46: the table of one sample, and the samples of an advance line by line. -/
theorem sampleOfALine : Obligations.SampleOfALine := by
  constructor
  · intro k level n l start delta admitted
    have admits : l.edgeMode.admits level = true ↔ admitted := EdgeMode.admits_iff
    refine ⟨Line.sample_blanked k level n l, Line.sample_awaiting, Line.sample_stable,
      fun settled differs grows => Line.sample_grows settled differs (Nat.lt_of_succ_lt_succ grows),
      fun settled differs reaches => (Line.sample_qualifies settled differs reaches).trans ?_⟩
    exact congrArg _ (ite_of_iff admits _ _)
  · intro s b t sampled blanked
    have isSampled (k : Fin 16) : b.sampled k = true ↔ sampled k := b.sampled_iff k
    have isBlanked (k : Fin 16) : b.blanked k = true ↔ blanked k := b.blanked_iff k
    refine ⟨fun idle => State.takeSample_of_taken idle, fun due => ?_, fun h rest edges => ⟨?_, ?_⟩,
      fun pins ready running => ?_⟩
    · have samples : t = b.sampleAll := State.takeSample_of_due due
      rw [samples]
      refine ⟨fun k u => State.countSources_owes, fun k => ⟨fun idle => ?_, fun taken inWindow => ?_,
        fun taken clear => ?_⟩,
        rfl, b.line_sampleAll, rfl, fun same => ?_, fun ⟨k, moved⟩ => ?_⟩
      · exact State.sampleLine_of_not_sampled (mt (isSampled k).mp idle)
      · rw [State.sampleLine_of_sampled ((isSampled k).mpr taken), (isBlanked k).mpr inWindow]
      · rw [State.sampleLine_of_sampled ((isSampled k).mpr taken),
          Bool.eq_false_iff.mpr (mt (isBlanked k).mp clear)]
      · rw [State.sampleAll_eval, if_neg]
        rw [State.anyChanged_iff]
        exact fun ⟨k, moved⟩ => moved (same k)
      · refine ⟨b.sampleAll.inp.stableVector, ?_, b.sampleAll.stableVector_getLsbD⟩
        rw [State.sampleAll_eval, if_pos (b.anyChanged_iff.mpr ⟨k, moved⟩)]
    · simp only [State.handEdge, edges]
    · rw [State.takePatternEntry, if_neg (by simp [edges])]
    · rw [exec_tick_of_ready ready, State.tick_of_running running]
      rfl

end Sys2Proof.Machine
end

section
/-! PROOFS. A write of a unit's CTRL word, and a write of STORE_DATA (R11, R12, R16, R54). -/

namespace Sys2Proof.Machine

variable {s t : State}

/-! ### CTRL of an interval unit (R11, R12, R16) -/

theorem State.cascaded_setUnit (s : State) (u v : Fin 4) (x : IntervalUnit) :
    (s.setUnit u x).cascaded v = s.cascaded v := rfl

theorem State.unit_reloadOddHalf (s : State) (u v : Fin 4) :
    (s.reloadOddHalf u).unit v =
      if s.cascaded u = true ∧ v = oddOf u then { s.unit v with c := (s.unit v).r } else s.unit v := by
  rw [State.reloadOddHalf]
  cases pair : s.cascaded u with
  | false => simp
  | true =>
    rw [if_pos rfl, State.unit_setUnit]
    by_cases odd : v = oddOf u <;> simp [odd]

/-- A start, a preset and a change of P begin the counting anew. -/
def IntervalUnit.fresh (w : Word) (x : IntervalUnit) : Bool :=
  w.getLsbD 15 || w.extractLsb' 2 2 != x.prescale || (w.getLsbD 0 && !x.running)

theorem IntervalUnit.control_eq (w : Word) (x : IntervalUnit) :
    x.control w =
      { c := if w.getLsbD 15 then x.r else x.c
        r := x.r
        prescale := w.extractLsb' 2 2
        phase := if x.fresh w then 0 else x.phase
        mode := .ofBit (w.getLsbD 1)
        running := w.getLsbD 0
        owes := x.owes && !x.fresh w } := by
  have same : (bit w 0 && !x.running || bit w 15 || field w 2 2 != x.prescale) = x.fresh w := by
    simp only [IntervalUnit.fresh, bit, field]
    ac_rfl
  simp only [IntervalUnit.control, same]
  rfl

theorem IntervalUnit.controlOdd_eq (w : Word) (x : IntervalUnit) :
    x.controlOdd w =
      { x with
        prescale := w.extractLsb' 2 2
        phase := if w.extractLsb' 2 2 = x.prescale then x.phase else 0
        mode := .ofBit (w.getLsbD 1) } := by
  simp only [IntervalUnit.controlOdd, field, bit, bne_iff_ne, ite_not]

/-- The odd unit of a cascaded pair takes MODE and PRESCALE only. -/
theorem State.writeUnitCtrl_of_odd {u : Fin 4} (odd : s.cascaded u = true ∧ isOdd u = true) (w : Word) :
    s.writeUnitCtrl u w = s.setUnit u ((s.unit u).controlOdd w) :=
  if_pos (Bool.and_eq_true_iff.mpr odd)

theorem State.writeUnitCtrl_of_governed {u : Fin 4} (governed : ¬(s.cascaded u = true ∧ isOdd u = true)) (w : Word) :
    s.writeUnitCtrl u w =
      if w.getLsbD 15 then (s.setUnit u ((s.unit u).control w)).reloadOddHalf u
      else s.setUnit u ((s.unit u).control w) :=
  if_neg (mt Bool.and_eq_true_iff.mp governed)

theorem State.writeUnitCtrl_frame (u : Fin 4) (w : Word) (s : State) :
    s.writeUnitCtrl u w = { s with iu := { s.iu with units := (s.writeUnitCtrl u w).iu.units } } := by
  simp only [State.writeUnitCtrl, State.reloadOddHalf]
  split
  · rfl
  · split
    · split <;> rfl
    · rfl

/-- Each unit after a CTRL write of unit `u` that governs it: a preset of a cascaded pair loads the odd half too. -/
theorem State.unit_writeUnitCtrl {u : Fin 4} (governed : ¬(s.cascaded u = true ∧ isOdd u = true)) (w : Word)
    (v : Fin 4) :
    (s.writeUnitCtrl u w).unit v =
      if v = u then (s.unit u).control w
      else if s.cascaded u = true ∧ w.getLsbD 15 = true ∧ v = oddOf u then { s.unit v with c := (s.unit v).r }
      else s.unit v := by
  have apart (pair : s.cascaded u = true) : u ≠ oddOf u :=
    fun same => governed ⟨pair, same ▸ isOdd_oddOf u⟩
  rw [State.writeUnitCtrl_of_governed governed]
  by_cases preset : w.getLsbD 15 = true
  · rw [if_pos preset, State.unit_reloadOddHalf, State.cascaded_setUnit, State.unit_setUnit]
    by_cases own : v = u
    · subst own
      rw [if_neg (fun ⟨pair, same⟩ => apart pair same), if_pos rfl, if_pos rfl]
    · simp only [own, if_false, preset, true_and]
  · rw [if_neg preset, State.unit_setUnit]
    simp only [preset, false_and, and_false, if_false, Bool.false_eq_true]

/-- Settles O15: the three rows are one write, whose units are given by `State.unit_writeUnitCtrl`. -/
theorem unitCtrlWrites : Obligations.UnitCtrlWrites := by
  intro s u w c ready row x p fresh
  have written : exec c s = .next (s.writeUnitCtrl u w) := by
    obtain rfl | rfl | rfl := row <;> exact next_whenReady ready (State.writeUnitCtrl u w)
  refine ⟨_, written, s.writeUnitCtrl_frame u w, fun odd => ⟨?_, fun v other => ?_⟩,
    fun governed => ⟨?_, fun v other => ?_⟩⟩
  · rw [State.writeUnitCtrl_of_odd odd, State.unit_setUnit, if_pos rfl, IntervalUnit.controlOdd_eq]
  · rw [State.writeUnitCtrl_of_odd odd, State.unit_setUnit, if_neg other]
  · rw [State.unit_writeUnitCtrl governed, if_pos rfl, IntervalUnit.control_eq]
    rfl
  · rw [State.unit_writeUnitCtrl governed, if_neg other]

/-! ### STORE_DATA (R54) -/

theorem Store.locked_iff (c : Store) (g : Page) :
    c.locked g = true ↔ g = c.active ∨ c.bound g ≠ 0 ∨ c.swap ≠ none := by
  rw [Store.locked, Bool.or_eq_true, bne_iff_ne, Option.isSome_iff_ne_none, ← or_assoc, Store.stateOf]
  refine or_congr_left ?_
  split
  · next active => simp [active]
  · next other =>
    split
    · next unbound => simp [other, unbound]
    · next bound => simp [bound]

theorem State.writeStoreData_of_outside (outside : pageWords ≤ s.store.addr.toNat) (w : Word) :
    s.writeStoreData w = (s.refuseWrite 3 0x69).advanceAddr := by
  simp only [State.writeStoreData, if_pos outside]

theorem State.writeStoreData_of_locked (inside : s.store.addr.toNat < pageWords)
    (locked : s.store.locked s.store.addrPage = true) (w : Word) :
    s.writeStoreData w = (s.refuseWrite 1 0x69).advanceAddr := by
  simp only [State.writeStoreData, if_neg (Nat.not_le_of_lt inside), if_pos locked]

theorem State.writeStoreData_of_open (inside : s.store.addr.toNat < pageWords)
    (unlocked : ¬s.store.locked s.store.addrPage = true) (w : Word) :
    s.writeStoreData w =
      State.advanceAddr
        { s with
          store :=
            s.store.setPage s.store.addrPage
              (Memory.write (s.store.page s.store.addrPage) s.store.addr.toNat (w &&& storeMask s.store.addr.toNat)) } := by
  simp only [State.writeStoreData, if_neg (Nat.not_le_of_lt inside), if_neg unlocked]

theorem Store.page_setPage (c : Store) (g : Page) (m : PageMem) : (c.setPage g m).page g = m := by
  cases g <;> rfl

theorem Store.setPage_addr (c : Store) (g : Page) (m : PageMem) : (c.setPage g m).addr = c.addr := by
  cases g <;> rfl

/-- Settles O39: the contents by `Memory.read_write`. -/
theorem storeDataWrite : Obligations.StoreDataWrite := by
  intro s w ready wf a g refused locked
  have locked_iff : s.store.locked s.store.addrPage = true ↔ locked := s.store.locked_iff g
  have written : exec (.storeDataWrite w) s = .next (s.writeStoreData w) :=
    next_whenReady ready (State.writeStoreData w)
  rw [written]
  refine ⟨fun outside => ?_, fun inside isLocked => ?_, fun inside unlocked => ⟨_, rfl, ?_⟩⟩
  · rw [State.writeStoreData_of_outside outside]
    rfl
  · rw [State.writeStoreData_of_locked inside (locked_iff.mpr isLocked)]
    rfl
  · have ordered : (s.store.page g).Pairwise fun x y => x.1 < y.1 := (wf.page g).1
    have page : (s.writeStoreData w).store.page g = Memory.write (s.store.page g) a (w &&& storeMask a) := by
      rw [State.writeStoreData_of_open inside (mt locked_iff.mp unlocked)]
      exact Store.page_setPage _ _ _
    refine ⟨?_, ?_, fun c other => ?_, wf.writeStoreData w⟩
    · rw [page, State.writeStoreData_of_open inside (mt locked_iff.mp unlocked)]
      simp only [State.advanceAddr, Store.setPage_addr]
      rfl
    · rw [page, Memory.read_write ordered, if_pos rfl, storeMask]
    · rw [page, Memory.read_write ordered, if_neg other]

end Sys2Proof.Machine
end

section
/-! PROOFS. The completions of commands that set off no chain: SCHEDULE, CANCEL, SWAP, LOAD_TIME, FLUSH_QUEUE and an
unknown code (R33 to R39, R56 to R62, R155 to R167). -/

namespace Sys2Proof.Machine

variable {s t : State}

/-! ### The command in flight completes, or nothing does (R155) -/

section
variable {f : InFlight} {p : InFlight → Bool} {act : Vector Word 4 → State → Answer}

/-- The command in flight completes with the answer that its block gives. -/
theorem next_complete (ready : s.port.phase = .ready) (inFlight : s.cmd.inflight = some f) (named : p f = true)
    {r : ResultCode} {w : Vector Word 4} {u : State} (acted : act f.args s.beforeCompletion = answer r w u) :
    (Host.Outcome.next (s.whenReady (State.complete p act)) : Host.Outcome State Fault Refusal) =
      .next (completed u r.code w) := by
  rw [next_whenReady ready, State.complete_of_match inFlight named, acted, Answer.finish_eq_completed, answer]

theorem next_complete_of_other (ready : s.port.phase = .ready) (other : ∀ f, s.cmd.inflight = some f → p f = false) :
    (Host.Outcome.next (s.whenReady (State.complete p act)) : Host.Outcome State Fault Refusal) = .next s := by
  rw [next_whenReady ready, State.complete_of_no_match other]

end

theorem State.beforeCompletion_tl (s : State) : s.beforeCompletion.tl = s.tl := (HandleRel.beforeCompletion s).tl

/-- After a completion no command is in flight that could complete next. -/
theorem State.complete_completed (p : InFlight → Bool) (act : Vector Word 4 → State → Answer) (s : State)
    (r : BitVec 5) (w : Vector Word 4) : (completed s r w).complete p act = completed s r w :=
  State.complete_of_no_match (s := completed s r w) (fun _ inFlight => nomatch inFlight) act

theorem exec_swapNow_of_ready (ready : s.port.phase = .ready) :
    exec .swapNow s = .next ((s.complete (isSwap 0) completeSwapNow).complete isBadSwap fun _ => badArg) :=
  next_whenReady ready fun t => (t.complete (isSwap 0) completeSwapNow).complete isBadSwap fun _ => badArg

theorem isSwap_iff {m : Word} {f : InFlight} : isSwap m f = true ↔ f.code = 6 ∧ f.args[0] = m := by
  simp [isSwap]

theorem isBadSwap_iff {f : InFlight} : isBadSwap f = true ↔ f.code = 6 ∧ 3 ≤ f.args[0].toNat := by
  simp [isBadSwap]

theorem isUnknown_iff {f : InFlight} : isUnknown f = true ↔ ¬(1 ≤ f.code.toNat ∧ f.code.toNat ≤ 10) := by
  simp [isUnknown]
  omega

/-- Settles O28, command by command. -/
theorem completionNeedsItsCommand : Obligations.CompletionNeedsItsCommand := by
  intro s ready is swap
  have coded {n : Word} (notIs : ¬is n) (act : Vector Word 4 → State → Answer) :
      (Host.Outcome.next (s.whenReady (State.complete (hasCode n) act)) : Host.Outcome State Fault Refusal) = .next s :=
    next_complete_of_other ready fun f inFlight => beq_false_of_ne fun same => notIs ⟨f, inFlight, same⟩
  have swaps (g : Word → Prop) {p : InFlight → Bool} (notSwap : ¬swap g)
      (names : ∀ f, p f = true → f.code = 6 ∧ g f.args[0]) (f : InFlight) (inFlight : s.cmd.inflight = some f) :
      p f = false := by
    refine Bool.eq_false_iff.mpr fun named => notSwap ?_
    obtain ⟨code, mode⟩ := names f named
    exact ⟨f, inFlight, code, mode⟩
  refine ⟨fun h => coded h _, fun h => coded h _, fun h => coded h _, fun h => coded h _, fun h => coded h _,
    fun h => coded h _, fun h => coded h _, fun h => coded h _, fun h => coded h _, fun h => ?now, fun h => ?atUnit,
    fun h => ?withdraw, fun h => ?unknown⟩
  case now =>
    have notNow := swaps (fun m => m = 0 ∨ 3 ≤ m.toNat) h (p := isSwap 0)
      fun f named => (isSwap_iff.mp named).imp_right .inl
    have notBad := swaps (fun m => m = 0 ∨ 3 ≤ m.toNat) h (p := isBadSwap)
      fun f named => (isBadSwap_iff.mp named).imp_right .inr
    rw [exec_swapNow_of_ready ready, State.complete_of_no_match notNow, State.complete_of_no_match notBad]
  case atUnit => exact next_complete_of_other ready (swaps (· = 1) h fun f => isSwap_iff.mp)
  case withdraw => exact next_complete_of_other ready (swaps (· = 2) h fun f => isSwap_iff.mp)
  case unknown =>
    exact next_complete_of_other ready fun f inFlight =>
      Bool.eq_false_iff.mpr fun unknown => isUnknown_iff.mp unknown (h f inFlight)

/-! ### SCHEDULE (R25, R33, R35, R36, R157) -/

/-- The actions that an entry cannot name (R28). -/
def BadAction (kind operand : BitVec 4) : Prop :=
  8 ≤ kind.toNat ∨ ((kind = 4 ∨ kind = 7) ∧ 8 ≤ operand.toNat) ∨ ((kind = 5 ∨ kind = 6) ∧ 4 ≤ operand.toNat)

theorem Action.decode_isNone_iff (kind operand : BitVec 4) :
    (Action.decode kind operand).isNone = true ↔ BadAction kind operand := by
  unfold BadAction
  revert kind operand
  decide

/-- The arguments of SCHEDULE that are refused with BAD_ARG (R33). -/
def BadSchedule (a : Vector Word 4) : Prop :=
  let v := Time.ofHalves a[0] a[1]
  field a[3] 0 8 = 0 ∨ field a[2] 0 4 = 0 ∨ BadAction (field a[2] 0 4) (field a[2] 4 4) ∨
    (bit a[3] 8 = true ∧ (v = 0 ∨ 2 ^ 31 ≤ v.toNat))

/-- The entry that the arguments of SCHEDULE ask for at TL `n`. -/
def scheduledEntry (a : Vector Word 4) (n : Time) : Entry :=
  let v := Time.ofHalves a[0] a[1]
  { due := if bit a[3] 8 then n + v else v, origin := .direct (field a[3] 0 8), kind := field a[2] 0 4,
    operand := field a[2] 4 4, mark := bit a[2] 15 }

theorem scheduleEntry_of_bad {a : Vector Word 4} (bad : BadSchedule a) (n : Time) : scheduleEntry a n = none := by
  by_cases tag : field a[3] 0 8 = 0
  · exact if_pos tag
  by_cases kind : field a[2] 0 4 = 0
  · exact (if_neg tag).trans (if_pos kind)
  by_cases decoded : (Action.decode (field a[2] 0 4) (field a[2] 4 4)).isNone = true
  · exact (if_neg tag).trans ((if_neg kind).trans (if_pos decoded))
  obtain noTag | noKind | badAction | ⟨rel, far⟩ := bad
  · exact absurd noTag tag
  · exact absurd noKind kind
  · exact absurd ((Action.decode_isNone_iff _ _).mpr badAction) decoded
  · refine (if_neg tag).trans ((if_neg kind).trans ((if_neg decoded).trans (if_pos ?_)))
    simpa [rel] using far

theorem scheduleEntry_of_good {a : Vector Word 4} (good : ¬BadSchedule a) (n : Time) :
    scheduleEntry a n = some (scheduledEntry a n, bit a[3] 9) := by
  simp only [BadSchedule, not_or, not_and] at good
  obtain ⟨tag, kind, action, rel⟩ := good
  have relative : ¬(bit a[3] 8 &&
      (decide (Time.ofHalves a[0] a[1] = 0) || decide (2 ^ 31 ≤ (Time.ofHalves a[0] a[1]).toNat))) = true := by
    simpa using rel
  have decoded : ¬(Action.decode (field a[2] 0 4) (field a[2] 4 4)).isNone = true :=
    mt (Action.decode_isNone_iff _ _).mp action
  exact (if_neg tag).trans ((if_neg kind).trans ((if_neg decoded).trans (if_neg relative)))

theorem completeSchedule_of_bad {a : Vector Word 4} (bad : BadSchedule a) (s : State) :
    completeSchedule a s = answer .badArg noWords s := by
  rw [completeSchedule, scheduleEntry_of_bad bad]
  rfl

theorem completeSchedule_of_good {a : Vector Word 4} (good : ¬BadSchedule a) (s : State) :
    completeSchedule a s =
      let e := scheduledEntry a s.tl
      let w := words4 e.due.lo e.due.hi 0 0
      if reached e.due s.tl then
        if bit a[3] 9 then answer .lateDropped w s.countLate
        else answer .lateApplied w (s.chain [.take e true]).countLate
      else if s.sched.directCount < directMax then answer .ok w (s.insertEntry e)
      else answer .full w s := by
  rw [completeSchedule, scheduleEntry_of_good good]

theorem State.countLate_eq (s : State) :
    s.countLate =
      { s with sched := { s.sched with
                 lateCount := if s.sched.lateCount = 0xFFFF then 0xFFFF else s.sched.lateCount + 1 }
               ev := { s.ev with flags := s.ev.flags ||| 0x0040 } } := by
  rw [State.countLate, satInc_eq]
  rfl

theorem not_reached_of_ahead {d n : Time} (isAhead : ahead d n = true) : ¬reached d n = true := by
  simpa [ahead] using isAhead

/-- Settles O29, by the four outcomes of SCHEDULE. -/
theorem scheduleCompletes : Obligations.ScheduleCompletes := by
  intro s a ready inFlight b kind operand tag v rel bad due e w
  have isBad : BadSchedule a ↔ bad :=
    or_congr_right (or_congr_right (or_assoc.trans (or_congr_right or_assoc)))
  have tl : b.tl = s.tl := s.beforeCompletion_tl
  have asked : scheduledEntry a b.tl = e := by rw [tl]; rfl
  have named : hasCode 1 { code := 1, args := a } = true := rfl
  have good (notBad : ¬bad) := completeSchedule_of_good (mt isBad.mp notBad) b
  rw [asked] at good
  refine ⟨fun isTrue => ?_, fun notBad isAhead room => ?_, fun notBad isAhead full => ?_, fun notBad isReached drop => ?_⟩
  · exact (next_complete ready inFlight named (completeSchedule_of_bad (isBad.mpr isTrue) b) :)
  · have notReached : ¬reached e.due b.tl = true := tl ▸ not_reached_of_ahead isAhead
    exact (next_complete ready inFlight named ((good notBad).trans ((if_neg notReached).trans (if_pos room))) :)
  · have notReached : ¬reached e.due b.tl = true := tl ▸ not_reached_of_ahead isAhead
    have noRoom : ¬b.sched.directCount < directMax := Nat.not_lt.mpr full
    exact (next_complete ready inFlight named ((good notBad).trans ((if_neg notReached).trans (if_neg noRoom))) :)
  · have isLate : reached e.due b.tl = true := tl ▸ isReached
    have answered := (good notBad).trans ((if_pos isLate).trans (if_pos drop))
    rw [State.countLate_eq] at answered
    exact (next_complete ready inFlight named answered :)

/-! ### CANCEL (R39, R158) -/

theorem Entry.hasTag_eq (e : Entry) (tag : BitVec 8) : e.hasTag tag = (e.origin == .direct tag) := by
  rw [Entry.hasTag]
  cases e.origin with
  | run p i => rfl
  | direct u =>
    change (u == tag) = (Origin.direct u == .direct tag)
    by_cases same : u = tag
    · rw [same, beq_self_eq_true, beq_self_eq_true]
    · have other : Origin.direct u ≠ .direct tag := fun equal => same (Origin.direct.inj equal)
      rw [beq_false_of_ne same, beq_false_of_ne other]

/-- Settles O31: the entries with the tag are those whose origin is DIRECT with it (`Entry.hasTag_eq`). -/
theorem cancelRemovesTheTag : Obligations.CancelRemovesTheTag := by
  intro s a ready inFlight b tag gone
  have named : hasCode 2 { code := 2, args := a } = true := rfl
  have tagged (e : Entry) : e.hasTag tag = gone e := e.hasTag_eq tag
  refine ⟨fun noTag => ?_, fun hasTag => ?_⟩
  · have acted : completeCancel a b = answer .badArg noWords b := if_pos noTag
    exact (next_complete ready inFlight named acted :)
  · have acted : completeCancel a b = answer .ok (words4 (BitVec.ofNat 16 (b.sched.pel.filter gone).length) 0 0 0)
        (b.setPel (b.sched.pel.filter fun e => !gone e)) := by
      refine (if_neg hasTag).trans ?_
      have same : (fun e : Entry => e.hasTag (field a[0] 0 8)) = gone := funext tagged
      have others : (fun e : Entry => !e.hasTag (field a[0] 0 8)) = fun e => !gone e :=
        funext fun e => congrArg not (tagged e)
      rw [same, others]
    exact (next_complete ready inFlight named acted :)

/-! ### SWAP (R56 to R58, R62, R163) -/

theorem Store.swapRefusal_of_pending {c : Store} (pending : c.swap ≠ none) : c.swapRefusal = some .swapPending :=
  if_pos (Option.isSome_iff_ne_none.mpr pending)

theorem Store.stateOf_other_eq_draining (c : Store) :
    c.stateOf c.active.other = .draining ↔ c.bound c.active.other ≠ 0 := by
  have other : c.active.other ≠ c.active := by cases c.active <;> decide
  rw [Store.stateOf, if_neg other]
  split
  · next unbound => simp [unbound]
  · next bound => simp [bound]

theorem Store.swapRefusal_of_busy {c : Store} (noSwap : c.swap = none) (busy : c.bound c.active.other ≠ 0) :
    c.swapRefusal = some .pageBusy := by
  rw [Store.swapRefusal, noSwap, if_neg (by simp), if_pos (c.stateOf_other_eq_draining.mpr busy)]

theorem Store.swapRefusal_of_free {c : Store} (noSwap : c.swap = none) (free : ¬c.bound c.active.other ≠ 0) :
    c.swapRefusal = none := by
  rw [Store.swapRefusal, noSwap, if_neg (by simp), if_neg (mt c.stateOf_other_eq_draining.mp free)]

theorem swapWords_eq (c : Store) :
    swapWords c = words4 (if c.active = .a then 0 else 1) (if c.swap = none then 0 else 1) 0 0 := by
  rw [swapWords]
  cases c.active <;> cases c.swap <;> rfl

theorem swapAnswer_eq (r : ResultCode) (s : State) :
    swapAnswer r s =
      answer r (words4 (if s.store.active = .a then 0 else 1) (if s.store.swap = none then 0 else 1) 0 0) s := by
  rw [swapAnswer, swapWords_eq]

theorem State.swapPages_eq (s : State) :
    s.swapPages =
      { s with store := { s.store with active := s.store.active.other, swap := none }
               ev := { s.ev with flags := s.ev.flags ||| 0x0200 } } := rfl

theorem completeSwapNow_of_refused {r : ResultCode} (refused : s.store.swapRefusal = some r) (a : Vector Word 4) :
    completeSwapNow a s = swapAnswer r s := by
  rw [completeSwapNow, refused]

theorem completeSwapNow_of_allowed (allowed : s.store.swapRefusal = none) (a : Vector Word 4) :
    completeSwapNow a s = swapAnswer .ok s.swapPages := by
  rw [completeSwapNow, allowed]

/-- A SWAP with mode NOW completes once. -/
theorem exec_swapNow_of_mode {f : InFlight} (ready : s.port.phase = .ready) (inFlight : s.cmd.inflight = some f)
    (mode : isSwap 0 f = true) {r : ResultCode} {w : Vector Word 4}
    (acted : completeSwapNow f.args s.beforeCompletion = answer r w t) :
    exec .swapNow s = .next (completed t r.code w) := by
  rw [exec_swapNow_of_ready ready, State.complete_of_match inFlight mode, acted, Answer.finish_eq_completed, answer,
    State.complete_completed]

section
variable {u : Fin 4} {a : Vector Word 4}

theorem completeAtUnit_of_refused {r : ResultCode} (inRange : a[1].toNat < 4)
    (refused : s.store.swapRefusal = some r) : completeAtUnit a s = swapAnswer r s := by
  rw [completeAtUnit, dif_pos inRange, refused]

theorem completeAtUnit_of_allowed (unit : a[1].toNat = u.val) (allowed : s.store.swapRefusal = none) :
    completeAtUnit a s = swapAnswer .ok { s with store := { s.store with swap := some u } } := by
  have inRange : a[1].toNat < 4 := unit ▸ u.isLt
  have same : (⟨a[1].toNat, inRange⟩ : Fin 4) = u := Fin.ext unit
  rw [completeAtUnit, dif_pos inRange, allowed, same]

end

/-- Settles O37, mode by mode. -/
theorem swapCompletes : Obligations.SwapCompletes := by
  intro s a ready inFlight b busy words done now
  have isMode {m : Word} (mode : a[0] = m) : isSwap m { code := 6, args := a } = true := isSwap_iff.mpr ⟨rfl, mode⟩
  refine ⟨fun mode => ?now, fun mode => ?bad, fun mode noUnit => ?noUnit, fun u mode unit => ?atUnit,
    fun mode => ?withdraw⟩
  case now =>
    have next (r : ResultCode) (v : State) (acted : completeSwapNow a b = swapAnswer r v) :
        exec .swapNow s = done r.code v :=
      exec_swapNow_of_mode ready inFlight (isMode mode) (acted.trans (swapAnswer_eq r v))
    refine ⟨fun pending => next .swapPending b ?_, fun noSwap isBusy => next .pageBusy b ?_,
      fun noSwap free => next .ok now ?_⟩
    · exact completeSwapNow_of_refused (Store.swapRefusal_of_pending pending) a
    · exact completeSwapNow_of_refused (Store.swapRefusal_of_busy noSwap isBusy) a
    · exact (completeSwapNow_of_allowed (Store.swapRefusal_of_free noSwap free) a).trans
        (congrArg (swapAnswer .ok) b.swapPages_eq)
  case bad =>
    have notNow : ∀ f, s.cmd.inflight = some f → isSwap 0 f = false := by
      intro f other
      obtain rfl := Option.some.inj (inFlight.symm.trans other)
      refine Bool.eq_false_iff.mpr fun isNow => ?_
      obtain ⟨-, zero⟩ := isSwap_iff.mp isNow
      have large : 3 ≤ a[0].toNat := mode
      rw [show a[0] = 0 from zero] at large
      exact absurd large (by decide)
    rw [exec_swapNow_of_ready ready, State.complete_of_no_match notNow,
      State.complete_of_match inFlight (isBadSwap_iff.mpr ⟨rfl, mode⟩), Answer.finish_eq_completed]
    rfl
  case noUnit =>
    have acted : completeAtUnit a b = answer .badArg noWords b := dif_neg (Nat.not_lt.mpr noUnit)
    exact (next_complete ready inFlight (isMode mode) acted :)
  case atUnit =>
    have next (r : ResultCode) (v : State) (acted : completeAtUnit a b = swapAnswer r v) :
        exec .atUnit s = done r.code v :=
      next_complete ready inFlight (isMode mode) (acted.trans (swapAnswer_eq r v))
    have inRange : a[1].toNat < 4 := unit ▸ u.isLt
    refine ⟨fun pending => next .swapPending b ?_, fun noSwap isBusy => next .pageBusy b ?_,
      fun noSwap free => next .ok { b with store := { b.store with swap := some u } } ?_⟩
    · exact completeAtUnit_of_refused inRange (Store.swapRefusal_of_pending pending)
    · exact completeAtUnit_of_refused inRange (Store.swapRefusal_of_busy noSwap isBusy)
    · exact completeAtUnit_of_allowed unit (Store.swapRefusal_of_free noSwap free)
  case withdraw =>
    have next (r : ResultCode) (v : State) (acted : completeWithdraw a b = swapAnswer r v) :
        exec .withdraw s = done r.code v :=
      next_complete ready inFlight (isMode mode) (acted.trans (swapAnswer_eq r v))
    refine ⟨fun noSwap => next .noSwap b ?_, fun pending => next .ok { b with store := { b.store with swap := none } } ?_⟩
    · exact if_neg (by simp [noSwap])
    · exact if_pos (Option.isSome_iff_ne_none.mpr pending)

/-! ### LOAD_TIME, FLUSH_QUEUE and an unknown code (R8, R136, R165 to R167) -/

theorem State.runningCount_eq_zero (s : State) : s.runningCount = 0 ↔ ∀ p, (s.slot p).run = none := by
  simp [State.runningCount, State.running, List.filter_eq_nil_iff]

theorem hasCode_iff {n : Word} {f : InFlight} : hasCode n f = true ↔ f.code = n := beq_iff_eq

/-- Settles O38, command by command. -/
theorem loadTimeFlushQueueAndUnknown : Obligations.LoadTimeFlushQueueAndUnknown := by
  intro s f ready inFlight b q zero free
  refine ⟨fun code => ?load, fun code => ?flush, fun other => ?unknown⟩
  case load =>
    have isFree : (q.sched.pel.isEmpty && q.runningCount == 0) = true ↔ free := by
      rw [Bool.and_eq_true, List.isEmpty_iff, beq_iff_eq, State.runningCount_eq_zero]
    have tb : q.tb = s.tb := ((HandleRel.beforeCompletion s).trans (.settle b)).tb
    refine ⟨fun isTrue => ?_, fun notFree => ?_⟩
    · have acted : completeLoadTime f.args b = answer .ok noWords
          { q with tb := { q.tb with tl := Time.ofHalves f.args[0] f.args[1], snapshot := none } } :=
        if_pos (isFree.mpr isTrue)
      rw [tb] at acted
      exact (next_complete ready inFlight (hasCode_iff.mpr code) acted :)
    · have acted : completeLoadTime f.args b = answer .state noWords q := if_neg (mt isFree.mp notFree)
      exact (next_complete ready inFlight (hasCode_iff.mpr code) acted :)
  case flush =>
    have acted : completeFlushQueue f.args b = answer .ok noWords { b with cap := b.cap.flush } := rfl
    exact (next_complete ready inFlight (hasCode_iff.mpr code) acted :)
  case unknown =>
    have acted : completeUnknown f.args b = answer .unknownCommand noWords b := rfl
    refine (next_complete ready inFlight (isUnknown_iff.mpr ?_) acted :)
    obtain none | large := other
    · rw [none]; decide
    · omega

end Sys2Proof.Machine
end

section
/-! PROOFS. The words that PEEK_LIST and QUERY_RUN show (R42, R89, R162, R164; section 11.11). -/

namespace Sys2Proof.Machine

variable {s t : State}

/-! ### Fields of a word put together (section 11.11) -/

theorem place_getLsbD {n : Nat} (v : BitVec n) (lo i : Nat) :
    (place v lo).getLsbD i = (decide (i < 16) && !decide (i < lo) && v.getLsbD (i - lo)) := by
  simp only [place, BitVec.getLsbD_shiftLeft, BitVec.getLsbD_setWidth]
  by_cases below : i < 16
  · have inWord : i - lo < 16 := by omega
    simp [below, inWord]
  · simp [below]

/-- The fields of RES2 of PEEK_LIST do not overlap. -/
theorem Entry.actionWord_getLsbD (e : Entry) {i : Nat} (below : i < 16) :
    e.actionWord.getLsbD i =
      if i < 4 then e.kind.getLsbD i
      else if i < 8 then e.operand.getLsbD (i - 4)
      else if i < 12 then e.originCode.getLsbD (i - 8)
      else e.mark && decide (i = 15) := by
  simp only [Entry.actionWord, BitVec.getLsbD_or, place_getLsbD, placeBit_getLsbD _ below]
  iterate 16
    obtain _ | i := i
    · simp
  omega

/-- The fields of RES0 of QUERY_RUN of a RUNNING slot do not overlap. -/
theorem State.queryWord0_getLsbD {q : Fin 8} {r : Run} (running : (s.slot q).run = some r) {i : Nat} (below : i < 16) :
    (s.queryWord0 q).getLsbD i =
      if i < 7 then r.step.getLsbD i
      else if i = 8 then true
      else if i = 9 then r.page.toBit
      else if i = 10 then (s.slot q).armed
      else if i = 11 then r.launchPending
      else false := by
  simp only [State.queryWord0, running, BitVec.getLsbD_or, place_getLsbD, placeBit_getLsbD _ below]
  iterate 16
    obtain _ | i := i
    · simp
  omega

/-- The passes that a slot has left, as QUERY_RUN shows them. -/
def Slot.passesLeft (x : Slot) : BitVec 8 :=
  match x.run with
  | none => 0
  | some r => r.passes

theorem State.queryWord1_eq (s : State) (q : Fin 8) :
    s.queryWord1 q = place (s.slot q).passesLeft 0 ||| place (s.slot q).ignored 8 := rfl

theorem State.queryWord1_fields (s : State) (q : Fin 8) :
    (s.queryWord1 q).extractLsb' 0 8 = (s.slot q).passesLeft ∧ (s.queryWord1 q).extractLsb' 8 8 = (s.slot q).ignored := by
  rw [State.queryWord1_eq]
  constructor <;>
  · refine BitVec.eq_of_getLsbD_eq fun i below => ?_
    simp only [BitVec.getLsbD_extractLsb', BitVec.getLsbD_or, place_getLsbD]
    iterate 8
      obtain _ | i := i
      · simp
    omega

theorem Entry.actionWord_fields (e : Entry) :
    e.actionWord.extractLsb' 0 4 = e.kind ∧ e.actionWord.extractLsb' 4 4 = e.operand ∧
      e.actionWord.getLsbD 15 = e.mark ∧ e.actionWord.extractLsb' 12 3 = 0 ∧
      e.actionWord.extractLsb' 8 4 = e.originCode := by
  refine ⟨?_, ?_, ?_, ?_, ?_⟩
  case refine_3 =>
    rw [e.actionWord_getLsbD (by decide)]
    simp
  case refine_4 =>
    refine BitVec.eq_of_getLsbD_eq fun i below => ?_
    rw [BitVec.getLsbD_extractLsb', e.actionWord_getLsbD (by omega)]
    iterate 3
      obtain _ | i := i
      · simp
    omega
  all_goals
    refine BitVec.eq_of_getLsbD_eq fun i below => ?_
    rw [BitVec.getLsbD_extractLsb', e.actionWord_getLsbD (by omega)]
    iterate 4
      obtain _ | i := i
      · simp
    omega

theorem State.queryWord0_fields {q : Fin 8} {r : Run} (running : (s.slot q).run = some r) :
    (s.queryWord0 q).extractLsb' 0 7 = r.step ∧ (s.queryWord0 q).getLsbD 7 = false ∧
      (s.queryWord0 q).getLsbD 8 = true ∧ (s.queryWord0 q).getLsbD 9 = r.page.toBit ∧
      (s.queryWord0 q).getLsbD 11 = r.launchPending ∧ (s.queryWord0 q).extractLsb' 12 4 = 0 := by
  refine ⟨?_, ?_, ?_, ?_, ?_, ?_⟩
  case refine_1 =>
    refine BitVec.eq_of_getLsbD_eq fun i below => ?_
    rw [BitVec.getLsbD_extractLsb', State.queryWord0_getLsbD running (by omega)]
    iterate 7
      obtain _ | i := i
      · simp
    omega
  case refine_6 =>
    refine BitVec.eq_of_getLsbD_eq fun i below => ?_
    rw [BitVec.getLsbD_extractLsb', State.queryWord0_getLsbD running (by omega)]
    iterate 4
      obtain _ | i := i
      · simp
    omega
  all_goals
    rw [State.queryWord0_getLsbD running (by decide)]
    simp

theorem State.queryWord0_of_idle {q : Fin 8} (idle : (s.slot q).run = none) :
    s.queryWord0 q = placeBit (s.slot q).armed 10 := by
  simp only [State.queryWord0, idle]

theorem State.queryWord0_armed (s : State) (q : Fin 8) : (s.queryWord0 q).getLsbD 10 = (s.slot q).armed := by
  cases run : (s.slot q).run with
  | none =>
    rw [State.queryWord0_of_idle run, placeBit_getLsbD _ (by decide)]
    simp
  | some r =>
    rw [State.queryWord0_getLsbD run (by decide)]
    simp

theorem State.nextDue_of_find {q : Fin 8} {e : Entry} (found : s.sched.pel.find? (fun x => x.isRun q) = some e) :
    s.nextDue q = e.due := by
  rw [State.nextDue, found]
  rfl

/-! ### The commands (R42, R89, R162, R164) -/

theorem progOf_of_large {w : Word} (large : 8 ≤ w.toNat) : progOf w = none := dif_neg (Nat.not_lt.mpr large)

theorem progOf_of_val {w : Word} {q : Fin 8} (same : w.toNat = q.val) : progOf w = some q := by
  have inRange : w.toNat < 8 := same ▸ q.isLt
  rw [progOf, dif_pos inRange]
  exact congrArg some (Fin.ext same)

theorem completePeekList_of_none {a : Vector Word 4} (beyond : s.sched.pel.length ≤ a[0].toNat) :
    completePeekList a s = answer .empty noWords s := by
  rw [completePeekList, List.getElem?_eq_none beyond]

theorem completePeekList_of_some {a : Vector Word 4} {e : Entry} (listed : s.sched.pel[a[0].toNat]? = some e) :
    completePeekList a s = answer .ok (words4 e.due.lo e.due.hi e.actionWord e.tagWord) s := by
  rw [completePeekList, listed]

theorem completeQueryRun_of_large {a : Vector Word 4} (large : 8 ≤ a[0].toNat) (s : State) :
    completeQueryRun a s = answer .badArg noWords s := by
  rw [completeQueryRun, progOf_of_large large]
  rfl

theorem completeQueryRun_of_val {a : Vector Word 4} {q : Fin 8} (same : a[0].toNat = q.val) (s : State) :
    completeQueryRun a s =
      let d := if s.running q then s.nextDue q else 0
      answer .ok (words4 (s.queryWord0 q) (s.queryWord1 q) d.lo d.hi) s := by
  rw [completeQueryRun, progOf_of_val same]

/-- Settles O32: the words by the lemmas of their fields. -/
theorem peekListAndQueryRun : Obligations.PeekListAndQueryRun := by
  intro s a ready b
  refine ⟨fun inFlight => ⟨fun beyond => ?_, fun e listed => ?_⟩,
    fun inFlight => ⟨fun large => ?_, fun q same => ?_⟩⟩
  · exact (next_complete ready inFlight (hasCode_iff.mpr rfl) (completePeekList_of_none beyond) :)
  · obtain ⟨kind, operand, mark, unused, origin⟩ := e.actionWord_fields
    refine ⟨_, _, next_complete ready inFlight (hasCode_iff.mpr rfl) (completePeekList_of_some listed), kind, operand,
      mark, unused, fun p i isRun => ⟨origin.trans ?_, ?_⟩, fun g isDirect => ⟨origin.trans ?_, ?_⟩⟩
    · rw [Entry.originCode, isRun]
    · rw [Entry.tagWord, isRun]
    · rw [Entry.originCode, isDirect]
    · rw [Entry.tagWord, isDirect]
  · exact (next_complete ready inFlight (hasCode_iff.mpr rfl) (completeQueryRun_of_large large b) :)
  · obtain ⟨passes, ignored⟩ := b.queryWord1_fields q
    refine ⟨_, _, _, _, next_complete ready inFlight (hasCode_iff.mpr rfl) (completeQueryRun_of_val same b),
      b.queryWord0_armed q, ignored, fun idle => ?_, fun r running => ?_⟩
    · have notRunning : b.running q = false := by rw [State.running, idle]; rfl
      rw [State.queryWord0_of_idle idle, passes, Slot.passesLeft, idle, notRunning, if_neg Bool.false_ne_true]
      refine ⟨?_, rfl, rfl, rfl⟩
      cases (b.slot q).armed <;> rfl
    · obtain ⟨step, bit7, isRunning, page, pending, unused⟩ := State.queryWord0_fields running
      refine ⟨step, bit7, isRunning, page, pending, unused, ?_, fun e found => ?_⟩
      · rw [passes, Slot.passesLeft, running]
      · have busy : b.running q = true := by rw [State.running, running]; rfl
        rw [busy, if_pos rfl, State.nextDue_of_find found, Time.hi_append_lo]

end Sys2Proof.Machine
end

section
/-! PROOFS. A run that leaves its slot, and the completions that end runs: ABORT and ABORT_ALL (R50, R75, R82, R85,
R87, R160, R161). -/

namespace Sys2Proof.Machine

variable {s t : State}

/-! ### A run that leaves its slot (R50, R75, R82, R87) -/

section
variable {p : Fin 8} {r : Run}

theorem FlagsSetWithin.flag {m : Word} {i : Nat} (within : FlagsSetWithin m s t)
    (set : s.ev.flags.getLsbD i = true) : t.ev.flags.getLsbD i = true :=
  and_not_eq_zero_iff.mp within.2.1 i (BitVec.lt_of_getLsbD set) set

/-- BANKFREE is requested when the last binding to a DRAINING page drops. -/
theorem State.dropBinding_flag {g : Page} (draining : s.store.stateOf g = .draining) (last : s.store.bound g = 1) :
    (s.dropBinding g).ev.flags.getLsbD 10 = true := by
  have asked : (s.store.stateOf g == .draining && s.store.bound g == 1) = true := by simp [draining, last]
  simp only [State.dropBinding, State.requestIf, asked, if_true]
  exact State.request_flag _ .bankfree

theorem FlagsSetWithin.dropBinding {m : Word} (bankfree : m.getLsbD 10 = true) (s : State) (g : Page) :
    FlagsSetWithin m s (s.dropBinding g) := by
  have dropped : FlagsSetWithin m s { s with store := s.store.setBound g (s.store.bound g - 1) } := of_ev rfl
  exact dropped.trans (requestIf _ bankfree _)

theorem State.dropBinding_frame (s : State) (g : Page) :
    s.dropBinding g =
      { s with store := s.store.setBound g (s.store.bound g - 1), ev := (s.dropBinding g).ev } := by
  simp only [State.dropBinding, State.requestIf]
  split <;> rfl

/-- What ends, but for its report and its binding. -/
def State.emptied (p : Fin 8) (s : State) : State := (s.setSlot p { s.slot p with run := none }).removeRun p

/-- The record of an end, where the descriptor asks for one (R82). -/
def State.reportEndOf (p : Fin 8) (why : EndReason) (r : Run) (s t : State) : State :=
  if (s.descriptor r.page p).reportEnd then t.produce (.runEnd p why r.applied s.tl) else t

theorem State.reportEndOf_frame (p : Fin 8) (why : EndReason) (r : Run) (s t : State) :
    s.reportEndOf p why r t =
      { t with
        cap := if (s.descriptor r.page p).reportEnd then t.cap.take (.runEnd p why r.applied s.tl) else t.cap
        ev := (s.reportEndOf p why r t).ev } := by
  rw [State.reportEndOf]
  split
  · exact State.produce_frame t _
  · rfl

theorem FlagsSetWithin.reportEndOf {m : Word} (capw : m.getLsbD 0 = true) (capovr : m.getLsbD 1 = true) (p : Fin 8)
    (why : EndReason) (r : Run) (s t : State) : FlagsSetWithin m t (s.reportEndOf p why r t) := by
  rw [State.reportEndOf]
  split
  · exact produce t capw capovr _
  · exact of_ev rfl

theorem State.endRun_eq (running : (s.slot p).run = some r) (why : EndReason) :
    s.endRun p why =
      (if why == .complete && r.launchPending then [.launch .queued p] else [],
        (s.reportEndOf p why r ((s.emptied p).request .runend)).dropBinding r.page) :=
  State.endRun_of_running running why

/-- An end takes the run, its entry and its binding, and hands a record over if the descriptor asks for it. -/
theorem State.endRun_frame (running : (s.slot p).run = some r) (why : EndReason) :
    (s.endRun p why).2 =
      { s.leave p r with
        cap :=
          if (s.descriptor r.page p).reportEnd then s.cap.take (.runEnd p why r.applied s.tl) else s.cap
        ev := (s.endRun p why).2.ev } := by
  rw [State.endRun_eq running]
  dsimp only
  rw [State.dropBinding_frame, State.reportEndOf_frame]
  rfl

theorem State.endRun_slot (s : State) (p : Fin 8) (why : EndReason) (q : Fin 8) :
    (s.endRun p why).2.slot q = if q = p then { s.slot p with run := none } else s.slot q := by
  cases run : (s.slot p).run with
  | none =>
    rw [State.endRun_of_idle run]
    split
    · next same => rw [same, ← run]
    · rfl
  | some r =>
    rw [State.endRun_frame run]
    exact s.slot_leave p q r

theorem State.endRun_runend (running : (s.slot p).run = some r) (why : EndReason) :
    (s.endRun p why).2.ev.flags.getLsbD 4 = true := by
  rw [State.endRun_eq running]
  have set : ((s.emptied p).request .runend).ev.flags.getLsbD 4 = true := State.request_flag _ .runend
  have reported := FlagsSetWithin.reportEndOf (m := 3) rfl rfl p why r s ((s.emptied p).request .runend)
  exact (FlagsSetWithin.dropBinding (m := 0x0400) rfl _ _).flag (reported.flag set)

theorem State.endRun_bankfree (running : (s.slot p).run = some r) (why : EndReason)
    (draining : s.store.stateOf r.page = .draining) (last : s.store.bound r.page = 1) :
    (s.endRun p why).2.ev.flags.getLsbD 10 = true := by
  rw [State.endRun_eq running]
  have store : (s.reportEndOf p why r ((s.emptied p).request .runend)).store = s.store := by
    rw [State.reportEndOf_frame]
    rfl
  exact State.dropBinding_flag (store ▸ draining) (store ▸ last)

theorem FlagsSetWithin.endRun (s : State) (p : Fin 8) (why : EndReason) :
    FlagsSetWithin 0x0413 s (s.endRun p why).2 := by
  cases run : (s.slot p).run with
  | none => rw [State.endRun_of_idle run]; exact of_ev rfl
  | some r =>
    rw [State.endRun_eq run]
    have emptied : FlagsSetWithin 0x0413 s (s.emptied p) := of_ev rfl
    exact ((emptied.trans (request _ rfl)).trans (reportEndOf rfl rfl _ _ _ _ _)).trans (dropBinding rfl _ _)

theorem FlagsSetWithin.weaken {m n : Word} (within : FlagsSetWithin m s t) (more : m &&& ~~~n = 0) :
    FlagsSetWithin n s t := by
  obtain ⟨frame, kept, new⟩ := within
  refine ⟨frame, kept, and_not_eq_zero_iff.mpr fun i below set => ?_⟩
  have listed := and_not_eq_zero_iff.mp new i below set
  rw [BitVec.getLsbD_or, Bool.or_eq_true] at listed ⊢
  exact listed.imp_right (and_not_eq_zero_iff.mp more i below)

/-! ### A completion -/

theorem completed_flag (s : State) (r : BitVec 5) (w : Vector Word 4) :
    (completed s r w).ev.flags.getLsbD 7 = true := by
  simp [completed]

theorem FlagsSetWithin.completed {m : Word} (cmddone : m.getLsbD 7 = true) {r : BitVec 5} (good : r.toNat < 8)
    (w : Vector Word 4) (s : State) : FlagsSetWithin m s (completed s r w) := by
  have none : (if 8 ≤ r.toNat then 0x0100 else 0 : Word) = 0 := if_neg (Nat.not_le.mpr good)
  refine (request s (c := .cmddone) cmddone).trans (of_ev ?_)
  rw [Machine.completed, none]
  exact congrArg (fun flags => { s.ev with flags := flags }) BitVec.or_zero

end

/-! ### ABORT (R85, R160) -/

/-- Settles O35, argument by argument; the run ends by `State.endRun_frame`. -/
theorem abortEndsTheRun : Obligations.AbortEndsTheRun := by
  intro s a ready inFlight b
  have named : hasCode 4 { code := 4, args := a } = true := rfl
  refine ⟨fun large => ?_, fun q prog => ⟨fun idle => ?_, fun r running => ?_⟩⟩
  · have acted : completeAbort a b = answer .badArg noWords b := by
      rw [completeAbort, progOf_of_large large]
      rfl
    exact (next_complete ready inFlight named acted :)
  · have acted : completeAbort a b = answer .notRunning noWords b := by
      rw [completeAbort, progOf_of_val prog]
      simp only [idle]
    exact (next_complete ready inFlight named acted :)
  · have acted : completeAbort a b = answer .ok (words4 r.applied 0 0 0) (b.endRun q .aborted).2 := by
      rw [completeAbort, progOf_of_val prog]
      simp only [running]
    refine ⟨_, (next_complete ready inFlight named acted :), ?_⟩
    have tl : b.tl = s.tl := s.beforeCompletion_tl
    have frame := State.endRun_frame running .aborted
    have runend := State.endRun_runend running .aborted
    have bankfree := State.endRun_bankfree running .aborted
    have within := FlagsSetWithin.endRun b q .aborted
    have slots := b.endRun_slot q .aborted
    rw [tl] at frame
    clear_value b
    generalize (b.endRun q .aborted).2 = u at frame runend bankfree within slots
    have finished : FlagsSetWithin 0x0080 u (completed u 0 (words4 r.applied 0 0 0)) :=
      .completed rfl (by decide) _ u
    refine ⟨by rw [frame]; rfl, ?_, fun p other => ?_, by rw [frame]; rfl, by rw [frame]; rfl, by rw [frame]; rfl,
      finished.flag runend, completed_flag _ _ _, fun draining last => finished.flag (bankfree draining last), ?_, ?_⟩
    · exact (slots q).trans (if_pos rfl)
    · exact (slots p).trans (if_neg other)
    · rw [frame]
      rfl
    · exact (within.weaken (by decide)).trans (.completed rfl (by decide) _ u)

/-! ### ABORT_ALL (R85, R161) -/

/-- The runs in the slots of a list end ABORTED, in that order. -/
def State.abortEach (l : List (Fin 8)) (s : State) : State := l.foldl (fun t p => (t.endRun p .aborted).2) s

/-- What aborting runs leaves of the state. -/
structure Aborts (s t : State) : Prop where
  frame : t = { s with sched := t.sched, slots := t.slots, store := t.store, cap := t.cap, ev := t.ev }
  sched : t.sched = { s.sched with pel := t.sched.pel }
  direct : t.sched.pel.filter Entry.isDirect = s.sched.pel.filter Entry.isDirect
  store : t.store = { s.store with boundA := t.store.boundA, boundB := t.store.boundB }
  flags : FlagsSetWithin 0x0413 s t

namespace Aborts

theorem refl (s : State) : Aborts s s := ⟨rfl, rfl, rfl, rfl, .of_ev rfl⟩

theorem trans {u : State} (h : Aborts s t) (k : Aborts t u) : Aborts s u := by
  refine ⟨?_, ?_, k.direct.trans h.direct, ?_, h.flags.trans k.flags⟩
  · rw [k.frame, h.frame]
  · rw [k.sched, h.sched]
  · rw [k.store, h.store]

end Aborts

theorem Store.setBound_frame (c : Store) (g : Page) (n : Nat) :
    c.setBound g n = { c with boundA := (c.setBound g n).boundA, boundB := (c.setBound g n).boundB } := by
  cases g <;> rfl

theorem Aborts.endRun (s : State) (p : Fin 8) : Aborts s (s.endRun p .aborted).2 := by
  cases run : (s.slot p).run with
  | none => rw [State.endRun_of_idle run]; exact refl s
  | some r =>
    have within := FlagsSetWithin.endRun s p .aborted
    have frame := State.endRun_frame run .aborted
    have direct := (ChainRel.endRun s p .aborted).pel.direct
    generalize (s.endRun p .aborted).2 = t at within frame direct
    exact ⟨by rw [frame]; rfl, by rw [frame]; rfl, direct, by rw [frame]; exact s.store.setBound_frame _ _, within⟩

theorem Aborts.abortEach (l : List (Fin 8)) (s : State) : Aborts s (s.abortEach l) :=
  foldl_keeps (P := Aborts s) (fun v p before => before.trans (.endRun v p)) l (.refl s)

theorem KeptByWork.abortEach {P : State → Prop} (kept : KeptByWork P) (l : List (Fin 8)) (before : P s) :
    P (s.abortEach l) :=
  foldl_keeps (fun v p => kept.ended v p) l before

theorem State.abortEach_cons (p : Fin 8) (l : List (Fin 8)) (s : State) :
    s.abortEach (p :: l) = (s.endRun p .aborted).2.abortEach l := rfl

theorem State.abortEach_slot (l : List (Fin 8)) (s : State) (p : Fin 8) :
    (s.abortEach l).slot p = if p ∈ l then { s.slot p with run := none } else s.slot p := by
  induction l generalizing s with
  | nil => rfl
  | cons q l ih =>
    rw [State.abortEach_cons, ih, State.endRun_slot]
    by_cases same : p = q
    · subst same
      simp
    · simp [same]

/-- An end that aborting brings about sets RUNEND. -/
theorem State.abortEach_runend (l : List (Fin 8)) {p : Fin 8} (running : (s.slot p).run ≠ none) (listed : p ∈ l) :
    (s.abortEach l).ev.flags.getLsbD 4 = true := by
  have kept : ((s.abortEach l).slot p).run = (s.slot p).run ∨ (s.abortEach l).ev.flags.getLsbD 4 = true := by
    refine foldl_keeps (P := fun v => (v.slot p).run = (s.slot p).run ∨ v.ev.flags.getLsbD 4 = true)
      (fun v q before => ?_) l (.inl rfl)
    obtain still | set := before
    · by_cases same : p = q
      · obtain ⟨r, run⟩ := Option.ne_none_iff_exists'.mp (still ▸ running)
        exact .inr (State.endRun_runend (same ▸ run) .aborted)
      · rw [State.endRun_slot, if_neg same]
        exact .inl still
    · exact .inr ((FlagsSetWithin.endRun v q .aborted).flag set)
  refine kept.resolve_left fun still => running ?_
  rw [← still, State.abortEach_slot, if_pos listed]

/-- With every slot IDLE the list holds DIRECT entries only. -/
theorem RunEntryLaw.all_direct (law : RunEntryLaw s) (idle : ∀ p, (s.slot p).run = none) :
    ∀ e ∈ s.sched.pel, e.isDirect = true := by
  intro e listed
  cases origin : e.origin with
  | direct tag => rw [Entry.isDirect, origin]
  | run p i =>
    have none := law p
    rw [idle p] at none
    have isRun : e.isRun p = true := by simp [Entry.isRun, origin]
    exact nomatch isRun.symm.trans (none e listed)

theorem BindingLaw.unbound (law : BindingLaw s) (idle : ∀ p, (s.slot p).run = none) (g : Page) : s.store.bound g = 0 := by
  obtain ⟨counts, -⟩ := bindingLaw_iff.mp law
  rw [counts, boundRuns_of_idle idle]

/-- Settles O36: each slot in turn is aborted (`State.abortEach_slot`), and the two laws then say what is left of the
list and of the bindings. -/
theorem abortAllEndsEveryRun : Obligations.AbortAllEndsEveryRun := by
  intro s a ready inFlight b
  have named : hasCode 5 { code := 5, args := a } = true := rfl
  have acted : completeAbortAll a b =
      answer .ok
        (words4 (BitVec.ofNat 16 ((List.finRange 8).filter fun p => (b.slot p).run.isSome).length) 0 0 0)
        (b.abortEach (List.finRange 8)) := rfl
  refine ⟨_, (next_complete ready inFlight named acted :), ?_⟩
  clear_value b
  generalize (words4 (BitVec.ofNat 16 ((List.finRange 8).filter fun p => (b.slot p).run.isSome).length) 0 0 0) = w
  have every := List.mem_finRange (n := 8)
  generalize List.finRange 8 = l at every ⊢
  have aborts := Aborts.abortEach l b
  have slots (p : Fin 8) := (b.abortEach_slot l p).trans (if_pos (every p))
  have runend (running : ∃ p, (b.slot p).run ≠ none) : (b.abortEach l).ev.flags.getLsbD 4 = true := by
    obtain ⟨p, running⟩ := running
    exact State.abortEach_runend l running (every p)
  have entries (law : RunEntryLaw b) := runEntryLaw_kept.abortEach l law
  have bindings (law : BindingLaw b) := bindingLaw_kept.abortEach l law
  generalize b.abortEach l = u at aborts slots runend entries bindings ⊢
  have idle (p : Fin 8) : (u.slot p).run = none := by rw [slots]
  obtain ⟨frame, sched, direct, store, within⟩ := aborts
  have finished : FlagsSetWithin 0x0080 u (completed u 0 w) := .completed rfl (by decide) _ u
  have active : u.store.active = b.store.active := by rw [store]
  have swap : u.store.swap = b.store.swap := by rw [store]
  have pageA : u.store.pageA = b.store.pageA := by rw [store]
  have pageB : u.store.pageB = b.store.pageB := by rw [store]
  refine ⟨?cmd, slots, fun law => ?list, fun running => finished.flag (runend running), completed_flag _ _ _,
    fun law => ?bound, active, swap, pageA, pageB, ?frame, ?flags⟩
  case cmd =>
    rw [frame]
    rfl
  case list =>
    refine sched.trans (congrArg (fun l => { b.sched with pel := l }) ?_)
    rw [← direct]
    exact (List.filter_eq_self.mpr ((entries law).all_direct idle)).symm
  case bound => exact ⟨(bindings law).unbound idle .a, (bindings law).unbound idle .b⟩
  case frame =>
    rw [frame]
    rfl
  case flags => exact (within.weaken (by decide)).trans (.completed rfl (by decide) _ u)

end Sys2Proof.Machine
end

section
/-! PROOFS. Chains of known length, and launches: from IDLE and by the policy of a run (R31, R69 to R76, R81, R159). -/

namespace Sys2Proof.Machine

variable {s t u : State}

/-! ### Chains of known length (R31) -/

theorem runChain_nil (n : Nat) (s : State) : runChain n [] s = ([], s) := by
  cases n <;> rfl

theorem runChain_cons (n : Nat) (t : Task) (ts : List Task) (s : State) :
    runChain (n + 1) (t :: ts) s = runChain n ((doTask t s).1 ++ ts) (doTask t s).2 := rfl

/-- A chain that is done makes no difference to more fuel. -/
theorem runChain_of_done {n : Nat} {ts : List Task} (done : runChain n ts s = ([], u)) (k : Nat) :
    runChain (n + k) ts s = ([], u) := by
  induction n generalizing ts s with
  | zero =>
    obtain ⟨rfl, rfl⟩ := Prod.mk.inj done
    exact runChain_nil _ _
  | succ n ih =>
    cases ts with
    | nil =>
      rw [runChain_nil] at done ⊢
      exact done
    | cons t ts =>
      rw [Nat.add_right_comm, runChain_cons]
      exact ih done

theorem State.chain_of_runChain {n : Nat} {ts : List Task} (short : n ≤ chainFuel) (done : runChain n ts s = ([], u)) :
    s.chain ts = u := by
  obtain ⟨k, fuel⟩ := Nat.exists_eq_add_of_le short
  rw [State.chain, fuel, runChain_of_done done]

theorem State.chain_nil (s : State) : s.chain [] = s :=
  State.chain_of_runChain (Nat.zero_le _) (runChain_nil 0 s)

/-- A launch that sets off nothing is the launch. -/
theorem State.launchNow_of_done {src : LaunchSource} {q : Fin 8} {ok : LaunchResult}
    (taken : s.takeLaunch src q = (ok, [], t)) : s.launchNow src q = (ok, t) := by
  rw [State.launchNow, taken, State.chain_nil]

/-! ### The pages as a run reads them -/

theorem Store.page_setBound (c : Store) (g h : Page) (n : Nat) : (c.setBound g n).page h = c.page h := by
  cases g <;> cases h <;> rfl

theorem State.stepRecord_of_pages (pages : ∀ g, t.store.page g = s.store.page g) (g : Page) (i : BitVec 7) :
    t.stepRecord g i = s.stepRecord g i := by
  simp only [State.stepRecord, pages]

theorem State.descriptor_of_pages (pages : ∀ g, t.store.page g = s.store.page g) (g : Page) (q : Fin 8) :
    t.descriptor g q = s.descriptor g q := by
  simp only [State.descriptor, pages]

theorem State.stepEntry_of_pages (pages : ∀ g, t.store.page g = s.store.page g) (p : Fin 8) (g : Page) (i : BitVec 7)
    (n : Time) : t.stepEntry p g i n = s.stepEntry p g i n := by
  simp only [State.stepEntry, State.stepRecord_of_pages pages]

/-! ### A run starts (R72) -/

section
variable {q : Fin 8}

/-- Programme `q` is bound and its first step put into the list, due after its delay. -/
def State.started (src : LaunchSource) (q : Fin 8) (s : State) : State :=
  let d := s.descriptor s.store.active q
  (s.bindRun q (s.firstRun q) (armedAfter src d (s.slot q).armed)).insertEntry
    (s.stepEntry q s.store.active d.first s.tl)

theorem State.startRun_of_delay (valid : (s.descriptor s.store.active q).valid = true)
    (delay : (s.stepRecord s.store.active (s.descriptor s.store.active q).first).delay ≠ 0) (src : LaunchSource)
    (silent : Bool) (ok : LaunchResult) : s.startRun src silent ok q = (ok, [], s.started src q) := by
  have pages (r : Run) (armed : Bool) (g : Page) : (s.bindRun q r armed).store.page g = s.store.page g :=
    s.store.page_setBound _ _ _
  rw [State.startRun_of_valid valid, State.offer_of_running (s.bindRun_run q _ _),
    State.stepEntry_of_pages (pages _ _)]
  exact congrArg (Prod.mk ok) (if_pos (ahead_of_delay delay))

theorem armedAfter_command (d : Descriptor) (armed : Bool) : armedAfter .command d armed = armed := by
  cases armed <;> rfl

/-- A LAUNCH command leaves the slot armed as it was (R68). -/
theorem State.started_command {n : Time} (tl : s.tl = n) (q : Fin 8) :
    s.started .command q =
      let page := s.store.active
      let d := s.descriptor page q
      let step := s.stepRecord page d.first
      { s.setSlot q
          { s.slot q with
            run := some { page := page, step := d.first, passes := d.repeats, launchTime := n, applied := 0,
                          launchPending := false }
            bindId := (s.slot q).bindId + 1 } with
        store := s.store.setBound page (s.store.bound page + 1)
        sched := { s.sched with
          pel := insertByTime n
            { due := n + step.delay.setWidth 32, origin := .run q d.first, kind := step.kind,
              operand := step.operand, mark := step.mark } s.sched.pel } } := by
  subst tl
  simp only [State.started, armedAfter_command]
  rfl

/-! ### A launch (R69, R70, R72 to R76) -/

/-- Every launch is taken but a hardware launch of a programme that is not armed. -/
def LaunchSource.taken (src : LaunchSource) (x : Slot) : Prop := (src == .hardware && !x.armed) = false

theorem LaunchSource.taken_command (x : Slot) : LaunchSource.command.taken x := rfl

theorem State.takeLaunch_of_disarmed (disarmed : (s.slot q).armed = false) :
    s.takeLaunch .hardware q = (.discarded, [], s) := by
  simp only [State.takeLaunch, disarmed]
  rfl

variable {src : LaunchSource}

theorem State.takeLaunch_of_idle (taken : src.taken (s.slot q)) (idle : (s.slot q).run = none) :
    s.takeLaunch src q = s.startRun src (src == .command) .started q := by
  rw [LaunchSource.taken] at taken
  simp only [State.takeLaunch, taken, idle, Bool.false_eq_true, if_false]

variable {r : Run}

theorem State.takeLaunch_of_restart (taken : src.taken (s.slot q)) (running : (s.slot q).run = some r)
    (policy : (s.descriptor r.page q).policy = 1) :
    s.takeLaunch src q = (s.dropRun q r).startRun src false .restarted q := by
  rw [LaunchSource.taken] at taken
  simp only [State.takeLaunch, taken, running, policy, Bool.false_eq_true, if_false]
  rfl

theorem State.takeLaunch_of_ignore (taken : src.taken (s.slot q)) (running : (s.slot q).run = some r)
    (policy : (s.descriptor r.page q).policy = 0 ∨ (s.descriptor r.page q).policy = 2 ∧ r.launchPending = true) :
    s.takeLaunch src q = (.ignored, [], s.ignoreLaunch q) := by
  rw [LaunchSource.taken] at taken
  simp only [State.takeLaunch, taken, running, Bool.false_eq_true, if_false]
  obtain ignore | ⟨queue, pending⟩ := policy
  · rw [ignore]
    rfl
  · rw [queue, pending]
    rfl

theorem State.takeLaunch_of_queue (taken : src.taken (s.slot q)) (running : (s.slot q).run = some r)
    (policy : (s.descriptor r.page q).policy = 2) (free : r.launchPending = false) :
    s.takeLaunch src q = (.queued, [], s.setSlot q
      { s.slot q with
        run := some { r with launchPending := true }
        armed := armedAfter src (s.descriptor s.store.active q) (s.slot q).armed }) := by
  rw [LaunchSource.taken] at taken
  simp only [State.takeLaunch, taken, running, policy, free, Bool.false_eq_true, if_false]
  rfl

end

/-! ### LAUNCH (R159) -/

theorem Descriptor.valid_iff (d : Descriptor) :
    d.valid = true ↔ 1 ≤ d.count.toNat ∧ d.first.toNat + d.count.toNat ≤ 128 ∧ d.policy ≠ 3 := by
  simp [Descriptor.valid, and_assoc]

/-- The result words of LAUNCH: the launch time, when a run was started. -/
def launchWords (r : LaunchResult) (s : State) : Vector Word 4 :=
  if r = .started ∨ r = .restarted then words4 s.tl.lo s.tl.hi 0 0 else noWords

theorem completeLaunch_of_prog {a : Vector Word 4} {q : Fin 8} (prog : a[0].toNat = q.val) {r : LaunchResult}
    (launched : s.takeLaunch .command q = (r, [], t)) :
    completeLaunch a s = answer r.toCode (launchWords r s) t := by
  rw [completeLaunch, progOf_of_val prog]
  dsimp only
  rw [State.launchNow_of_done launched, launchWords]

section
variable {a : Vector Word 4} {q : Fin 8}

/-- LAUNCH of a programme completes with the result of its launch. -/
theorem exec_launch (ready : s.port.phase = .ready) (inFlight : s.cmd.inflight = some { code := 3, args := a })
    (prog : a[0].toNat = q.val) {r : LaunchResult}
    (launched : s.beforeCompletion.takeLaunch .command q = (r, [], t)) :
    exec .launch s = .next (completed t r.toCode.code (launchWords r s.beforeCompletion)) :=
  next_complete ready inFlight rfl (completeLaunch_of_prog prog launched)

end

/-- Settles O33, by the argument and the descriptor. -/
theorem launchFromIdle : Obligations.LaunchFromIdle := by
  intro s a ready inFlight b
  have named : hasCode 3 { code := 3, args := a } = true := rfl
  have tl : b.tl = s.tl := s.beforeCompletion_tl
  refine ⟨fun large => ?_, fun q prog idle => ?_⟩
  · have acted : completeLaunch a b = answer .badArg noWords b := by
      rw [completeLaunch, progOf_of_large large]
      rfl
    exact (next_complete ready inFlight named acted :)
  · intro page d step valid
    have next {r : LaunchResult} {v : State} (launched : b.startRun .command true .started q = (r, [], v)) :
        exec .launch s = .next (completed v r.toCode.code (launchWords r b)) :=
      exec_launch ready inFlight prog ((State.takeLaunch_of_idle (LaunchSource.taken_command _) idle).trans launched)
    refine ⟨fun invalid => ?_, fun isValid delay => ?_⟩
    · exact next (State.startRun_of_invalid (Bool.eq_false_iff.mpr (mt d.valid_iff.mp invalid)) .command true .started)
    · have started := State.startRun_of_delay (d.valid_iff.mpr isValid) delay .command true .started
      rw [State.started_command tl] at started
      refine (next started).trans ?_
      rw [launchWords, tl]
      rfl

/-! ### A LAUNCH command for a running programme (R74 to R76) -/

section
variable {q : Fin 8} {r : Run}

theorem State.dropRun_frame (s : State) (q : Fin 8) (r : Run) :
    s.dropRun q r = { s.leave q r with ev := (s.dropRun q r).ev } := by
  rw [State.dropRun, State.dropBinding_frame]
  rfl

theorem State.dropRun_pages (s : State) (q : Fin 8) (r : Run) (g : Page) :
    (s.dropRun q r).store.page g = s.store.page g := by
  rw [State.dropRun_frame]
  exact s.store.page_setBound _ _ _

theorem State.dropRun_active (s : State) (q : Fin 8) (r : Run) : (s.dropRun q r).store.active = s.store.active := by
  rw [State.dropRun_frame]
  exact s.store.setBound_active _ _

theorem State.dropRun_slot (s : State) (q p : Fin 8) (r : Run) :
    (s.dropRun q r).slot p = if p = q then { s.slot q with run := none } else s.slot p := by
  rw [State.dropRun_frame]
  exact s.slot_leave q p r

theorem FlagsSetWithin.dropRun {m : Word} (bankfree : m.getLsbD 10 = true) (s : State) (q : Fin 8) (r : Run) :
    FlagsSetWithin m s (s.dropRun q r) := by
  have emptied : FlagsSetWithin m s (s.emptied q) := of_ev rfl
  exact emptied.trans (.dropBinding bankfree _ _)

theorem State.dropRun_bankfree (draining : s.store.stateOf r.page = .draining) (last : s.store.bound r.page = 1) :
    (s.dropRun q r).ev.flags.getLsbD 10 = true :=
  State.dropBinding_flag (s := s.emptied q) draining last

/-- A RESTART takes the old run out and starts a new one, from the page that is ACTIVE (R75). -/
theorem State.takeLaunch_of_restart_valid (running : (s.slot q).run = some r)
    (policy : (s.descriptor r.page q).policy = 1) (valid : (s.descriptor s.store.active q).valid = true)
    (delay : (s.stepRecord s.store.active (s.descriptor s.store.active q).first).delay ≠ 0) :
    s.takeLaunch .command q = (.restarted, [], (s.dropRun q r).started .command q) := by
  rw [State.takeLaunch_of_restart (LaunchSource.taken_command _) running policy]
  refine State.startRun_of_delay ?_ ?_ .command false .restarted
  · rw [State.dropRun_active, State.descriptor_of_pages (s.dropRun_pages q r)]
    exact valid
  · rw [State.dropRun_active, State.descriptor_of_pages (s.dropRun_pages q r),
      State.stepRecord_of_pages (s.dropRun_pages q r)]
    exact delay

end

/-- Settles O34, by the policy of the page that the run is bound to. -/
theorem launchOfARunningSlot : Obligations.LaunchOfARunningSlot := by
  intro s a q r ready inFlight prog b running sl policy page d step
  have tl : b.tl = s.tl := s.beforeCompletion_tl
  have next {x : LaunchResult} {v : State} (launched : b.takeLaunch .command q = (x, [], v)) :
      exec .launch s = .next (completed v x.toCode.code (launchWords x b)) := exec_launch ready inFlight prog launched
  have taken : LaunchSource.command.taken (b.slot q) := LaunchSource.taken_command _
  refine ⟨fun ignore => ?ignore, fun queue free => ?queue, fun restart valid delay => ?restart⟩
  case ignore =>
    have launched := State.takeLaunch_of_ignore taken running ignore
    rw [State.ignoreLaunch, satInc_eq] at launched
    exact next launched
  case queue =>
    have launched := State.takeLaunch_of_queue taken running queue free
    rw [armedAfter_command] at launched
    exact next launched
  case restart =>
    have launched := State.takeLaunch_of_restart_valid running restart valid delay
    refine ⟨_, next launched, ?_⟩
    have frame := b.dropRun_frame q r
    have slots (p : Fin 8) := b.dropRun_slot q p r
    have within := FlagsSetWithin.dropRun (m := 0x0480) rfl b q r
    have bankfree := State.dropRun_bankfree (s := b) (q := q) (r := r)
    have active : (b.dropRun q r).store.active = page := b.dropRun_active q r
    have descriptor : (b.dropRun q r).descriptor page q = d := State.descriptor_of_pages (b.dropRun_pages q r) page q
    have record : (b.dropRun q r).stepRecord page d.first = step :=
      State.stepRecord_of_pages (b.dropRun_pages q r) page d.first
    have sameTl : (b.dropRun q r).tl = s.tl := (ChainRel.dropRun b q r).tl.trans tl
    have started := State.started_command sameTl q
    rw [launchWords, tl]
    clear_value b page d step
    generalize b.dropRun q r = u at frame slots within bankfree active descriptor record started ⊢
    rw [active] at started
    dsimp only at started
    rw [descriptor, record] at started
    rw [started]
    refine ⟨rfl, rfl, rfl, ?own, fun p other => ?others, ?list, ?store, ?bankfree, ?frame, ?flags⟩
    case own =>
      have own : u.slot q = { b.slot q with run := none } := (slots q).trans (if_pos rfl)
      refine (u.slot_setSlot q q _).trans ((if_pos rfl).trans ?_)
      rw [own]
    case others => exact (u.slot_setSlot q p _).trans ((if_neg other).trans ((slots p).trans (if_neg other)))
    case list =>
      have sched : u.sched = { b.sched with pel := b.sched.pel.filter fun x => !x.isRun q } := congrArg State.sched frame
      change ({ u.sched with pel := insertByTime s.tl _ u.sched.pel } : Scheduler) = _
      rw [sched]
    case store =>
      have store : u.store = b.store.setBound r.page (b.store.bound r.page - 1) := congrArg State.store frame
      change u.store.setBound page (u.store.bound page + 1) = _
      rw [store]
    case bankfree =>
      intro draining last
      exact (FlagsSetWithin.completed (m := 0x0080) rfl (by decide) _ _).flag (bankfree draining last)
    case frame =>
      rw [frame]
      rfl
    case flags =>
      have launchedEv : FlagsSetWithin 0x0480 u _ := .of_ev rfl
      exact (within.trans launchedEv).trans (.completed rfl (by decide) _ _)

end Sys2Proof.Machine
end

section
/-! PROOFS. One entry performed: the action of an output line or of a unit, and the MARK record (R14, R26 to R29, R34,
R97, R98). -/

namespace Sys2Proof.Machine

variable {s t u : State}

/-! ### The action of an output line (R28, R97, R98) -/

/-- The output stage after the action of a line, or of WAIT. -/
def Outputs.acted (kind operand : BitVec 4) (o : Outputs) : Outputs :=
  let m : Word := 1#16 <<< operand.toNat
  { o with
    logic :=
      if kind = 1 then o.logic ||| m else if kind = 2 then o.logic &&& ~~~m else if kind = 3 then o.logic ^^^ m
      else o.logic }

/-- The state after the action of a line, or of WAIT. -/
def State.lineActed (kind operand : BitVec 4) (s : State) : State :=
  { s with
    out := s.out.acted kind operand
    inp := { s.inp with windows := windowsAfter s (s.out.acted kind operand) } }

theorem lineMask_toFin (operand : BitVec 4) : lineMask operand.toFin = 1#16 <<< operand.toNat := by
  revert operand
  decide

theorem windowsAfter_self (s : State) : windowsAfter s s.out = s.inp.windows := by
  refine (tabulate_congr fun k => if_neg ?_).trans (tabulate_getElem _)
  rintro ⟨-, n, moved, -⟩
  exact moved rfl

/-- An action that moves no line leaves the output side as it is. -/
theorem State.lineActed_of_other {kind : BitVec 4} (operand : BitVec 4) (set : kind ≠ 1) (clr : kind ≠ 2)
    (toggle : kind ≠ 3) (s : State) : s.lineActed kind operand = s := by
  have same : s.out.acted kind operand = s.out := by
    rw [Outputs.acted, if_neg set, if_neg clr, if_neg toggle]
  rw [State.lineActed, same, windowsAfter_self]

theorem lineKind_cases {kind : BitVec 4} (line : kind.toNat ≤ 3) : kind = 0 ∨ kind = 1 ∨ kind = 2 ∨ kind = 3 := by
  revert kind
  decide

theorem State.perform_of_line {e : Entry} (line : e.kind.toNat ≤ 3) (s : State) :
    s.perform e = ([], s.lineActed e.kind e.operand) := by
  obtain wait | set | clr | toggle := lineKind_cases line
  · have decoded : Action.decode e.kind e.operand = some .wait := by rw [wait]; rfl
    rw [State.perform, decoded, wait, State.lineActed_of_other _ (by decide) (by decide) (by decide)]
  · have decoded : Action.decode e.kind e.operand = some (.set e.operand.toFin) := by rw [set]; rfl
    rw [State.perform, decoded, set]
    dsimp only
    rw [lineMask_toFin, State.setLines_eq]
    rfl
  · have decoded : Action.decode e.kind e.operand = some (.clr e.operand.toFin) := by rw [clr]; rfl
    rw [State.perform, decoded, clr]
    dsimp only
    rw [lineMask_toFin, State.clrLines_eq]
    rfl
  · have decoded : Action.decode e.kind e.operand = some (.toggle e.operand.toFin) := by rw [toggle]; rfl
    rw [State.perform, decoded, toggle]
    dsimp only
    rw [lineMask_toFin, State.toggleLines_eq]
    rfl

/-! ### The MARK record (R29) -/

/-- The state after the MARK record of a performed entry, where it is marked. -/
def State.markedBy (e : Entry) (late : Bool) (s : State) : State :=
  if e.mark then (s.produce (.mark e.origin late s.tl)).request .mark else s

theorem State.markedBy_frame (e : Entry) (late : Bool) (s : State) :
    s.markedBy e late =
      { s with
        cap := if e.mark then s.cap.take (.mark e.origin late s.tl) else s.cap
        ev := (s.markedBy e late).ev } := by
  rw [State.markedBy]
  split
  · rw [State.produce_frame]
    rfl
  · rfl

theorem State.markedBy_flag {e : Entry} (mark : e.mark = true) (late : Bool) (s : State) :
    (s.markedBy e late).ev.flags.getLsbD 3 = true := by
  rw [State.markedBy, if_pos mark]
  exact State.request_flag _ .mark

theorem FlagsSetWithin.markedBy (e : Entry) (late : Bool) (s : State) :
    FlagsSetWithin 0x000B s (s.markedBy e late) := by
  rw [State.markedBy]
  split
  · exact (produce s rfl rfl _).trans (request _ rfl)
  · exact of_ev rfl

theorem runChain_markTasks {n : Nat} {e : Entry} {late : Bool} {ts : List Task}
    (done : runChain n ts (s.markedBy e late) = ([], u)) : runChain (n + 1) (e.markTasks late ++ ts) s = ([], u) := by
  rw [State.markedBy] at done
  rw [Entry.markTasks]
  split at done
  · next mark =>
    rw [if_pos mark]
    exact done
  · next plain =>
    rw [if_neg plain]
    exact runChain_of_done done 1

/-! ### A DIRECT entry (R27, R34) -/

/-- A DIRECT entry that sets off nothing is performed and marked. -/
theorem State.chain_of_direct {e : Entry} {late : Bool} (direct : e.isDirect = true) (performed : s.perform e = ([], u)) :
    s.chain [.take e late] = u.markedBy e late := by
  refine State.chain_of_runChain (n := 2) (by decide) ?_
  have taken : doTask (.take e late) s = (e.markTasks late, u) := by
    rw [doTask, State.takeEntry_of_direct direct, performed]
    rfl
  rw [runChain_cons, taken]
  exact runChain_markTasks (runChain_nil 0 _)

/-! ### SCHEDULE of a late entry (R34, R157) -/

theorem Outputs.acted_logic {kind : BitVec 4} (line : kind = 1 ∨ kind = 2 ∨ kind = 3) (operand : BitVec 4) (o : Outputs) :
    o.acted kind operand =
      { o with
        logic :=
          if kind = 1 then o.logic ||| (1#16 <<< operand.toNat)
          else if kind = 2 then o.logic &&& ~~~(1#16 <<< operand.toNat)
          else o.logic ^^^ (1#16 <<< operand.toNat) } := by
  obtain rfl | rfl | rfl := line <;> rfl

/-- The entry that the arguments of SCHEDULE ask for, when they give an absolute due time. -/
def absoluteEntry (a : Vector Word 4) : Entry :=
  { due := Time.ofHalves a[0] a[1], origin := .direct (field a[3] 0 8), kind := field a[2] 0 4,
    operand := field a[2] 4 4, mark := bit a[2] 15 }

theorem scheduledEntry_of_absolute {a : Vector Word 4} (absolute : bit a[3] 8 = false) (n : Time) :
    scheduledEntry a n = absoluteEntry a := by
  rw [scheduledEntry, absolute]
  rfl

theorem completeSchedule_of_late {a : Vector Word 4} {e : Entry} (good : ¬BadSchedule a)
    (asked : scheduledEntry a s.tl = e) (late : reached e.due s.tl = true) (apply : bit a[3] 9 = false)
    (line : e.kind.toNat ≤ 3) :
    completeSchedule a s =
      answer .lateApplied (words4 e.due.lo e.due.hi 0 0)
        ((s.lineActed e.kind e.operand).markedBy e true).countLate := by
  have direct : e.isDirect = true := by rw [← asked]; rfl
  rw [completeSchedule_of_good good, asked]
  dsimp only
  rw [if_pos late, apply, if_neg Bool.false_ne_true, State.chain_of_direct direct (State.perform_of_line line s)]

theorem State.countLate_flag (s : State) : s.countLate.ev.flags.getLsbD 6 = true := State.request_flag _ .late

theorem FlagsSetWithin.countLate {m : Word} (late : m.getLsbD 6 = true) (s : State) : FlagsSetWithin m s s.countLate := by
  have counted : FlagsSetWithin m s { s with sched := { s.sched with lateCount := satInc s.sched.lateCount } } := of_ev rfl
  exact counted.trans (request _ late)

/-- Settles O30: the entry is DIRECT, and its action is that of an output line. -/
theorem lateEntryIsApplied : Obligations.LateEntryIsApplied := by
  intro s a ready inFlight b kind tag due m hasTag lineKind absolute apply isReached
  have tl : b.tl = s.tl := s.beforeCompletion_tl
  have named : hasCode 1 { code := 1, args := a } = true := rfl
  have line : kind.toNat ≤ 3 := by obtain h | h | h := lineKind <;> rw [h] <;> decide
  have good : ¬BadSchedule a := by
    have hasKind : ¬kind = 0 := by obtain h | h | h := lineKind <;> rw [h] <;> decide
    rintro (noTag | noKind | badAction | ⟨relative, -⟩)
    · exact hasTag noTag
    · exact hasKind noKind
    · have known : ∀ k : BitVec 4, k.toNat ≤ 3 → ∀ x : BitVec 4, ¬(Action.decode k x).isNone = true := by decide
      exact known _ line _ ((Action.decode_isNone_iff _ _).mpr badAction)
    · exact nomatch absolute.symm.trans relative
  have asked : scheduledEntry a b.tl = absoluteEntry a := scheduledEntry_of_absolute absolute b.tl
  have performed := completeSchedule_of_late (s := b) good asked (tl ▸ isReached) apply line
  have marked := State.markedBy_frame (absoluteEntry a) true (b.lineActed kind (field a[2] 4 4))
  have within := FlagsSetWithin.markedBy (absoluteEntry a) true (b.lineActed kind (field a[2] 4 4))
  have out := b.out.acted_logic lineKind (field a[2] 4 4)
  obtain ⟨u, applied⟩ : ∃ u, u = State.markedBy (absoluteEntry a) true (b.lineActed kind (field a[2] 4 4)) :=
    ⟨_, rfl⟩
  have acted : completeSchedule a b = answer .lateApplied (words4 due.lo due.hi 0 0) u.countLate :=
    performed.trans (by rw [applied]; rfl)
  have frame := applied.trans marked
  rw [← applied] at frame within
  refine ⟨_, (next_complete ready inFlight named acted :), ?_⟩
  clear_value b
  have markedCap : u.cap = if a[2].getLsbD 15 then b.cap.take (.mark (.direct tag) true s.tl) else b.cap := by
    rw [frame, ← tl]
    rfl
  have finished : FlagsSetWithin 0x0080 u.countLate (completed u.countLate 4 (words4 due.lo due.hi 0 0)) :=
    .completed rfl (by decide) _ _
  refine ⟨?cmd, ?out, markedCap, ?sched, finished.flag u.countLate_flag, completed_flag _ _ _, ?frame, ?inp, ?flags⟩
  case cmd =>
    rw [frame]
    rfl
  case out =>
    rw [frame]
    exact out
  case sched =>
    have sched : u.sched = b.sched := by rw [frame]; rfl
    rw [State.countLate_eq, ← sched]
    rfl
  case frame =>
    rw [frame]
    rfl
  case inp =>
    rw [frame]
    rfl
  case flags =>
    have line : FlagsSetWithin 0x00CB b (b.lineActed kind (field a[2] 4 4)) := .of_ev rfl
    exact ((line.trans (within.weaken (by decide))).trans (.countLate rfl u)).trans (.completed rfl (by decide) _ _)

end Sys2Proof.Machine
end

section
/-! PROOFS. ENTRY_DUE: a DIRECT entry, and a step of a run that is performed, completes the run, or is refused (R26 to
R32, R78 to R87). -/

namespace Sys2Proof.Machine

variable {s t u : State}

/-! ### One entry is due (R26, R32) -/

/-- The entry at the head is taken, and the rest of the list is left. -/
def State.begun (rest : List Entry) (s : State) : State :=
  { s with sched := { s.sched with pel := rest }, adv := { s.adv with schedBegun := true } }

section
variable {e : Entry} {rest : List Entry}

/-- With no other entry due, ENTRY_DUE is the chain that the entry at the head sets off. -/
theorem exec_entryDue_of_head (ready : s.port.phase = .ready) (list : s.sched.pel = e :: rest) (due : e.due = s.tl)
    (others : ∀ x ∈ rest, x.due ≠ s.tl) (handled : (s.begun rest).chain [.take e false] = t) :
    exec .entryDue s = .next t := by
  have taken : s.takeDueEntry = t := (State.takeDueEntry_of_due list due).trans handled
  have none : NoneDue t := by
    rw [← handled]
    exact (ChainRel.chain _ _).handle.noneDue others
  refine (next_whenReady ready State.takeDueEntries).trans (congrArg _ ?_)
  rw [State.takeDueEntries, list, List.length_cons, iter_succ, taken]
  exact iter_of_fixed (State.takeDueEntry_of_noneDue none) _

/-! ### The action of a unit (R14, R28) -/

theorem State.startUnit_of_single {v : Fin 4} (single : s.cascaded v = false) :
    s.startUnit v =
      s.setUnit v { s.unit v with c := (s.unit v).r, phase := 0, running := true, owes := false } := by
  have still : (s.setUnit v { s.unit v with c := (s.unit v).r, phase := 0, running := true, owes := false }).cascaded v =
      false := by rw [State.cascaded_setUnit]; exact single
  rw [State.startUnit, single, if_neg (by simp)]
  dsimp only
  rw [State.reloadOddHalf, still, if_neg Bool.false_ne_true]

theorem State.stopUnit_of_single {v : Fin 4} (single : s.cascaded v = false) :
    s.stopUnit v = s.setUnit v { s.unit v with running := false } := by
  rw [State.stopUnit, single, if_neg (by simp)]

theorem Action.decode_startUnit (v : Fin 4) : Action.decode 5 (BitVec.ofNat 4 v.val) = some (.startUnit v) := by
  revert v
  decide

theorem Action.decode_stopUnit (v : Fin 4) : Action.decode 6 (BitVec.ofNat 4 v.val) = some (.stopUnit v) := by
  revert v
  decide

end

/-! ### A DIRECT entry (R27, R28) -/

/-- What the action of a line, of WAIT or of a single unit leaves of the state. -/
structure Performed (e : Entry) (s t : State) : Prop where
  frame : t = { s.lineActed e.kind e.operand with iu := t.iu }
  units : ∀ v : Fin 4, t.unit v =
    if e.kind = 5 ∧ e.operand = BitVec.ofNat 4 v.val then
      { s.unit v with c := (s.unit v).r, phase := 0, running := true, owes := false }
    else if e.kind = 6 ∧ e.operand = BitVec.ofNat 4 v.val then { s.unit v with running := false }
    else s.unit v
  pairs : t.iu.pairs = s.iu.pairs

section
variable {e : Entry}

theorem Performed.of_line (line : e.kind.toNat ≤ 3) : Performed e s (s.lineActed e.kind e.operand) := by
  have notStart : e.kind ≠ 5 := by rintro same; rw [same] at line; exact absurd line (by decide)
  have notStop : e.kind ≠ 6 := by rintro same; rw [same] at line; exact absurd line (by decide)
  refine ⟨rfl, fun v => ?_, rfl⟩
  rw [if_neg (fun h => notStart h.1), if_neg (fun h => notStop h.1)]
  rfl

theorem unit_operand_inj {v w : Fin 4} : BitVec.ofNat 4 w.val = BitVec.ofNat 4 v.val ↔ v = w := by
  revert v w
  decide

theorem Performed.of_start (kind : e.kind = 5) {w : Fin 4} (operand : e.operand = BitVec.ofNat 4 w.val) :
    Performed e s (s.setUnit w { s.unit w with c := (s.unit w).r, phase := 0, running := true, owes := false }) := by
  refine ⟨?_, fun v => ?_, rfl⟩
  · rw [kind, State.lineActed_of_other _ (by decide) (by decide) (by decide)]
    rfl
  · rw [State.unit_setUnit, kind, operand]
    by_cases same : v = w
    · simp [same]
    · simp [same, unit_operand_inj]

theorem Performed.of_stop (kind : e.kind = 6) {w : Fin 4} (operand : e.operand = BitVec.ofNat 4 w.val) :
    Performed e s (s.setUnit w { s.unit w with running := false }) := by
  refine ⟨?_, fun v => ?_, rfl⟩
  · rw [kind, State.lineActed_of_other _ (by decide) (by decide) (by decide)]
    rfl
  · rw [State.unit_setUnit, kind, operand]
    by_cases same : v = w
    · simp [same]
    · simp [same, unit_operand_inj]

/-- The entries of O21 are performed so. -/
theorem State.perform_of_simple
    (simple : e.kind = 1 ∨ e.kind = 2 ∨ e.kind = 3 ∨
      ((e.kind = 5 ∨ e.kind = 6) ∧ ∃ v : Fin 4, e.operand = BitVec.ofNat 4 v.val ∧ s.cascaded v = false)) :
    ∃ u, s.perform e = ([], u) ∧ Performed e s u := by
  obtain set | clr | toggle | ⟨start | stop, v, operand, single⟩ := simple
  · exact ⟨_, State.perform_of_line (by rw [set]; decide) s, .of_line (by rw [set]; decide)⟩
  · exact ⟨_, State.perform_of_line (by rw [clr]; decide) s, .of_line (by rw [clr]; decide)⟩
  · exact ⟨_, State.perform_of_line (by rw [toggle]; decide) s, .of_line (by rw [toggle]; decide)⟩
  · refine ⟨_, ?_, .of_start start operand⟩
    rw [State.perform, start, operand, Action.decode_startUnit, ← State.startUnit_of_single single]
  · refine ⟨_, ?_, .of_stop stop operand⟩
    rw [State.perform, stop, operand, Action.decode_stopUnit, ← State.stopUnit_of_single single]

end

/-- Settles O21: the entry is performed, then marked. -/
theorem entryDueAppliesADirectEntry : Obligations.EntryDueAppliesADirectEntry := by
  intro s ready
  refine ⟨fun notDue => ?_, ?_⟩
  · exact (next_whenReady ready State.takeDueEntries).trans (congrArg _ (State.takeDueEntries_of_not_due notDue))
  intro e rest tag list due origin others simple m
  have direct : e.isDirect = true := by rw [Entry.isDirect, origin]
  obtain ⟨v, performed, frame, units, pairs⟩ := State.perform_of_simple (s := s.begun rest) simple
  refine ⟨_, exec_entryDue_of_head ready list due others (State.chain_of_direct direct performed), ?_⟩
  have marked := v.markedBy_frame e false
  have flag (mark : e.mark = true) := v.markedBy_flag mark false
  have within := FlagsSetWithin.markedBy e false v
  generalize v.markedBy e false = t at marked flag within ⊢
  have sameUnit (w : Fin 4) : t.unit w = v.unit w := by rw [marked]; rfl
  refine ⟨?sched, ?out, fun w => (sameUnit w).trans (units w), ?pairs, ?cap, flag, ?frame, ?lines, ?lens, ?windows,
    ?flags⟩
  case pairs =>
    rw [marked]
    exact pairs
  case flags =>
    have acted : FlagsSetWithin 0x000B s v := .of_ev (by rw [frame]; rfl)
    exact acted.trans within
  all_goals
    rw [marked, frame]
    rfl

/-! ### A step of a run that is performed (R27, R30, R78) -/

section
variable {e : Entry} {p : Fin 8} {i : BitVec 7} {r : Run}

theorem not_badAction_of_line {kind : BitVec 4} (line : kind.toNat ≤ 3) (operand : BitVec 4) :
    ¬BadAction kind operand := by
  rw [← Action.decode_isNone_iff]
  revert kind operand
  decide

theorem Slot.refusal_of_bad (bad : BadAction e.kind e.operand) (x : Slot) : x.refusal e = some .badStep :=
  if_pos ((Action.decode_isNone_iff _ _).mpr bad)

theorem Slot.refusal_of_loop {x : Slot} (good : ¬BadAction e.kind e.operand)
    (loop : x.dueTime = e.due ∧ 32 ≤ x.dueCount) :
    x.refusal e = some .zeroLoop :=
  (if_neg (mt (Action.decode_isNone_iff _ _).mp good)).trans (if_pos loop)

theorem Slot.refusal_of_good {x : Slot} (good : ¬BadAction e.kind e.operand)
    (fresh : ¬(x.dueTime = e.due ∧ 32 ≤ x.dueCount)) : x.refusal e = none :=
  (if_neg (mt (Action.decode_isNone_iff _ _).mp good)).trans (if_neg fresh)

theorem Entry.selfAbort_of_line (line : e.kind.toNat ≤ 3) : e.selfAbort = false := by
  rw [Entry.selfAbort]
  obtain wait | set | clr | toggle := lineKind_cases line
  · rw [wait]; rfl
  · rw [set]; rfl
  · rw [clr]; rfl
  · rw [toggle]; rfl

/-- The state in which a performed step of slot `p`, of an output line or WAIT, is handed off. -/
def State.stepped (p : Fin 8) (e : Entry) (s : State) : State :=
  ((s.setSlot p ((s.slot p).countStep e.due)).lineActed e.kind e.operand).markedBy e false

/-- An admitted step is performed and marked, and then handed off. -/
theorem State.chain_of_step (origin : e.origin = .run p i)
    (fresh : ¬((s.slot p).dueTime = e.due ∧ 32 ≤ (s.slot p).dueCount))
    (line : e.kind.toNat ≤ 3)
    (handed : (s.stepped p e).takeHandOff p i (s.slot p).bindId false = ([], u)) : s.chain [.take e false] = u := by
  refine State.chain_of_runChain (n := 3) (by decide) ?_
  have admitted := Slot.refusal_of_good (not_badAction_of_line line e.operand) fresh
  rw [runChain_cons, doTask, State.takeEntry_of_admitted origin admitted, State.perform_of_line line,
    Entry.selfAbort_of_line line]
  dsimp only
  rw [List.nil_append, List.append_nil]
  refine runChain_markTasks (n := 1) ?_
  have handedOff : doTask (.handOff p i (s.slot p).bindId false) (s.stepped p e) = ([], u) := handed
  exact (runChain_cons 0 _ [] _).trans (by rw [← State.stepped, handedOff]; rfl)

theorem State.stepped_frame (p : Fin 8) (e : Entry) (s : State) :
    s.stepped p e =
      { s.setSlot p ((s.slot p).countStep e.due) with
        out := s.out.acted e.kind e.operand
        inp := { s.inp with windows := windowsAfter s (s.out.acted e.kind e.operand) }
        cap := if e.mark then s.cap.take (.mark e.origin false s.tl) else s.cap
        ev := (s.stepped p e).ev } := by
  rw [State.stepped, State.markedBy_frame]
  rfl

theorem FlagsSetWithin.stepped (p : Fin 8) (e : Entry) (s : State) : FlagsSetWithin 0x000B s (s.stepped p e) := by
  have acted : FlagsSetWithin 0x000B s ((s.setSlot p ((s.slot p).countStep e.due)).lineActed e.kind e.operand) := of_ev rfl
  exact acted.trans (markedBy e false _)

/-! ### The hand-off (R79, R80, R81) -/

/-- The step that follows step `i` of the run. -/
def State.nextStep (p : Fin 8) (i : BitVec 7) (r : Run) (s : State) : BitVec 7 :=
  let d := s.descriptor r.page p
  if i.toNat + 1 = d.first.toNat + d.count.toNat then d.first else i + 1

/-- The run after its step `i`, which is not its last. -/
def State.nextRun (p : Fin 8) (i : BitVec 7) (r : Run) (s : State) : Run :=
  let d := s.descriptor r.page p
  { r with
    step := s.nextStep p i r
    passes := if i.toNat + 1 = d.first.toNat + d.count.toNat ∧ r.passes ≠ 0 then r.passes - 1 else r.passes }

theorem State.advanceRun_of_more
    (more : i.toNat + 1 = (s.descriptor r.page p).first.toNat + (s.descriptor r.page p).count.toNat → r.passes ≠ 1) :
    s.advanceRun p i r =
      (s.setSlot p { s.slot p with run := some (s.nextRun p i r) }).offer p (s.nextStep p i r) s.tl := by
  simp only [State.advanceRun, State.nextRun, State.nextStep]
  by_cases last : i.toNat + 1 = (s.descriptor r.page p).first.toNat + (s.descriptor r.page p).count.toNat
  · rw [if_neg (Decidable.not_not.mpr last), if_pos last]
    by_cases endless : r.passes = 0
    · rw [if_pos endless, if_neg (fun h => h.2 endless)]
    · rw [if_neg endless, if_neg (more last), if_pos ⟨last, endless⟩]
  · rw [if_pos last, if_neg last, if_neg (fun h => last h.1)]

theorem State.advanceRun_of_last
    (last : i.toNat + 1 = (s.descriptor r.page p).first.toNat + (s.descriptor r.page p).count.toNat)
    (once : r.passes = 1) : s.advanceRun p i r = s.endRun p .complete := by
  simp [State.advanceRun, last, once]

/-- The run goes to its next step, which is put into the list, due after its delay. -/
theorem State.advanceRun_of_delay
    (more : i.toNat + 1 = (s.descriptor r.page p).first.toNat + (s.descriptor r.page p).count.toNat → r.passes ≠ 1)
    (delay : (s.stepRecord r.page (s.nextStep p i r)).delay ≠ 0) :
    s.advanceRun p i r =
      ([], (s.setSlot p { s.slot p with run := some (s.nextRun p i r) }).insertEntry
        (s.stepEntry p r.page (s.nextStep p i r) s.tl)) := by
  have running : ((s.setSlot p { s.slot p with run := some (s.nextRun p i r) }).slot p).run = some (s.nextRun p i r) := by
    rw [State.slot_setSlot, if_pos rfl]
  rw [State.advanceRun_of_more more, State.offer_of_running running]
  exact if_pos (ahead_of_delay delay)

end

section
variable {e : Entry} {rest : List Entry} {p : Fin 8} {i : BitVec 7} {r : Run}

/-- Slot `x` after a step of its run `r` is admitted at `n` (R78). -/
def Slot.counted (n : Time) (r : Run) (x : Slot) : Slot :=
  { x with
    run := some { r with applied := r.applied + 1 }
    dueTime := n
    dueCount := if x.dueTime = n then x.dueCount + 1 else 1 }

theorem Slot.countStep_of_running {x : Slot} (running : x.run = some r) (n : Time) : x.countStep n = x.counted n r := by
  rw [Slot.countStep, running]
  rfl

/-- The state `w` in which the due step `e` of run `r` is handed off, from the state `s` in which it is due. -/
structure StepHandedOff (e : Entry) (rest : List Entry) (p : Fin 8) (r : Run) (s w : State) : Prop where
  frame : w =
    { s with
      sched := { s.sched with pel := rest }
      slots := s.slots.set p ((s.slot p).counted s.tl r)
      out := s.out.acted e.kind e.operand
      inp := { s.inp with windows := windowsAfter s (s.out.acted e.kind e.operand) }
      cap := if e.mark then s.cap.take (.mark e.origin false s.tl) else s.cap
      ev := w.ev
      adv := w.adv }
  flags : FlagsSetWithin 0x000B s w

namespace StepHandedOff

variable {w : State}

theorem slot (handed : StepHandedOff e rest p r s w) (q : Fin 8) :
    w.slot q = if q = p then (s.slot p).counted s.tl r else s.slot q := by
  rw [handed.frame]
  exact s.slot_setSlot p q _

theorem own (handed : StepHandedOff e rest p r s w) : w.slot p = (s.slot p).counted s.tl r :=
  (handed.slot p).trans (if_pos rfl)

theorem store (handed : StepHandedOff e rest p r s w) : w.store = s.store := by
  rw [handed.frame]

theorem tl (handed : StepHandedOff e rest p r s w) : w.tl = s.tl := by
  rw [handed.frame]
  rfl

theorem descriptor (handed : StepHandedOff e rest p r s w) (g : Page) (q : Fin 8) : w.descriptor g q = s.descriptor g q :=
  State.descriptor_of_pages (fun g => congrArg (Store.page · g) handed.store) g q

theorem stepRecord (handed : StepHandedOff e rest p r s w) (g : Page) (j : BitVec 7) :
    w.stepRecord g j = s.stepRecord g j :=
  State.stepRecord_of_pages (fun g => congrArg (Store.page · g) handed.store) g j

end StepHandedOff

/-- A due step of an output line or WAIT is performed, and what follows is its hand-off. -/
theorem exec_entryDue_of_step (ready : s.port.phase = .ready) (list : s.sched.pel = e :: rest) (due : e.due = s.tl)
    (origin : e.origin = .run p i) (others : ∀ x ∈ rest, x.due ≠ s.tl) (line : e.kind.toNat ≤ 3)
    (running : (s.slot p).run = some r) (fresh : ¬((s.slot p).dueTime = s.tl ∧ 32 ≤ (s.slot p).dueCount)) :
    ∃ w, StepHandedOff e rest p r s w ∧
      ∀ u, w.advanceRun p i { r with applied := r.applied + 1 } = ([], u) → exec .entryDue s = .next u := by
  have handed : StepHandedOff e rest p r s ((s.begun rest).stepped p e) := by
    refine ⟨((s.begun rest).stepped_frame p e).trans ?_, .stepped p e (s.begun rest)⟩
    have counted : ((s.begun rest).slot p).countStep e.due = (s.slot p).counted s.tl r :=
      due ▸ Slot.countStep_of_running running e.due
    rw [counted, State.stepped_frame]
    rfl
  refine ⟨_, handed, fun u advanced => ?_⟩
  refine exec_entryDue_of_head ready list due others (State.chain_of_step origin (due ▸ fresh) line ?_)
  have own := handed.own
  generalize (s.begun rest).stepped p e = w at own advanced ⊢
  have run : (w.slot p).run = some { r with applied := r.applied + 1 } := congrArg Slot.run own
  have bindId : (w.slot p).bindId = (s.slot p).bindId := by rw [own]; rfl
  have live := State.takeHandOff_of_live run i false
  rw [bindId] at live
  exact live.trans advanced

end

/-- Settles O22: the step is performed (`StepHandedOff`), and the hand-off offers the next one. -/
theorem runStepOffersItsSuccessor : Obligations.RunStepOffersItsSuccessor := by
  intro s e rest p i r ready list due origin others line running sl d last j next fresh more delay
  obtain ⟨w, handed, step⟩ := exec_entryDue_of_step ready list due origin others line running fresh
  have descriptor : w.descriptor r.page p = d := handed.descriptor _ _
  have record : w.stepRecord r.page j = next := handed.stepRecord _ _
  have nextStep : w.nextStep p i { r with applied := r.applied + 1 } = j := by
    rw [State.nextStep, descriptor]
  have advanced := State.advanceRun_of_delay (s := w) (p := p) (i := i) (r := { r with applied := r.applied + 1 })
    (descriptor ▸ more) (by rw [nextStep]; exact record ▸ delay)
  rw [State.nextRun, nextStep, State.stepEntry, handed.tl, handed.own] at advanced
  dsimp only at advanced
  rw [descriptor, record] at advanced
  refine ⟨_, step _ advanced, ?_⟩
  clear_value next j
  refine ⟨?sched, ?own, fun q other => ?others, ?out, ?cap, ?frame, ?inp, ?flags⟩
  case own => exact (State.slot_setSlot _ _ _ _).trans (if_pos rfl)
  case others => exact (State.slot_setSlot _ _ _ _).trans ((if_neg other).trans ((handed.slot q).trans (if_neg other)))
  case flags => exact handed.flags.trans (.of_ev rfl)
  all_goals
    rw [handed.frame]
    rfl

/-- An end sets off nothing when no launch is pending (R84). -/
theorem State.endRun_of_not_pending {p : Fin 8} {r : Run} (running : (s.slot p).run = some r)
    (free : r.launchPending = false) (why : EndReason) : s.endRun p why = ([], (s.endRun p why).2) := by
  rw [State.endRun_eq running, free, Bool.and_false]
  rfl

/-- Settles O23: the step is performed (`StepHandedOff`), and the run then ends (`State.endRun_frame`). -/
theorem runCompletes : Obligations.RunCompletes := by
  intro s e rest p i r ready list due origin others line running sl d marked fresh last once free
  obtain ⟨w, handed, step⟩ := exec_entryDue_of_step ready list due origin others line running fresh
  have descriptor (g : Page) : w.descriptor g p = s.descriptor g p := handed.descriptor g p
  have run : (w.slot p).run = some { r with applied := r.applied + 1 } := by rw [handed.own]; rfl
  have ended := State.endRun_of_not_pending run free .complete
  have advanced := State.advanceRun_of_last (s := w) (p := p) (i := i) (r := { r with applied := r.applied + 1 })
    ((descriptor r.page).symm ▸ last) once
  refine ⟨_, step _ (advanced.trans ended), ?_⟩
  have slots (q : Fin 8) := w.endRun_slot p .complete q
  have frame := State.endRun_frame run .complete
  have runend := State.endRun_runend run .complete
  have bankfree := State.endRun_bankfree run .complete
  have within := FlagsSetWithin.endRun w p .complete
  dsimp only at frame bankfree
  rw [descriptor, handed.tl] at frame
  rw [handed.store] at bankfree
  generalize (w.endRun p .complete).2 = t at slots frame runend bankfree within ⊢
  refine ⟨?sched, ?own, fun q other => ?others, runend, ?cap, ?store, bankfree, ?out, ?frame, ?inp, ?flags⟩
  case own =>
    refine (slots p).trans ((if_pos rfl).trans ?_)
    rw [handed.own]
    rfl
  case others => exact (slots q).trans ((if_neg other).trans ((handed.slot q).trans (if_neg other)))
  case flags => exact (handed.flags.weaken (by decide)).trans (within.weaken (by decide))
  all_goals
    rewrite [frame, handed.frame]
    rfl

/-! ### A step that is refused (R27, R78, R87) -/

section
variable {p : Fin 8} {r : Run}

theorem State.faultRun_eq (running : (s.slot p).run = some r) (why : FaultReason) (i : BitVec 7) (due : Time) :
    s.faultRun p why i due =
      (((s.emptied p).produce (.fault p why i due)).request .runflt).dropBinding r.page := by
  rw [State.faultRun]
  simp only [running]
  rfl

/-- A fault takes the run, its entry and its binding, and hands a record over. -/
theorem State.faultRun_frame (running : (s.slot p).run = some r) (why : FaultReason) (i : BitVec 7) (due : Time) :
    s.faultRun p why i due =
      { s.leave p r with cap := s.cap.take (.fault p why i due), ev := (s.faultRun p why i due).ev } := by
  rw [State.faultRun_eq running, State.dropBinding_frame, State.produce_frame]
  rfl

theorem State.faultRun_runflt (running : (s.slot p).run = some r) (why : FaultReason) (i : BitVec 7) (due : Time) :
    (s.faultRun p why i due).ev.flags.getLsbD 5 = true := by
  rw [State.faultRun_eq running]
  exact (FlagsSetWithin.dropBinding (m := 0x0400) rfl _ _).flag (State.request_flag _ .runflt)

theorem FlagsSetWithin.faultRun (running : (s.slot p).run = some r) (why : FaultReason) (i : BitVec 7) (due : Time) :
    FlagsSetWithin 0x0423 s (s.faultRun p why i due) := by
  rw [State.faultRun_eq running]
  have emptied : FlagsSetWithin 0x0423 s (s.emptied p) := of_ev rfl
  exact ((emptied.trans (produce _ rfl rfl _)).trans (request _ rfl)).trans (dropBinding rfl _ _)

theorem State.chain_of_refused {e : Entry} {i : BitVec 7} {why : FaultReason} (origin : e.origin = .run p i)
    (refused : (s.slot p).refusal e = some why) : s.chain [.take e false] = s.faultRun p why i e.due := by
  refine State.chain_of_runChain (n := 1) (by decide) ?_
  rw [runChain_cons, doTask, State.takeEntry_of_refused origin refused]
  rfl

end

/-- Settles O24: a refused step faults the run (`State.faultRun_frame`), for the reason that is found first. -/
theorem refusedStepFaultsTheRun : Obligations.RefusedStepFaultsTheRun := by
  intro s e rest p i r ready list due origin others running bad loop refused
  obtain ⟨why, refusal, isBad, notBad⟩ : ∃ why, (s.slot p).refusal e = some why ∧ (bad → why = .badStep) ∧
      (¬bad → why = .zeroLoop) := by
    by_cases isBad : bad
    · exact ⟨_, Slot.refusal_of_bad isBad _, fun _ => rfl, fun notBad => absurd isBad notBad⟩
    · refine ⟨_, Slot.refusal_of_loop isBad ?_, fun h => absurd h isBad, fun _ => rfl⟩
      rw [due]
      exact refused.resolve_left isBad
  have faulted := State.chain_of_refused (s := s.begun rest) origin refusal
  refine ⟨_, exec_entryDue_of_head ready list due others faulted, ?_⟩
  have frame := State.faultRun_frame (s := s.begun rest) running why i e.due
  have runflt := State.faultRun_runflt (s := s.begun rest) running why i e.due
  have within := FlagsSetWithin.faultRun (s := s.begun rest) running why i e.due
  rw [due] at frame runflt within ⊢
  generalize (s.begun rest).faultRun p why i s.tl = t at frame runflt within ⊢
  have slots (q : Fin 8) : t.slot q = if q = p then { s.slot p with run := none } else s.slot q := by
    rw [frame]
    exact (s.begun rest).slot_leave p q r
  have cap : t.cap = s.cap.take (.fault p why i s.tl) := by
    rw [frame]
    rfl
  refine ⟨?sched, (slots p).trans (if_pos rfl), fun q other => (slots q).trans (if_neg other),
    fun h => isBad h ▸ cap, fun h => notBad h ▸ cap, runflt, ?store, ?frame, ?flags⟩
  case flags =>
    have begun : FlagsSetWithin 0x0423 s (s.begun rest) := .of_ev rfl
    exact begun.trans within
  all_goals
    rw [frame]
    rfl

end Sys2Proof.Machine
end

section
/-! PROOFS. UNIT_EXPIRY: what a unit and a cascaded pair count, and the delivery of an expiry to the programme store and
the run controller (R10, R16, R19, R59, R60, R68 to R72). -/

namespace Sys2Proof.Machine

variable {s t : State}

/-! ### Counting an advance (R10) -/

section
variable {u : Fin 4}

theorem IntervalUnit.phaseStep_of_short {x : IntervalUnit} (short : x.phase + 1 < 4 ^ x.prescale.toNat) :
    x.phaseStep = ({ x with phase := x.phase + 1 }, false) :=
  if_neg (Nat.not_le.mpr short)

theorem IntervalUnit.phaseStep_of_full {x : IntervalUnit} (full : 4 ^ x.prescale.toNat ≤ x.phase + 1) :
    x.phaseStep = ({ x with phase := 0 }, true) :=
  if_pos full

theorem State.countSingle_of_stopped (stopped : (s.unit u).running = false) :
    s.countSingle u = s.setUnit u { s.unit u with owes := false } := by
  rw [State.countSingle]
  exact if_neg (Bool.eq_false_iff.mp stopped)

/-- The unit with the advance counted, before its phase and counter move. -/
def IntervalUnit.paid (x : IntervalUnit) : IntervalUnit := { x with owes := false }

theorem State.countSingle_of_running (running : (s.unit u).running = true) :
    s.countSingle u =
      let y := (s.unit u).paid.phaseStep
      if y.2 then
        if y.1.c = 1 then (s.setUnit u { y.1 with c := y.1.r, running := y.1.mode == .continuous }).expire u
        else s.setUnit u { y.1 with c := y.1.c - 1 }
      else s.setUnit u y.1 := by
  rw [State.countSingle]
  exact if_pos running

theorem State.countSingle_of_short (running : (s.unit u).running = true)
    (short : (s.unit u).phase + 1 < 4 ^ (s.unit u).prescale.toNat) :
    s.countSingle u = s.setUnit u { s.unit u with phase := (s.unit u).phase + 1, owes := false } := by
  rw [State.countSingle_of_running running, IntervalUnit.phaseStep_of_short (x := (s.unit u).paid) short]
  rfl

theorem State.countSingle_of_full (running : (s.unit u).running = true)
    (full : 4 ^ (s.unit u).prescale.toNat ≤ (s.unit u).phase + 1) (more : (s.unit u).c ≠ 1) :
    s.countSingle u = s.setUnit u { s.unit u with c := (s.unit u).c - 1, phase := 0, owes := false } := by
  rw [State.countSingle_of_running running, IntervalUnit.phaseStep_of_full (x := (s.unit u).paid) full]
  exact if_neg more

theorem State.countSingle_of_expiry (running : (s.unit u).running = true)
    (full : 4 ^ (s.unit u).prescale.toNat ≤ (s.unit u).phase + 1) (last : (s.unit u).c = 1) :
    s.countSingle u =
      (s.setUnit u
        { s.unit u with
          c := (s.unit u).r, phase := 0, running := (s.unit u).mode == .continuous, owes := false }).expire u := by
  rw [State.countSingle_of_running running, IntervalUnit.phaseStep_of_full (x := (s.unit u).paid) full]
  exact if_pos last

theorem exec_iuExpiry_of_ready (ready : s.port.phase = .ready) (u : Fin 4) :
    exec (.iuExpiry u) s = .next ((s.countUnit u).deliver u) :=
  next_whenReady ready fun t => (t.countUnit u).deliver u

/-- A count without an expiry is all that is handled. -/
theorem exec_iuExpiry_of_quiet (ready : s.port.phase = .ready) (counted : s.countUnit u = t)
    (quiet : t.adv.expiry[u] = none) : exec (.iuExpiry u) s = .next t := by
  rw [exec_iuExpiry_of_ready ready, counted, State.deliver_of_none quiet]

/-! ### The delivery of an expiry (R59, R60, R71) -/

theorem State.setExpiry_setExpiry (s : State) (u : Fin 4) (x y : Option Expiry) :
    (s.setExpiry u x).setExpiry u y = s.setExpiry u y := by
  simp only [State.setExpiry, Vector.set_set]

/-- What the expiry reported as `u` does to the store: a swap that is pending on it takes effect (R59). -/
def State.swapAt (u : Fin 4) (s : State) : State := if s.store.swap = some u then s.swapPages else s

/-- An expiry that the store has taken, and whose launches are read from page `g`. -/
def Expiry.onPage (g : Page) (l : List (Fin 8)) : Expiry := { stored := true, page := some g, left := l }

/-- An expiry that nothing has been taken of yet. -/
def Expiry.fresh (l : List (Fin 8)) : Expiry := { stored := false, page := none, left := l }

theorem State.takeSwapPoint_of_onPage {g : Page} {l : List (Fin 8)} (held : s.adv.expiry[u] = some (.onPage g l)) :
    s.takeSwapPoint u = s := by
  rw [State.takeSwapPoint, held]
  rfl

theorem State.takeSwapPoint_of_fresh {l : List (Fin 8)} (held : s.adv.expiry[u] = some (.fresh l)) :
    ∃ x, s.takeSwapPoint u = (s.swapAt u).setExpiry u x := by
  rw [State.takeSwapPoint, held, State.swapAt]
  dsimp only
  split
  · next stored => exact nomatch stored
  · split
    · exact ⟨_, rfl⟩
    · exact ⟨_, rfl⟩

/-- The first turn of a delivery takes the swap point, which fixes the page of the launches. -/
theorem State.deliver_of_fresh {l : List (Fin 8)} (held : s.adv.expiry[u] = some (.fresh l)) (left : l ≠ []) :
    s.deliver u =
      iter (State.takeUnitLaunch u) (l.length + 1)
        ((s.swapAt u).setExpiry u (some (.onPage (s.swapAt u).store.active l))) := by
  obtain ⟨q, qs, rfl⟩ := List.exists_cons_of_ne_nil left
  have taken : (((s.swapAt u).setExpiry u (some (.onPage (s.swapAt u).store.active (q :: qs)))).adv.expiry[u]) =
      some (.onPage (s.swapAt u).store.active (q :: qs)) := by rw [State.expiry_setExpiry, if_pos rfl]
  have turn : s.takeUnitLaunch u =
      ((s.swapAt u).setExpiry u (some (.onPage (s.swapAt u).store.active (q :: qs)))).takeUnitLaunch u := by
    obtain ⟨x, swapped⟩ := State.takeSwapPoint_of_fresh held
    rw [State.takeUnitLaunch_of_cons held rfl, State.takeUnitLaunch_of_cons taken rfl,
      State.takeSwapPoint_of_onPage taken, swapped]
    dsimp only
    rw [State.setExpiry_setExpiry, State.setExpiry_setExpiry]
    rfl
  rw [State.deliver, held]
  dsimp only
  rw [show (Expiry.fresh (q :: qs)).left.length + 1 = (q :: qs).length + 1 from rfl, iter_succ, iter_succ, turn]

/-- No launch that descriptor `q` of page `g` asks for at the expiry reported as `u` is taken (R70). -/
def Discards (u : Fin 4) (g : Page) (q : Fin 8) (s : State) : Prop :=
  (s.descriptor g q).triggers u = true → (s.slot q).armed = false

theorem State.launchIf_of_discards {g : Page} {q : Fin 8} (discards : Discards u g q s) : s.launchIf g u q = s := by
  rw [State.launchIf]
  split
  · next triggers => rw [State.launchNow_of_done (State.takeLaunch_of_disarmed (discards triggers))]
  · rfl

/-- One turn takes the next descriptor. -/
theorem State.takeUnitLaunch_of_onPage {g : Page} {q : Fin 8} {qs : List (Fin 8)} (s : State) :
    (s.setExpiry u (some (.onPage g (q :: qs)))).takeUnitLaunch u =
      (s.setExpiry u (if qs = [] then none else some (.onPage g qs))).launchIf g u q := by
  have held : (s.setExpiry u (some (.onPage g (q :: qs)))).adv.expiry[u] = some (.onPage g (q :: qs)) := by
    rw [State.expiry_setExpiry, if_pos rfl]
  rw [State.takeUnitLaunch_of_cons held rfl, State.takeSwapPoint_of_onPage held]
  dsimp only
  rw [State.setExpiry_setExpiry]
  rfl

/-- The turns that are left, once the descriptors `qs` are left. -/
theorem State.turns_after (s : State) (g : Page) (qs : List (Fin 8)) :
    iter (State.takeUnitLaunch u) (qs.length + 1) (s.setExpiry u (if qs = [] then none else some (.onPage g qs))) =
      iter (State.takeUnitLaunch u) (qs.length + 1) (s.setExpiry u (some (.onPage g qs))) := by
  split
  · next last =>
    subst last
    have held : (s.setExpiry u (some (.onPage g []))).adv.expiry[u] = some (.onPage g []) := by
      rw [State.expiry_setExpiry, if_pos rfl]
    have ended : (s.setExpiry u none).adv.expiry[u] = none := by rw [State.expiry_setExpiry, if_pos rfl]
    rw [List.length_nil, iter_succ, iter_succ, State.takeUnitLaunch_of_none ended, State.takeUnitLaunch_of_nil held rfl,
      State.takeSwapPoint_of_onPage held, State.setExpiry_setExpiry]
  · rfl

/-- With every launch discarded a delivery ends the expiry, and that is all. -/
theorem State.turns_of_discards {g : Page} {l : List (Fin 8)} (discards : ∀ q ∈ l, Discards u g q s) :
    iter (State.takeUnitLaunch u) (l.length + 1) (s.setExpiry u (some (.onPage g l))) = s.setExpiry u none := by
  induction l with
  | nil =>
    rw [← State.turns_after, if_pos rfl]
    exact iter_of_fixed (State.takeUnitLaunch_of_none (by rw [State.expiry_setExpiry, if_pos rfl])) _
  | cons q qs ih =>
    have head : Discards u g q (s.setExpiry u (if qs = [] then none else some (.onPage g qs))) :=
      discards q List.mem_cons_self
    rw [List.length_cons, iter_succ, State.takeUnitLaunch_of_onPage, State.launchIf_of_discards head, State.turns_after]
    exact ih fun p listed => discards p (List.mem_cons_of_mem q listed)

/-- One programme starts at a delivery, and every other launch is discarded. -/
theorem State.turns_of_start {g : Page} {q : Fin 8} {l : List (Fin 8)} (listed : q ∈ l) (once : l.Nodup)
    (others : ∀ p, p ≠ q → Discards u g p s) (after : ∀ p, p ≠ q → Discards u g p t)
    (starts : ∀ x, (s.setExpiry u x).launchIf g u q = t.setExpiry u x) :
    iter (State.takeUnitLaunch u) (l.length + 1) (s.setExpiry u (some (.onPage g l))) = t.setExpiry u none := by
  induction l with
  | nil => exact nomatch listed
  | cons p ps ih =>
    obtain ⟨new, once⟩ := List.nodup_cons.mp once
    rw [List.length_cons, iter_succ, State.takeUnitLaunch_of_onPage]
    by_cases same : p = q
    · subst same
      rw [starts, State.turns_after]
      exact State.turns_of_discards fun x later => after x fun isHead => new (isHead ▸ later)
    · have head : Discards u g p (s.setExpiry u (if ps = [] then none else some (.onPage g ps))) := others p same
      rw [State.launchIf_of_discards head, State.turns_after]
      exact ih ((List.mem_cons.mp listed).resolve_left fun isHead => same isHead.symm) once

/-! ### What an expiry brings about (R19, R59) -/

theorem State.expire_held (s : State) (u : Fin 4) : (s.expire u).adv.expiry[u] = some (.fresh allProgs) := by
  rw [State.expire]
  exact (s.expiry_setExpiry u u _).trans (if_pos rfl)

/-- The state in which the launches of an expiry are taken. -/
def State.expiredAt (u : Fin 4) (s : State) : State := (s.expire u).swapAt u

theorem State.expiredAt_frame (u : Fin 4) (s : State) :
    s.expiredAt u =
      { s with
        store :=
          if s.store.swap = some u then { s.store with active := s.store.active.other, swap := none } else s.store
        ev := { s.ev with flags := s.ev.flags ||| placeBit true (11 + u.val) |||
          (if s.store.swap = some u then 0x0200 else 0) }
        adv := (s.expire u).adv } := by
  have same : (s.expire u).store.swap = s.store.swap := rfl
  rw [State.expiredAt, State.swapAt, same]
  split
  · rfl
  · exact congrArg (fun flags => { s with ev := { s.ev with flags := flags }, adv := (s.expire u).adv })
      BitVec.or_zero.symm

theorem State.expiredAt_active (u : Fin 4) (s : State) :
    (s.expiredAt u).store.active = if s.store.swap = some u then s.store.active.other else s.store.active := by
  rw [State.expiredAt_frame]
  dsimp only
  split <;> rfl

theorem State.expiredAt_pages (u : Fin 4) (s : State) (g : Page) : (s.expiredAt u).store.page g = s.store.page g := by
  rw [State.expiredAt_frame]
  dsimp only
  split <;> cases g <;> rfl

theorem State.expiredAt_bound (u : Fin 4) (s : State) (g : Page) : (s.expiredAt u).store.bound g = s.store.bound g := by
  rw [State.expiredAt_frame]
  dsimp only
  split <;> cases g <;> rfl

theorem State.expiredAt_slots (u : Fin 4) (s : State) : (s.expiredAt u).slots = s.slots := by
  rw [State.expiredAt_frame]

theorem Discards.of_slots {g : Page} {q : Fin 8} (discards : Discards u g q s)
    (pages : ∀ g, t.store.page g = s.store.page g) (slot : t.slot q = s.slot q) : Discards u g q t := by
  rw [Discards, State.descriptor_of_pages pages, slot]
  exact discards

theorem Discards.expiredAt {g : Page} {q : Fin 8} (discards : Discards u g q s) : Discards u g q (s.expiredAt u) :=
  discards.of_slots (s.expiredAt_pages u) (by rw [State.slot, s.expiredAt_slots u, State.slot])

theorem State.deliver_expire (s : State) (u : Fin 4) :
    (s.expire u).deliver u =
      iter (State.takeUnitLaunch u) (allProgs.length + 1)
        ((s.expiredAt u).setExpiry u (some (.onPage (s.expiredAt u).store.active allProgs))) :=
  State.deliver_of_fresh (s.expire_held u) (by decide)

/-- Nothing of the expiry is left, when nothing was on its way before. -/
theorem State.expire_adv {x : Option Expiry} (quiet : s.adv.expiry[u] = x) :
    ((s.expire u).setExpiry u x).adv = { s.adv with expired := s.adv.expired.set u true } := by
  subst quiet
  simp [State.expire, State.setExpiry]

/-- An expiry whose launches are all discarded. -/
theorem State.deliver_expire_of_discards (quiet : s.adv.expiry[u] = none)
    (discards : ∀ q, Discards u (if s.store.swap = some u then s.store.active.other else s.store.active) q s) :
    (s.expire u).deliver u =
      { s with
        store :=
          if s.store.swap = some u then { s.store with active := s.store.active.other, swap := none } else s.store
        ev := { s.ev with flags := s.ev.flags ||| placeBit true (11 + u.val) |||
          (if s.store.swap = some u then 0x0200 else 0) }
        adv := { s.adv with expired := s.adv.expired.set u true } } := by
  rw [State.deliver_expire, s.expiredAt_active u, State.turns_of_discards fun q _ => (discards q).expiredAt,
    State.expiredAt_frame, ← State.expire_adv quiet]
  rfl

end

/-- Settles O17, by what the unit has to count. -/
theorem unitCountsAnAdvance : Obligations.UnitCountsAnAdvance := by
  intro s u ready single quiet x swaps page
  have counted (owes : x.owes = true) : s.countUnit u = s.countSingle u :=
    (State.countUnit_of_single single).trans (if_pos owes)
  refine ⟨fun paid => ?_, fun owes stopped => ?_, fun owes running short => ?_, fun owes running full more => ?_,
    fun owes running full last discards => ?_⟩
  · have still : s.countUnit u = s := (State.countUnit_of_single single).trans (if_neg (Bool.eq_false_iff.mp paid))
    exact exec_iuExpiry_of_quiet ready still quiet
  · exact exec_iuExpiry_of_quiet ready ((counted owes).trans (State.countSingle_of_stopped stopped)) quiet
  · exact exec_iuExpiry_of_quiet ready ((counted owes).trans (State.countSingle_of_short running short)) quiet
  · exact exec_iuExpiry_of_quiet ready ((counted owes).trans (State.countSingle_of_full running full more)) quiet
  · rw [exec_iuExpiry_of_ready ready, counted owes, State.countSingle_of_expiry running full last]
    exact congrArg _ (State.deliver_expire_of_discards quiet discards)

end Sys2Proof.Machine
end

section
/-! PROOFS. UNIT_EXPIRY of a cascaded pair, and an expiry that starts an armed programme (R16, R60, R68, R71, R72). -/

namespace Sys2Proof.Machine

variable {s t : State}

/-! ### A cascaded pair counts (R16) -/

theorem State.setUnit_setUnit (s : State) (u : Fin 4) (x y : IntervalUnit) :
    (s.setUnit u x).setUnit u y = s.setUnit u y := by
  simp only [State.setUnit, Vector.set_set]

theorem evenOf_oddOf {e : Fin 4} (even : isOdd e = false) : evenOf (oddOf e) = e := by
  revert e
  decide

section
variable {e : Fin 4}

theorem State.setUnit_self (s : State) (u : Fin 4) : s.setUnit u (s.unit u) = s := by
  simp [State.setUnit, State.unit]

/-- A unit owes nothing after its flag is cleared, where it was set. -/
theorem State.clearOwes_if_eq (s : State) (u : Fin 4) :
    (if (s.unit u).owes then s.clearOwes u else s) = s.setUnit u { s.unit u with owes := false } := by
  split
  · rfl
  · next paid =>
    have same : { s.unit u with owes := false } = s.unit u := by rw [← Bool.eq_false_iff.mpr paid]
    rw [same, State.setUnit_self]

/-- The pair of the even unit `e` counts an advance that it owes, under its odd number. -/
theorem State.countUnit_of_pair (even : isOdd e = false) (pair : s.cascaded e = true) (owes : (s.unit e).owes = true)
    (counted : s.countPair (oddOf e) = t) :
    s.countUnit (oddOf e) = t.setUnit (oddOf e) { t.unit (oddOf e) with owes := false } := by
  rw [State.countUnit_of_odd ((s.cascaded_oddOf e).trans pair) (isOdd_oddOf e), evenOf_oddOf even, if_pos owes, counted]
  exact t.clearOwes_if_eq (oddOf e)

theorem State.countPair_of_running (even : isOdd e = false) (running : (s.unit e).running = true) :
    s.countPair (oddOf e) =
      let y := (s.unit e).paid.phaseStep
      let o := s.unit (oddOf e)
      if y.2 then
        let n : Time := Time.ofHalves y.1.c o.c
        if n = 1 then
          ((s.setUnit e { y.1 with c := y.1.r, running := y.1.mode == .continuous }).setUnit (oddOf e)
            { o with c := o.r }).expire (oddOf e)
        else
          (s.setUnit e { y.1 with c := Time.lo (n - 1) }).setUnit (oddOf e) { o with c := Time.hi (n - 1) }
      else s.setUnit e y.1 := by
  have odd : ∀ v : Fin 4, oddOf (oddOf v) = oddOf v := by decide
  rw [State.countPair, evenOf_oddOf even, odd]
  exact if_pos running

/-- A decrement that does not reach 0. -/
theorem State.countUnit_of_pair_full (even : isOdd e = false) (pair : s.cascaded e = true)
    (owes : (s.unit e).owes = true) (running : (s.unit e).running = true)
    (full : 4 ^ (s.unit e).prescale.toNat ≤ (s.unit e).phase + 1) {n : Time}
    (count : Time.ofHalves (s.unit e).c (s.unit (oddOf e)).c = n) (more : n ≠ 1) :
    s.countUnit (oddOf e) =
      (s.setUnit e { s.unit e with c := (n - 1).lo, phase := 0, owes := false }).setUnit (oddOf e)
        { s.unit (oddOf e) with c := (n - 1).hi, owes := false } := by
  subst count
  have counted := State.countPair_of_running even running
  rw [IntervalUnit.phaseStep_of_full (x := (s.unit e).paid) full] at counted
  rw [State.countUnit_of_pair even pair owes (counted.trans (if_neg more)), State.setUnit_setUnit, State.unit_setUnit,
    if_pos rfl]
  rfl

/-- The decrement to 0 is an expiry of the odd unit. -/
theorem State.countUnit_of_pair_expiry (even : isOdd e = false) (pair : s.cascaded e = true)
    (owes : (s.unit e).owes = true) (running : (s.unit e).running = true)
    (full : 4 ^ (s.unit e).prescale.toNat ≤ (s.unit e).phase + 1)
    (last : Time.ofHalves (s.unit e).c (s.unit (oddOf e)).c = 1) :
    s.countUnit (oddOf e) =
      ((s.setUnit e
          { s.unit e with
            c := (s.unit e).r, phase := 0, running := (s.unit e).mode == .continuous, owes := false }).setUnit (oddOf e)
        { s.unit (oddOf e) with c := (s.unit (oddOf e)).r, owes := false }).expire (oddOf e) := by
  have counted := State.countPair_of_running even running
  rw [IntervalUnit.phaseStep_of_full (x := (s.unit e).paid) full] at counted
  have expired (v : State) (x : IntervalUnit) :
      ((v.setUnit (oddOf e) x).expire (oddOf e)).setUnit (oddOf e)
          { ((v.setUnit (oddOf e) x).expire (oddOf e)).unit (oddOf e) with owes := false } =
        (v.setUnit (oddOf e) { x with owes := false }).expire (oddOf e) := by
    have own : ((v.setUnit (oddOf e) x).expire (oddOf e)).unit (oddOf e) = x :=
      (v.unit_setUnit (oddOf e) (oddOf e) x).trans (if_pos rfl)
    rw [own]
    exact congrArg (State.expire (oddOf e)) (v.setUnit_setUnit (oddOf e) x { x with owes := false })
  rw [State.countUnit_of_pair even pair owes (counted.trans (if_pos last)), expired]
  rfl

end

/-- An expiry that no swap waits for, and whose launches are all discarded. -/
theorem State.deliver_expire_of_no_swap {u : Fin 4} (quiet : s.adv.expiry[u] = none) (noSwap : s.store.swap ≠ some u)
    (discards : ∀ q, Discards u s.store.active q s) :
    (s.expire u).deliver u =
      { s with
        ev := { s.ev with flags := s.ev.flags ||| placeBit true (11 + u.val) }
        adv := { s.adv with expired := s.adv.expired.set u true } } := by
  rw [State.deliver_expire_of_discards quiet (by rw [if_neg noSwap]; exact discards), if_neg noSwap, if_neg noSwap]
  exact congrArg
    (fun flags => { s with ev := { s.ev with flags := flags }, adv := { s.adv with expired := s.adv.expired.set u true } })
    BitVec.or_zero

/-- Settles O18: the pair is counted under its odd number only. -/
theorem cascadedPairCounts : Obligations.CascadedPairCounts := by
  intro s e ready even pair o x n quiet quietOdd
  refine ⟨exec_iuExpiry_of_quiet ready (State.countUnit_of_even pair even) quiet, fun owes running full more => ?_,
    fun owes running full last noSwap discards => ?_⟩
  · exact exec_iuExpiry_of_quiet ready (State.countUnit_of_pair_full even pair owes running full rfl more) quietOdd
  · rw [exec_iuExpiry_of_ready ready, State.countUnit_of_pair_expiry even pair owes running full last]
    exact congrArg _ (State.deliver_expire_of_no_swap
      (s := (s.setUnit e { x with c := x.r, phase := 0, running := x.mode == .continuous, owes := false }).setUnit o
        { s.unit o with c := (s.unit o).r, owes := false }) quietOdd noSwap discards)

/-! ### An expiry starts an armed programme (R60, R68, R71, R72) -/

section
variable {u : Fin 4} {q : Fin 8}

/-- An armed programme that the expiry triggers starts, and its slot stays armed unless it is single-arm. -/
theorem State.launchIf_of_start {g : Page} (active : s.store.active = g) (triggers : (s.descriptor g q).triggers u = true)
    (armed : (s.slot q).armed = true) (idle : (s.slot q).run = none) (valid : (s.descriptor g q).valid = true)
    (delay : (s.stepRecord g (s.descriptor g q).first).delay ≠ 0) : s.launchIf g u q = s.started .hardware q := by
  subst active
  have taken : LaunchSource.hardware.taken (s.slot q) := by rw [LaunchSource.taken, armed]; rfl
  have launched := (State.takeLaunch_of_idle taken idle).trans
    (State.startRun_of_delay valid delay .hardware (LaunchSource.hardware == .command) .started)
  rw [State.launchIf, if_pos triggers, State.launchNow_of_done launched]

theorem armedAfter_hardware (d : Descriptor) : armedAfter .hardware d true = !d.singleArm := by
  cases single : d.singleArm <;> simp [armedAfter, single]

theorem State.started_slot (src : LaunchSource) (q p : Fin 8) (s : State) :
    (s.started src q).slot p =
      if p = q then
        { s.slot q with
          run := some (s.firstRun q), bindId := (s.slot q).bindId + 1
          armed := armedAfter src (s.descriptor s.store.active q) (s.slot q).armed }
      else s.slot p :=
  State.slot_setSlot _ q p _

theorem State.started_pages (src : LaunchSource) (q : Fin 8) (s : State) (g : Page) :
    (s.started src q).store.page g = s.store.page g :=
  s.store.page_setBound _ _ _

theorem State.started_sched (src : LaunchSource) (q : Fin 8) (s : State) :
    (s.started src q).sched =
      { s.sched with
        pel := insertByTime s.tl
          (s.stepEntry q s.store.active (s.descriptor s.store.active q).first s.tl) s.sched.pel } := rfl

theorem FlagsSetWithin.expiredAt (u : Fin 4) (s : State) :
    FlagsSetWithin (placeBit true (11 + u.val) ||| 0x0200) s (s.expiredAt u) := by
  have listed : (placeBit true (11 + u.val) ||| 0x0200 : Word).getLsbD (EventClass.iu u).code = true ∧
      (placeBit true (11 + u.val) ||| 0x0200 : Word).getLsbD EventClass.swap.code = true := by
    revert u
    decide
  have expired : FlagsSetWithin (placeBit true (11 + u.val) ||| 0x0200) s (s.expire u) :=
    (request s listed.1).trans (of_ev rfl)
  rw [State.expiredAt, State.swapAt]
  split
  · have swapped : FlagsSetWithin (placeBit true (11 + u.val) ||| 0x0200) (s.expire u)
        { s.expire u with store := { (s.expire u).store with active := (s.expire u).store.active.other, swap := none } } :=
      of_ev rfl
    exact (expired.trans swapped).trans (request _ listed.2)
  · exact expired

/-- The delivery of an expiry that starts one programme. -/
theorem State.deliver_expire_of_start {g : Page} (active : (s.expiredAt u).store.active = g)
    (triggers : (s.descriptor g q).triggers u = true) (armed : (s.slot q).armed = true)
    (idle : (s.slot q).run = none) (valid : (s.descriptor g q).valid = true)
    (delay : (s.stepRecord g (s.descriptor g q).first).delay ≠ 0) (others : ∀ p, p ≠ q → Discards u g p s) :
    (s.expire u).deliver u = ((s.expiredAt u).started .hardware q).setExpiry u none := by
  have pages := s.expiredAt_pages u
  have descriptor := State.descriptor_of_pages pages
  have record := State.stepRecord_of_pages pages
  have slot (p : Fin 8) : (s.expiredAt u).slot p = s.slot p := by rw [State.slot, s.expiredAt_slots u, State.slot]
  have discards (p : Fin 8) (other : p ≠ q) : Discards u g p (s.expiredAt u) := (others p other).expiredAt
  rw [State.deliver_expire, active]
  refine State.turns_of_start (List.mem_finRange q) (List.nodup_finRange 8) discards (fun p other => ?_) fun x => ?_
  · refine (discards p other).of_slots (State.started_pages _ _ _) ?_
    rw [State.started_slot, if_neg other]
  · refine (State.launchIf_of_start (s := (s.expiredAt u).setExpiry u x) active ?_ ?_ ?_ ?_ ?_).trans rfl
    · exact (congrArg (Descriptor.triggers · u) (descriptor g q)).trans triggers
    · exact (congrArg Slot.armed (slot q)).trans armed
    · exact (congrArg Slot.run (slot q)).trans idle
    · exact (congrArg Descriptor.valid (descriptor g q)).trans valid
    · change ((s.expiredAt u).stepRecord g ((s.expiredAt u).descriptor g q).first).delay ≠ 0
      rw [descriptor, record]
      exact delay

end

/-- Settles O19: the launch of the one armed programme starts a run (`State.deliver_expire_of_start`). -/
theorem unitExpiryLaunches : Obligations.UnitExpiryLaunches := by
  intro s u q ready single quiet x page d step owes running full last triggers armed idle valid delay others
  have counted : s.countUnit u = (s.setUnit u
      { x with c := x.r, phase := 0, running := x.mode == .continuous, owes := false }).expire u :=
    ((State.countUnit_of_single single).trans (if_pos owes)).trans (State.countSingle_of_expiry running full last)
  obtain ⟨v, unit⟩ : ∃ v, v = s.setUnit u
      { x with c := x.r, phase := 0, running := x.mode == .continuous, owes := false } := ⟨_, rfl⟩
  rw [← unit] at counted
  have pages (g : Page) : v.store.page g = s.store.page g := by rw [unit]; rfl
  have slot (p : Fin 8) : v.slot p = s.slot p := by rw [unit]; rfl
  have descriptor := State.descriptor_of_pages pages
  have record := State.stepRecord_of_pages pages
  have active : (v.expiredAt u).store.active = page := by rw [v.expiredAt_active u, unit]; rfl
  have delivered : (v.expire u).deliver u = ((v.expiredAt u).started .hardware q).setExpiry u none := by
    refine State.deliver_expire_of_start active ?_ ?_ ?_ ?_ ?_ fun p other => ?_
    · rw [descriptor]; exact triggers
    · rw [slot]; exact armed
    · rw [slot]; exact idle
    · rw [descriptor]; exact valid
    · rw [descriptor, record]; exact delay
    · exact Discards.of_slots (others p other) pages (slot p)
  refine ⟨_, (exec_iuExpiry_of_ready ready u).trans
    (congrArg _ ((congrArg (State.deliver u) counted).trans delivered)), ?_⟩
  have within : FlagsSetWithin (placeBit true (11 + u.val) ||| 0x0200) v (v.expiredAt u) := .expiredAt u v
  have bound (g : Page) : (v.expiredAt u).store.bound g = s.store.bound g := by
    rw [v.expiredAt_bound u, unit]
    rfl
  have readDescriptor : (v.expiredAt u).descriptor page q = d :=
    (State.descriptor_of_pages (v.expiredAt_pages u) page q).trans (descriptor page q)
  have readRecord : (v.expiredAt u).stepRecord page d.first = step :=
    (State.stepRecord_of_pages (v.expiredAt_pages u) page d.first).trans (record page d.first)
  have frame : v.expiredAt u =
      { s with iu := v.iu, store := (v.expiredAt u).store, ev := (v.expiredAt u).ev, adv := (v.expiredAt u).adv } := by
    rw [v.expiredAt_frame u, unit]
    rfl
  have iu : v.iu = (s.setUnit u { x with c := x.r, phase := 0, running := x.mode == .continuous, owes := false }).iu := by
    rw [unit]
  have ev : v.ev = s.ev := by
    rw [unit]
    rfl
  generalize v.expiredAt u = w at within bound readDescriptor readRecord frame active ⊢
  have slots (p : Fin 8) : w.slot p = s.slot p := by
    rw [frame]
    rfl
  have first : w.firstRun q =
      { page := page, step := d.first, passes := d.repeats, launchTime := s.tl, applied := 0, launchPending := false } := by
    rw [State.firstRun, active, readDescriptor, frame]
    rfl
  have entry : w.stepEntry q page d.first s.tl =
      { due := s.tl + step.delay.setWidth 32, origin := .run q d.first, kind := step.kind, operand := step.operand,
        mark := step.mark } := by
    rw [State.stepEntry, readRecord]
  have tl : w.tl = s.tl := by
    rw [frame]
    rfl
  have sched : w.sched = s.sched := by rw [frame]
  have started := w.started_sched .hardware q
  rw [active, readDescriptor, tl, entry, sched] at started
  refine ⟨?active, ?bound, ?otherBound, ?own, fun p other => ?others, ?sched, ?iu, ?frame, ?flags⟩
  case active => exact (Store.setBound_active _ _ _).trans active
  case bound =>
    refine (Store.bound_setBound _ _ _ _).trans ((if_pos active.symm).trans ?_)
    rw [active, bound]
  case otherBound =>
    refine (Store.bound_setBound _ _ _ _).trans ((if_neg ?_).trans (bound _))
    rw [active]
    exact Page.other_ne page
  case own =>
    refine (State.started_slot .hardware q q w).trans ((if_pos rfl).trans ?_)
    rw [first, active, readDescriptor, slots, armed, armedAfter_hardware]
  case others => exact (State.started_slot .hardware q p w).trans ((if_neg other).trans (slots p))
  case sched => exact started
  case iu => exact (congrArg State.iu frame).trans iu
  case frame =>
    rewrite [frame]
    rfl
  case flags =>
    have same : FlagsSetWithin (placeBit true (11 + u.val) ||| 0x0200) s v := .of_ev ev
    exact (same.trans within).trans (.of_ev rfl)

end Sys2Proof.Machine
end
